-- ==== Sys2Proof/Word.lean ====
section
/-! DEFINITION. The word types of the BFX block (00_scope.md R13, R15). -/

namespace Sys2Proof

/-- A word: 32 bits (R13). -/
abbrev Word := BitVec 32

/-- A byte: 8 bits (R13). -/
abbrev Byte := BitVec 8

/-- A register number, 0..15 (30_encoding.md R100). -/
abbrev RegNum := BitVec 4

/-- `NOCH` (R14): no channel. -/
abbrev noch : Word := 0xFFFFFFFF#32

/-- The 32-bit unsigned word of a natural number, taken modulo 2^32 (R14). -/
abbrev word (n : Nat) : Word := BitVec.ofNat 32 n

end Sys2Proof
end

