-- ==== Sys2Proof/Syntax.lean ====
section
/-! DEFINITION. The instructions: one constructor per row of spec/opcode_table.json
(30_encoding.md R103, operands as in the assembly forms of R126). -/

namespace Sys2Proof

/-- The commands of the block, and the table's one packet-pattern row. -/
inductive Instr where
  /-- `NOP` (R330). -/
  | nop
  /-- `LI rd, imm16` (R331). -/
  | li (rd : RegNum) (imm : BitVec 16)
  /-- `LUI rd, imm16` (R332). -/
  | lui (rd : RegNum) (imm : BitVec 16)
  /-- `MFSR rd, sr` (R333). -/
  | mfsr (rd : RegNum) (sr : BitVec 16)
  /-- `MTSR sr, rs1` (R334). -/
  | mtsr (sr : BitVec 16) (rs1 : RegNum)
  /-- `TRD rd, rs1, space` (R336). -/
  | trd (rd rs1 : RegNum) (space : BitVec 16)
  /-- `TWR rv, rs1, space` (R337); `rv` is the data register, in the `rd` field. -/
  | twr (rv rs1 : RegNum) (space : BitVec 16)
  /-- `INIT` (R338). -/
  | init
  /-- `HALT` (R339). -/
  | halt
  /-- `RDFLD rd, fid` (R148). -/
  | rdfld (rd : RegNum) (fid : BitVec 16)
  /-- `BUILD rs1, rs2` (R183). -/
  | build (rs1 rs2 : RegNum)
  /-- `APPLY rd, rs1, rs2` (R191). -/
  | apply (rd rs1 rs2 : RegNum)
  /-- `ENTER rd, rs1, rs2` (R220). -/
  | enter (rd rs1 rs2 : RegNum)
  /-- `EXIT rs1` (R221). -/
  | exit (rs1 : RegNum)
  /-- `CHFOR rd, rs1, mode` (R222); legal modes are 0, 1, 2 (R104). -/
  | chfor (rd rs1 : RegNum) (mode : BitVec 16)
  /-- `FEED imm8` (R300). -/
  | feed (b : Byte)
  /-- `FEEDR rs1` (R301). -/
  | feedr (rs1 : RegNum)
  /-- `NEXTPKT rd` (R304). -/
  | nextpkt (rd : RegNum)
  /-- `DECODE rd` (R240). -/
  | decode (rd : RegNum)
  /-- `PUMP rd` (R276). -/
  | pump (rd : RegNum)
  /-- `PKT.P45.ENTER` (R123): the packet byte `0xC0 + low`, the source's enter pattern. It is no
  command word; the table's contract says it is never decoded as a command (log 5). -/
  | pktP45Enter (low : BitVec 2)
  deriving DecidableEq, Repr

end Sys2Proof
end

