-- ==== Sys2Proof/WellFormed.lean ====
section
/-! DEFINITION. Which instruction terms stand for a legal encoding (30_encoding.md R104). The operand
types already hold R104 (ii) and (iii); clause (iv), the mode of `CHFOR`, is the one check. -/

namespace Sys2Proof

/-- R104 (iv): a `CHFOR` mode is 0, 1 or 2. -/
def chforModeOk (mode : BitVec 16) : Bool := decide (mode.toNat ≤ 2)

/-- The instruction has an encoding. -/
def Instr.wellFormed : Instr → Bool
  | .chfor _ _ mode => chforModeOk mode
  | .nop | .li _ _ | .lui _ _ | .mfsr _ _ | .mtsr _ _ | .trd _ _ _ | .twr _ _ _ | .init | .halt
  | .rdfld _ _ | .build _ _ | .apply _ _ _ | .enter _ _ _ | .exit _ | .feed _ | .feedr _
  | .nextpkt _ | .decode _ | .pump _ | .pktP45Enter _ => true

end Sys2Proof
end

