-- ==== Sys2Proof/Decode.lean ====
section
/-! DEFINITION. The decoder, total on every command word and rejecting by name, and the encoder
(30_encoding.md R100, R103, R104). -/

namespace Sys2Proof

/-- Why a command word is an illegal encoding (R104). -/
inductive IllegalWord where
  /-- The opcode is none of R103's table. -/
  | unassignedOpcode (op : BitVec 8)
  /-- A must-be-zero bit or an unused operand field of this opcode is not 0. -/
  | mustBeZero (op : BitVec 8)
  /-- `CHFOR` with a mode above 2. -/
  | chforMode (mode : BitVec 16)
  deriving DecidableEq, Repr

/-- `op`, bits 31:24 (R100). -/
def opField (w : Word) : BitVec 8 := w.extractLsb' 24 8
/-- `rd`, bits 23:20. -/
def rdField (w : Word) : RegNum := w.extractLsb' 20 4
/-- `rs1`, bits 19:16. -/
def rs1Field (w : Word) : RegNum := w.extractLsb' 16 4
/-- `rs2`, bits 15:12. -/
def rs2Field (w : Word) : RegNum := w.extractLsb' 12 4
/-- `imm16`, bits 15:0. -/
def imm16Field (w : Word) : BitVec 16 := w.extractLsb' 0 16
/-- `imm8`, bits 7:0. -/
def imm8Field (w : Word) : Byte := w.extractLsb' 0 8

/-- `i` when the must-be-zero bits are zero, else the rejection (R104 (ii), (iii)). -/
def whenZero (w : Word) (zero : Bool) (i : Instr) : Except IllegalWord Instr :=
  if zero then .ok i else .error (.mustBeZero (opField w))

/-- The instruction of a command word, or why it is an illegal encoding (R103, R104). -/
def decode (w : Word) : Except IllegalWord Instr :=
  let rd := rdField w
  let rs1 := rs1Field w
  let rs2 := rs2Field w
  let imm := imm16Field w
  match (opField w).toNat with
  | 0x00 => whenZero w (w.extractLsb' 0 24 == 0) .nop
  | 0x01 => whenZero w (rs1 == 0) (.li rd imm)
  | 0x02 => whenZero w (rs1 == 0) (.lui rd imm)
  | 0x03 => whenZero w (rs1 == 0) (.mfsr rd imm)
  | 0x04 => whenZero w (rd == 0) (.mtsr imm rs1)
  | 0x05 => .ok (.trd rd rs1 imm)
  | 0x06 => .ok (.twr rd rs1 imm)
  | 0x07 => whenZero w (w.extractLsb' 0 24 == 0) .init
  | 0x08 => whenZero w (w.extractLsb' 0 24 == 0) .halt
  | 0x10 => whenZero w (rs1 == 0) (.rdfld rd imm)
  | 0x20 => whenZero w (rd == 0 && w.extractLsb' 0 12 == 0) (.build rs1 rs2)
  | 0x21 => whenZero w (w.extractLsb' 0 12 == 0) (.apply rd rs1 rs2)
  | 0x30 => whenZero w (w.extractLsb' 0 12 == 0) (.enter rd rs1 rs2)
  | 0x31 => whenZero w (rd == 0 && w.extractLsb' 0 16 == 0) (.exit rs1)
  | 0x32 => if chforModeOk imm then .ok (.chfor rd rs1 imm) else .error (.chforMode imm)
  | 0x40 => whenZero w (w.extractLsb' 8 16 == 0) (.feed (imm8Field w))
  | 0x41 => whenZero w (rd == 0 && w.extractLsb' 0 16 == 0) (.feedr rs1)
  | 0x42 => whenZero w (w.extractLsb' 0 20 == 0) (.nextpkt rd)
  | 0x43 => whenZero w (w.extractLsb' 0 20 == 0) (.decode rd)
  | 0x44 => whenZero w (w.extractLsb' 0 20 == 0) (.pump rd)
  | _ => .error (.unassignedOpcode (opField w))

/-- The pattern of R123 on one packet byte: `(b & 0xFC) == 0xC0`. -/
def decodePacketByte (b : Byte) : Option Instr :=
  if b.extractLsb' 2 6 == 0x30#6 then some (.pktP45Enter (b.extractLsb' 0 2)) else none

/-- Format N: the opcode alone (R100). -/
def formatN (op : BitVec 8) : Word := op ++ 0#24
/-- Format R3. -/
def formatR3 (op : BitVec 8) (rd rs1 rs2 : RegNum) : Word := op ++ rd ++ rs1 ++ rs2 ++ 0#12
/-- Format RI. -/
def formatRI (op : BitVec 8) (rd rs1 : RegNum) (imm : BitVec 16) : Word := op ++ rd ++ rs1 ++ imm
/-- Format B. -/
def formatB (op imm : BitVec 8) : Word := op ++ 0#16 ++ imm

/-- The command word of an instruction (R100, R103); of the packet-pattern row, its byte. -/
def encode : Instr → Word
  | .nop => formatN 0x00
  | .li rd imm => formatRI 0x01 rd 0 imm
  | .lui rd imm => formatRI 0x02 rd 0 imm
  | .mfsr rd sr => formatRI 0x03 rd 0 sr
  | .mtsr sr rs1 => formatRI 0x04 0 rs1 sr
  | .trd rd rs1 space => formatRI 0x05 rd rs1 space
  | .twr rv rs1 space => formatRI 0x06 rv rs1 space
  | .init => formatN 0x07
  | .halt => formatN 0x08
  | .rdfld rd fid => formatRI 0x10 rd 0 fid
  | .build rs1 rs2 => formatR3 0x20 0 rs1 rs2
  | .apply rd rs1 rs2 => formatR3 0x21 rd rs1 rs2
  | .enter rd rs1 rs2 => formatR3 0x30 rd rs1 rs2
  | .exit rs1 => formatR3 0x31 0 rs1 0
  | .chfor rd rs1 mode => formatRI 0x32 rd rs1 mode
  | .feed b => formatB 0x40 b
  | .feedr rs1 => formatR3 0x41 0 rs1 0
  | .nextpkt rd => formatR3 0x42 rd 0 0
  | .decode rd => formatR3 0x43 rd 0 0
  | .pump rd => formatR3 0x44 rd 0 0
  | .pktP45Enter low => 0#24 ++ 0x30#6 ++ low

/-- How many bits the instruction's table row has: 32 for a command, 8 for the packet byte. -/
def Instr.nbits : Instr → Nat
  | .pktP45Enter _ => 8
  | .nop | .li _ _ | .lui _ _ | .mfsr _ _ | .mtsr _ _ | .trd _ _ _ | .twr _ _ _ | .init | .halt
  | .rdfld _ _ | .build _ _ | .apply _ _ _ | .enter _ _ _ | .exit _ | .chfor _ _ _ | .feed _
  | .feedr _ | .nextpkt _ | .decode _ | .pump _ => 32

/-- The instruction of a table row's bits. A row of one byte is the packet pattern; every other
row is a command word, which the host issues whole as one 32-bit number, so it has no byte order
(20_memory.md R72). -/
def decodeTableWord (nbits w : Nat) : Option Instr :=
  if nbits = 8 then decodePacketByte (BitVec.ofNat 8 w)
  else (decode (BitVec.ofNat 32 w)).toOption

end Sys2Proof
end

