-- ==== Sys2Proof/Config.lean ====
section
/-! DEFINITION. The implementation parameters of the block (00_scope.md R11). -/

namespace Sys2Proof

/-- The parameter record of R11. A machine's record never changes; `State` carries it, so that a
statement about every state is a statement about every choice of parameters (log 2). -/
structure Params where
  /-- `N` (`CURVE_RES`): the LUT has `N + 1` entries. -/
  curveRes : Nat
  /-- `NCH_MAX`: number of channel-table entries. -/
  nchMax : Nat
  /-- `PKT_MAX`: largest packet length in bytes. -/
  pktMax : Nat
  /-- `RING_SIZE`: capacity of the ring FIFO in bytes. -/
  ringSize : Nat
  /-- `FDT_SIZE`: number of field descriptors. -/
  fdtSize : Nat
  /-- `CLS_SIZE`: number of classification rules. -/
  clsSize : Nat
  /-- `TID_SIZE`: number of tool-ID map entries. -/
  tidSize : Nat
  /-- `FLAT_TOL`: flatness tolerance of curve subdivision, in normalized units. -/
  flatTol : Rat
  /-- `DEPTH_MAX`: recursion cap of curve subdivision. -/
  depthMax : Nat
  deriving DecidableEq, Repr

/-- The constraints column of R11. -/
structure Params.Wf (p : Params) : Prop where
  curveRes_pos : 1 ≤ p.curveRes
  nchMax_pos : 1 ≤ p.nchMax
  nchMax_le : p.nchMax ≤ 64
  pktMax_pos : 1 ≤ p.pktMax
  pktMax_le : p.pktMax ≤ 255
  pktMax_le_ringSize : p.pktMax ≤ p.ringSize
  fdtSize_pos : 1 ≤ p.fdtSize
  fdtSize_le : p.fdtSize ≤ 255
  clsSize_pos : 1 ≤ p.clsSize
  clsSize_le : p.clsSize ≤ 256
  tidSize_pos : 1 ≤ p.tidSize
  flatTol_pos : 0 < p.flatTol

/-- The default column of R11. -/
def Params.default : Params where
  curveRes := 2048
  nchMax := 17
  pktMax := 32
  ringSize := 64
  fdtSize := 64
  clsSize := 16
  tidSize := 32
  flatTol := { num := 1, den := 100 }
  depthMax := 16

end Sys2Proof
end

