-- ==== Sys2Proof/Machine/State.lean ====
section
/-! DEFINITION. The state of the block as plain data (10_state.md R20), and its value after hardware
reset (10_state.md R60). -/

namespace Sys2Proof.Machine

/-- No step of this machine ends in a fault of the model: the block's own fault is a state it enters
(60_exceptions.md R364), and 93_implementation_defined.md says that it "has no behaviour that is stuck".
A closed inductive with no constructor: nothing raises it, which is safe. -/
inductive Fault where
  deriving DecidableEq, Repr

/-- Why an instruction has no meaning in the model. -/
inductive Refusal where
  /-- Raised by an arm of `exec` alone, for an instruction that has no meaning in the model yet; safe.
  No arm does: every instruction has its meaning. -/
  | notModelled (mnemonic : String)
  deriving DecidableEq, Repr

/-- `FCAUSE`: the eight codes of 60_exceptions.md R363 (93_implementation_defined.md U11). -/
inductive FCause where
  /-- 0: no fault has been raised. -/
  | none
  /-- 1: a fragment's byte index is at or past `PKTLEN`. -/
  | fieldRange
  /-- 2: no such descriptor, or an invalid one. -/
  | fieldInvalid
  /-- 3: a classification condition reads at or past `PKTLEN`. -/
  | clsRange
  /-- 4: kind not legal for the shape of `PROTO`, or `CHMODE` = 3. -/
  | badKind
  /-- 5: a required slot is absent. -/
  | layoutMissing
  /-- 6: `FIXEDCH` >= `NCH`. -/
  | badChannel
  /-- 7: a curve is built and the pressure range is not positive. -/
  | curveRange
  deriving DecidableEq, Repr

/-- `PROTO`: the six protocol tags (10_state.md R35, 30_encoding.md R116). Values 6 and 7 can never be
held (93_implementation_defined.md U5). -/
inductive Proto where
  | penPartner | graphire | proto4 | proto5 | pl | isdv4
  deriving DecidableEq, Repr

/-- The tool types of 30_encoding.md R117. Codes 10..15 are reserved and never held. -/
inductive ToolType where
  | none | pen | pencil | brush | airbrush | eraser | mouse | lens | finger | pad
  deriving DecidableEq, Repr

/-- The flags of `STATUS` (10_state.md R23). `pktValid` is bit 8, `run` bit 11. -/
structure Status where
  fault : Bool := false
  resync : Bool := false
  errFraming : Bool := false
  errUnkPkt : Bool := false
  errUnkTool : Bool := false
  errChExh : Bool := false
  errOverrun : Bool := false
  errCmd : Bool := false
  pktValid : Bool := false
  curveValid : Bool := false
  touchCap : Bool := false
  run : Bool := false
  deriving DecidableEq, Repr

/-- A table memory of 32-bit words (20_memory.md R70, R71): the words that are not 0, by strictly
rising index. An unlisted index reads 0, the reset contents (10_state.md R45 to R49). -/
abbrev Memory := List (Nat × Word)

/-- One entry of the channel table (10_state.md R50); its defaults are the empty entry. -/
structure Channel where
  serial : Word := 0
  toolType : ToolType := .none
  inProx : Bool := false
  toolId : Word := 0
  btn : Word := 0
  stamp : Word := 0
  axis : Vector Word 10 := Vector.replicate 10 0
  deriving DecidableEq, Repr

/-- The empty entry of R50. -/
def Channel.empty : Channel := {}

/-- An event (30_encoding.md R121). Axis and wheel values are two's-complement words. -/
inductive Event where
  /-- `PROX`. -/
  | prox (ch : Nat) (type : ToolType) (inProx : Bool) (serial : Word)
  /-- `MOTION`: a partial map from the axes 0..7. -/
  | motion (ch : Nat) (values : Vector (Option Word) 8)
  /-- `BUTTON`. -/
  | button (ch : Nat) (index : Fin 32) (pressed : Bool)
  /-- `WHEEL`: `absolute` or delta. -/
  | wheel (ch : Nat) (absolute : Bool) (value : Word)
  deriving DecidableEq, Repr

/-- What the host does next (00_scope.md R9): issue a command word, or assert hardware reset. The
words a reset leaves in `x[0..15]` are unspecified; 93_implementation_defined.md U1 lets a model take
them as an input, so the reset input carries them and a claim holds for every choice (log 1). -/
inductive HostInput where
  | command (w : Word)
  | reset (x : Vector Word 16)
  deriving DecidableEq, Repr

/-- The complete state of one block (R20). -/
structure State where
  /-- The parameters of R11; the model's own field (log 2). -/
  params : Params
  /-- The host inputs to come, first one first; the model's own field (log 3). -/
  input : List HostInput
  /-- Operand registers (R21). -/
  x : Vector Word 16
  /-- `STATUS` (R23). -/
  status : Status
  /-- `FCAUSE` (R33). -/
  fcause : FCause
  /-- `FINFO` (R34). -/
  finfo : Word
  /-- `PROTO` (R35). -/
  proto : Proto
  /-- `PLEN` (R36). -/
  plen : BitVec 8
  /-- `NCH` (R37). -/
  nch : BitVec 7
  /-- `CAPS` (R38). -/
  caps : BitVec 4
  /-- `HDRMASK` (R39). -/
  hdrmask : Byte
  /-- `TSELMAP` (R40). -/
  tselmap : Word
  /-- `LSEL0`..`LSEL3` (R41). -/
  lsel : Vector Word 4
  /-- `XMAX` (R42). -/
  xmax : Word
  /-- `YMAX` (R42). -/
  ymax : Word
  /-- `PMAX` (R42). -/
  pmax : Word
  /-- `TXMAX` (R42). -/
  txmax : Word
  /-- `TYMAX` (R42). -/
  tymax : Word
  /-- `DMAX` (R42). -/
  dmax : Word
  /-- `VERSION` (R42). -/
  version : Word
  /-- `PKTCNT` (R43). -/
  pktcnt : Word
  /-- `EVCNT` (R43). -/
  evcnt : Word
  /-- `LASTCH` (R43). -/
  lastch : Word
  /-- FDT (R45). -/
  fdt : Memory
  /-- CLS (R46). -/
  cls : Memory
  /-- LAY (R47). -/
  lay : Memory
  /-- TID (R48). -/
  tid : Memory
  /-- LUT (R49). -/
  lut : Memory
  /-- CHT (R50), `NCH_MAX` entries. -/
  cht : List Channel
  /-- The ring FIFO (R53), oldest byte first; `RINGFILL` is its length. -/
  ring : List Byte
  /-- PKT (R54); `PKTLEN` is its length. -/
  pkt : List Byte
  /-- EVOUT (R58), first event first. -/
  evout : List Event
  deriving DecidableEq, Repr

/-- Every piece of state after hardware reset (R60, middle column), for parameters `p` and the
unspecified contents `x` of the operand registers. -/
def State.afterReset (p : Params) (x : Vector Word 16) : State where
  params := p
  input := []
  x := x
  status := {}
  fcause := .none
  finfo := 0
  proto := .penPartner
  plen := 0
  nch := 1
  caps := 0
  hdrmask := 0
  tselmap := 0x11111151
  lsel := Vector.replicate 4 0
  xmax := 0
  ymax := 0
  pmax := 0
  txmax := 0
  tymax := 0
  dmax := 0
  version := 0
  pktcnt := 0
  evcnt := 0
  lastch := noch
  fdt := []
  cls := []
  lay := []
  tid := []
  lut := []
  cht := List.replicate p.nchMax Channel.empty
  ring := []
  pkt := []
  evout := []

/-- The machine right after reset: the defaults of R11 (log 2), operand registers 0 (DESIGN CHOICE,
log 1), no host input yet (log 3). -/
def State.reset : State := State.afterReset Params.default (Vector.replicate 16 0)

end Sys2Proof.Machine
end

