-- ==== Sys2Proof/Machine/Flags.lean ====
section
/-! DEFINITION. `STATUS` as a word, its sticky flags, and the level outputs (10_state.md R23, R24, R32;
60_exceptions.md R370). -/

namespace Sys2Proof.Machine

/-- `STATUS` as `MFSR` reads it (R23, R32): bits 11..0 in the table's order, bits 31:12 are 0. -/
def Status.toWord (f : Status) : Word :=
  0#20 ++ BitVec.ofBool f.run ++ BitVec.ofBool f.touchCap ++ BitVec.ofBool f.curveValid
    ++ BitVec.ofBool f.pktValid ++ BitVec.ofBool f.errCmd ++ BitVec.ofBool f.errOverrun
    ++ BitVec.ofBool f.errChExh ++ BitVec.ofBool f.errUnkTool ++ BitVec.ofBool f.errUnkPkt
    ++ BitVec.ofBool f.errFraming ++ BitVec.ofBool f.resync ++ BitVec.ofBool f.fault

/-- `MTSR STATUS` with value `v` (R32): clears exactly the sticky bits 1..7 that are 1 in `v`. -/
def Status.clearSticky (f : Status) (v : Word) : Status :=
  { f with
    resync := f.resync && !v.getLsbD 1
    errFraming := f.errFraming && !v.getLsbD 2
    errUnkPkt := f.errUnkPkt && !v.getLsbD 3
    errUnkTool := f.errUnkTool && !v.getLsbD 4
    errChExh := f.errChExh && !v.getLsbD 5
    errOverrun := f.errOverrun && !v.getLsbD 6
    errCmd := f.errCmd && !v.getLsbD 7 }

/-- What `INIT` makes of the flags (45_system_ops.md R338): sticky flags, `PKTVALID` and `TOUCHCAP` 0, `RUN` 1;
`FAULT` and `CURVEVALID` kept. -/
def Status.afterInit (f : Status) : Status :=
  { fault := f.fault, curveValid := f.curveValid, run := true }

/-- The fault line (R370): `STATUS.FAULT`. -/
def State.faultLine (s : State) : Bool := s.status.fault

/-- The attention line (R370): the OR of `STATUS` bits 1 to 7. -/
def State.attentionLine (s : State) : Bool :=
  s.status.resync || s.status.errFraming || s.status.errUnkPkt || s.status.errUnkTool
    || s.status.errChExh || s.status.errOverrun || s.status.errCmd

/-- `set(STATUS.RESYNC)`. -/
def State.setResync (s : State) : State := { s with status := { s.status with resync := true } }
/-- `set(STATUS.ERR_FRAMING)`. -/
def State.setErrFraming (s : State) : State :=
  { s with status := { s.status with errFraming := true } }
/-- `set(STATUS.ERR_UNKPKT)`. -/
def State.setErrUnkPkt (s : State) : State :=
  { s with status := { s.status with errUnkPkt := true } }
/-- `set(STATUS.ERR_UNKTOOL)`. -/
def State.setErrUnkTool (s : State) : State :=
  { s with status := { s.status with errUnkTool := true } }
/-- `set(STATUS.ERR_CHEXH)`. -/
def State.setErrChExh (s : State) : State := { s with status := { s.status with errChExh := true } }
/-- `set(STATUS.ERR_OVERRUN)`. -/
def State.setErrOverrun (s : State) : State :=
  { s with status := { s.status with errOverrun := true } }
/-- `set(STATUS.ERR_CMD)`. -/
def State.setErrCmd (s : State) : State := { s with status := { s.status with errCmd := true } }

end Sys2Proof.Machine
end

