-- ==== Sys2Proof/Machine/Operands.lean ====
section
/-! DEFINITION. Codes and bit fields of registers, table words and packets (30_encoding.md R106, R110 to
R120), and the register numbers and space ids that operands name (10_state.md R30, 20_memory.md R70). -/

namespace Sys2Proof.Machine

/-! ### Enumerations -/

/-- The code of a fault cause (60_exceptions.md R363). -/
def FCause.code : FCause → Word
  | .none => 0 | .fieldRange => 1 | .fieldInvalid => 2 | .clsRange => 3 | .badKind => 4
  | .layoutMissing => 5 | .badChannel => 6 | .curveRange => 7

/-- The code of a protocol tag (R116). -/
def Proto.code : Proto → Word
  | .penPartner => 0 | .graphire => 1 | .proto4 => 2 | .proto5 => 3 | .pl => 4 | .isdv4 => 5

/-- The protocol tag of a code; none for 6 and above (R35). -/
def Proto.ofCode (v : Word) : Option Proto :=
  match v.toNat with
  | 0 => some .penPartner | 1 => some .graphire | 2 => some .proto4 | 3 => some .proto5
  | 4 => some .pl | 5 => some .isdv4 | _ => none

/-- The shape of a protocol tag (R116). -/
inductive Shape where
  | flag | subtype | isdv4
  deriving DecidableEq, Repr

/-- The shape column of R116. -/
def Proto.shape : Proto → Shape
  | .penPartner | .graphire | .pl => .flag
  | .proto4 | .proto5 => .subtype
  | .isdv4 => .isdv4

/-- The code of a tool type (R117). -/
def ToolType.code : ToolType → BitVec 4
  | .none => 0 | .pen => 1 | .pencil => 2 | .brush => 3 | .airbrush => 4
  | .eraser => 5 | .mouse => 6 | .lens => 7 | .finger => 8 | .pad => 9

/-- The tool of a map entry's code; none for 0 and for the reserved codes (R117). -/
def ToolType.ofCode (v : BitVec 4) : Option ToolType :=
  match v.toNat with
  | 1 => some .pen | 2 => some .pencil | 3 => some .brush | 4 => some .airbrush
  | 5 => some .eraser | 6 => some .mouse | 7 => some .lens | 8 => some .finger
  | 9 => some .pad | _ => Option.none

/-- Packet kinds (R118). -/
inductive Kind where
  | ignore | flagprox | enter | exit | general | pad | qreply | tqreply
  deriving DecidableEq, Repr

/-- The kind of a code; none for the reserved codes 8..15. -/
def Kind.ofCode (v : BitVec 4) : Option Kind :=
  match v.toNat with
  | 0 => some .ignore | 1 => some .flagprox | 2 => some .enter | 3 => some .exit
  | 4 => some .general | 5 => some .pad | 6 => some .qreply | 7 => some .tqreply | _ => none

/-- The shapes in which a kind is legal (R118). -/
def Kind.legal : Kind → Shape → Bool
  | .ignore, _ => true
  | .flagprox, .flag | .flagprox, .isdv4 => true
  | .enter, .subtype | .exit, .subtype | .general, .subtype | .pad, .subtype => true
  | .qreply, .isdv4 | .tqreply, .isdv4 => true
  | _, _ => false

/-- Channel selection modes (R119). -/
inductive ChMode where
  | arb | tag | fixed
  deriving DecidableEq, Repr

/-- The mode of a code; none for the reserved code 3. -/
def ChMode.ofCode (v : BitVec 2) : Option ChMode :=
  match v.toNat with
  | 0 => some .arb | 1 => some .tag | 2 => some .fixed | _ => none

/-- The slots of a layout (R113); slot 23 is reserved and never read, so it has no name here. -/
inductive Slot where
  | prox | toolsel | tag | toolid | serial | buttons
  | axis (a : Fin 10)
  | qxmax | qymax | qpmax | qtxmax | qtymax | qdmax | qversion
  deriving DecidableEq, Repr

/-- The slot number (R113). -/
def Slot.num : Slot → Nat
  | .prox => 0 | .toolsel => 1 | .tag => 2 | .toolid => 3 | .serial => 4 | .buttons => 5
  | .axis a => 6 + a.val
  | .qxmax => 16 | .qymax => 17 | .qpmax => 18 | .qtxmax => 19 | .qtymax => 20 | .qdmax => 21
  | .qversion => 22

/-- The ten axis slots in ascending order (R120). -/
def axisSlots : List Slot := (List.finRange 10).map .axis

/-! ### Fields of table words -/

/-- `VALID`, bit 31 of a descriptor header, a rule, a map entry, an `LSEL` (R110, R112, R114, R41). -/
def validBit (w : Word) : Bool := w.getLsbD 31

/-- `NFRAG` of a descriptor header (R110). -/
def nfrag (h : Word) : Nat := (h.extractLsb' 0 3).toNat
/-- `SIGNED` of a descriptor header. -/
def signedBit (h : Word) : Bool := h.getLsbD 3
/-- `SIGNBIT` of a descriptor header. -/
def signBit (h : Word) : Nat := (h.extractLsb' 4 5).toNat

/-- Bits 7:0: `BYTEIDX` of a fragment (R111), `IDX` of a condition (R112). -/
def byteIdx (w : Word) : Nat := (w.extractLsb' 0 8).toNat
/-- Bits 15:8: `MASK` of a fragment or a condition. -/
def byteMask (w : Word) : Byte := w.extractLsb' 8 8
/-- Bits 23:16: `VAL` of a condition. -/
def condVal (w : Word) : Byte := w.extractLsb' 16 8
/-- `SHIFT` of a fragment as a signed amount, -32..31 (R111). -/
def fragShift (w : Word) : Int := (w.extractLsb' 16 6).toInt

/-- `KIND` of rule word 2 (R112); none when reserved. -/
def ruleKind (w : Word) : Option Kind := Kind.ofCode (w.extractLsb' 0 4)
/-- `LAYOUT` of rule word 2. -/
def ruleLayout (w : Word) : Nat := (w.extractLsb' 4 4).toNat
/-- `CHMODE` of rule word 2; none when reserved. -/
def ruleChMode (w : Word) : Option ChMode := ChMode.ofCode (w.extractLsb' 8 2)
/-- `FIXEDCH` of rule word 2. -/
def ruleFixedCh (w : Word) : Nat := (w.extractLsb' 10 6).toNat
/-- `REQTOUCH` of rule word 2. -/
def ruleReqTouch (w : Word) : Bool := w.getLsbD 16

/-- `TYPE` of tool-ID map word 1 (R114). -/
def mapType (w : Word) : BitVec 4 := w.extractLsb' 0 4

/-- `MASK` of an `LSEL` register (R41). -/
def lselMask (w : Word) : Byte := w.extractLsb' 16 8
/-- `VALUE` of an `LSEL` register. -/
def lselValue (w : Word) : Byte := w.extractLsb' 8 8
/-- `LEN` of an `LSEL` register. -/
def lselLen (w : Word) : Nat := (w.extractLsb' 0 8).toNat

/-- `CAPS.HAS_ERASER` (R38). -/
def State.hasEraser (s : State) : Bool := s.caps.getLsbD 0
/-- `CAPS.HAS_WHEEL`. -/
def State.hasWheel (s : State) : Bool := s.caps.getLsbD 1
/-- `CAPS.HAS_ROTATION`. -/
def State.hasRotation (s : State) : Bool := s.caps.getLsbD 2
/-- `CAPS.HAS_PAD`. -/
def State.hasPad (s : State) : Bool := s.caps.getLsbD 3

/-- A fragment's masked byte moved by its signed shift in 32 bits (40_bitfield_extractor.md R142): left when
the amount is not negative, else a logical right shift. -/
def shiftBy (v : Word) (s : Int) : Word :=
  if 0 ≤ s then v <<< s.toNat else v >>> (-s).toNat

/-- The value of width `sb + 1` in bits `sb`..0 of `acc`, sign-extended to 32 bits (R142, R145). -/
def signExtendFrom (acc : Word) (sb : Nat) : Word := (acc.setWidth (sb + 1)).signExtend 32

/-! ### Control points -/

/-- A point of the curve, exact rationals (00_scope.md R16). -/
structure Pt where
  x : Rat
  y : Rat
  deriving DecidableEq, Repr

/-- A 16-bit coordinate `k` stands for `min(k, 32768) / 32768` (R106). -/
def coord (k : BitVec 16) : Rat := (min k.toNat 32768 : Nat) / 32768

/-- The control point packed in a register (R106, 41_pressure_curve.md R171). -/
def controlPoint (w : Word) : Pt := ⟨coord (w.extractLsb' 16 16), coord (w.extractLsb' 0 16)⟩

/-! ### System registers -/

/-- The system registers of 10_state.md R30. -/
inductive SysReg where
  | id | status | fcause | finfo | proto | plen | nch | caps | hdrmask | tselmap
  | lsel (j : Fin 4)
  | xmax | ymax | pmax | txmax | tymax | dmax | version
  | pktcnt | evcnt | lastch | ringfill | pktlen
  deriving DecidableEq, Repr

/-- The register a number names (R30); none for the undefined numbers (R44). -/
def SysReg.ofNum (n : BitVec 16) : Option SysReg :=
  match n.toNat with
  | 0x00 => some .id | 0x01 => some .status | 0x02 => some .fcause | 0x03 => some .finfo
  | 0x04 => some .proto | 0x05 => some .plen | 0x06 => some .nch | 0x07 => some .caps
  | 0x08 => some .hdrmask | 0x09 => some .tselmap
  | 0x0A => some (.lsel 0) | 0x0B => some (.lsel 1) | 0x0C => some (.lsel 2) | 0x0D => some (.lsel 3)
  | 0x10 => some .xmax | 0x11 => some .ymax | 0x12 => some .pmax | 0x13 => some .txmax
  | 0x14 => some .tymax | 0x15 => some .dmax | 0x16 => some .version
  | 0x18 => some .pktcnt | 0x19 => some .evcnt | 0x1A => some .lastch | 0x1B => some .ringfill
  | 0x1C => some .pktlen
  | _ => none

/-! ### Index spaces -/

/-- The seven index spaces of 20_memory.md R70. -/
inductive Space where
  | fdt | cls | lay | tid | lut | cht | pkt
  deriving DecidableEq, Repr

/-- The space an id names (R70); none for 7 and above. -/
def Space.ofId (n : BitVec 16) : Option Space :=
  match n.toNat with
  | 0 => some .fdt | 1 => some .cls | 2 => some .lay | 3 => some .tid | 4 => some .lut
  | 5 => some .cht | 6 => some .pkt | _ => none

/-- How many indexes a space has (R70). -/
def State.spaceSize (s : State) : Space → Nat
  | .fdt => 8 * s.params.fdtSize
  | .cls => 4 * s.params.clsSize
  | .lay => 128
  | .tid => 2 * s.params.tidSize
  | .lut => s.params.curveRes + 1
  | .cht => 16 * s.params.nchMax
  | .pkt => s.pkt.length

end Sys2Proof.Machine
end

