-- ==== Sys2Proof/Machine/Ops.lean ====
section
/-! DEFINITION. The operations every command is made of: operand registers, table memories, the channel
table, system registers, events, refusing, taking the fault, hardware reset (00_scope.md R14;
30_encoding.md R101, R102; 60_exceptions.md R364). -/

namespace Sys2Proof.Machine

/-- The outcome type of a step. -/
abbrev Out := Host.Outcome State Fault Refusal

/-! ### Operand registers (10_state.md R21) -/

/-- `x[i]`. -/
def State.reg (s : State) (i : RegNum) : Word := s.x[i.toNat]'(by have := i.isLt; omega)

/-- `x[i] <- v`. -/
def State.setReg (s : State) (i : RegNum) (v : Word) : State :=
  { s with x := s.x.set i.toNat v (by have := i.isLt; omega) }

/-! ### Table memories (20_memory.md R70 to R78) -/

/-- The word at index `i`: 0 where nothing is listed. -/
def Memory.read : Memory → Nat → Word
  | [], _ => 0#32
  | (j, v) :: m, i => if i = j then v else Memory.read m i

/-- Store `v` at index `i`, keeping the canonical form. -/
def Memory.write : Memory → Nat → Word → Memory
  | [], i, v => if v = 0#32 then [] else [(i, v)]
  | (j, u) :: m, i, v =>
    if i < j then (if v = 0#32 then (j, u) :: m else (i, v) :: (j, u) :: m)
    else if i = j then (if v = 0#32 then m else (i, v) :: m)
    else (j, u) :: Memory.write m i v

/-- The canonical form from index `lo` on: indexes strictly rising, no word 0. -/
def Memory.wfFrom : Nat → Memory → Bool
  | _, [] => true
  | lo, (j, v) :: m => decide (lo ≤ j) && decide (v ≠ 0#32) && Memory.wfFrom (j + 1) m

/-- The canonical form: indexes strictly rising, no word equal to what an unlisted index reads. -/
def Memory.wf (m : Memory) : Bool := Memory.wfFrom 0 m

/-! ### Channel table (10_state.md R50) -/

/-- `CH[c]`. -/
def State.ch (s : State) (c : Nat) : Channel := s.cht.getD c Channel.empty

/-- Store entry `c`. -/
def State.setCh (s : State) (c : Nat) (e : Channel) : State := { s with cht := s.cht.set c e }

/-- The word a channel id is read as. -/
def chWord : Option Nat → Word
  | none => noch
  | some c => word c

/-- The channel a word such as `LASTCH` names; none for `NOCH`. -/
def chOfWord (w : Word) : Option Nat := if w = noch then none else some w.toNat

/-- `TRD` layout of a channel entry (30_encoding.md R122). -/
def Channel.readWord (e : Channel) (k : Nat) : Word :=
  match k with
  | 0 => e.serial
  | 1 => 0#27 ++ BitVec.ofBool e.inProx ++ e.toolType.code
  | 2 => e.toolId
  | 3 => e.btn
  | 4 => e.stamp
  | 5 => 0
  | k => e.axis.toList.getD (k - 6) 0

/-- `MemRead` of a legal index (R71): a word, or a packet byte zero-extended. -/
def State.memRead (s : State) (sp : Space) (i : Nat) : Word :=
  match sp with
  | .fdt => Memory.read s.fdt i
  | .cls => Memory.read s.cls i
  | .lay => Memory.read s.lay i
  | .tid => Memory.read s.tid i
  | .lut => Memory.read s.lut i
  | .cht => (s.ch (i / 16)).readWord (i % 16)
  | .pkt => (s.pkt.getD i 0).setWidth 32

/-- `MemWrite` to a space the host may write (R70); none for LUT, CHT and PKT. -/
def State.memWrite (s : State) (sp : Space) (i : Nat) (v : Word) : Option State :=
  match sp with
  | .fdt => some { s with fdt := Memory.write s.fdt i v }
  | .cls => some { s with cls := Memory.write s.cls i v }
  | .lay => some { s with lay := Memory.write s.lay i v }
  | .tid => some { s with tid := Memory.write s.tid i v }
  | .lut | .cht | .pkt => none

/-! ### Packet bytes and events -/

/-- `PKT[i]`. -/
def State.pktByte (s : State) (i : Nat) : Byte := s.pkt.getD i 0

/-- The packet is consumed or dropped (10_state.md R55): `PKTVALID` 0 and `PKTLEN` 0. -/
def State.consumePkt (s : State) : State :=
  { s with pkt := [], status := { s.status with pktValid := false } }

/-- `emit(ev)` (10_state.md R58). -/
def State.emit (s : State) (ev : Event) : State :=
  { s with evout := s.evout ++ [ev], evcnt := s.evcnt + 1 }

/-- `emit` each event in order. -/
def State.emitAll (s : State) (evs : List Event) : State := evs.foldl State.emit s

/-- The 32-bit words a hardware sink receives for an event (30_encoding.md R121). -/
def Event.words : Event → List Word
  | .prox ch type inProx serial =>
    [1#4 ++ BitVec.ofNat 8 ch ++ 0#12 ++ type.code ++ 0#3 ++ BitVec.ofBool inProx, serial]
  | .motion ch values =>
    let present := (List.finRange 8).filter fun a => values[a].isSome
    let mask := present.foldl (fun (m : BitVec 8) a => m ||| (1#8 <<< a.val)) 0
    (2#4 ++ BitVec.ofNat 8 ch ++ 0#12 ++ mask) :: values.toList.filterMap id
  | .button ch index pressed =>
    [3#4 ++ BitVec.ofNat 8 ch ++ 0#7 ++ BitVec.ofNat 5 index.val ++ 0#7 ++ BitVec.ofBool pressed]
  | .wheel ch absolute value => [4#4 ++ BitVec.ofNat 8 ch ++ 0#19 ++ BitVec.ofBool absolute, value]

/-! ### Refusing, and the command step's checks (30_encoding.md R101, R102) -/

/-- `refuse` (R102): `ERR_CMD`, and nothing else changes. -/
def refuse (s : State) : State := s.setErrCmd

/-- The opcodes that pass step 1 of R101 in the fault state: `NOP`, `LI`, `LUI`, `MFSR`, `TRD`. -/
def inspectionOp (op : BitVec 8) : Bool :=
  op == 0x00 || op == 0x01 || op == 0x02 || op == 0x03 || op == 0x05

/-- Steps 1 and 2 of R101 for a word that is no legal encoding, by its opcode: in the fault state ignored
(step 1) but for the five inspection opcodes, which step 2 refuses there too (log 6); else refused. -/
def illegalWord (op : BitVec 8) (s : State) : State :=
  if s.status.fault && !inspectionOp op then s else refuse s

/-- R101 steps 1 and 3 for a command that needs `ok` of the state (60_exceptions.md R381): ignored in the
fault state, refused where `ok` fails, else executed. -/
def whenState (ok : State → Bool) (s : State) (k : State → State) : Out :=
  if s.status.fault then .next s
  else if ok s then .next (k s)
  else .next (refuse s)

/-- A command of both the CONFIG and the RUN state. -/
def inAnyState (s : State) (k : State → State) : Out := whenState (fun _ => true) s k
/-- A command of the CONFIG state. -/
def inConfig (s : State) (k : State → State) : Out := whenState (fun s => !s.status.run) s k
/-- A command of the RUN state. -/
def inRun (s : State) (k : State → State) : Out := whenState (fun s => s.status.run) s k

/-! ### The fault (60_exceptions.md R364) -/

/-- A fault that a command raises: its cause and information word (R363, R365). -/
structure Raise where
  cause : FCause
  info : Word
  deriving DecidableEq, Repr

/-- Taking the fault (R364): `FAULT`, `FCAUSE`, `FINFO`, and nothing else changes. -/
def takeFault (r : Raise) (s : State) : State :=
  { s with status := { s.status with fault := true }, fcause := r.cause, finfo := r.info }

/-- End a command that either raises a fault, or writes `rd` in the state it leaves. -/
def finish (s : State) (rd : RegNum) (r : Except Raise (State × Word)) : State :=
  match r with
  | .error e => takeFault e s
  | .ok (t, v) => t.setReg rd v

/-! ### The host's inputs (00_scope.md R9; log 3) -/

/-- The host's next input and the state with it taken; none while the host does nothing. -/
def State.takeInput (s : State) : Option (HostInput × State) :=
  match s.input with
  | [] => none
  | i :: rest => some (i, { s with input := rest })

/-- The host issues the command word `w` before whatever else it does. -/
def State.issue (s : State) (w : Word) : State := { s with input := .command w :: s.input }

/-- Hardware reset (70_reset_and_hazards.md R400): every piece of state as R60 says, the operand registers
the arbitrary words `x`; the parameters and the host's further inputs are not the block's. -/
def hardwareReset (x : Vector Word 16) (s : State) : State :=
  { State.afterReset s.params x with input := s.input }

/-! ### System registers (10_state.md R30; 45_system_ops.md R333 to R335) -/

/-- What `MFSR` reads. `ID` is hard-wired (R31); `RINGFILL` and `PKTLEN` are the lengths (R43). -/
def State.readSys (s : State) : SysReg → Word
  | .id => 0x42465801
  | .status => s.status.toWord
  | .fcause => s.fcause.code
  | .finfo => s.finfo
  | .proto => s.proto.code
  | .plen => s.plen.setWidth 32
  | .nch => s.nch.setWidth 32
  | .caps => s.caps.setWidth 32
  | .hdrmask => s.hdrmask.setWidth 32
  | .tselmap => s.tselmap
  | .lsel j => s.lsel[j]
  | .xmax => s.xmax
  | .ymax => s.ymax
  | .pmax => s.pmax
  | .txmax => s.txmax
  | .tymax => s.tymax
  | .dmax => s.dmax
  | .version => s.version
  | .pktcnt => s.pktcnt
  | .evcnt => s.evcnt
  | .lastch => s.lastch
  | .ringfill => word s.ring.length
  | .pktlen => word s.pkt.length

/-- The legal values of R335, on the full 32-bit `v`. -/
def legalLsel (p : Params) (v : Word) : Bool :=
  v.extractLsb' 24 7 == 0 && (!validBit v || (1 ≤ lselLen v && lselLen v ≤ p.pktMax))

/-- `MTSR` to a CFG register in the CONFIG state (R334, R335): the new state, or none when the register
is not a CFG register or the value is not legal for it. It writes the register alone: the channel table
stays as a halted session left it, past a new `NCH` too (20_memory.md R77; log 13). -/
def State.writeCfg (s : State) (r : SysReg) (v : Word) : Option State :=
  match r with
  | .proto => (Proto.ofCode v).map fun p => { s with proto := p }
  | .plen =>
    if 1 ≤ v.toNat ∧ v.toNat ≤ s.params.pktMax then some { s with plen := v.setWidth 8 } else none
  | .nch =>
    if 1 ≤ v.toNat ∧ v.toNat + s.hasPad.toNat ≤ s.params.nchMax then
      some { s with nch := v.setWidth 7 }
    else none
  | .caps =>
    if v.toNat ≤ 15 ∧ (v.getLsbD 3 = true → s.nch.toNat + 1 ≤ s.params.nchMax) then
      some { s with caps := v.setWidth 4 }
    else none
  | .hdrmask => if v.toNat ≤ 255 then some { s with hdrmask := v.setWidth 8 } else none
  | .tselmap => some { s with tselmap := v }
  | .lsel j => if legalLsel s.params v then some { s with lsel := s.lsel.set j v } else none
  | .xmax => some { s with xmax := v }
  | .ymax => some { s with ymax := v }
  | .pmax => some { s with pmax := v }
  | .txmax => some { s with txmax := v }
  | .tymax => some { s with tymax := v }
  | .dmax => some { s with dmax := v }
  | .version => some { s with version := v }
  | .id | .status | .fcause | .finfo | .pktcnt | .evcnt | .lastch | .ringfill | .pktlen => none

/-- The smallest index below `n` with `P` (00_scope.md R14). -/
def lowest (n : Nat) (P : Nat → Bool) : Option Nat := (List.range n).find? P

end Sys2Proof.Machine
end

