-- ==== Sys2Proof/Machine/Bitfield.lean ====
section
/-! DEFINITION. The bitfield extractor: `read_field` and `RDFLD` (40_bitfield_extractor.md). -/

namespace Sys2Proof.Machine

/-- Fragment `k` of descriptor `fid` (R142): its range check (R143), mask, then shift. -/
def State.readFragment (s : State) (fid k : Nat) : Except Raise Word :=
  let w := Memory.read s.fdt (8 * fid + k)
  let idx := byteIdx w
  if s.pkt.length ≤ idx then .error ⟨.fieldRange, word fid ||| word k <<< 8 ||| word idx <<< 16⟩
  else .ok (shiftBy ((s.pktByte idx &&& byteMask w).setWidth 32) (fragShift w))

/-- The fragments `k`, `k + 1`, … (`n` of them) of descriptor `fid`, in order, OR'ed into `acc` (R142,
R144). -/
def State.readFragments (s : State) (fid : Nat) : (n k : Nat) → Word → Except Raise Word
  | 0, _, acc => .ok acc
  | n + 1, k, acc =>
    match s.readFragment fid k with
    | .error e => .error e
    | .ok v => s.readFragments fid n (k + 1) (acc ||| v)

/-- The sign extension a descriptor header asks for (R145). -/
def finishField (h acc : Word) : Word := if signedBit h then signExtendFrom acc (signBit h) else acc

/-- `read_field(fid)` (R142): descriptor validity (R141), fragments, sign extension. -/
def State.readField (s : State) (fid : Nat) : Except Raise Word :=
  let h := Memory.read s.fdt (8 * fid)
  if s.params.fdtSize ≤ fid ∨ validBit h = false ∨ nfrag h = 7 then
    .error ⟨.fieldInvalid, word fid⟩
  else
    match s.readFragments fid (nfrag h) 1 0 with
    | .error e => .error e
    | .ok acc => .ok (finishField h acc)

/-- `RDFLD rd, fid` (R148), in the CONFIG and the RUN state; the packet stays. -/
def execRdfld (rd : RegNum) (fid : BitVec 16) (s : State) : Out :=
  inAnyState s fun s => finish s rd ((s.readField fid.toNat).map fun v => (s, v))

end Sys2Proof.Machine
end

