-- ==== Sys2Proof/Machine/Channels.lean ====
section
/-! DEFINITION. The channel/tool state table: its procedures, and `ENTER`, `EXIT`, `CHFOR`
(42_channel_table.md). -/

namespace Sys2Proof.Machine

/-- `holds(c, S)` (R210). -/
def State.holds (s : State) (c : Nat) (serial : Word) : Bool :=
  decide (c < s.nch.toNat) && (s.ch c).inProx && (s.ch c).serial == serial

/-- `find(S)` (R210): the lowest tool channel that holds the serial; none is `NOCH`. -/
def State.find (s : State) (serial : Word) : Option Nat :=
  lowest s.nch.toNat fun c => s.holds c serial

/-- `free(c)` (R211). -/
def State.free (s : State) (c : Nat) : Bool :=
  decide (c < s.nch.toNat) && !(s.ch c).inProx && (s.ch c).serial == 0

/-- The lowest free tool channel. -/
def State.lowestFree (s : State) : Option Nat := lowest s.nch.toNat s.free

/-- `arb_enter(S)` (R212): the channel that holds the serial, else the first free one, else channel 0
and `ERR_CHEXH`. -/
def State.arbEnter (s : State) (serial : Word) : State × Nat :=
  match s.find serial with
  | some c => (s, c)
  | none =>
    match s.lowestFree with
    | some c => (s, c)
    | none => (s.setErrChExh, 0)

/-- `valid_type(t)` (R213): an unknown code is PEN and `ERR_UNKTOOL`. -/
def State.validType (s : State) (code : BitVec 4) : State × ToolType :=
  match ToolType.ofCode code with
  | some t => (s, t)
  | none => (s.setErrUnkTool, .pen)

/-- The first valid tool-ID map entry whose key is `code` (R213). -/
def State.tidEntry (s : State) (code : Word) : Option Nat :=
  lowest s.params.tidSize fun i =>
    validBit (Memory.read s.tid (2 * i + 1)) && Memory.read s.tid (2 * i) == code

/-- `tidmap(code)` (R213). -/
def State.tidmap (s : State) (code : Word) : State × ToolType :=
  match s.tidEntry code with
  | some i => s.validType (mapType (Memory.read s.tid (2 * i + 1)))
  | none => (s.setErrUnkTool, .pen)

/-- Entry `v` of `TSELMAP` (10_state.md R40). -/
def State.tselEntry (s : State) (v : Nat) : BitVec 4 := s.tselmap.extractLsb' (4 * v) 4

/-- `tselmap(v)` (R214), with its eraser gate. -/
def State.tselTool (s : State) (v : Word) : State × ToolType :=
  let r := if 7 < v.toNat then (s.setErrUnkTool, .pen) else s.validType (s.tselEntry v.toNat)
  if r.2 = .eraser ∧ s.hasEraser = false then (r.1, .pen) else r

/-- An entry as `clear` leaves it (R215): empty, but for `STAMP`. -/
def Channel.cleared (e : Channel) : Channel := { stamp := e.stamp }

/-- `clear(c)` (R215). -/
def State.clear (s : State) (c : Nat) : State := s.setCh c (s.ch c).cleared

/-- Channel `c` already holds this serial in proximity: `was` of R216. -/
def State.wasHere (s : State) (c : Nat) (serial : Word) : Bool :=
  (s.ch c).inProx && (s.ch c).serial == serial

/-- `enter_proc` (R216): the state it leaves. It answers that the tool is new on `c` where
`wasHere` is false before it. -/
def State.enterProc (s : State) (c : Nat) (serial code : Word) (type : ToolType) : State :=
  let e := if s.wasHere c serial then s.ch c else (s.ch c).cleared
  let t := s.setCh c
    { e with serial := serial, toolType := type, toolId := code, inProx := true, stamp := s.pktcnt }
  { t with lastch := word c }

/-- `tagch(tag)` (R217). -/
def State.tagCh (s : State) (tag : Word) : State × Nat :=
  if tag.toNat < s.nch.toNat then (s, tag.toNat) else (s.setErrChExh, 0)

/-- `exit_target(S)` (R218). -/
def State.exitTarget (s : State) (serial : Word) : Option Nat :=
  match s.find serial with
  | some c => some c
  | none => if s.nch = 1 then some 0 else none

/-- `on_enter_proximity` (R220): the map, then the arbitration, then the entry. -/
def State.enterTool (s : State) (serial code : Word) : State × Nat :=
  let m := s.tidmap code
  let a := m.1.arbEnter serial
  (a.1.enterProc a.2 serial code m.2, a.2)

/-- `ENTER rd, rs1, rs2` (R220): RUN state only; emits no event. -/
def execEnter (rd rs1 rs2 : RegNum) (s : State) : Out :=
  inRun s fun s =>
    let r := s.enterTool (s.reg rs1) (s.reg rs2)
    r.1.setReg rd (word r.2)

/-- `on_exit_proximity` (R221). -/
def State.exitTool (s : State) (serial : Word) : State :=
  match s.exitTarget serial with
  | some c => s.clear c
  | none => s

/-- `EXIT rs1` (R221): RUN state only; emits no event, keeps `LASTCH`. -/
def execExit (rs1 : RegNum) (s : State) : Out := inRun s fun s => s.exitTool (s.reg rs1)

/-- `channel_for` by mode (R222). -/
def State.channelFor (s : State) (v : Word) (mode : BitVec 16) : State × Word :=
  match mode.toNat with
  | 0 => (s, s.lastch)
  | 1 => let r := s.tagCh v; (r.1, word r.2)
  | _ => (s, chWord (s.find v))

/-- `CHFOR rd, rs1, mode` (R222): RUN state only. A mode above 2 is an illegal encoding (R104). -/
def execChfor (rd rs1 : RegNum) (mode : BitVec 16) (s : State) : Out :=
  if chforModeOk mode then
    inRun s fun s =>
      let r := s.channelFor (s.reg rs1) mode
      r.1.setReg rd r.2
  else .next (illegalWord 0x32 s)

end Sys2Proof.Machine
end

