-- ==== Sys2Proof/Machine/Curve.lean ====
section
/-! DEFINITION. The pressure curve engine: `BUILD` and `APPLY` (41_pressure_curve.md). -/

namespace Sys2Proof.Machine

/-! ### Construction -/

/-- Midpoint (R176). -/
def Pt.mid (p q : Pt) : Pt := ⟨(p.x + q.x) / 2, (p.y + q.y) / 2⟩

/-- `clamp(v, lo, hi)` on rationals (00_scope.md R14). -/
def clampRat (v lo hi : Rat) : Rat := max lo (min v hi)

/-- Squared distance from `p` to the segment `a`–`d` (R175). -/
def Pt.dist2 (p a d : Pt) : Rat :=
  if a = d then (p.x - a.x) ^ 2 + (p.y - a.y) ^ 2
  else
    let vx := d.x - a.x
    let vy := d.y - a.y
    let t := clampRat (((p.x - a.x) * vx + (p.y - a.y) * vy) / (vx * vx + vy * vy)) 0 1
    (p.x - (a.x + t * vx)) ^ 2 + (p.y - (a.y + t * vy)) ^ 2

/-- `near` (R174): the distance is strictly less than the tolerance, compared on squares. -/
def Pt.near (tol : Rat) (p a d : Pt) : Bool := decide (p.dist2 a d < tol ^ 2)

/-- `LUT[x] <- y`; the rasterizer's coordinates are in 0..`N` (R178). -/
def plot (lut : Memory) (x y : Int) : Memory := Memory.write lut x.toNat (BitVec.ofInt 32 y)

/-- The x-dominant loop of R178. `n` bounds its rounds: `abs(x1 - x)` of them follow the first. -/
def lineX (x1 sx sy ax ay : Int) : (n : Nat) → (x y d : Int) → Memory → Memory
  | 0, x, y, _, lut => plot lut x y
  | n + 1, x, y, d, lut =>
    if x = x1 then plot lut x y
    else if 0 ≤ d then lineX x1 sx sy ax ay n (x + sx) (y + sy) (d - ax + ay) (plot lut x y)
    else lineX x1 sx sy ax ay n (x + sx) y (d + ay) (plot lut x y)

/-- The y-dominant loop of R178. `n` bounds its rounds: `abs(y1 - y)` of them follow the first. -/
def lineY (y1 sx sy ax ay : Int) : (n : Nat) → (x y d : Int) → Memory → Memory
  | 0, x, y, _, lut => plot lut x y
  | n + 1, x, y, d, lut =>
    if y = y1 then plot lut x y
    else if 0 ≤ d then lineY y1 sx sy ax ay n (x + sx) (y + sy) (d - ay + ax) (plot lut x y)
    else lineY y1 sx sy ax ay n x (y + sy) (d + ax) (plot lut x y)

/-- `line(x0, y0, x1, y1)` (R178). -/
def line (x0 y0 x1 y1 : Int) (lut : Memory) : Memory :=
  let dx := x1 - x0
  let dy := y1 - y0
  let ax : Int := 2 * dx.natAbs
  let ay : Int := 2 * dy.natAbs
  let sx : Int := if 0 < dx then 1 else -1
  let sy : Int := if 0 < dy then 1 else -1
  if ay < ax then lineX x1 sx sy ax ay dx.natAbs x0 y0 (ay - ax / 2) lut
  else lineY y1 sx sy ax ay dy.natAbs x0 y0 (ax - ay / 2) lut

/-- A segment end as a table coordinate: `floor(q * N)` (R177). -/
def toTable (n : Nat) (q : Rat) : Int := (q * n).floor

/-- A segment drawn into the table (R173, R177). -/
def drawSegment (n : Nat) (a d : Pt) (lut : Memory) : Memory :=
  line (toTable n a.x) (toTable n a.y) (toTable n d.x) (toTable n d.y) lut

/-- `subdivide` (R173); the first argument is `DEPTH_MAX - depth`. -/
def subdivide (n : Nat) (tol : Rat) : Nat → (a b c d : Pt) → Memory → Memory
  | 0, a, _, _, d, lut => drawSegment n a d lut
  | r + 1, a, b, c, d, lut =>
    if b.near tol a d && c.near tol a d then drawSegment n a d lut
    else
      let ab := a.mid b
      let bc := b.mid c
      let cd := c.mid d
      let abc := ab.mid bc
      let bcd := bc.mid cd
      let h := abc.mid bcd
      subdivide n tol r h bcd cd d (subdivide n tol r a ab abc h lut)

/-- The table `build(P1, P2)` makes of the present one (R172). -/
def buildLut (p : Params) (p1 p2 : Pt) (lut : Memory) : Memory :=
  subdivide p.curveRes p.flatTol p.depthMax ⟨0, 0⟩ p1 p2 ⟨1, 1⟩ lut

/-- `build(P1, P2)` (R172, R183). -/
def State.build (s : State) (w1 w2 : Word) : State :=
  { s with
    lut := buildLut s.params (controlPoint w1) (controlPoint w2) s.lut
    status := { s.status with curveValid := true } }

/-- `BUILD rs1, rs2` (R183): CONFIG state only. -/
def execBuild (rs1 rs2 : RegNum) (s : State) : Out :=
  inConfig s fun s => s.build (s.reg rs1) (s.reg rs2)

/-! ### Application -/

/-- `clamp(v, lo, hi)` on integers (00_scope.md R14). -/
def clampInt (v lo hi : Int) : Int := max lo (min v hi)

/-- The index `floor(r * N / m)` of R190, `r` the raw value clamped to `[0, m]`. -/
def curveIndex (n : Nat) (raw : Word) (m : Int) : Nat := (clampInt raw.toInt 0 m * n / m).toNat

/-- The lookup of R190 for a range `m`: scale, look up, scale back, never above `m`. -/
def State.remap (s : State) (raw : Word) (m : Int) : Word :=
  let entry := Memory.read s.lut (curveIndex s.params.curveRes raw m)
  BitVec.ofInt 32 (min m ((entry.toNat : Int) * m / s.params.curveRes))

/-- The value of `curve(raw, max)` (R190): unchanged while no curve is built. -/
def State.curveValue (s : State) (raw max : Word) : Word :=
  if s.status.curveValid then s.remap raw max.toInt else raw

/-- R190: a curve is built and the range is not positive. -/
def State.curveFaults (s : State) (max : Word) : Bool := s.status.curveValid && decide (max.toInt ≤ 0)

/-- `curve(raw, max)` (R190), `info` the `FINFO` of its fault. -/
def State.curve (s : State) (raw max info : Word) : Except Raise Word :=
  if s.curveFaults max then .error ⟨.curveRange, info⟩ else .ok (s.curveValue raw max)

/-- `APPLY rd, rs1, rs2` (R191), in the CONFIG and the RUN state. -/
def execApply (rd rs1 rs2 : RegNum) (s : State) : Out :=
  inAnyState s fun s =>
    finish s rd ((s.curve (s.reg rs1) (s.reg rs2) 0x80000000).map fun v => (s, v))

end Sys2Proof.Machine
end

