-- ==== Sys2Proof/Machine/Frame.lean ====
section
/-! DEFINITION. The frame synchronizer: `FEED`, `FEEDR`, `NEXTPKT` (44_frame_synchronizer.md). -/

namespace Sys2Proof.Machine

/-- A byte enters the ring (R300), or is lost with `ERR_OVERRUN` when the ring is full (R302). -/
def State.feedByte (s : State) (b : Byte) : State :=
  if s.ring.length = s.params.ringSize then s.setErrOverrun else { s with ring := s.ring ++ [b] }

/-- `FEED imm8` (R300): RUN state only. -/
def execFeed (b : Byte) (s : State) : Out := inRun s fun s => s.feedByte b

/-- `FEEDR rs1` (R301): RUN state only; the byte is bits 7:0 of the register. -/
def execFeedr (rs1 : RegNum) (s : State) : Out :=
  inRun s fun s => s.feedByte ((s.reg rs1).extractLsb' 0 8)

/-- `latch(L)` (R308). -/
def State.latch (s : State) (len : Nat) : State :=
  { s with
    pkt := s.ring.take len
    ring := s.ring.drop len
    status := { s.status with pktValid := true }
    pktcnt := s.pktcnt + 1 }

/-- `next_fixed()` (R305). -/
def State.nextFixed (s : State) : State × Word :=
  if s.plen.toNat ≤ s.ring.length then (s.latch s.plen.toNat, 1) else (s, 0)

/-- `hdr(b)` (R306). -/
def State.hdr (s : State) (b : Byte) : Bool := (b &&& s.hdrmask) != 0

/-- `lensel(b0)` (R307): the first valid `LSEL` whose pattern matches, else `PLEN`. -/
def State.lensel (s : State) (b0 : Byte) : Nat :=
  match s.lsel.toList.find? fun w => validBit w && (b0 &&& lselMask w) == lselValue w with
  | some w => lselLen w
  | none => s.plen.toNat

/-- The least `j` in 1 .. `min(RINGFILL, L) - 1` with a header byte at `RING[j]` (R306). -/
def State.innerHeader (s : State) (len : Nat) : Option Nat :=
  lowest (min s.ring.length len) fun j => decide (1 ≤ j) && s.hdr (s.ring.getD j 0)

/-- `next_header()` (R306). The first argument bounds the rounds of its loop; each round but the last
removes a byte of the ring, so `RINGFILL + 1` of them are enough (log 7). -/
def State.nextHeaderLoop : Nat → State → State × Word
  | 0, s => (s, 0)
  | n + 1, s =>
    match s.ring with
    | [] => (s, 0)
    | b0 :: rest =>
      if s.hdr b0 = false then State.nextHeaderLoop n { s.setErrFraming with ring := rest }
      else
        match s.innerHeader (s.lensel b0) with
        | some k => State.nextHeaderLoop n { s.setErrFraming with ring := s.ring.drop k }
        | none =>
          if s.ring.length < s.lensel b0 then (s, 0) else (s.latch (s.lensel b0), 1)

/-- `next_header()` (R306). -/
def State.nextHeader (s : State) : State × Word := State.nextHeaderLoop (s.ring.length + 1) s

/-- `next_packet()` (R304): 0 no packet, 1 latched, 2 PKT occupied. -/
def State.nextPacket (s : State) : State × Word :=
  if s.status.pktValid then (s, 2)
  else if s.proto = .isdv4 then s.nextHeader
  else s.nextFixed

/-- `NEXTPKT rd` (R304): RUN state only. -/
def execNextpkt (rd : RegNum) (s : State) : Out :=
  inRun s fun s => s.nextPacket.1.setReg rd s.nextPacket.2

end Sys2Proof.Machine
end

