-- ==== Sys2Proof/Machine/Decoder.lean ====
section
/-! DEFINITION. The per-protocol decoders: `DECODE` and `PUMP` (43_protocol_decoders.md). -/

namespace Sys2Proof.Machine

/-! ### Phase 0: classification -/

/-- Condition word `w` of rule `i` (R242). -/
def State.cond (s : State) (i : Nat) (w : Word) : Except Raise Bool :=
  if byteMask w = 0 then .ok (condVal w == 0)
  else if s.pkt.length ≤ byteIdx w then .error ⟨.clsRange, word i ||| word (byteIdx w) <<< 16⟩
  else .ok ((s.pktByte (byteIdx w) &&& byteMask w) == condVal w)

/-- Whether rule `i` hits (R242): valid, and A holds, and then B holds. -/
def State.ruleHits (s : State) (i : Nat) : Except Raise Bool :=
  if validBit (Memory.read s.cls (4 * i)) then
    match s.cond i (Memory.read s.cls (4 * i)) with
    | .error e => .error e
    | .ok false => .ok false
    | .ok true => s.cond i (Memory.read s.cls (4 * i + 1))
  else .ok false

/-- `classify()` over the rules of a list, in order (R242). -/
def State.classifyIn (s : State) : List Nat → Except Raise (Option Nat)
  | [] => .ok none
  | i :: is =>
    match s.ruleHits i with
    | .error e => .error e
    | .ok true => .ok (some i)
    | .ok false => s.classifyIn is

/-- `classify()` (R242). -/
def State.classify (s : State) : Except Raise (Option Nat) :=
  s.classifyIn (List.range s.params.clsSize)

/-- What the rule that was hit says (R112, R244). -/
structure Hit where
  rule : Nat
  kind : Kind
  layout : Nat
  chMode : ChMode
  fixedCh : Nat
  deriving DecidableEq, Repr

/-- R245: the effective kind of a packet. -/
def State.effectiveKind (s : State) (w2 : Word) (kind : Kind) : Kind :=
  if ruleReqTouch w2 && !s.status.touchCap then .ignore
  else if kind = .pad ∧ s.hasPad = false then .ignore
  else kind

/-- R244 and R245: the legality of the hit's kind and mode, then the gating of whole packets. -/
def State.hitOf (s : State) (i : Nat) : Except Raise Hit :=
  let w2 := Memory.read s.cls (4 * i + 2)
  match ruleKind w2, ruleChMode w2 with
  | some kind, some mode =>
    if kind.legal s.proto.shape then
      .ok ⟨i, s.effectiveKind w2 kind, ruleLayout w2, mode, ruleFixedCh w2⟩
    else .error ⟨.badKind, word i⟩
  | _, _ => .error ⟨.badKind, word i⟩

/-! ### Phase 1: extraction -/

/-- The partial map `V` of R248. -/
abbrev Fields := List (Slot × Word)

/-- `V[s]`; none where the slot is absent. -/
def Fields.get (v : Fields) (slot : Slot) : Option Word := v.lookup slot

/-- The slots a kind uses, ascending (R246), without TAG. -/
def Kind.slots : Kind → List Slot
  | .ignore | .tqreply => []
  | .flagprox => [.prox, .toolsel, .buttons] ++ axisSlots
  | .enter => [.toolid, .serial]
  | .exit => [.serial]
  | .general => [.serial, .buttons] ++ axisSlots
  | .pad => [.buttons, .axis 8, .axis 9]
  | .qreply => [.qxmax, .qymax, .qpmax, .qtxmax, .qtymax, .qdmax, .qversion]

/-- The kinds that select a channel (R246, R250, R252): for the others `CHMODE` and `FIXEDCH` are
ignored. -/
def Kind.selects : Kind → Bool
  | .flagprox | .enter | .exit | .general => true
  | .ignore | .pad | .qreply | .tqreply => false

/-- The hit uses the TAG slot (R246). -/
def Hit.usesTag (h : Hit) : Bool := h.kind.selects && h.chMode == .tag

/-- R247: a slot the model's capabilities gate away. -/
def State.gated (s : State) : Slot → Bool
  | .axis a => (a == 6 && !s.hasRotation) || ((a == 8 || a == 9) && !s.hasWheel)
  | _ => false

/-- The slots of a hit in extraction order: ascending, TAG last, gated ones left out (R246 to R248). -/
def State.slotsOf (s : State) (h : Hit) : List Slot :=
  (h.kind.slots ++ if h.usesTag then [Slot.tag] else []).filter fun slot => !s.gated slot

/-- The slot byte of a layout (30_encoding.md R113). -/
def State.slotByte (s : State) (layout : Nat) (slot : Slot) : Nat :=
  ((Memory.read s.lay (8 * layout + slot.num / 4)).extractLsb' (8 * (slot.num % 4)) 8).toNat

/-- Extraction of a list of slots, in order (R248). -/
def State.extractIn (s : State) (layout : Nat) : List Slot → Except Raise Fields
  | [] => .ok []
  | slot :: rest =>
    if s.slotByte layout slot = 0 then s.extractIn layout rest
    else
      match s.readField (s.slotByte layout slot - 1) with
      | .error e => .error e
      | .ok v =>
        match s.extractIn layout rest with
        | .error e => .error e
        | .ok vs => .ok ((slot, v) :: vs)

/-- The required slots of a hit, in the order of R249. -/
def Hit.required (h : Hit) : List Slot :=
  (match h.kind with
    | .flagprox => [.prox]
    | .enter => [.toolid]
    | _ => []) ++ if h.usesTag then [Slot.tag] else []

/-- R249: the first required slot that is absent. -/
def Hit.missing (h : Hit) (v : Fields) : Option Slot := h.required.find? fun slot => (v.get slot).isNone

/-- The checks after extraction, in order: required slots (R249), fixed channel (R250), pressure range
(R251). The last reads the `PMAX` of the moment, a QREPLY's too, where 70_reset_and_hazards.md R404 says
that no byte sequence can fault (log 16). -/
def State.checkFields (s : State) (h : Hit) (v : Fields) : Except Raise Unit :=
  match h.missing v with
  | some slot => .error ⟨.layoutMissing, word h.rule ||| word slot.num <<< 8⟩
  | none =>
    if h.kind.selects = true ∧ h.chMode = .fixed ∧ s.nch.toNat ≤ h.fixedCh then
      .error ⟨.badChannel, word h.rule ||| word h.fixedCh <<< 8⟩
    else if (h.kind = .flagprox ∨ h.kind = .general) ∧ (v.get (.axis 2)).isSome = true
        ∧ s.curveFaults s.pmax = true then
      .error ⟨.curveRange, word h.rule⟩
    else .ok ()

/-- Phase 1 whole (R246 to R251). -/
def State.extract (s : State) (h : Hit) : Except Raise Fields :=
  match s.extractIn h.layout (s.slotsOf h) with
  | .error e => .error e
  | .ok v =>
    match s.checkFields h v with
    | .error e => .error e
    | .ok () => .ok v

/-! ### Dispatch -/

/-- `val[a]` (R261): the extracted value, the pressure remapped. -/
def State.axisVal (s : State) (v : Fields) (a : Fin 10) : Option Word :=
  (v.get (.axis a)).map fun w => if a = 2 then s.curveValue w s.pmax else w

/-- The `MOTION` event of R262: axes 0..7. -/
def State.motionEvent (s : State) (c : Nat) (v : Fields) : Event :=
  .motion c (Vector.ofFn fun a : Fin 8 => s.axisVal v (a.castLE (by omega)))

/-- The `BUTTON` events of R263 for a new bitmap. -/
def buttonEvents (c : Nat) (old new : Word) : List Event :=
  ((List.finRange 32).filter fun (i : Fin 32) => (new ^^^ old).getLsbD i.val).map
    fun i => .button c i (new.getLsbD i.val)

/-- The `WHEEL` events of R264. -/
def State.wheelEvents (s : State) (c : Nat) (v : Fields) : List Event :=
  (match s.axisVal v 8 with
    | some w => [.wheel c true w]
    | none => []) ++
  (match s.axisVal v 9 with
    | some w => if w = 0 then [] else [.wheel c false w]
    | none => [])

/-- The events of `dispatch(c, motion)`, in the order of R266. -/
def State.dispatchEvents (s : State) (c : Nat) (motion : Bool) (v : Fields) : List Event :=
  (if motion then [s.motionEvent c v] else []) ++
  (match v.get .buttons with
    | some new => buttonEvents c (s.ch c).btn new
    | none => []) ++
  s.wheelEvents c v

/-- The channel entry after `dispatch` (R263, R265). -/
def State.dispatchEntry (s : State) (c : Nat) (v : Fields) : Channel :=
  { s.ch c with
    btn := (v.get .buttons).getD (s.ch c).btn
    axis := Vector.ofFn fun a : Fin 10 => (s.axisVal v a).getD (s.ch c).axis[a]
    stamp := s.pktcnt }

/-- `dispatch(c, motion)` (R261 to R265). -/
def State.dispatch (s : State) (c : Nat) (motion : Bool) (v : Fields) : State :=
  (s.emitAll (s.dispatchEvents c motion v)).setCh c (s.dispatchEntry c v)

/-! ### Phase 2: commit -/

/-- `sel()` (R252): the channel of the TAG or FIXED mode; none stands for ARB. -/
def State.sel (s : State) (h : Hit) (v : Fields) : State × Option Nat :=
  match h.chMode with
  | .tag => let r := s.tagCh ((v.get .tag).getD 0); (r.1, some r.2)
  | .fixed => (s, some h.fixedCh)
  | .arb => (s, none)

/-- The exit half of FLAGPROX and EXIT (R253, R255): the channel is cleared and `PROX` out carries what
it held. -/
def State.leave (s : State) (c : Nat) : State :=
  (s.clear c).emit (.prox c (s.ch c).toolType false (s.ch c).serial)

/-- The channel an enter takes: the one `sel` chose, else `arb_enter(serial)` (R253, R254). -/
def State.orArb (s : State) (serial : Word) : Option Nat → State × Nat
  | some c => (s, c)
  | none => s.arbEnter serial

/-- FLAGPROX enter and first coordinates in one step (R253); `c` is what `sel` chose. -/
def State.flagEnter (s : State) (c : Option Nat) (v : Fields) : State :=
  let ts := (v.get .toolsel).getD 0
  let m := s.tselTool ts
  let a := m.1.orArb 0 c
  ((a.1.enterProc a.2 0 ts m.2).emit (.prox a.2 m.2 true 0)).dispatch a.2 true v

/-- Whether the channel a packet selects exists and is in proximity: `inst` of R253. -/
def State.instOf (s : State) : Option Nat → Bool
  | some c => (s.ch c).inProx
  | none => false

/-- FLAGPROX (R253). -/
def State.commitFlagprox (s : State) (h : Hit) (v : Fields) : State :=
  let r := s.sel h v
  let c := r.2.or (r.1.find 0)
  match (v.get .prox).getD 0 != 0, r.1.instOf c with
  | true, true => r.1.dispatch (c.getD 0) true v
  | true, false => r.1.flagEnter r.2 v
  | false, true => r.1.leave (c.getD 0)
  | false, false => r.1

/-- ENTER (R254). -/
def State.commitEnter (s : State) (h : Hit) (v : Fields) : State :=
  let code := (v.get .toolid).getD 0
  let serial := (v.get .serial).getD 0
  let m := s.tidmap code
  let r := m.1.sel h v
  let a := r.1.orArb serial r.2
  let t := a.1.enterProc a.2 serial code m.2
  if a.1.wasHere a.2 serial then t else t.emit (.prox a.2 m.2 true serial)

/-- EXIT's channel (R255): `sel`'s, else by serial, else the most recently entered. -/
def State.exitChannel (s : State) (c : Option Nat) (serial : Option Word) : Option Nat :=
  match c, serial with
  | some c, _ => some c
  | none, some serial => s.exitTarget serial
  | none, none => chOfWord s.lastch

/-- EXIT (R255). -/
def State.commitExit (s : State) (h : Hit) (v : Fields) : State :=
  let r := s.sel h v
  match r.1.exitChannel r.2 (v.get .serial) with
  | some c => if (r.1.ch c).inProx then r.1.leave c else r.1
  | none => r.1

/-- GENERAL's channel (R256): `sel`'s, else by serial, else the most recently entered. -/
def State.generalChannel (s : State) (c : Option Nat) (serial : Option Word) : Option Nat :=
  match c, serial with
  | some c, _ => some c
  | none, some serial => s.find serial
  | none, none => chOfWord s.lastch

/-- GENERAL (R256). -/
def State.commitGeneral (s : State) (h : Hit) (v : Fields) : State :=
  let r := s.sel h v
  match r.1.generalChannel r.2 (v.get .serial) with
  | some c => if (r.1.ch c).inProx then r.1.dispatch c true v else r.1
  | none => r.1

/-- QREPLY (R268): the registers of the present slots, to the extracted values whatever they are: a `PMAX`
that is not positive too (log 16). -/
def State.commitQreply (s : State) (v : Fields) : State :=
  { s with
    xmax := (v.get .qxmax).getD s.xmax
    ymax := (v.get .qymax).getD s.ymax
    pmax := (v.get .qpmax).getD s.pmax
    txmax := (v.get .qtxmax).getD s.txmax
    tymax := (v.get .qtymax).getD s.tymax
    dmax := (v.get .qdmax).getD s.dmax
    version := (v.get .qversion).getD s.version }

/-- Phase 2 by kind (R253 to R258, R268, R269). -/
def State.commit (s : State) (h : Hit) (v : Fields) : State :=
  match h.kind with
  | .ignore => s
  | .flagprox => s.commitFlagprox h v
  | .enter => s.commitEnter h v
  | .exit => s.commitExit h v
  | .general => s.commitGeneral h v
  | .pad => s.dispatch s.nch.toNat false v
  | .qreply => s.commitQreply v
  | .tqreply => { s with status := { s.status with touchCap := true } }

/-- R243: the unrecognized packet is dropped, with the re-synchronization request. -/
def State.dropPkt (s : State) : State := s.consumePkt.setResync.setErrUnkPkt

/-- `decode_one()` (R240): 0 no packet, 1 decoded, 2 dropped; or the fault the packet meets. -/
def State.decodeOne (s : State) : Except Raise (State × Word) :=
  if s.status.pktValid then
    match s.classify with
    | .error e => .error e
    | .ok none => .ok (s.dropPkt, 2)
    | .ok (some i) =>
      match s.hitOf i with
      | .error e => .error e
      | .ok h =>
        match s.extract h with
        | .error e => .error e
        | .ok v => .ok ((s.commit h v).consumePkt, 1)
  else .ok (s, 0)

/-- `DECODE rd` (R240): RUN state only. -/
def execDecode (rd : RegNum) (s : State) : Out := inRun s fun s => finish s rd s.decodeOne

/-! ### PUMP -/

/-- A packet is in PKT, or the next one is fetched into it (R276). -/
def State.fillPkt (s : State) : State := if s.status.pktValid then s else s.nextPacket.1

/-- The loop of R276 with `n` packets decoded so far: the state it ends in, and the count or the fault.
The first argument bounds its rounds; each round after the first removes a byte of the ring or ends,
so `RINGFILL + 2` of them are enough (log 7). -/
def State.pumpLoop : Nat → (n : Nat) → State → State × Except Raise Nat
  | 0, n, s => (s, .ok n)
  | k + 1, n, s =>
    if s.fillPkt.status.pktValid then
      match s.fillPkt.decodeOne with
      | .error e => (s.fillPkt, .error e)
      | .ok (t, _) => State.pumpLoop k (n + 1) t
    else (s.fillPkt, .ok n)

/-- `PUMP rd` (R276): RUN state only. A fault ends it with the effects of the earlier packets kept. -/
def execPump (rd : RegNum) (s : State) : Out :=
  inRun s fun s =>
    let r := State.pumpLoop (s.ring.length + 2) 0 s
    finish r.1 rd (r.2.map fun n => (r.1, word n))

end Sys2Proof.Machine
end

