-- ==== Sys2Proof/Machine/PacketPattern.lean ====
section
/-! DEFINITION. The packet facts the source gives bit by bit (30_encoding.md R123, R124), as the profile
data they are, and what the block does with the table row `PKT.P45.ENTER` as a command. -/

namespace Sys2Proof.Machine

/-- The condition word of the Protocol-4/5 enter pattern, `(PKT[1] & 0xFC) == 0xC0` (R112, R123), with
the rule's `VALID` bit. -/
def p45EnterCond : Word := 0x80C0FC01

/-- The descriptor of the tool ID, `(PKT[2] << 4) | (PKT[3] >> 4)` (R123): header and fragments. -/
def p45ToolIdField : List Word := [0x80000002, 0x0004FF02, 0x003CF003]

/-- The descriptor of the serial number over `PKT[3]`..`PKT[7]` (R124): header and fragments. -/
def p45SerialField : List Word :=
  [0x80000005, 0x001C0F03, 0x0014FF04, 0x000CFF05, 0x0004FF06, 0x003CFF07]

/-- Store the words of a descriptor at entry `fid` of FDT (10_state.md R45). -/
def State.loadField (s : State) (fid : Nat) (ws : List Word) : State :=
  { s with fdt := ws.zipIdx.foldl (fun m p => Memory.write m (8 * fid + p.2) p.1) s.fdt }

/-- `PKT.P45.ENTER` issued as a command: the table says it is "never decoded as a command", so the
word 0x000000C0 + `low` is an illegal encoding, with opcode 0x00, and the command step does with it what
it does with every such word (R101, R104; logs 5 and 6). -/
def execPktP45Enter (low : BitVec 2) (s : State) : Out :=
  .next (illegalWord (opField (encode (.pktP45Enter low))) s)

end Sys2Proof.Machine
end

