-- ==== Sys2Proof/Machine/System.lean ====
section
/-! DEFINITION. The system commands (45_system_ops.md R330 to R339). -/

namespace Sys2Proof.Machine

/-- `NOP` (R330): does nothing, in every state. -/
def execNop (s : State) : Out := .next s

/-- `LI rd, imm16` (R331), in every state. -/
def execLi (rd : RegNum) (imm : BitVec 16) (s : State) : Out := .next (s.setReg rd (imm.setWidth 32))

/-- `LUI rd, imm16` (R332): the upper half replaced, the lower half kept, in every state. -/
def execLui (rd : RegNum) (imm : BitVec 16) (s : State) : Out :=
  .next (s.setReg rd (imm ++ (s.reg rd).extractLsb' 0 16))

/-- `MFSR rd, sr` (R333), in every state: an undefined number reads 0 and sets `ERR_CMD`. -/
def execMfsr (rd : RegNum) (sr : BitVec 16) (s : State) : Out :=
  match SysReg.ofNum sr with
  | some r => .next (s.setReg rd (s.readSys r))
  | none => .next (s.setErrCmd.setReg rd 0)

/-- `MTSR` outside the fault state (R334): `STATUS` clears flags in both states, a CFG register is
written in the CONFIG state with a legal value, everything else is refused. -/
def State.mtsr (s : State) (sr : BitVec 16) (v : Word) : State :=
  match SysReg.ofNum sr with
  | some .status => { s with status := s.status.clearSticky v }
  | some r => if s.status.run then refuse s else (s.writeCfg r v).getD (refuse s)
  | none => refuse s

/-- `MTSR sr, rs1` (R334); ignored in the fault state. -/
def execMtsr (sr : BitVec 16) (rs1 : RegNum) (s : State) : Out :=
  inAnyState s fun s => s.mtsr sr (s.reg rs1)

/-- `TRD rd, rs1, space` (R336), in every state: an undefined space or an index out of range reads 0
and sets `ERR_CMD`. -/
def execTrd (rd rs1 : RegNum) (space : BitVec 16) (s : State) : Out :=
  match Space.ofId space with
  | some sp =>
    if (s.reg rs1).toNat < s.spaceSize sp then .next (s.setReg rd (s.memRead sp (s.reg rs1).toNat))
    else .next (s.setErrCmd.setReg rd 0)
  | none => .next (s.setErrCmd.setReg rd 0)

/-- The table write of R337: an undefined space, an index out of range or a space the host may not
write is refused. -/
def State.twr (s : State) (space : BitVec 16) (i : Nat) (v : Word) : State :=
  match Space.ofId space with
  | some sp => if i < s.spaceSize sp then (s.memWrite sp i v).getD (refuse s) else refuse s
  | none => refuse s

/-- `TWR rv, rs1, space` (R337): CONFIG state only. -/
def execTwr (rv rs1 : RegNum) (space : BitVec 16) (s : State) : Out :=
  inConfig s fun s => s.twr space (s.reg rs1).toNat (s.reg rv)

/-- The pad entry `INIT` sets (10_state.md R52). -/
def Channel.padEntry : Channel := { toolType := .pad, inProx := true }

/-- The channel table after `INIT` (R338). -/
def State.initCht (s : State) : List Channel :=
  let empty := List.replicate s.params.nchMax Channel.empty
  if s.hasPad then empty.set s.nch.toNat Channel.padEntry else empty

/-- `INIT` where it is not refused (R338; 10_state.md R60, third column). -/
def State.initSession (s : State) : State :=
  { s with
    cht := s.initCht
    lastch := noch
    ring := []
    pkt := []
    pktcnt := 0
    evcnt := 0
    status := s.status.afterInit }

/-- R338: `INIT` is refused while no packet length is configured, or for ISDV4 without a header mask. -/
def State.initRefused (s : State) : Bool :=
  s.plen == 0 || (s.proto == .isdv4 && s.hdrmask == 0)

/-- `INIT` (R338), in the CONFIG and the RUN state. -/
def execInit (s : State) : Out :=
  inAnyState s fun s => if s.initRefused then refuse s else s.initSession

/-- `HALT` (R339), in the CONFIG and the RUN state: `RUN` 0, nothing else changes. -/
def execHalt (s : State) : Out :=
  inAnyState s fun s => { s with status := { s.status with run := false } }

end Sys2Proof.Machine
end

