-- ==== Sys2Proof/Machine/Dispatch.lean ====
section
/-! DEFINITION. One arm per instruction: each a direct call of its meaning. -/

namespace Sys2Proof.Machine

def exec (i : Instr) (s : State) : Host.Outcome State Fault Refusal :=
  match i with
  | .nop => Sys2Proof.Machine.execNop s
  | .li rd imm => Sys2Proof.Machine.execLi rd imm s
  | .lui rd imm => Sys2Proof.Machine.execLui rd imm s
  | .mfsr rd sr => Sys2Proof.Machine.execMfsr rd sr s
  | .mtsr sr rs1 => Sys2Proof.Machine.execMtsr sr rs1 s
  | .trd rd rs1 space => Sys2Proof.Machine.execTrd rd rs1 space s
  | .twr rv rs1 space => Sys2Proof.Machine.execTwr rv rs1 space s
  | .init => Sys2Proof.Machine.execInit s
  | .halt => Sys2Proof.Machine.execHalt s
  | .rdfld rd fid => Sys2Proof.Machine.execRdfld rd fid s
  | .build rs1 rs2 => Sys2Proof.Machine.execBuild rs1 rs2 s
  | .apply rd rs1 rs2 => Sys2Proof.Machine.execApply rd rs1 rs2 s
  | .enter rd rs1 rs2 => Sys2Proof.Machine.execEnter rd rs1 rs2 s
  | .exit rs1 => Sys2Proof.Machine.execExit rs1 s
  | .chfor rd rs1 mode => Sys2Proof.Machine.execChfor rd rs1 mode s
  | .feed b => Sys2Proof.Machine.execFeed b s
  | .feedr rs1 => Sys2Proof.Machine.execFeedr rs1 s
  | .nextpkt rd => Sys2Proof.Machine.execNextpkt rd s
  | .decode rd => Sys2Proof.Machine.execDecode rd s
  | .pump rd => Sys2Proof.Machine.execPump rd s
  | .pktP45Enter low => Sys2Proof.Machine.execPktP45Enter low s

end Sys2Proof.Machine
end

