-- ==== Sys2Proof/Machine/Step.lean ====
section
/-! DEFINITION. One step: the host's next input (30_encoding.md R101; 70_reset_and_hazards.md R400, R402). -/

namespace Sys2Proof.Machine

/-- The command step on word `w` (R101): an illegal encoding is ignored or refused, a legal one is
executed by its meaning, which makes the checks of steps 1 and 3 itself. -/
def commandStep (w : Word) (s : State) : Host.Outcome State Fault Refusal :=
  match decode w with
  | .ok i => exec i s
  | .error _ => .next (illegalWord (opField w) s)

/-- One step of the machine: the host's next input is taken; with none the block waits (R402, log 4). -/
def step (s : State) : Host.Outcome State Fault Refusal :=
  match s.takeInput with
  | none => .next s
  | some (.reset x, t) => .next (hardwareReset x t)
  | some (.command w, t) => commandStep w t

/-- The state in which the host issues the word `w` next (log 3). -/
def State.withFetchWord (s : State) (_nbits w : Nat) : State := s.issue (BitVec.ofNat 32 w)

end Sys2Proof.Machine
end

