-- ==== Sys2Proof/Safety.lean ====
section
/-! DEFINITION. What statements speak of: the opcode table's rows, which state a command needs, what a run
may rely on (the invariants), and readings of the rules that the statements compare the meanings with. -/

namespace Sys2Proof

/-- The `match` value of the instruction's row of spec/opcode_table.json. -/
def Instr.rowMatch : Instr → Word
  | .nop => 0x00000000
  | .li _ _ => 0x01000000
  | .lui _ _ => 0x02000000
  | .mfsr _ _ => 0x03000000
  | .mtsr _ _ => 0x04000000
  | .trd _ _ _ => 0x05000000
  | .twr _ _ _ => 0x06000000
  | .init => 0x07000000
  | .halt => 0x08000000
  | .rdfld _ _ => 0x10000000
  | .build _ _ => 0x20000000
  | .apply _ _ _ => 0x21000000
  | .enter _ _ _ => 0x30000000
  | .exit _ => 0x31000000
  | .chfor _ _ _ => 0x32000000
  | .feed _ => 0x40000000
  | .feedr _ => 0x41000000
  | .nextpkt _ => 0x42000000
  | .decode _ => 0x43000000
  | .pump _ => 0x44000000
  | .pktP45Enter _ => 0x000000C0

/-- The `mask` value of the instruction's row of spec/opcode_table.json. -/
def Instr.rowMask : Instr → Word
  | .nop => 0xFFFFFFFF
  | .li _ _ => 0xFF0F0000
  | .lui _ _ => 0xFF0F0000
  | .mfsr _ _ => 0xFF0F0000
  | .mtsr _ _ => 0xFFF00000
  | .trd _ _ _ => 0xFF000000
  | .twr _ _ _ => 0xFF000000
  | .init => 0xFFFFFFFF
  | .halt => 0xFFFFFFFF
  | .rdfld _ _ => 0xFF0F0000
  | .build _ _ => 0xFFF00FFF
  | .apply _ _ _ => 0xFF000FFF
  | .enter _ _ _ => 0xFF000FFF
  | .exit _ => 0xFFF0FFFF
  | .chfor _ _ _ => 0xFF00FFFC
  | .feed _ => 0xFFFFFF00
  | .feedr _ => 0xFFF0FFFF
  | .nextpkt _ => 0xFF0FFFFF
  | .decode _ => 0xFF0FFFFF
  | .pump _ => 0xFF0FFFFF
  | .pktP45Enter _ => 0x000000FC

/-- The command rows of spec/opcode_table.json, each `match` and `mask`. -/
def commandRows : List (Word × Word) :=
  [(0x00000000, 0xFFFFFFFF), (0x01000000, 0xFF0F0000), (0x02000000, 0xFF0F0000),
   (0x03000000, 0xFF0F0000), (0x04000000, 0xFFF00000), (0x05000000, 0xFF000000),
   (0x06000000, 0xFF000000), (0x07000000, 0xFFFFFFFF), (0x08000000, 0xFFFFFFFF),
   (0x10000000, 0xFF0F0000), (0x20000000, 0xFFF00FFF), (0x21000000, 0xFF000FFF),
   (0x30000000, 0xFF000FFF), (0x31000000, 0xFFF0FFFF), (0x32000000, 0xFF00FFFC),
   (0x40000000, 0xFFFFFF00), (0x41000000, 0xFFF0FFFF), (0x42000000, 0xFF0FFFFF),
   (0x43000000, 0xFF0FFFFF), (0x44000000, 0xFF0FFFFF)]

/-- The operating state a command needs (60_exceptions.md R381). -/
inductive Need where
  /-- `NOP`, `LI`, `LUI`, `MFSR`, `TRD`: every state, the fault state too. -/
  | every
  /-- CONFIG and RUN. -/
  | noFault
  /-- CONFIG only. -/
  | config
  /-- RUN only. -/
  | run
  deriving DecidableEq, Repr

/-- The table of R381; none for the packet-pattern row, which is no command. `MTSR` needs CONFIG but
for `STATUS`. -/
def Instr.need : Instr → Option Need
  | .nop | .li _ _ | .lui _ _ | .mfsr _ _ | .trd _ _ _ => some .every
  | .rdfld _ _ | .apply _ _ _ | .init | .halt => some .noFault
  | .mtsr sr _ => some (if sr = 0x01 then .noFault else .config)
  | .twr _ _ _ | .build _ _ => some .config
  | .enter _ _ _ | .exit _ | .chfor _ _ _ | .feed _ | .feedr _ | .nextpkt _ | .decode _ | .pump _ =>
    some .run
  | .pktP45Enter _ => none

namespace Machine

/-! ### Frames -/

/-- `t` is `s` but for operand register `rd`, which holds `v`. -/
structure OnlyReg (s : State) (rd : RegNum) (v : Word) (t : State) : Prop where
  written : t.reg rd = v
  others : ∀ r, r ≠ rd → t.reg r = s.reg r
  rest : { t with x := s.x } = s

/-- `t` is `s` after a refused command (30_encoding.md R102): `ERR_CMD` set, nothing else. -/
def Refused (s t : State) : Prop := t = { s with status := { s.status with errCmd := true } }

/-- `t` is `s` after taking the fault `cause`, `info` (60_exceptions.md R364). -/
def Faulted (s : State) (cause : FCause) (info : Word) (t : State) : Prop :=
  t = { s with status := { s.status with fault := true }, fcause := cause, finfo := info }

/-! ### System registers and tables, read as the rules' tables list them -/

/-- The system registers of 10_state.md R30: number and value. -/
def State.sysRegs (s : State) : List (Nat × Word) :=
  [(0x00, 0x42465801), (0x01, s.status.toWord), (0x02, s.fcause.code), (0x03, s.finfo),
   (0x04, s.proto.code), (0x05, word s.plen.toNat), (0x06, word s.nch.toNat),
   (0x07, word s.caps.toNat), (0x08, word s.hdrmask.toNat), (0x09, s.tselmap),
   (0x0A, s.lsel[0]), (0x0B, s.lsel[1]), (0x0C, s.lsel[2]), (0x0D, s.lsel[3]),
   (0x10, s.xmax), (0x11, s.ymax), (0x12, s.pmax), (0x13, s.txmax), (0x14, s.tymax),
   (0x15, s.dmax), (0x16, s.version),
   (0x18, s.pktcnt), (0x19, s.evcnt), (0x1A, s.lastch), (0x1B, word s.ring.length),
   (0x1C, word s.pkt.length)]

/-- `v` is legal for the CFG register numbered `n` (45_system_ops.md R335). -/
def State.cfgLegal (s : State) (n v : Nat) : Prop :=
  (n = 0x04 ∧ v ≤ 5) ∨
  (n = 0x05 ∧ 1 ≤ v ∧ v ≤ s.params.pktMax) ∨
  (n = 0x06 ∧ 1 ≤ v ∧ v + (if s.hasPad then 1 else 0) ≤ s.params.nchMax) ∨
  (n = 0x07 ∧ v ≤ 15 ∧ (8 ≤ v → s.nch.toNat + 1 ≤ s.params.nchMax)) ∨
  (n = 0x08 ∧ v ≤ 255) ∨
  n = 0x09 ∨
  (0x0A ≤ n ∧ n ≤ 0x0D ∧ v / 2 ^ 24 % 128 = 0 ∧
    (2 ^ 31 ≤ v → 1 ≤ v % 256 ∧ v % 256 ≤ s.params.pktMax)) ∨
  (0x10 ≤ n ∧ n ≤ 0x16)

/-- `t` has the registers numbered 0x04..0x16 anew, and all else as `s` has it. -/
def ProfileOnly (s t : State) : Prop :=
  { t with
    proto := s.proto, plen := s.plen, nch := s.nch, caps := s.caps, hdrmask := s.hdrmask,
    tselmap := s.tselmap, lsel := s.lsel, xmax := s.xmax, ymax := s.ymax, pmax := s.pmax,
    txmax := s.txmax, tymax := s.tymax, dmax := s.dmax, version := s.version } = s

/-- Word `k` of a channel entry (30_encoding.md R122). -/
def Channel.tableWord (e : Channel) (k : Fin 16) : Word :=
  if k = 0 then e.serial
  else if k = 1 then word (e.toolType.code.toNat + if e.inProx then 16 else 0)
  else if k = 2 then e.toolId
  else if k = 3 then e.btn
  else if k = 4 then e.stamp
  else if h : 6 ≤ k.val then e.axis[k.val - 6]
  else 0

/-- What index `i` of space `id` holds; none where the index or the space is not legal (20_memory.md R70,
R71). -/
def State.table (s : State) (id i : Nat) : Option Word :=
  match id with
  | 0 => if i < 8 * s.params.fdtSize then some (Memory.read s.fdt i) else none
  | 1 => if i < 4 * s.params.clsSize then some (Memory.read s.cls i) else none
  | 2 => if i < 128 then some (Memory.read s.lay i) else none
  | 3 => if i < 2 * s.params.tidSize then some (Memory.read s.tid i) else none
  | 4 => if i ≤ s.params.curveRes then some (Memory.read s.lut i) else none
  | 5 =>
    if i < 16 * s.params.nchMax then
      some ((s.ch (i / 16)).tableWord ⟨i % 16, Nat.mod_lt i (by decide)⟩)
    else none
  | 6 => (s.pkt[i]?).map fun b => word b.toNat
  | _ => none

/-! ### Invariants -/

/-- The profile registers hold only legal values (45_system_ops.md R335), and RUN is entered only with a
packet length and, for ISDV4, a header mask (R338). -/
structure ProfileLegal (s : State) : Prop where
  params : s.params.Wf
  plen_le : s.plen.toNat ≤ s.params.pktMax
  nch_pos : 1 ≤ s.nch.toNat
  nch_le : s.nch.toNat + (if s.hasPad then 1 else 0) ≤ s.params.nchMax
  lsel_ok : ∀ j : Fin 4, legalLsel s.params s.lsel[j] = true
  run_plen : s.status.run = true → 1 ≤ s.plen.toNat
  run_hdrmask : s.status.run = true → s.proto = .isdv4 → s.hdrmask ≠ 0

/-- The five table memories are in canonical form, and hold nothing past their size (10_state.md R45 to
R49, 20_memory.md R70). -/
structure TablesSound (s : State) : Prop where
  fdt_wf : Memory.wf s.fdt = true
  cls_wf : Memory.wf s.cls = true
  lay_wf : Memory.wf s.lay = true
  tid_wf : Memory.wf s.tid = true
  lut_wf : Memory.wf s.lut = true
  fdt_end : ∀ i, 8 * s.params.fdtSize ≤ i → Memory.read s.fdt i = 0
  cls_end : ∀ i, 4 * s.params.clsSize ≤ i → Memory.read s.cls i = 0
  lay_end : ∀ i, 128 ≤ i → Memory.read s.lay i = 0
  tid_end : ∀ i, 2 * s.params.tidSize ≤ i → Memory.read s.tid i = 0
  lut_end : ∀ i, s.params.curveRes < i → Memory.read s.lut i = 0

/-- `PKTVALID` says whether there is a packet (10_state.md R55); PKT and the ring keep within their
capacities (R53, R54). -/
structure PacketBuffer (s : State) : Prop where
  valid_iff : s.status.pktValid = false ↔ s.pkt = []
  pkt_le : s.pkt.length ≤ s.params.pktMax
  ring_le : s.ring.length ≤ s.params.ringSize

/-- 10_state.md R51 (i) and (ii), in whatever operating state. -/
structure ChannelsKept (s : State) : Prop where
  out_cleared :
    ∀ c, c < s.nch.toNat → (s.ch c).inProx = false → s.ch c = { stamp := (s.ch c).stamp }
  unused_empty :
    ∀ c, s.nch.toNat + (if s.hasPad then 1 else 0) ≤ c → s.ch c = Channel.empty

/-- The channel table in the RUN state (10_state.md R51 (i) and (ii), R52), and its size. -/
structure ChannelTable (s : State) : Prop where
  size : s.cht.length = s.params.nchMax
  kept : s.status.run = true → ChannelsKept s
  pad_present : s.status.run = true → s.hasPad = true →
    (s.ch s.nch.toNat).toolType = .pad ∧ (s.ch s.nch.toNat).inProx = true ∧
      (s.ch s.nch.toNat).serial = 0
  lastch_ok : s.status.run = true → s.lastch = noch ∨ s.lastch.toNat < s.nch.toNat

/-- 10_state.md R51 (iii), in whatever operating state: tool channels in proximity hold different serial
numbers. -/
def SerialsApart (s : State) : Prop :=
  ∀ c d, c < s.nch.toNat → d < s.nch.toNat → c ≠ d →
    (s.ch c).inProx = true → (s.ch d).inProx = true → (s.ch c).serial ≠ (s.ch d).serial

/-- R51 (iii) in the RUN state. -/
def SerialsDistinct (s : State) : Prop := s.status.run = true → SerialsApart s

/-- The host's next input is an `MTSR` of the register numbered `sr`. -/
def State.NextWrites (s : State) (sr : BitVec 16) : Prop :=
  ∃ w rest rs1, s.input = .command w :: rest ∧ decode w = .ok (.mtsr sr rs1)

/-- The fault record says whether a fault has been raised (10_state.md R33, R34). -/
structure FaultRecord (s : State) : Prop where
  clear : s.status.fault = false → s.fcause = .none ∧ s.finfo = 0
  raised : s.status.fault = true → s.fcause ≠ .none

/-! ### The bitfield extractor in plain arithmetic (40_bitfield_extractor.md R142) -/

/-- Word `k` of descriptor `fid`. -/
def State.fieldWord (s : State) (fid k : Nat) : Nat := (Memory.read s.fdt (8 * fid + k)).toNat

/-- `NFRAG` (30_encoding.md R110). -/
def State.fieldCount (s : State) (fid : Nat) : Nat := s.fieldWord fid 0 % 8

/-- The descriptor may be used (R141). -/
def State.fieldUsable (s : State) (fid : Nat) : Prop :=
  fid < s.params.fdtSize ∧ 2 ^ 31 ≤ s.fieldWord fid 0 ∧ s.fieldCount fid ≠ 7

/-- `BYTEIDX` of fragment `k` (30_encoding.md R111). -/
def State.fragIdx (s : State) (fid k : Nat) : Nat := s.fieldWord fid k % 256

/-- What fragment `k` contributes: the masked byte, moved left modulo 2^32 or right (R142). -/
def State.fragValue (s : State) (fid k : Nat) : Nat :=
  let byte := (s.pkt[s.fragIdx fid k]?.getD 0).toNat &&& (s.fieldWord fid k / 256 % 256)
  let sh6 := s.fieldWord fid k / 65536 % 64
  if sh6 < 32 then byte * 2 ^ sh6 % 2 ^ 32 else byte / 2 ^ (64 - sh6)

/-- The fragments OR'ed together (R144). -/
def State.fieldBits (s : State) (fid : Nat) : Nat :=
  (List.range (s.fieldCount fid)).foldl (fun acc k => acc ||| s.fragValue fid (k + 1)) 0

/-! ### The pressure curve in plain arithmetic (41_pressure_curve.md) -/

/-- The control point in the register word `w` (30_encoding.md R106, R171). -/
def packedPoint (w : Word) : Pt :=
  ⟨((min (w.toNat / 65536) 32768 : ℕ) : ℚ) / 32768, ((min (w.toNat % 65536) 32768 : ℕ) : ℚ) / 32768⟩

/-- Some point of the segment `a`–`d` is nearer to `p` than `tol` (R174, R175). -/
def NearSegment (tol : ℚ) (p a d : Pt) : Prop :=
  ∃ r : ℚ, 0 ≤ r ∧ r ≤ 1 ∧
    (p.x - (a.x + r * (d.x - a.x))) ^ 2 + (p.y - (a.y + r * (d.y - a.y))) ^ 2 < tol ^ 2

/-- The segments that `subdivide(a, b, c, d, depth)` draws, in order (R173): the chord where it is flat
enough or the depth is `DEPTH_MAX`, else those of the first half of the curve, then those of the second. -/
inductive CurveSegments (m : Params) : (depth : Nat) → (a b c d : Pt) → List (Pt × Pt) → Prop
  | chord (depth : Nat) (a b c d : Pt) :
      depth = m.depthMax ∨ (NearSegment m.flatTol b a d ∧ NearSegment m.flatTol c a d) →
      CurveSegments m depth a b c d [(a, d)]
  | halves (depth : Nat) (a b c d ab abc h bcd cd : Pt) (first second : List (Pt × Pt)) :
      depth ≠ m.depthMax → ¬ (NearSegment m.flatTol b a d ∧ NearSegment m.flatTol c a d) →
      ab = ⟨(a.x + b.x) / 2, (a.y + b.y) / 2⟩ →
      cd = ⟨(c.x + d.x) / 2, (c.y + d.y) / 2⟩ →
      abc = ⟨(a.x + 2 * b.x + c.x) / 4, (a.y + 2 * b.y + c.y) / 4⟩ →
      bcd = ⟨(b.x + 2 * c.x + d.x) / 4, (b.y + 2 * c.y + d.y) / 4⟩ →
      h = ⟨(a.x + 3 * b.x + 3 * c.x + d.x) / 8, (a.y + 3 * b.y + 3 * c.y + d.y) / 8⟩ →
      CurveSegments m (depth + 1) a ab abc h first →
      CurveSegments m (depth + 1) h bcd cd d second →
      CurveSegments m depth a b c d (first ++ second)

/-- The line from `(x0, y0)`, through `dx` indexes and `dy` values upwards, leaves `v` at index `i` (R178):
x-dominant one value an index, else the last of the values that fall on the index. Halves round up. -/
def LineLeaves (x0 y0 dx dy i v : Nat) : Prop :=
  if dy < dx then
    ∃ j, j ≤ dx ∧ i = x0 + j ∧ v = y0 + (2 * j * dy + dx) / (2 * dx)
  else
    ∃ k, k ≤ dy ∧ i = x0 + (2 * k * dx + dy) / (2 * dy) ∧ v = y0 + k ∧
      ∀ l, k < l → l ≤ dy → i ≠ x0 + (2 * l * dx + dy) / (2 * dy)

/-- A segment end as a table coordinate: `floor(q * N)` (R177). -/
def tableCoord (n : Nat) (q : ℚ) : Nat := ⌊q * n⌋.toNat

/-- The segment `e`, whose ends do not decrease, leaves `v` at index `i` of a table of `n + 1` words (R177,
R178). -/
def SegmentLeaves (n : Nat) (e : Pt × Pt) (i v : Nat) : Prop :=
  LineLeaves (tableCoord n e.1.x) (tableCoord n e.1.y)
    (tableCoord n e.2.x - tableCoord n e.1.x) (tableCoord n e.2.y - tableCoord n e.1.y) i v

/-! ### Arbitration (42_channel_table.md) -/

/-- `holds(c, S)` (R210). -/
abbrev State.Holds (s : State) (c : Nat) (serial : Word) : Prop :=
  c < s.nch.toNat ∧ (s.ch c).inProx = true ∧ (s.ch c).serial = serial

/-- `find(S)` is `c`. -/
abbrev State.Finds (s : State) (serial : Word) (c : Nat) : Prop :=
  s.Holds c serial ∧ ∀ d, d < c → ¬ s.Holds d serial

/-- `find(S)` is `NOCH`. -/
abbrev State.FindsNone (s : State) (serial : Word) : Prop :=
  ∀ d, d < s.nch.toNat → ¬ s.Holds d serial

/-- `free(c)` (R211). -/
abbrev State.Vacant (s : State) (c : Nat) : Prop :=
  c < s.nch.toNat ∧ (s.ch c).inProx = false ∧ (s.ch c).serial = 0

/-- `arb_enter(S)` answers `c` (R212), `exhausted` when it falls back on channel 0. -/
def State.ArbEnters (s : State) (serial : Word) (c : Nat) (exhausted : Bool) : Prop :=
  (s.Finds serial c ∧ exhausted = false) ∨
  (s.FindsNone serial ∧ s.Vacant c ∧ (∀ d, d < c → ¬ s.Vacant d) ∧ exhausted = false) ∨
  (s.FindsNone serial ∧ (∀ d, d < s.nch.toNat → ¬ s.Vacant d) ∧ c = 0 ∧ exhausted = true)

/-- `exit_target(S)` (R218). -/
def State.ExitsTo (s : State) (serial : Word) : Option Nat → Prop
  | some c => s.Finds serial c ∨ (s.FindsNone serial ∧ s.nch.toNat = 1 ∧ c = 0)
  | none => s.FindsNone serial ∧ s.nch.toNat ≠ 1

/-- A tool-type code of a map, and the tool it gives: PEN and `unknown` for 0 and above 9 (R213). -/
def GivesTool (code : Nat) (tool : ToolType) (unknown : Bool) : Prop :=
  if 1 ≤ code ∧ code ≤ 9 then tool.code.toNat = code ∧ unknown = false
  else tool = .pen ∧ unknown = true

/-- Tool-ID map entry `i` is valid and its key is `code`. -/
abbrev State.TidHit (s : State) (code : Word) (i : Nat) : Prop :=
  2 ^ 31 ≤ (Memory.read s.tid (2 * i + 1)).toNat ∧ Memory.read s.tid (2 * i) = code

/-- `tidmap(code)` gives `tool` (R213), `unknown` when it sets `ERR_UNKTOOL`. -/
def State.MapsTool (s : State) (code : Word) (tool : ToolType) (unknown : Bool) : Prop :=
  (∃ i, i < s.params.tidSize ∧ s.TidHit code i ∧ (∀ j, j < i → ¬ s.TidHit code j) ∧
    GivesTool ((Memory.read s.tid (2 * i + 1)).toNat % 16) tool unknown) ∨
  ((∀ i, i < s.params.tidSize → ¬ s.TidHit code i) ∧ tool = .pen ∧ unknown = true)

/-- `tselmap(v)` gives `tool` (R214), `unknown` when it sets `ERR_UNKTOOL`. -/
def State.SelectsTool (s : State) (v : Word) (tool : ToolType) (unknown : Bool) : Prop :=
  ∃ mapped, (if v.toNat ≤ 7 then GivesTool (s.tselmap.toNat / 16 ^ v.toNat % 16) mapped unknown
      else mapped = .pen ∧ unknown = true) ∧
    tool = if mapped = .eraser ∧ s.hasEraser = false then .pen else mapped

/-- Entry `c` after `enter_proc` (R216): a repeated enter keeps the caches, every other starts from the
empty entry. -/
def State.populated (s : State) (c : Nat) (serial code : Word) (tool : ToolType) : Channel :=
  if (s.ch c).inProx = true ∧ (s.ch c).serial = serial then
    { s.ch c with toolType := tool, toolId := code, stamp := s.pktcnt }
  else
    { serial := serial, toolType := tool, inProx := true, toolId := code, stamp := s.pktcnt }

/-! ### Framing (44_frame_synchronizer.md) -/

/-- `LSEL` register `w` is valid and matches the header byte (R307). -/
abbrev lselHit (w : Word) (b0 : Byte) : Prop :=
  2 ^ 31 ≤ w.toNat ∧ b0.toNat &&& (w.toNat / 65536 % 256) = w.toNat / 256 % 256

/-- The packet length the header byte `b0` selects (R307). -/
def State.SelectsLength (s : State) (b0 : Byte) (len : Nat) : Prop :=
  (∃ j : Fin 4, lselHit s.lsel[j] b0 ∧ (∀ k : Fin 4, k < j → ¬ lselHit s.lsel[k] b0) ∧
    len = s.lsel[j].toNat % 256) ∨
  ((∀ k : Fin 4, ¬ lselHit s.lsel[k] b0) ∧ len = s.plen.toNat)

/-- `hdr(b)` (R306). -/
abbrev State.IsHeader (s : State) (b : Byte) : Prop := b &&& s.hdrmask ≠ 0

/-- The header-bit framing of R306 on the bytes `ring`: the bytes that stay, whether any was discarded,
and the length of the whole packet at their front, if there is one. -/
inductive HeaderScan (s : State) : (ring kept : List Byte) → (discarded : Bool) → Option Nat → Prop
  | empty : HeaderScan s [] [] false none
  | garbage (b : Byte) (rest kept : List Byte) (d : Bool) (o : Option Nat) :
      ¬ s.IsHeader b → HeaderScan s rest kept d o → HeaderScan s (b :: rest) kept true o
  | truncated (b0 : Byte) (rest kept : List Byte) (len k : Nat) (d : Bool) (o : Option Nat) :
      s.IsHeader b0 → s.SelectsLength b0 len → 1 ≤ k → k < len →
      (∃ b, (b0 :: rest)[k]? = some b ∧ s.IsHeader b) →
      (∀ j b, 1 ≤ j → j < k → (b0 :: rest)[j]? = some b → ¬ s.IsHeader b) →
      HeaderScan s ((b0 :: rest).drop k) kept d o → HeaderScan s (b0 :: rest) kept true o
  | short (b0 : Byte) (rest : List Byte) (len : Nat) :
      s.IsHeader b0 → s.SelectsLength b0 len → rest.length + 1 < len →
      (∀ b, b ∈ rest → ¬ s.IsHeader b) →
      HeaderScan s (b0 :: rest) (b0 :: rest) false none
  | whole (b0 : Byte) (rest : List Byte) (len : Nat) :
      s.IsHeader b0 → s.SelectsLength b0 len → len ≤ rest.length + 1 →
      (∀ j b, 1 ≤ j → j < len → (b0 :: rest)[j]? = some b → ¬ s.IsHeader b) →
      HeaderScan s (b0 :: rest) (b0 :: rest) false (some len)

/-- `s` after `next_packet` keeps the bytes `kept`, has discarded some or none, and latches a packet of
`len` bytes if there is one (R306, R308). -/
def State.afterScan (s : State) (kept : List Byte) (discarded : Bool) (o : Option Nat) : State :=
  match o with
  | none =>
    { s with
      ring := kept
      status := { s.status with errFraming := s.status.errFraming || discarded } }
  | some len =>
    { s with
      ring := kept.drop len
      pkt := kept.take len
      pktcnt := s.pktcnt + 1
      status := { s.status with
        errFraming := s.status.errFraming || discarded
        pktValid := true } }

/-! ### Classification and extraction (43_protocol_decoders.md) -/

/-- Word `k` of classification rule `i`. -/
def State.ruleWord (s : State) (i k : Nat) : Nat := (Memory.read s.cls (4 * i + k)).toNat

/-- How a condition word comes out (R242). -/
inductive CondResult where
  | holds | fails | pastPacket
  deriving DecidableEq, Repr

/-- The condition `(IDX, MASK, VAL)` in the word `w` (R242). -/
def State.condResult (s : State) (w : Nat) : CondResult :=
  if w / 256 % 256 = 0 then (if w / 65536 % 256 = 0 then .holds else .fails)
  else
    match s.pkt[w % 256]? with
    | none => .pastPacket
    | some b => if b.toNat &&& (w / 256 % 256) = w / 65536 % 256 then .holds else .fails

/-- Rule `i` is valid (30_encoding.md R112). -/
abbrev State.RuleValid (s : State) (i : Nat) : Prop := 2 ^ 31 ≤ s.ruleWord i 0

/-- Rule `i` is passed over: not valid, or A fails, or A holds and B fails (R242). -/
abbrev State.RuleMisses (s : State) (i : Nat) : Prop :=
  ¬ s.RuleValid i ∨ s.condResult (s.ruleWord i 0) = .fails ∨
    (s.condResult (s.ruleWord i 0) = .holds ∧ s.condResult (s.ruleWord i 1) = .fails)

/-- `classify()` answers rule `i` (R242). -/
abbrev State.FirstHit (s : State) (i : Nat) : Prop :=
  i < s.params.clsSize ∧ s.RuleValid i ∧ s.condResult (s.ruleWord i 0) = .holds ∧
    s.condResult (s.ruleWord i 1) = .holds ∧ ∀ j, j < i → s.RuleMisses j

/-- `KIND` (30_encoding.md R112). -/
def State.kindOf (s : State) (i : Nat) : Nat := s.ruleWord i 2 % 16
/-- `LAYOUT`. -/
def State.layoutOf (s : State) (i : Nat) : Nat := s.ruleWord i 2 / 16 % 16
/-- `CHMODE`. -/
def State.modeOf (s : State) (i : Nat) : Nat := s.ruleWord i 2 / 256 % 4
/-- `FIXEDCH`. -/
def State.fixedOf (s : State) (i : Nat) : Nat := s.ruleWord i 2 / 1024 % 64
/-- `REQTOUCH`. -/
def State.reqTouchOf (s : State) (i : Nat) : Bool := s.ruleWord i 2 / 65536 % 2 == 1

/-- The kinds legal for a protocol (30_encoding.md R118, R244). -/
def kindsOf : Proto → List Nat
  | .penPartner | .graphire | .pl => [0, 1]
  | .proto4 | .proto5 => [0, 2, 3, 4, 5]
  | .isdv4 => [0, 1, 6, 7]

/-- A packet is latched, the RUN state decodes, and the first rule it hits is `i` (R240, R242). -/
abbrev State.DecodesRule (s : State) (i : Nat) : Prop :=
  s.status.fault = false ∧ s.status.run = true ∧ s.status.pktValid = true ∧ s.FirstHit i

/-- The capabilities turn the packet of rule `i` into an IGNORE (R245). -/
abbrev State.PacketGated (s : State) (i : Nat) : Prop :=
  (s.reqTouchOf i = true ∧ s.status.touchCap = false) ∨ (s.kindOf i = 5 ∧ s.hasPad = false)

/-- The packet has kind `kind` by rule `i`, legally (R244), and no capability gates it (R245). -/
abbrev State.DecodesKind (s : State) (i kind : Nat) : Prop :=
  s.DecodesRule i ∧ s.kindOf i = kind ∧ kind ∈ kindsOf s.proto ∧ s.modeOf i ≠ 3 ∧ ¬ s.PacketGated i

/-- The slots a kind uses, ascending, without TAG (R246). -/
def kindSlots : Nat → List Nat
  | 1 => [0, 1, 5, 6, 7, 8, 9, 10, 11, 12, 13, 14, 15]
  | 2 => [3, 4]
  | 3 => [4]
  | 4 => [4, 5, 6, 7, 8, 9, 10, 11, 12, 13, 14, 15]
  | 5 => [5, 14, 15]
  | 6 => [16, 17, 18, 19, 20, 21, 22]
  | _ => []

/-- The slots of the packet in extraction order, TAG last in TAG mode (R246, R248). -/
def State.slotOrder (s : State) (i : Nat) : List Nat :=
  kindSlots (s.kindOf i) ++
    if s.modeOf i = 1 ∧ 1 ≤ s.kindOf i ∧ s.kindOf i ≤ 4 then [2] else []

/-- The slot byte of rule `i`'s layout (30_encoding.md R113). -/
def State.slotCode (s : State) (i n : Nat) : Nat :=
  (Memory.read s.lay (8 * s.layoutOf i + n / 4)).toNat / 256 ^ (n % 4) % 256

/-- The slot is absent: gated by a capability (R247), or 0 in the layout. -/
abbrev State.SlotAbsent (s : State) (i n : Nat) : Prop :=
  (n = 12 ∧ s.hasRotation = false) ∨ ((n = 14 ∨ n = 15) ∧ s.hasWheel = false) ∨ s.slotCode i n = 0

/-- The slots can all be extracted: each is absent or its descriptor reads (R248). -/
abbrev State.SlotsRead (s : State) (i : Nat) (ns : List Nat) : Prop :=
  ∀ n, n ∈ ns → s.SlotAbsent i n ∨ (s.readField (s.slotCode i n - 1)).isOk = true

/-- `V[n]` of the packet (R248): none for an absent slot, and for a slot the kind does not use. -/
def State.slotValue (s : State) (i n : Nat) : Option Word :=
  if n ∈ s.slotOrder i ∧ ¬ s.SlotAbsent i n then (s.readField (s.slotCode i n - 1)).toOption else none

/-- The required slots, in the order of R249. -/
def State.requiredSlots (s : State) (i : Nat) : List Nat :=
  (if s.kindOf i = 1 then [0] else if s.kindOf i = 2 then [3] else []) ++
    if s.modeOf i = 1 ∧ 1 ≤ s.kindOf i ∧ s.kindOf i ≤ 4 then [2] else []

/-- The kinds that select a channel have a legal one: FIXED below `NCH` (R250). -/
abbrev State.FixedOk (s : State) (i : Nat) : Prop :=
  s.modeOf i = 2 → 1 ≤ s.kindOf i → s.kindOf i ≤ 4 → s.fixedOf i < s.nch.toNat

/-- The pressure range is positive where the packet needs it (R251). -/
abbrev State.PressureOk (s : State) (i : Nat) : Prop :=
  (s.slotValue i 8).isSome = true → s.status.curveValid = true → 0 < s.pmax.toInt

/-- Every check of phase 1 passes for a packet of rule `i` (R248 to R251). -/
abbrev State.ExtractsAll (s : State) (i : Nat) : Prop :=
  s.SlotsRead i (s.slotOrder i) ∧ (∀ n, n ∈ s.requiredSlots i → (s.slotValue i n).isSome = true) ∧
    s.FixedOk i ∧ s.PressureOk i

/-- `sel()` (R252): the channel of TAG or FIXED mode, and whether the tag was out of range (R217); none
in ARB mode. -/
def State.selected (s : State) (i : Nat) : Option (Nat × Bool) :=
  if s.modeOf i = 1 then
    let tag := ((s.slotValue i 2).getD 0).toNat
    some (if tag < s.nch.toNat then (tag, false) else (0, true))
  else if s.modeOf i = 2 then some (s.fixedOf i, false)
  else none

/-! ### Commit -/

/-- `val[a]` (R261). -/
def State.axisOut (s : State) (i a : Nat) : Option Word :=
  (s.slotValue i (6 + a)).map fun w => if a = 2 then s.curveValue w s.pmax else w

/-- The entry `e` after a dispatch of the packet (R263, R265). -/
def State.dispatched (s : State) (i : Nat) (e : Channel) : Channel :=
  { e with
    btn := (s.slotValue i 5).getD e.btn
    axis := Vector.ofFn fun a : Fin 10 => (s.axisOut i a).getD e.axis[a]
    stamp := s.pktcnt }

/-- The events of a dispatch to channel `c` whose button cache was `old`, in order (R262 to R264,
R266). -/
def State.DispatchEvents (s : State) (i c : Nat) (motion : Bool) (old : Word) (evs : List Event) :
    Prop :=
  ∃ buttons,
    evs =
      (if motion then [Event.motion c (Vector.ofFn fun a : Fin 8 => s.axisOut i a)] else []) ++
      buttons ++
      (match s.axisOut i 8 with
        | some w => [Event.wheel c true w]
        | none => []) ++
      (match s.axisOut i 9 with
        | some w => if w = 0 then [] else [Event.wheel c false w]
        | none => []) ∧
    (∀ e, e ∈ buttons ↔ ∃ new, s.slotValue i 5 = some new ∧ ∃ k : Fin 32,
      new.getLsbD k ≠ old.getLsbD k ∧ e = Event.button c k (new.getLsbD k)) ∧
    buttons.Pairwise fun e f =>
      ∃ (j k : Fin 32) (p q : Bool), j < k ∧ e = Event.button c j p ∧ f = Event.button c k q

/-- What a decoded packet leaves: result 1 in `rd`, the channel table `ch`, the events `evs` appended,
`LASTCH`, the flags, no packet (R240, R259); everything else as in `s`. -/
structure Decoded (s : State) (rd : RegNum) (ch : Nat → Channel) (evs : List Event) (lastch : Word)
    (flags : Status) (t : State) : Prop where
  result : t.reg rd = 1
  others : ∀ r, r ≠ rd → t.reg r = s.reg r
  channels : ∀ c, t.ch c = ch c
  size : t.cht.length = s.cht.length
  events : t.evout = s.evout ++ evs
  counted : t.evcnt = s.evcnt + word evs.length
  last : t.lastch = lastch
  consumed : t.pkt = []
  flagged : t.status = { flags with pktValid := false }
  rest : { t with
    x := s.x, cht := s.cht, evout := s.evout, evcnt := s.evcnt, lastch := s.lastch, pkt := s.pkt,
    status := s.status } = s

/-! ### PUMP as NEXTPKT and DECODE (43_protocol_decoders.md R276) -/

/-- `t` is what the command `i` makes of `s`, but for the registers it writes. -/
def State.Does (s : State) (i : Instr) (t : State) : Prop :=
  ∃ u, exec i s = .next u ∧ t = { u with x := s.x }

/-- `NEXTPKT; DECODE` repeated until `NEXTPKT` leaves no packet: `n` packets, no fault. -/
inductive PumpRun (rd : RegNum) : State → Nat → State → Prop
  | stop (s t : State) : s.Does (.nextpkt rd) t → t.status.pktValid = false → PumpRun rd s 0 t
  | packet (s t u w : State) (n : Nat) :
      s.Does (.nextpkt rd) t → t.status.pktValid = true → t.Does (.decode rd) u →
      u.status.fault = false → PumpRun rd u n w → PumpRun rd s (n + 1) w

/-- The same, ended by the fault a packet meets. -/
inductive PumpFaults (rd : RegNum) : State → State → Prop
  | here (s t u : State) :
      s.Does (.nextpkt rd) t → t.status.pktValid = true → t.Does (.decode rd) u →
      u.status.fault = true → PumpFaults rd s u
  | later (s t u w : State) :
      s.Does (.nextpkt rd) t → t.status.pktValid = true → t.Does (.decode rd) u →
      u.status.fault = false → PumpFaults rd u w → PumpFaults rd s w

end Machine

end Sys2Proof
end

