-- ==== Sys2Proof/Certificates/Slice0/Obligations.lean ====
section
/-! DEFINITION. The statements about the machine, each with the rules of spec/ it formalises
(OBLIGATIONS.json lists them). -/

open Sys2Proof Sys2Proof.Machine

/-- For every well-formed instruction, every operand at every value its encoding admits, the
decoder reads the instruction from the bits that the encoder writes for it. (R100, R103, R104,
R123.) -/
def Obligations.DecodeEncodeRoundTrip : Prop :=
  ∀ i : Instr, i.wellFormed = true → decodeTableWord i.nbits (encode i).toNat = some i

/-- A command word decodes to an instruction if and only if it selects a command row of the opcode
table (word AND mask = match) and is not the one excluded pattern, CHFOR with mode bits 3. The
instruction is a well-formed command of the selected row, and the word is its encoding: no bit of
a word is dropped and every word has one meaning. (R100, R103, R104.) -/
def Obligations.DecodeAcceptsTheOpcodeTable : Prop :=
  ∀ w : Word,
    ((∃ i, decode w = .ok i) ↔
      (∃ row, row ∈ commandRows ∧ w &&& row.2 = row.1) ∧
        ¬ (w.toNat / 2 ^ 24 = 0x32 ∧ w.toNat % 2 ^ 16 = 3)) ∧
    ∀ i, decode w = .ok i →
      i.wellFormed = true ∧ i.nbits = 32 ∧ encode i = w ∧ w &&& i.rowMask = i.rowMatch

/-- For each of the twenty commands of R103's table, one word laid out in its format (R100) with
the table's opcode decodes to that command with the operands written beside it in R126's order.
The words are examples that spec/ writes out. (R100, R103, R126.) -/
def Obligations.DecodesSpecWords : Prop :=
  decode 0x00000000 = .ok .nop ∧
  decode 0x012000FA = .ok (.li 2 0x00FA) ∧
  decode 0x02208000 = .ok (.lui 2 0x8000) ∧
  decode 0x03800001 = .ok (.mfsr 8 0x01) ∧
  decode 0x04020005 = .ok (.mtsr 0x05 2) ∧
  decode 0x05760004 = .ok (.trd 7 6 4) ∧
  decode 0x06210003 = .ok (.twr 2 1 3) ∧
  decode 0x07000000 = .ok .init ∧
  decode 0x08000000 = .ok .halt ∧
  decode 0x10500006 = .ok (.rdfld 5 6) ∧
  decode 0x20012000 = .ok (.build 1 2) ∧
  decode 0x21534000 = .ok (.apply 5 3 4) ∧
  decode 0x30312000 = .ok (.enter 3 1 2) ∧
  decode 0x31010000 = .ok (.exit 1) ∧
  decode 0x32890002 = .ok (.chfor 8 9 2) ∧
  decode 0x400000C2 = .ok (.feed 0xC2) ∧
  decode 0x41010000 = .ok (.feedr 1) ∧
  decode 0x42300000 = .ok (.nextpkt 3) ∧
  decode 0x43300000 = .ok (.decode 3) ∧
  decode 0x44300000 = .ok (.pump 3)

/-- When the host's next input is a command word that decodes to an instruction, the step is that
instruction's execution on the state with the input taken; a word placed by withFetchWord is the
next input and leaves the inputs behind it as they were. That the host's inputs stand as a list in
the state is the model's choice (log 3). (R9, R22, R101.) -/
def Obligations.StepRunsTheDecodedCommand : Prop :=
  ∀ (s : State) (w : Word) (rest : List HostInput) (i : Instr), decode w = .ok i →
    (s.input = .command w :: rest → step s = exec i { s with input := rest }) ∧
    (∀ nbits, step (s.withFetchWord nbits w.toNat) = exec i s)

/-- When the host issues a word that is no legal encoding, the step sets ERR_CMD and changes
nothing else; in the fault state a word whose opcode is none of the five inspection opcodes
changes nothing at all (step 1 of R101), and one with such an opcode is refused there too (step
2). (That the last follows the steps of R101, where R366 and U2 read alone have the word ignored,
is log 6.) (R101, R102, R104.) -/
def Obligations.IllegalWordsAreRefused : Prop :=
  ∀ (s : State) (w : Word) (rest : List HostInput) (e : IllegalWord),
    s.input = .command w :: rest → decode w = .error e →
    (s.status.fault = true → w.toNat / 2 ^ 24 ∉ [0, 1, 2, 3, 5] →
      step s = .next { s with input := rest }) ∧
    (s.status.fault = false ∨ w.toNat / 2 ^ 24 ∈ [0, 1, 2, 3, 5] →
      ∃ t, step s = .next t ∧ Refused { s with input := rest } t)

/-- When the host asserts reset, in whatever state (the fault state too), every piece of state has
the value of R60's hardware reset column; the operand registers hold the arbitrary words that come
with the reset, and the parameters stay. (R60, R400, R45, R46, R47, R48, R49, R50.) -/
def Obligations.HardwareResetGivesTheResetState : Prop :=
  ∀ (s : State) (x : Vector Word 16) (rest : List HostInput), s.input = .reset x :: rest →
    ∃ t, step s = .next t ∧ t.x = x ∧ t.params = s.params ∧ t.input = rest ∧
      t.status.toWord = 0 ∧ t.fcause = .none ∧ t.finfo = 0 ∧
      t.proto.code = 0 ∧ t.plen = 0 ∧ t.nch = 1 ∧ t.caps = 0 ∧ t.hdrmask = 0 ∧
      t.tselmap = 0x11111151 ∧ (∀ j : Fin 4, t.lsel[j] = 0) ∧
      t.xmax = 0 ∧ t.ymax = 0 ∧ t.pmax = 0 ∧ t.txmax = 0 ∧ t.tymax = 0 ∧ t.dmax = 0 ∧
      t.version = 0 ∧ t.pktcnt = 0 ∧ t.evcnt = 0 ∧ t.lastch = 0xFFFFFFFF ∧
      (∀ i, Memory.read t.fdt i = 0 ∧ Memory.read t.cls i = 0 ∧ Memory.read t.lay i = 0 ∧
        Memory.read t.tid i = 0 ∧ Memory.read t.lut i = 0) ∧
      t.cht.length = s.params.nchMax ∧ (∀ c, t.ch c = Channel.empty) ∧
      t.ring = [] ∧ t.pkt = [] ∧ t.evout = []

/-- From every state whatever, a step answers a next state: no command is stuck, faults the model
or is refused by it. The step takes at most one host input, never changes the parameters, and
leaves the state as it is while the host does nothing (the last is the model's reading of waiting,
log 4). (R9, R420, R402, R59.) -/
def Obligations.EveryStepAnswers : Prop :=
  ∀ s : State, ∃ t, step s = .next t ∧ t.params = s.params ∧ t.input = s.input.tail ∧
    (s.input = [] → t = s)

/-- A command other than the five inspection commands changes nothing in the fault state; outside
it, a CONFIG command in the RUN state and a RUN command in the CONFIG state are refused: ERR_CMD
is set and nothing else changes. (R101, R102, R381.) -/
def Obligations.CommandsNeedTheirState : Prop :=
  ∀ (i : Instr) (s : State) (n : Need), i.need = some n →
    (s.status.fault = true → n ≠ .every → exec i s = .next s) ∧
    (s.status.fault = false → s.status.run = true → n = .config →
      ∃ t, exec i s = .next t ∧ Refused s t) ∧
    (s.status.fault = false → s.status.run = false → n = .run →
      ∃ t, exec i s = .next t ∧ Refused s t)

/-- Whatever command word the host issues in the fault state, the step leaves every piece of state
but the operand registers and ERR_CMD as it was, FCAUSE and FINFO among them; a word whose opcode
is none of the five inspection opcodes changes nothing at all, and an illegal word with one of
them sets ERR_CMD and changes nothing else. (The last follows the steps of R101, log 6.) (R366,
R101, R368.) -/
def Obligations.FaultStateKeepsTheEvidence : Prop :=
  ∀ (s : State) (w : Word) (rest : List HostInput) (t : State),
    s.status.fault = true → s.input = .command w :: rest → step s = .next t →
    { t with
      x := s.x, input := s.input,
      status := { t.status with errCmd := s.status.errCmd } } = s ∧
    (w.toNat / 2 ^ 24 ∉ [0, 1, 2, 3, 5] → t = { s with input := rest }) ∧
    (w.toNat / 2 ^ 24 ∈ [0, 1, 2, 3, 5] → (∃ e, decode w = .error e) →
      Refused { s with input := rest } t)

/-- A step from the fault state ends outside it exactly when the host asserts hardware reset; no
command clears FAULT, and no command resumes the faulting one. (R367.) -/
def Obligations.OnlyResetLeavesTheFaultState : Prop :=
  ∀ (s t : State), s.status.fault = true → step s = .next t →
    (t.status.fault = false ↔ ∃ x rest, s.input = .reset x :: rest)

/-- In every state, the fault state too: NOP leaves the state as it is; LI writes the zero-
extended immediate to rd; LUI replaces the upper half of rd and keeps the lower half; nothing else
changes. LI then LUI of the same register builds any 32-bit constant, whereas LUI then LI leaves
only the lower half. (R330, R331, R332.) -/
def Obligations.ConstantsLoad : Prop :=
  ∀ (s : State) (rd : RegNum) (lo hi : BitVec 16),
    exec .nop s = .next s ∧
    (∃ t, exec (.li rd lo) s = .next t ∧ OnlyReg s rd (word lo.toNat) t ∧
      ∃ u, exec (.lui rd hi) t = .next u ∧ OnlyReg s rd (word (hi.toNat * 2 ^ 16 + lo.toNat)) u) ∧
    (∃ t, exec (.lui rd hi) s = .next t ∧
      OnlyReg s rd (word (hi.toNat * 2 ^ 16 + (s.reg rd).toNat % 2 ^ 16)) t ∧
      ∃ u, exec (.li rd lo) t = .next u ∧ OnlyReg s rd (word lo.toNat) u)

/-- The fault causes have the numbers 0 to 7 in the order of R363's table, the protocols 0 to 5 in
the order of R116's (ISDV4 is 5), the tool types 0 to 9 in the order of R117's. In every state,
MFSR writes the register its number names to rd, with no other effect; for a number that names no
register it writes 0 to rd and sets ERR_CMD, with no other effect. (R333, R30, R363, R116, R117.)
-/
def Obligations.MfsrReadsEverySystemRegister : Prop :=
  ∀ (s : State) (rd : RegNum) (sr : BitVec 16),
    (∀ v, (sr.toNat, v) ∈ s.sysRegs → ∃ t, exec (.mfsr rd sr) s = .next t ∧ OnlyReg s rd v t) ∧
    ((∀ v, (sr.toNat, v) ∉ s.sysRegs) → ∃ t, exec (.mfsr rd sr) s = .next t ∧
      OnlyReg { s with status := { s.status with errCmd := true } } rd 0 t) ∧
    [FCause.none, .fieldRange, .fieldInvalid, .clsRange, .badKind, .layoutMissing, .badChannel,
      .curveRange].map FCause.code = [0, 1, 2, 3, 4, 5, 6, 7] ∧
    [Proto.penPartner, .graphire, .proto4, .proto5, .pl, .isdv4].map Proto.code =
      [0, 1, 2, 3, 4, 5] ∧
    [ToolType.none, .pen, .pencil, .brush, .airbrush, .eraser, .mouse, .lens, .finger, .pad].map
      ToolType.code = [0, 1, 2, 3, 4, 5, 6, 7, 8, 9]

/-- The STATUS word has the twelve flags at bits 0 to 11 in the order of R23 and 0 above, and MFSR
reads it whole; the fault line is bit 0 and the attention line the OR of bits 1 to 7. Outside the
fault state, in CONFIG and RUN alike, MTSR STATUS with value v clears exactly the bits 1 to 7 of
STATUS that are 1 in v and changes nothing else; in the fault state it changes nothing. (R32.) -/
def Obligations.StatusReadsWholeAndClearsByWriting : Prop :=
  ∀ (s : State) (rs1 rd : RegNum),
    (List.range 32).map s.status.toWord.getLsbD =
      [s.status.fault, s.status.resync, s.status.errFraming, s.status.errUnkPkt,
        s.status.errUnkTool, s.status.errChExh, s.status.errOverrun, s.status.errCmd,
        s.status.pktValid, s.status.curveValid, s.status.touchCap, s.status.run] ++
        List.replicate 20 false ∧
    s.faultLine = s.status.toWord.getLsbD 0 ∧
    (s.attentionLine = true ↔ ∃ i, 1 ≤ i ∧ i ≤ 7 ∧ s.status.toWord.getLsbD i = true) ∧
    (∃ u, exec (.mfsr rd 0x01) s = .next u ∧ OnlyReg s rd s.status.toWord u) ∧
    (s.status.fault = true → exec (.mtsr 0x01 rs1) s = .next s) ∧
    (s.status.fault = false → ∃ t, exec (.mtsr 0x01 rs1) s = .next t ∧
      { t with status := s.status } = s ∧
      ∀ i, t.status.toWord.getLsbD i =
        (s.status.toWord.getLsbD i && !(decide (1 ≤ i ∧ i ≤ 7) && (s.reg rs1).getLsbD i)))

/-- Outside the fault state: for a number other than STATUS, in CONFIG state with a value that
R335 makes legal for a CFG register of that number, MTSR stores the value there: MFSR of that
number then reads it, and every other register reads as before, and nothing but the profile
registers changes; in the RUN state, for a number that is no CFG register, or with an illegal
value, it is refused. In the fault state it does nothing. (R334, R335.) -/
def Obligations.MtsrWritesLegalProfileValues : Prop :=
  ∀ (s : State) (sr : BitVec 16) (rs1 : RegNum), s.params.Wf → sr ≠ 0x01 →
    (s.status.fault = true → exec (.mtsr sr rs1) s = .next s) ∧
    (s.status.fault = false → s.status.run = false → s.cfgLegal sr.toNat (s.reg rs1).toNat →
      ∃ t, exec (.mtsr sr rs1) s = .next t ∧ ProfileOnly s t ∧
        ∀ n v, (n, v) ∈ t.sysRegs ↔ if n = sr.toNat then v = s.reg rs1 else (n, v) ∈ s.sysRegs) ∧
    (s.status.fault = false → s.status.run = true ∨ ¬ s.cfgLegal sr.toNat (s.reg rs1).toNat →
      ∃ t, exec (.mtsr sr rs1) s = .next t ∧ Refused s t)

/-- In every state, for a legal space and index TRD writes the word (of PKT the zero-extended
byte, of CHT the word of the channel layout) to rd and changes nothing else; for any other space
or index it writes 0 to rd and sets ERR_CMD. (R336.) -/
def Obligations.TrdReadsEveryTable : Prop :=
  ∀ (s : State) (rd rs1 : RegNum) (space : BitVec 16),
    (∀ v, s.table space.toNat (s.reg rs1).toNat = some v →
      ∃ t, exec (.trd rd rs1 space) s = .next t ∧ OnlyReg s rd v t) ∧
    (s.table space.toNat (s.reg rs1).toNat = none →
      ∃ t, exec (.trd rd rs1 space) s = .next t ∧
        OnlyReg { s with status := { s.status with errCmd := true } } rd 0 t)

/-- In CONFIG state outside the fault state, for one of the spaces FDT, CLS, LAY, TID and a legal
index, TWR stores all 32 bits of the data register there: that index then reads the value, every
other index of every space reads as before, and nothing but the four tables changes. Any other
target, and any TWR in the RUN state, is refused; in the fault state it does nothing. (R337.) -/
def Obligations.TwrStoresOneWord : Prop :=
  ∀ (s : State) (rv rs1 : RegNum) (space : BitVec 16), Memory.wf s.fdt = true →
    Memory.wf s.cls = true → Memory.wf s.lay = true → Memory.wf s.tid = true →
    (s.status.fault = true → exec (.twr rv rs1 space) s = .next s) ∧
    (s.status.fault = false → s.status.run = false → space.toNat ≤ 3 →
      (s.table space.toNat (s.reg rs1).toNat).isSome = true →
      ∃ t, exec (.twr rv rs1 space) s = .next t ∧
        { t with fdt := s.fdt, cls := s.cls, lay := s.lay, tid := s.tid } = s ∧
        ∀ id i, t.table id i =
          if id = space.toNat ∧ i = (s.reg rs1).toNat then some (s.reg rv) else s.table id i) ∧
    (s.status.fault = false →
      s.status.run = true ∨ 4 ≤ space.toNat ∨ s.table space.toNat (s.reg rs1).toNat = none →
      ∃ t, exec (.twr rv rs1 space) s = .next t ∧ Refused s t)

/-- Outside the fault state, with a packet length configured and, for ISDV4, a header mask, INIT
empties the channel table (and sets the pad entry where the model has a pad), the ring and the
packet, zeroes the counters, sets LASTCH to NOCH, clears the sticky flags, PKTVALID and TOUCHCAP,
keeps CURVEVALID and enters the RUN state; nothing else changes. Otherwise it is refused, and in
the fault state it does nothing. (R338.) -/
def Obligations.InitStartsASession : Prop :=
  ∀ s : State,
    (s.status.fault = true → exec .init s = .next s) ∧
    (s.status.fault = false → s.plen = 0 ∨ (s.proto = .isdv4 ∧ s.hdrmask = 0) →
      ∃ t, exec .init s = .next t ∧ Refused s t) ∧
    (s.status.fault = false → s.plen ≠ 0 → ¬ (s.proto = .isdv4 ∧ s.hdrmask = 0) →
      ∃ t, exec .init s = .next t ∧
        t.cht.length = s.params.nchMax ∧
        (∀ c, ¬ (s.hasPad = true ∧ c = s.nch.toNat) → t.ch c = Channel.empty) ∧
        (s.hasPad = true → s.nch.toNat < s.params.nchMax →
          t.ch s.nch.toNat = { toolType := .pad, inProx := true }) ∧
        t.lastch = noch ∧ t.ring = [] ∧ t.pkt = [] ∧ t.pktcnt = 0 ∧ t.evcnt = 0 ∧
        t.status = { curveValid := s.status.curveValid, run := true } ∧
        { t with
          cht := s.cht, lastch := s.lastch, ring := s.ring, pkt := s.pkt, pktcnt := s.pktcnt,
          evcnt := s.evcnt, status := s.status } = s)

/-- Outside the fault state HALT sets RUN to 0 and changes nothing else, so in CONFIG state it
does nothing, and in the state it leaves every decoding command is refused; in the fault state it
does nothing. (R339.) -/
def Obligations.HaltStopsDecoding : Prop :=
  ∀ s : State,
    (s.status.fault = true → exec .halt s = .next s) ∧
    (s.status.fault = false →
      ∃ t, exec .halt s = .next t ∧ t.status = { s.status with run := false } ∧
        { t with status := s.status } = s ∧ (s.status.run = false → t = s) ∧
        ∀ i, i.need = some .run → ∃ u, exec i t = .next u ∧ Refused t u)

/-- Outside the fault state, for a usable descriptor all of whose fragments lie in the packet,
RDFLD writes to rd the OR of the fragments, each the packet byte masked, then shifted left modulo
2^32 or right; if the descriptor is signed, the value of bits SIGNBIT..0 as a two's-complement
number. A descriptor without fragments gives 0 and reads no byte. Nothing else changes: the packet
stays. (R144, R145.) -/
def Obligations.RdfldAssemblesTheField : Prop :=
  ∀ (s : State) (rd : RegNum) (fid : BitVec 16),
    s.status.fault = false → s.fieldUsable fid.toNat →
    (∀ k, 1 ≤ k → k ≤ s.fieldCount fid.toNat → s.fragIdx fid.toNat k < s.pkt.length) →
    ∃ v t, exec (.rdfld rd fid) s = .next t ∧ OnlyReg s rd v t ∧
      (s.fieldWord fid.toNat 0 / 8 % 2 = 0 → v.toNat = s.fieldBits fid.toNat) ∧
      (s.fieldWord fid.toNat 0 / 8 % 2 = 1 →
        v.toInt = Int.bmod (s.fieldBits fid.toNat)
          (2 ^ (s.fieldWord fid.toNat 0 / 16 % 32 + 1)))

/-- Outside the fault state, RDFLD of a field id that is out of the table, not valid or with seven
fragments raises FIELD_INVALID with the id; of a usable one, the first fragment in ascending order
whose byte index is at or past the packet length, whatever its mask, raises FIELD_RANGE with id,
fragment number and byte index. A fault changes the fault record only. (R141, R143.) -/
def Obligations.RdfldFaultsOnABrokenDescriptor : Prop :=
  ∀ (s : State) (rd : RegNum) (fid : BitVec 16), s.params.Wf → s.status.fault = false →
    (¬ s.fieldUsable fid.toNat →
      ∃ t, exec (.rdfld rd fid) s = .next t ∧ Faulted s .fieldInvalid (word fid.toNat) t) ∧
    (∀ k, s.fieldUsable fid.toNat → 1 ≤ k → k ≤ s.fieldCount fid.toNat →
      (∀ j, 1 ≤ j → j < k → s.fragIdx fid.toNat j < s.pkt.length) →
      s.pkt.length ≤ s.fragIdx fid.toNat k →
      ∃ t, exec (.rdfld rd fid) s = .next t ∧
        Faulted s .fieldRange
          (word (fid.toNat + k * 2 ^ 8 + s.fragIdx fid.toNat k * 2 ^ 16)) t)

/-- Two states outside the fault state that agree on a descriptor's used words, on the packet
length and on the bytes the fragments name, whatever else differs, read the same field: RDFLD
either writes the same value in both and changes nothing else, or raises the same fault in both.
(R147.) -/
def Obligations.FieldsDependOnDescriptorAndPacketOnly : Prop :=
  ∀ (s s' : State) (rd : RegNum) (fid : BitVec 16),
    s.status.fault = false → s'.status.fault = false →
    s.params.fdtSize = s'.params.fdtSize →
    (∀ k, k ≤ s.fieldCount fid.toNat → s.fieldWord fid.toNat k = s'.fieldWord fid.toNat k) →
    s.pkt.length = s'.pkt.length →
    (∀ k, 1 ≤ k → k ≤ s.fieldCount fid.toNat →
      s.pkt[s.fragIdx fid.toNat k]? = s'.pkt[s.fragIdx fid.toNat k]?) →
    ∃ t t', exec (.rdfld rd fid) s = .next t ∧ exec (.rdfld rd fid) s' = .next t' ∧
      ((∃ v, OnlyReg s rd v t ∧ OnlyReg s' rd v t') ∨
        ∃ cause info, Faulted s cause info t ∧ Faulted s' cause info t')

/-- With the descriptors of R123 and R124 loaded at any entry of FDT and a packet of 10 bytes
latched, RDFLD of the tool-ID descriptor gives (PKT[2] << 4) | (PKT[3] >> 4), RDFLD of the serial
descriptor gives (PKT[3] & 0x0F) << 28 | PKT[4] << 20 | PKT[5] << 12 | PKT[6] << 4 | PKT[7] >> 4,
and nothing else changes; the rule word 0x80C0FC01 holds exactly when PKT[1] & 0xFC is 0xC0, which
is when the decoder of packet bytes reads the row PKT.P45.ENTER. (That a decoder reads the row
from a packet byte, and how the descriptors and the rule word stand in the model, is the model's
choice, log 5.) (R123, R124.) -/
def Obligations.SourceEnterPacketFields : Prop :=
  ∀ (s : State) (rd : RegNum) (fid : BitVec 16) (b : Vector Byte 10),
    s.status.fault = false → Memory.wf s.fdt = true → fid.toNat < s.params.fdtSize →
    s.pkt = b.toList →
    (∃ t, exec (.rdfld rd fid) (s.loadField fid.toNat p45ToolIdField) = .next t ∧
      OnlyReg (s.loadField fid.toNat p45ToolIdField) rd
        (word (b[2].toNat * 2 ^ 4 + b[3].toNat / 2 ^ 4)) t) ∧
    (∃ t, exec (.rdfld rd fid) (s.loadField fid.toNat p45SerialField) = .next t ∧
      OnlyReg (s.loadField fid.toNat p45SerialField) rd
        (word (b[3].toNat % 2 ^ 4 * 2 ^ 28 + b[4].toNat * 2 ^ 20 + b[5].toNat * 2 ^ 12 +
          b[6].toNat * 2 ^ 4 + b[7].toNat / 2 ^ 4)) t) ∧
    (s.condResult p45EnterCond.toNat = .holds ↔ b[1] &&& 0xFC = 0xC0) ∧
    (s.condResult p45EnterCond.toNat = .holds ↔ (decodePacketByte b[1]).isSome = true)

/-- The row PKT.P45.ENTER is a pattern of packet bytes and no command: the word with that byte
alone is an illegal encoding, and executing it sets ERR_CMD and changes nothing else, in every
state. (That the row has a constructor, which does what the command step does with its byte as a
command word, is the model's choice, log 5; that the fault state refuses that word too, whose
opcode is NOP's, is log 6.) (R101, R102, R104, R123.) -/
def Obligations.PacketPatternIsNoCommand : Prop :=
  ∀ (s : State) (low : BitVec 2) (i : Instr),
    decode (encode (.pktP45Enter low)) ≠ .ok i ∧
    (∀ b : Byte, decodePacketByte b = some (.pktP45Enter low) ↔ b = 0xC0 + low.setWidth 8) ∧
    ∃ t, exec (.pktP45Enter low) s = .next t ∧ Refused s t

/-- In CONFIG state outside the fault state BUILD sets CURVEVALID, writes no word past the table,
and changes nothing but the LUT. For every pair of control points the block can be given, inverted
ones too: every index 0..N of the table is independent of what the LUT held before (no holes), all
values are in 0..N, the table is non-decreasing, and LUT[N] = N. (A resolution below 2^32, so that
N fits a table word: log 11.) (R170, R171, R172, R178, R179, R181, R183.) -/
def Obligations.BuiltTablesAreTotalAndMonotone : Prop :=
  ∀ (s : State) (old : Memory) (rs1 rs2 : RegNum), s.params.Wf → s.params.curveRes < 2 ^ 32 →
    s.status.fault = false → s.status.run = false → Memory.wf s.lut = true → Memory.wf old = true →
    ∃ t u, exec (.build rs1 rs2) s = .next t ∧
      exec (.build rs1 rs2) { s with lut := old } = .next u ∧
      t.status = { s.status with curveValid := true } ∧
      { t with lut := s.lut, status := s.status } = s ∧
      (∀ i, s.params.curveRes < i → Memory.read t.lut i = Memory.read s.lut i) ∧
      (∀ i, i ≤ s.params.curveRes → Memory.read t.lut i = Memory.read u.lut i) ∧
      (∀ i, i ≤ s.params.curveRes → (Memory.read t.lut i).toNat ≤ s.params.curveRes) ∧
      (∀ i, i < s.params.curveRes →
        (Memory.read t.lut i).toNat ≤ (Memory.read t.lut (i + 1)).toNat) ∧
      (Memory.read t.lut s.params.curveRes).toNat = s.params.curveRes

/-- When both control points lie within the flatness tolerance of the segment from (0,0) to (1,1),
BUILD leaves LUT[i] = i for every i in 0..N; in particular for the default control points (0,0)
and (1,1). (A resolution below 2^32, so that N fits a table word: log 11.) (R180.) -/
def Obligations.CollinearPointsBuildTheIdentity : Prop :=
  ∀ (s : State) (rs1 rs2 : RegNum), s.params.Wf → s.params.curveRes < 2 ^ 32 →
    s.status.fault = false → s.status.run = false → Memory.wf s.lut = true →
    ((controlPoint (s.reg rs1)).dist2 ⟨0, 0⟩ ⟨1, 1⟩ < s.params.flatTol ^ 2 ∧
        (controlPoint (s.reg rs2)).dist2 ⟨0, 0⟩ ⟨1, 1⟩ < s.params.flatTol ^ 2) ∨
      (s.reg rs1 = 0 ∧ s.reg rs2 = 0x80008000) →
    ∃ t, exec (.build rs1 rs2) s = .next t ∧
      ∀ i, i ≤ s.params.curveRes → (Memory.read t.lut i).toNat = i

/-- Outside the fault state: while no curve is built APPLY copies the raw value; with a curve and
a positive range m it writes min(m, floor(LUT[floor(r*N/m)]*m/N)) for the raw value r clamped to
0..m, all read as signed and computed in exact rationals; with a curve and a range of 0 or below
it raises CURVE_RANGE with information 0x80000000. Nothing else changes. In the fault state it
does nothing. (R190, R191.) -/
def Obligations.ApplyRemapsThroughTheCurve : Prop :=
  ∀ (s : State) (rd rs1 rs2 : RegNum), s.params.Wf →
    (s.status.fault = true → exec (.apply rd rs1 rs2) s = .next s) ∧
    (s.status.fault = false → s.status.curveValid = false →
      ∃ t, exec (.apply rd rs1 rs2) s = .next t ∧ OnlyReg s rd (s.reg rs1) t) ∧
    (s.status.fault = false → s.status.curveValid = true → (s.reg rs2).toInt ≤ 0 →
      ∃ t, exec (.apply rd rs1 rs2) s = .next t ∧ Faulted s .curveRange 0x80000000 t) ∧
    (∀ m r idx : Int, s.status.fault = false → s.status.curveValid = true →
      m = (s.reg rs2).toInt → 0 < m → r = max 0 (min (s.reg rs1).toInt m) →
      idx = ⌊((r : ℚ) * s.params.curveRes / m)⌋ →
      0 ≤ idx ∧ idx ≤ s.params.curveRes ∧
      ∃ v t, exec (.apply rd rs1 rs2) s = .next t ∧ OnlyReg s rd v t ∧
        v.toInt = min m ⌊(((Memory.read s.lut idx.toNat).toNat : ℚ) * m / s.params.curveRes)⌋)

/-- APPLY with a curve and a positive range m: the result is in 0..m; if the table is non-
decreasing, a larger raw value never gives a smaller result; with the identity table a raw value r
in 0..m gives r or r-1 when m is at most N, and gives 0 for 0 and m for m whatever m is. (R193,
R190.) -/
def Obligations.CurvePropertiesHold : Prop :=
  ∀ (s : State) (rd a b k : RegNum), s.params.Wf → s.status.fault = false →
    s.status.curveValid = true → 0 < (s.reg k).toInt →
    ∃ t u, exec (.apply rd a k) s = .next t ∧ exec (.apply rd b k) s = .next u ∧
      0 ≤ (t.reg rd).toInt ∧ (t.reg rd).toInt ≤ (s.reg k).toInt ∧
      ((∀ i, i < s.params.curveRes →
          (Memory.read s.lut i).toNat ≤ (Memory.read s.lut (i + 1)).toNat) →
        (s.reg a).toInt ≤ (s.reg b).toInt → (t.reg rd).toInt ≤ (u.reg rd).toInt) ∧
      ((∀ i, i ≤ s.params.curveRes → (Memory.read s.lut i).toNat = i) →
        ((s.reg a).toInt = 0 → t.reg rd = 0) ∧
        ((s.reg a).toInt = (s.reg k).toInt → t.reg rd = s.reg k) ∧
        (0 ≤ (s.reg a).toInt → (s.reg a).toInt ≤ (s.reg k).toInt →
          (s.reg k).toInt ≤ s.params.curveRes →
          (t.reg rd).toInt = (s.reg a).toInt ∨ (t.reg rd).toInt = (s.reg a).toInt - 1))

/-- In the RUN state outside the fault state: ENTER takes the lowest channel that holds the serial
in proximity, else the lowest free one, else channel 0 with ERR_CHEXH; its tool type is that of
the first valid map entry for the code, or PEN with ERR_UNKTOOL. The channel then holds serial,
type, code and the packet counter, in proximity, its caches kept on a repeated enter and cleared
otherwise; LASTCH and rd are its number; nothing else changes and no event is emitted. (R212,
R213, R216, R220.) -/
def Obligations.EnterArbitratesAndPopulates : Prop :=
  ∀ (s : State) (rd rs1 rs2 : RegNum),
    s.status.fault = false → s.status.run = true →
    1 ≤ s.nch.toNat → s.nch.toNat ≤ s.cht.length →
    ∃ c exhausted tool unknown t, exec (.enter rd rs1 rs2) s = .next t ∧
      s.ArbEnters (s.reg rs1) c exhausted ∧ s.MapsTool (s.reg rs2) tool unknown ∧
      t.reg rd = word c ∧ (∀ r, r ≠ rd → t.reg r = s.reg r) ∧
      t.ch c = s.populated c (s.reg rs1) (s.reg rs2) tool ∧
      (∀ d, d ≠ c → t.ch d = s.ch d) ∧ t.cht.length = s.cht.length ∧
      t.lastch = word c ∧
      t.status = { s.status with
        errUnkTool := s.status.errUnkTool || unknown
        errChExh := s.status.errChExh || exhausted } ∧
      { t with x := s.x, cht := s.cht, lastch := s.lastch, status := s.status } = s

/-- After ENTER of one serial in the RUN state, ENTER of another serial, when a channel is free or
already holds that serial, takes a different channel: both tools are then in proximity, each on
its own channel with its own serial, and the second ENTER does not set ERR_CHEXH. (R224, R211,
R212.) -/
def Obligations.TwoToolsAreNeverMerged : Prop :=
  ∀ (s t u : State) (rd rs1 rs2 rd' rs1' rs2' : RegNum),
    s.status.fault = false → s.status.run = true → s.nch.toNat ≤ s.cht.length →
    exec (.enter rd rs1 rs2) s = .next t → exec (.enter rd' rs1' rs2') t = .next u →
    s.reg rs1 ≠ t.reg rs1' → (∃ d, t.Vacant d ∨ t.Holds d (t.reg rs1')) →
    ∃ c d, c ≠ d ∧ t.reg rd = word c ∧ u.reg rd' = word d ∧
      u.Holds c (s.reg rs1) ∧ u.Holds d (t.reg rs1') ∧
      u.status.errChExh = t.status.errChExh

/-- In the RUN state outside the fault state: EXIT clears the lowest channel that holds the serial
(of a single-channel profile, channel 0 for an unknown serial): every field but STAMP is then
empty and the channel is free; nothing else changes, LASTCH neither. For an unknown serial on a
multi-channel profile it does nothing. (That the cleared channel is free is R225, the spec's own
inference from R211 and R215.) (R211, R215, R218, R221, R225.) -/
def Obligations.ExitClearsTheChannel : Prop :=
  ∀ (s : State) (rs1 : RegNum), s.status.fault = false → s.status.run = true →
    s.nch.toNat ≤ s.cht.length →
    ∃ target t, s.ExitsTo (s.reg rs1) target ∧ exec (.exit rs1) s = .next t ∧
      { t with cht := s.cht } = s ∧ t.cht.length = s.cht.length ∧
      match target with
      | none => t = s
      | some c => t.ch c = { stamp := (s.ch c).stamp } ∧ t.Vacant c ∧ ∀ d, d ≠ c → t.ch d = s.ch d

/-- In the RUN state outside the fault state, CHFOR writes to rd: in mode 0 LASTCH; in mode 1 the
tag when it names a tool channel, else 0 with ERR_CHEXH; in mode 2 the lowest channel that holds
the serial, NOCH when none does. Nothing else changes. A mode above 2 has no legal encoding.
(R222.) -/
def Obligations.ChforAnswersByMode : Prop :=
  ∀ (s : State) (rd rs1 : RegNum), s.status.fault = false → s.status.run = true →
    (∃ t, exec (.chfor rd rs1 0) s = .next t ∧ OnlyReg s rd s.lastch t) ∧
    ((s.reg rs1).toNat < s.nch.toNat →
      ∃ t, exec (.chfor rd rs1 1) s = .next t ∧ OnlyReg s rd (s.reg rs1) t) ∧
    (s.nch.toNat ≤ (s.reg rs1).toNat →
      ∃ t, exec (.chfor rd rs1 1) s = .next t ∧
        OnlyReg { s with status := { s.status with errChExh := true } } rd 0 t) ∧
    (∀ c, s.Finds (s.reg rs1) c →
      ∃ t, exec (.chfor rd rs1 2) s = .next t ∧ OnlyReg s rd (word c) t) ∧
    (s.FindsNone (s.reg rs1) →
      ∃ t, exec (.chfor rd rs1 2) s = .next t ∧ OnlyReg s rd noch t) ∧
    (∀ mode w, 2 < mode.toNat → decode w ≠ .ok (.chfor rd rs1 mode))

/-- In the RUN state outside the fault state, FEED of its byte and FEEDR of bits 7:0 of its
register append the byte to the ring when it holds fewer than RING_SIZE bytes and change nothing
else; when the ring is full they set ERR_OVERRUN and change nothing else. (R300, R301.) -/
def Obligations.FeedAppendsAByte : Prop :=
  ∀ (s : State) (b : Byte) (rs1 : RegNum), s.status.fault = false → s.status.run = true →
    s.ring.length ≤ s.params.ringSize →
    ∃ t u, exec (.feed b) s = .next t ∧ exec (.feedr rs1) s = .next u ∧
      (s.ring.length < s.params.ringSize →
        t = { s with ring := s.ring ++ [b] } ∧
        u = { s with ring := s.ring ++ [BitVec.ofNat 8 ((s.reg rs1).toNat % 2 ^ 8)] }) ∧
      (s.ring.length = s.params.ringSize →
        t = { s with status := { s.status with errOverrun := true } } ∧ u = t)

/-- In the RUN state outside the fault state: while a packet is latched NEXTPKT writes 2 to rd and
changes nothing else; otherwise, with a protocol other than ISDV4, it latches the oldest PLEN
bytes of the ring as the packet, in order, counts it and writes 1 when the ring holds that many,
and writes 0 and changes nothing else when it does not. (R305, R308.) -/
def Obligations.NextpktFramesFixedLengths : Prop :=
  ∀ (s : State) (rd : RegNum), s.status.fault = false → s.status.run = true →
    (s.status.pktValid = true → ∃ t, exec (.nextpkt rd) s = .next t ∧ OnlyReg s rd 2 t) ∧
    (s.status.pktValid = false → s.proto ≠ .isdv4 → s.ring.length < s.plen.toNat →
      ∃ t, exec (.nextpkt rd) s = .next t ∧ OnlyReg s rd 0 t) ∧
    (∀ front rest, s.status.pktValid = false → s.proto ≠ .isdv4 → s.ring = front ++ rest →
      front.length = s.plen.toNat →
      ∃ t, exec (.nextpkt rd) s = .next t ∧
        OnlyReg
          { s with
            ring := rest, pkt := front, pktcnt := s.pktcnt + 1,
            status := { s.status with pktValid := true } } rd 1 t)

/-- In the RUN state outside the fault state, with ISDV4 and no packet latched, NEXTPKT does what
R306 says of the ring's bytes: it discards non-header bytes before a header, and a packet cut
short by a header in its body, setting ERR_FRAMING when it discards any; it latches the whole
packet at the front (of the length the header byte selects by R307) and writes 1, or keeps the
partial tail and writes 0. Nothing else changes. The outcome of R306 is unique. (R306, R307.) -/
def Obligations.NextpktFramesByHeaderBit : Prop :=
  ∀ (s : State) (rd : RegNum), s.status.fault = false → s.status.run = true →
    s.status.pktValid = false → s.proto = .isdv4 →
    ∃ kept discarded o t, HeaderScan s s.ring kept discarded o ∧
      (∀ kept' discarded' o', HeaderScan s s.ring kept' discarded' o' →
        kept' = kept ∧ discarded' = discarded ∧ o' = o) ∧
      exec (.nextpkt rd) s = .next t ∧
      OnlyReg (s.afterScan kept discarded o) rd (if o.isSome then 1 else 0) t

/-- With ISDV4 and no packet latched, a run of bytes without the header bit in front of the ring
makes PUMP decode exactly what it decodes without them: the same events, channels, packets,
registers and count; only ERR_FRAMING differs, set when there was garbage. (Of R312 this is the
case of garbage that stands before every byte still to be framed.) (R312, R306.) -/
def Obligations.GarbageBeforeAHeaderIsTransparent : Prop :=
  ∀ (s : State) (rd : RegNum) (garbage clean : List Byte), ProfileLegal s →
    s.status.fault = false → s.status.run = true → s.status.pktValid = false → s.proto = .isdv4 →
    s.ring = garbage ++ clean → (∀ b, b ∈ garbage → ¬ s.IsHeader b) →
    ∃ t u, exec (.pump rd) s = .next t ∧ exec (.pump rd) { s with ring := clean } = .next u ∧
      t = { u with status := { u.status with
        errFraming := u.status.errFraming || !garbage.isEmpty } }

/-- In every framing mode: when NEXTPKT finds no complete packet (it answers 0), the next byte fed
and NEXTPKT issued again leave the same state as feeding the byte and issuing NEXTPKT once,
provided the ring had room for the byte. (R311, R310.) -/
def Obligations.PollingDoesNotChangeFraming : Prop :=
  ∀ (s t : State) (rd : RegNum) (b : Byte), s.status.fault = false →
    s.status.run = true → s.status.pktValid = false → s.ring.length < s.params.ringSize →
    exec (.nextpkt rd) s = .next t → t.reg rd = 0 →
    ∃ s' t' u, exec (.feed b) s = .next s' ∧ exec (.feed b) t = .next t' ∧
      exec (.nextpkt rd) s' = .next u ∧ exec (.nextpkt rd) t' = .next u

/-- In the RUN state outside the fault state: with no packet latched DECODE writes 0 to rd and
changes nothing else; with a packet for which every rule of the classification table is passed
over, it writes 2 to rd, drops the packet and sets RESYNC and ERR_UNKPKT, and nothing else
changes: no event, no channel, no byte of the ring. (R241, R243.) -/
def Obligations.DecodeWithoutARecognisedPacket : Prop :=
  ∀ (s : State) (rd : RegNum), s.status.fault = false → s.status.run = true →
    (s.status.pktValid = false → ∃ t, exec (.decode rd) s = .next t ∧ OnlyReg s rd 0 t) ∧
    (s.status.pktValid = true → (∀ i, i < s.params.clsSize → s.RuleMisses i) →
      ∃ t, exec (.decode rd) s = .next t ∧
        OnlyReg
          { s with
            pkt := [],
            status := { s.status with pktValid := false, resync := true, errUnkPkt := true } } rd 2 t)

/-- When the first rule that is not passed over has a condition that reads at or past the packet
length (A; or B, only if A holds), DECODE raises CLS_RANGE with the rule and the byte index, and
nothing but the fault record changes. (R242, R363, R365, R369.) -/
def Obligations.ConditionsPastThePacketFault : Prop :=
  ∀ (s : State) (rd : RegNum) (i k : Nat), s.params.Wf → s.status.fault = false →
    s.status.run = true → s.status.pktValid = true → i < s.params.clsSize →
    (∀ j, j < i → s.RuleMisses j) → s.RuleValid i →
    (k = 0 ∨ (k = 1 ∧ s.condResult (s.ruleWord i 0) = .holds)) →
    s.condResult (s.ruleWord i k) = .pastPacket →
    ∃ t, exec (.decode rd) s = .next t ∧
      Faulted s .clsRange (word (i + s.ruleWord i k % 256 * 2 ^ 16)) t

/-- For a packet with a legal, ungated kind, DECODE raises: the fault of the first slot, in
extraction order, whose descriptor does not read; else LAYOUT_MISSING for the first required slot
that is absent; else BAD_CHANNEL for a fixed channel that is no tool channel; else CURVE_RANGE
when pressure was extracted, a curve is built and the pressure range is not positive. Nothing but
the fault record changes. (R249, R250, R251.) -/
def Obligations.BrokenLayoutsFaultInOrder : Prop :=
  ∀ (s : State) (rd : RegNum) (i kind : Nat), s.params.Wf → s.DecodesKind i kind →
    (∀ pre n post e, s.slotOrder i = pre ++ n :: post → s.SlotsRead i pre → ¬ s.SlotAbsent i n →
      s.readField (s.slotCode i n - 1) = .error e →
      ∃ t, exec (.decode rd) s = .next t ∧ Faulted s e.cause e.info t) ∧
    (∀ pre n post, s.SlotsRead i (s.slotOrder i) → s.requiredSlots i = pre ++ n :: post →
      (∀ m, m ∈ pre → (s.slotValue i m).isSome = true) → s.slotValue i n = none →
      ∃ t, exec (.decode rd) s = .next t ∧ Faulted s .layoutMissing (word (i + n * 2 ^ 8)) t) ∧
    (s.SlotsRead i (s.slotOrder i) → (∀ n, n ∈ s.requiredSlots i → (s.slotValue i n).isSome = true) →
      1 ≤ kind → kind ≤ 4 → s.modeOf i = 2 → s.nch.toNat ≤ s.fixedOf i →
      ∃ t, exec (.decode rd) s = .next t ∧
        Faulted s .badChannel (word (i + s.fixedOf i * 2 ^ 8)) t) ∧
    (s.SlotsRead i (s.slotOrder i) → (∀ n, n ∈ s.requiredSlots i → (s.slotValue i n).isSome = true) →
      kind = 1 ∨ kind = 4 → s.FixedOk i → (s.slotValue i 8).isSome = true →
      s.status.curveValid = true → s.pmax.toInt ≤ 0 →
      ∃ t, exec (.decode rd) s = .next t ∧ Faulted s .curveRange (word i) t)

/-- When the first rule a packet hits has a kind that is not legal for the protocol's shape, or
channel mode 3 whatever its kind, DECODE raises BAD_KIND with the rule's number, and nothing but
the fault record changes. Otherwise, when the kind is IGNORE, or the rule requires touch and no
touch reply has been decoded, or the kind is PAD and the model has no pad, DECODE writes 1 to rd
and consumes the packet, and nothing else changes. (R244, R245, R258.) -/
def Obligations.KindsAreCheckedThenGated : Prop :=
  ∀ (s : State) (rd : RegNum) (i : Nat), s.DecodesRule i →
    (s.kindOf i ∉ kindsOf s.proto ∨ s.modeOf i = 3 →
      ∃ t, exec (.decode rd) s = .next t ∧ Faulted s .badKind (word i) t) ∧
    (s.kindOf i ∈ kindsOf s.proto → s.modeOf i ≠ 3 → s.kindOf i = 0 ∨ s.PacketGated i →
      ∃ t, exec (.decode rd) s = .next t ∧
        OnlyReg { s with pkt := [], status := { s.status with pktValid := false } } rd 1 t)

/-- A QREPLY packet all of whose present slots read sets XMAX, YMAX, PMAX, TXMAX, TYMAX, DMAX and
VERSION to the values of the slots present and keeps the others; a TQREPLY packet sets TOUCHCAP.
Either is consumed with result 1, emits no event and changes nothing else. (R268, R269.) -/
def Obligations.QueryRepliesSetTheRanges : Prop :=
  ∀ (s : State) (rd : RegNum) (i : Nat),
    (s.DecodesKind i 6 → s.SlotsRead i (s.slotOrder i) →
      ∃ t, exec (.decode rd) s = .next t ∧
        OnlyReg
          { s with
            xmax := (s.slotValue i 16).getD s.xmax, ymax := (s.slotValue i 17).getD s.ymax,
            pmax := (s.slotValue i 18).getD s.pmax, txmax := (s.slotValue i 19).getD s.txmax,
            tymax := (s.slotValue i 20).getD s.tymax, dmax := (s.slotValue i 21).getD s.dmax,
            version := (s.slotValue i 22).getD s.version,
            pkt := [], status := { s.status with pktValid := false } } rd 1 t) ∧
    (s.DecodesKind i 7 →
      ∃ t, exec (.decode rd) s = .next t ∧
        OnlyReg
          { s with
            pkt := [], status := { s.status with pktValid := false, touchCap := true } } rd 1 t)

/-- For an ENTER packet that passes phase 1: the tool type is that of the tool ID by the map; the
channel is the tag's, the fixed one, or in ARB mode the one arbitration gives the serial (0 when
absent). DECODE populates it, makes it LASTCH, and emits one PROX in, or nothing when the channel
already held this serial in proximity; the packet is consumed with result 1 and nothing else
changes. (R254.) -/
def Obligations.EnterPacketsEnterTheTool : Prop :=
  ∀ (s : State) (rd : RegNum) (i : Nat) (code : Word),
    1 ≤ s.nch.toNat → s.nch.toNat ≤ s.cht.length →
    s.DecodesKind i 2 → s.ExtractsAll i → s.slotValue i 3 = some code →
    ∃ serial c exhausted tool unknown t, exec (.decode rd) s = .next t ∧
      serial = (s.slotValue i 4).getD 0 ∧ s.MapsTool code tool unknown ∧
      (match s.selected i with
        | some r => r = (c, exhausted)
        | none => s.ArbEnters serial c exhausted) ∧
      Decoded s rd
        (fun d => if d = c then s.populated c serial code tool else s.ch d)
        (if (s.ch c).inProx = true ∧ (s.ch c).serial = serial then []
          else [Event.prox c tool true serial])
        (word c)
        { s.status with
          errUnkTool := s.status.errUnkTool || unknown
          errChExh := s.status.errChExh || exhausted } t

/-- For an EXIT packet that passes phase 1: the channel is the tag's, the fixed one, or in ARB
mode the target of the serial when there is one, else LASTCH. When that channel is in proximity
DECODE clears it and emits one PROX out with the type and serial it held; otherwise no channel
changes and no event is emitted. The packet is consumed with result 1 and nothing else changes.
(R255.) -/
def Obligations.ExitPacketsReportTheExit : Prop :=
  ∀ (s : State) (rd : RegNum) (i : Nat), s.DecodesKind i 3 → s.ExtractsAll i →
    ∃ target exhausted t, exec (.decode rd) s = .next t ∧
      (match s.selected i with
        | some r => target = some r.1 ∧ exhausted = r.2
        | none => exhausted = false ∧
          match s.slotValue i 4 with
          | some serial => s.ExitsTo serial target
          | none => target = if s.lastch = noch then none else some s.lastch.toNat) ∧
      match target with
      | some c =>
        if (s.ch c).inProx = true then
          Decoded s rd (fun d => if d = c then { stamp := (s.ch c).stamp } else s.ch d)
            [Event.prox c (s.ch c).toolType false (s.ch c).serial] s.lastch
            { s.status with errChExh := s.status.errChExh || exhausted } t
        else
          Decoded s rd s.ch [] s.lastch
            { s.status with errChExh := s.status.errChExh || exhausted } t
      | none => Decoded s rd s.ch [] s.lastch s.status t

/-- For a GENERAL packet that passes phase 1: the channel is the tag's, the fixed one, or in ARB
mode the one that holds the serial when there is one, else LASTCH. When that channel is in
proximity DECODE dispatches the packet to it with a MOTION event; otherwise no channel changes and
no event is emitted. The packet is consumed with result 1 and nothing else changes. (R256.) -/
def Obligations.GeneralPacketsDispatch : Prop :=
  ∀ (s : State) (rd : RegNum) (i : Nat), s.DecodesKind i 4 → s.ExtractsAll i →
    ∃ target exhausted t, exec (.decode rd) s = .next t ∧
      (match s.selected i with
        | some r => target = some r.1 ∧ exhausted = r.2
        | none => exhausted = false ∧
          match s.slotValue i 4, target with
          | some serial, some c => s.Finds serial c
          | some serial, none => s.FindsNone serial
          | none, _ => target = if s.lastch = noch then none else some s.lastch.toNat) ∧
      match target with
      | some c =>
        if (s.ch c).inProx = true then
          ∃ evs, s.DispatchEvents i c true (s.ch c).btn evs ∧
            Decoded s rd (fun d => if d = c then s.dispatched i (s.ch c) else s.ch d) evs s.lastch
              { s.status with errChExh := s.status.errChExh || exhausted } t
        else
          Decoded s rd s.ch [] s.lastch
            { s.status with errChExh := s.status.errChExh || exhausted } t
      | none => Decoded s rd s.ch [] s.lastch s.status t

/-- For a FLAGPROX packet that passes phase 1, with the proximity flag set and no tool in
proximity on the channel it selects (in ARB mode: no channel that holds serial 0): the tool is the
one the tool-select flag gives, gated by the eraser capability; the channel is the selected one or
the arbitrated one. DECODE populates it with serial 0, makes it LASTCH, emits PROX in and then the
events of the dispatch; the packet is consumed with result 1 and nothing else changes. (R253,
R214, R261, R262, R263, R264, R265, R266.) -/
def Obligations.FlagproxPacketsEnter : Prop :=
  ∀ (s : State) (rd : RegNum) (i : Nat) (prox : Word),
    1 ≤ s.nch.toNat → s.nch.toNat ≤ s.cht.length →
    s.DecodesKind i 1 → s.ExtractsAll i → s.slotValue i 0 = some prox → prox ≠ 0 →
    (match s.selected i with
      | some r => (s.ch r.1).inProx = false
      | none => s.FindsNone 0) →
    ∃ sel c exhausted tool unknown evs t, exec (.decode rd) s = .next t ∧
      sel = (s.slotValue i 1).getD 0 ∧ s.SelectsTool sel tool unknown ∧
      (match s.selected i with
        | some r => r = (c, exhausted)
        | none => s.ArbEnters 0 c exhausted) ∧
      s.DispatchEvents i c true (s.populated c 0 sel tool).btn evs ∧
      Decoded s rd
        (fun d => if d = c then s.dispatched i (s.populated c 0 sel tool) else s.ch d)
        (Event.prox c tool true 0 :: evs) (word c)
        { s.status with
          errUnkTool := s.status.errUnkTool || unknown
          errChExh := s.status.errChExh || exhausted } t

/-- For a FLAGPROX packet that passes phase 1: with a tool in proximity on the channel it selects
(in ARB mode: the lowest channel that holds serial 0) DECODE dispatches the packet when the
proximity flag is set, and clears the channel with PROX out and no other event when it is not;
with no tool there and the flag not set nothing happens. The packet is consumed with result 1 and
nothing else changes; LASTCH stays. (R253, R261, R262, R263, R264, R265, R266.) -/
def Obligations.FlagproxPacketsStayOrLeave : Prop :=
  ∀ (s : State) (rd : RegNum) (i : Nat) (prox : Word) (target : Option Nat) (exhausted : Bool),
    s.DecodesKind i 1 → s.ExtractsAll i → s.slotValue i 0 = some prox →
    (match s.selected i, target with
      | some r, _ => target = some r.1 ∧ exhausted = r.2
      | none, some c => s.Finds 0 c ∧ exhausted = false
      | none, none => s.FindsNone 0 ∧ exhausted = false) →
    (∀ c, target = some c → (s.ch c).inProx = true → prox ≠ 0 →
      ∃ evs t, exec (.decode rd) s = .next t ∧ s.DispatchEvents i c true (s.ch c).btn evs ∧
        Decoded s rd (fun d => if d = c then s.dispatched i (s.ch c) else s.ch d) evs s.lastch
          { s.status with errChExh := s.status.errChExh || exhausted } t) ∧
    (∀ c, target = some c → (s.ch c).inProx = true → prox = 0 →
      ∃ t, exec (.decode rd) s = .next t ∧
        Decoded s rd (fun d => if d = c then { stamp := (s.ch c).stamp } else s.ch d)
          [Event.prox c (s.ch c).toolType false (s.ch c).serial] s.lastch
          { s.status with errChExh := s.status.errChExh || exhausted } t) ∧
    ((∀ c, target = some c → (s.ch c).inProx = false) → prox = 0 →
      ∃ t, exec (.decode rd) s = .next t ∧
        Decoded s rd s.ch [] s.lastch
          { s.status with errChExh := s.status.errChExh || exhausted } t)

/-- For a PAD packet that passes phase 1 of a model with a pad, DECODE dispatches its buttons and
wheels to the channel after the last tool channel: BUTTON and WHEEL events and never MOTION or
PROX; the packet is consumed with result 1 and nothing else changes. (R257.) -/
def Obligations.PadPacketsDispatchToThePad : Prop :=
  ∀ (s : State) (rd : RegNum) (i : Nat), s.nch.toNat < s.cht.length →
    s.DecodesKind i 5 → s.ExtractsAll i →
    ∃ evs t, exec (.decode rd) s = .next t ∧
      s.DispatchEvents i s.nch.toNat false (s.ch s.nch.toNat).btn evs ∧
      (∀ e, e ∈ evs → (∃ k p, e = Event.button s.nch.toNat k p) ∨
        ∃ a v, e = Event.wheel s.nch.toNat a v) ∧
      Decoded s rd
        (fun d => if d = s.nch.toNat then s.dispatched i (s.ch s.nch.toNat) else s.ch d) evs
        s.lastch s.status t

/-- Of all commands but PUMP (whose statement says so packet by packet): one that raises a fault
changes nothing but FAULT, FCAUSE and FINFO, the cause is never 0, and only RDFLD, APPLY and
DECODE raise one. (R363, R364, R368.) -/
def Obligations.FaultsArePrecise : Prop :=
  ∀ (i : Instr) (s t : State), (∀ rd, i ≠ .pump rd) → s.status.fault = false →
    exec i s = .next t → t.status.fault = true →
    (∃ cause info, cause ≠ .none ∧ Faulted s cause info t) ∧
    ((∃ rd fid, i = .rdfld rd fid) ∨ (∃ rd a b, i = .apply rd a b) ∨ ∃ rd, i = .decode rd)

/-- In the RUN state outside the fault state PUMP ends in the state that NEXTPKT and DECODE,
repeated until NEXTPKT leaves no packet, end in, but for the registers they write, and writes the
number of packets to rd; if a DECODE raises a fault, PUMP ends in the state after that fault, with
the effects of the earlier packets, the faulting packet latched and rd not written. (For a legal
profile: every packet length is at least 1, log 7.) (R276.) -/
def Obligations.PumpIsNextpktAndDecode : Prop :=
  ∀ (s : State) (rd : RegNum), ProfileLegal s → s.status.fault = false → s.status.run = true →
    ∃ u, exec (.pump rd) s = .next u ∧
      ((∃ n t, PumpRun rd s n t ∧ OnlyReg t rd (word n) u) ∨ PumpFaults rd s u)

/-- Two states that differ in the operand registers, the ring, the events emitted so far, their
count and the host's inputs, and in nothing else: DECODE emits the same events in both, leaves
everything else the same in both, keeps each one's own ring and inputs, and answers the same
result unless it faults. (R279.) -/
def Obligations.DecodeReadsNoOtherState : Prop :=
  ∀ (s : State) (rd : RegNum) (x : Vector Word 16) (ring : List Byte) (evout : List Event)
    (evcnt : Word) (input : List HostInput), s.status.fault = false → s.status.run = true →
    ∃ t t' evs, exec (.decode rd) s = .next t ∧
      exec (.decode rd) { s with x := x, ring := ring, evout := evout, evcnt := evcnt, input := input }
        = .next t' ∧
      t.evout = s.evout ++ evs ∧ t'.evout = evout ++ evs ∧
      t.evcnt = s.evcnt + word evs.length ∧ t'.evcnt = evcnt + word evs.length ∧
      t'.ring = ring ∧ t'.input = input ∧ t.ring = s.ring ∧ t.input = s.input ∧
      { t' with x := t.x, ring := t.ring, evout := t.evout, evcnt := t.evcnt, input := t.input } = t ∧
      (t.status.fault = false → t'.reg rd = t.reg rd)

/-- For a channel below 256, the words of PROX, BUTTON and WHEEL events are those of R121; a
MOTION event is its head word, whose mask has bit a exactly when axis a is in the map, and then
one word per axis in the map in ascending order (none, for the empty map). (R121.) -/
def Obligations.EventsEncodeAsWords : Prop :=
  ∀ ch : Nat, ch < 256 →
    (∀ (tool : ToolType) (inProx : Bool) (serial : Word),
      (Event.prox ch tool inProx serial).words =
        [word (2 ^ 28 + ch * 2 ^ 20 + tool.code.toNat * 2 ^ 4 + inProx.toNat), serial]) ∧
    (∀ (k : Fin 32) (pressed : Bool),
      (Event.button ch k pressed).words =
        [word (3 * 2 ^ 28 + ch * 2 ^ 20 + k.val * 2 ^ 8 + pressed.toNat)]) ∧
    (∀ (absolute : Bool) (value : Word),
      (Event.wheel ch absolute value).words =
        [word (4 * 2 ^ 28 + ch * 2 ^ 20 + absolute.toNat), value]) ∧
    ∀ values : Vector (Option Word) 8, ∃ mask, mask < 256 ∧
      (∀ a : Fin 8, mask.testBit a.val = values[a].isSome) ∧
      (Event.motion ch values).words =
        word (2 * 2 ^ 28 + ch * 2 ^ 20 + mask) :: (List.finRange 8).filterMap fun a => values[a]

/-- A step of a command word from the RUN state changes no profile register, no table memory and
not the curve; the range registers and VERSION change only by DECODE and PUMP. (R12, R84, R170,
R415.) -/
def Obligations.ProfileIsReadOnlyInRun : Prop :=
  ∀ (s t : State) (w : Word) (rest : List HostInput), s.status.run = true →
    s.input = .command w :: rest → step s = .next t →
    t.proto = s.proto ∧ t.plen = s.plen ∧ t.nch = s.nch ∧ t.caps = s.caps ∧
    t.hdrmask = s.hdrmask ∧ t.tselmap = s.tselmap ∧ t.lsel = s.lsel ∧
    t.fdt = s.fdt ∧ t.cls = s.cls ∧ t.lay = s.lay ∧ t.tid = s.tid ∧ t.lut = s.lut ∧
    t.status.curveValid = s.status.curveValid ∧
    (w.toNat / 2 ^ 24 ≠ 0x43 → w.toNat / 2 ^ 24 ≠ 0x44 →
      t.xmax = s.xmax ∧ t.ymax = s.ymax ∧ t.pmax = s.pmax ∧ t.txmax = s.txmax ∧
      t.tymax = s.tymax ∧ t.dmax = s.dmax ∧ t.version = s.version)

/-- A step of a command word appends events to EVOUT and removes none; EVCNT grows by their number
modulo 2^32, but for an INIT, which emits none and may set EVCNT to 0; only DECODE and PUMP emit.
(R58, R43, R385.) -/
def Obligations.EventsAreOnlyAppended : Prop :=
  ∀ (s t : State) (w : Word) (rest : List HostInput),
    s.input = .command w :: rest → step s = .next t →
    ∃ evs, t.evout = s.evout ++ evs ∧
      (w ≠ 0x07000000 → t.evcnt = s.evcnt + word evs.length) ∧
      (w = 0x07000000 → t.evcnt = s.evcnt ∨ t.evcnt = 0) ∧
      (w.toNat / 2 ^ 24 ≠ 0x43 → w.toNat / 2 ^ 24 ≠ 0x44 → evs = [])

/-- After hardware reset, for every legal parameters and every contents of the operand registers,
the profile registers are legal, the tables sound, the packet buffer and the channel table
consistent, serials distinct, the invariants of R51 hold in the CONFIG state too, and the fault
record is clear; so does State.reset, whose operand registers are 0 by the model's choice (log 1)
and whose parameters are the defaults (log 2). (R51, R53, R54, R55, R60, R335.) -/
def Obligations.ResetMeetsTheInvariants : Prop :=
  (∀ (p : Params) (x : Vector Word 16), p.Wf →
    ProfileLegal (State.afterReset p x) ∧ TablesSound (State.afterReset p x) ∧
    PacketBuffer (State.afterReset p x) ∧ ChannelTable (State.afterReset p x) ∧
    SerialsDistinct (State.afterReset p x) ∧ FaultRecord (State.afterReset p x) ∧
    ChannelsKept (State.afterReset p x) ∧ SerialsApart (State.afterReset p x)) ∧
  ProfileLegal State.reset ∧ TablesSound State.reset ∧ PacketBuffer State.reset ∧
  ChannelTable State.reset ∧ SerialsDistinct State.reset ∧ FaultRecord State.reset ∧
  ChannelsKept State.reset ∧ SerialsApart State.reset

/-- From every state whose profile registers hold legal values (and, in the RUN state, a packet
length and for ISDV4 a header mask), every step, of a command or of reset, leads to such a state.
(R335, R36, R37, R41, R338.) -/
def Obligations.StepsKeepTheProfileLegal : Prop :=
  ∀ s t : State, ProfileLegal s → step s = .next t → ProfileLegal t

/-- From every state whose five table memories are in canonical form and hold nothing past their
size (of the LUT, past index N), every step leads to such a state; from every state in which
FCAUSE and FINFO are 0 while no fault has been raised, and FCAUSE is not 0 once one has, every
step leads to such a state. (R20, R45, R46, R47, R48, R49, R70, R78, R33, R34, R363.) -/
def Obligations.StepsKeepTablesAndFaultRecord : Prop :=
  ∀ s t : State, step s = .next t →
    (TablesSound s → TablesSound t) ∧ (FaultRecord s → FaultRecord t)

/-- From every state with a legal profile in which PKTVALID is 0 exactly when there is no packet,
the packet has at most PKT_MAX bytes and the ring at most RING_SIZE, every step leads to a state
with these properties. (R53, R54, R55, R308.) -/
def Obligations.StepsKeepThePacketBuffer : Prop :=
  ∀ s t : State, ProfileLegal s → PacketBuffer s → step s = .next t → PacketBuffer t

/-- From every state with a legal profile in which, while it runs, tool channels out of proximity
are empty but for STAMP, entries past the last are empty, the pad is present in proximity with
serial 0, and LASTCH is NOCH or a tool channel, every step leads to such a state. In whatever
operating state R51 (i) and (ii) hold, they hold after every step, but for an MTSR of NCH or CAPS
while some entry is not empty: R334 has that command write the register and R339 has HALT keep the
table (log 13). (R50, R51, R52, R43.) -/
def Obligations.StepsKeepTheChannelTable : Prop :=
  ∀ s t : State, ProfileLegal s → ChannelTable s → step s = .next t →
    ChannelTable t ∧
    (ChannelsKept s →
      (¬ s.NextWrites 0x06 ∧ ¬ s.NextWrites 0x07) ∨ (∀ c, s.ch c = Channel.empty) → ChannelsKept t)

/-- From every state with a legal profile and a consistent channel table in which, while it runs,
different tool channels in proximity hold different serials, and all of whose ENTER and FLAGPROX
rules use channel mode ARB, every step leads to a state in which they do. In whatever operating
state R51 (iii) holds, it holds after every step, but for an MTSR of NCH while some entry is not
empty (log 13). (R51, R212, R224.) -/
def Obligations.StepsKeepSerialsDistinct : Prop :=
  ∀ s t : State, ProfileLegal s → ChannelTable s → SerialsDistinct s →
    (∀ i, i < s.params.clsSize → s.RuleValid i → s.kindOf i = 1 ∨ s.kindOf i = 2 → s.modeOf i = 0) →
    step s = .next t →
    SerialsDistinct t ∧
    (SerialsApart s → ¬ s.NextWrites 0x06 ∨ (∀ c, s.ch c = Channel.empty) → SerialsApart t)

/-- In CONFIG state outside the fault state BUILD cuts the curve of the two packed control points,
from (0,0) to (1,1), into the segments of R173 (halved at its parametric middle until both inner
control points are nearer to the chord than FLAT_TOL or the depth is DEPTH_MAX, first half first),
whose ends do not decrease; and every index 0..N holds the value that the last segment to leave
one there leaves: between the ends floor(q*N), one rounded value an index where the line is
x-dominant, else the last of the values that fall on the index. (A resolution below 2^32, so that
N fits a table word: log 11.) (R106, R171, R172, R173, R174, R175, R176, R177, R178, R183.) -/
def Obligations.BuildDrawsTheSubdividedCurve : Prop :=
  ∀ (s : State) (rs1 rs2 : RegNum), s.params.curveRes < 2 ^ 32 → s.status.fault = false →
    s.status.run = false → Memory.wf s.lut = true →
    ∃ t segs, exec (.build rs1 rs2) s = .next t ∧
      CurveSegments s.params 0 ⟨0, 0⟩ (packedPoint (s.reg rs1)) (packedPoint (s.reg rs2)) ⟨1, 1⟩ segs ∧
      (∀ e, e ∈ segs → e.1.x ≤ e.2.x ∧ e.1.y ≤ e.2.y) ∧
      ∀ i, i ≤ s.params.curveRes → ∃ before e after, segs = before ++ e :: after ∧
        SegmentLeaves s.params.curveRes e i (Memory.read t.lut i).toNat ∧
        ∀ f, f ∈ after → ∀ v, ¬ SegmentLeaves s.params.curveRes f i v
end

