-- ==== Sys2Proof/Laws/Memory.lean ====
section
/-! SUPPORT. The laws of the word-table memory: read after write, and the canonical form. -/

namespace Sys2Proof.Machine

@[simp] theorem Memory.read_nil (i : Nat) : Memory.read [] i = 0#32 := rfl

theorem Memory.wf_nil : Memory.wf [] = true := rfl

/-- A canonical memory lists nothing below the index it starts from. -/
theorem Memory.read_of_lt_wfFrom {lo i : Nat} (h : i < lo) :
    ∀ {m : Memory}, Memory.wfFrom lo m = true → Memory.read m i = 0#32
  | [], _ => rfl
  | (j, v) :: m, hm => by
    simp only [Memory.wfFrom, Bool.and_eq_true, decide_eq_true_eq] at hm
    simp only [Memory.read, if_neg (show ¬ i = j by omega)]
    exact Memory.read_of_lt_wfFrom (by omega) hm.2

/-- The canonical form may start from any smaller index. -/
theorem Memory.wfFrom_mono {lo lo' : Nat} (h : lo' ≤ lo) :
    ∀ {m : Memory}, Memory.wfFrom lo m = true → Memory.wfFrom lo' m = true
  | [], _ => rfl
  | (j, v) :: m, hm => by
    simp only [Memory.wfFrom, Bool.and_eq_true, decide_eq_true_eq] at hm ⊢
    exact ⟨⟨by omega, hm.1.2⟩, hm.2⟩

/-- Read after write, in a canonical memory. -/
theorem Memory.read_write_from (i j : Nat) (v : Word) :
    ∀ {lo : Nat} {m : Memory}, Memory.wfFrom lo m = true →
      Memory.read (Memory.write m i v) j = if j = i then v else Memory.read m j
  | _, [], _ => by
    unfold Memory.write
    by_cases hv : v = 0#32 <;> by_cases hj : j = i <;> simp [Memory.read, hv, hj]
  | lo, (k, u) :: m, hm => by
    simp only [Memory.wfFrom, Bool.and_eq_true, decide_eq_true_eq] at hm
    unfold Memory.write
    have hlow : ∀ a, a < k + 1 → Memory.read m a = 0#32 := fun a ha => Memory.read_of_lt_wfFrom ha hm.2
    by_cases h1 : i < k
    · by_cases hv : v = 0#32
      · by_cases hj : j = i
        · subst hj
          simp [h1, hv, Memory.read, hlow j (by omega), Nat.ne_of_lt h1]
        · simp [h1, hv, hj]
      · by_cases hj : j = i <;> simp [h1, hv, hj, Memory.read]
    · by_cases h2 : i = k
      · subst h2
        by_cases hv : v = 0#32
        · by_cases hj : j = i
          · subst hj
            simp [hv, hlow j (by omega)]
          · simp [hv, hj, Memory.read]
        · by_cases hj : j = i <;> simp [hv, hj, Memory.read]
      · have ih := Memory.read_write_from i j v hm.2
        by_cases hk : j = k
        · subst hk
          simp [h1, h2, Memory.read, Ne.symm h2]
        · simp [h1, h2, Memory.read, hk, ih]

/-- A write keeps the canonical form. -/
theorem Memory.wfFrom_write (i : Nat) (v : Word) :
    ∀ {lo : Nat} {m : Memory}, lo ≤ i → Memory.wfFrom lo m = true →
      Memory.wfFrom lo (Memory.write m i v) = true
  | _, [], hi, _ => by
    unfold Memory.write
    by_cases hv : v = 0#32 <;> simp [hv, Memory.wfFrom, hi]
  | lo, (k, u) :: m, hi, hm => by
    have hm' := hm
    simp only [Memory.wfFrom, Bool.and_eq_true, decide_eq_true_eq] at hm'
    unfold Memory.write
    by_cases h1 : i < k
    · by_cases hv : v = 0#32
      · simpa [h1, hv] using hm
      · simp [h1, hv, Memory.wfFrom, hi, hm'.1.2, hm'.2]
    · by_cases h2 : i = k
      · subst h2
        by_cases hv : v = 0#32
        · simpa [hv] using Memory.wfFrom_mono (by omega) hm'.2
        · simp [hv, Memory.wfFrom, hi, hm'.2]
      · have ih := Memory.wfFrom_write i v (lo := k + 1) (by omega) hm'.2
        simp [h1, h2, Memory.wfFrom, hm'.1.1, hm'.1.2, ih]

/-- Read after write: the index written gives the word written, every other index what it gave. -/
theorem Memory.read_write {m : Memory} (hm : m.wf = true) (i j : Nat) (v : Word) :
    Memory.read (Memory.write m i v) j = if j = i then v else Memory.read m j :=
  Memory.read_write_from i j v hm

/-- Every write keeps the canonical form. -/
theorem Memory.wf_write {m : Memory} (hm : m.wf = true) (i : Nat) (v : Word) :
    Memory.wf (Memory.write m i v) = true :=
  Memory.wfFrom_write i v (Nat.zero_le i) hm

/-- Two canonical memories that read the same from every index are the same list. -/
theorem Memory.ext_from : ∀ {lo : Nat} {m m' : Memory}, Memory.wfFrom lo m = true →
    Memory.wfFrom lo m' = true → (∀ i, Memory.read m i = Memory.read m' i) → m = m'
  | _, [], [], _, _, _ => rfl
  | lo, [], (k, u) :: m', _, h', hr => by
    simp only [Memory.wfFrom, Bool.and_eq_true, decide_eq_true_eq] at h'
    exact absurd (by simpa [Memory.read] using (hr k).symm) h'.1.2
  | lo, (k, u) :: m, [], h, _, hr => by
    simp only [Memory.wfFrom, Bool.and_eq_true, decide_eq_true_eq] at h
    exact absurd (by simpa [Memory.read] using hr k) h.1.2
  | lo, (k, u) :: m, (k', u') :: m', h, h', hr => by
    simp only [Memory.wfFrom, Bool.and_eq_true, decide_eq_true_eq] at h h'
    rcases Nat.lt_trichotomy k k' with hk | hk | hk
    · have := hr k
      simp only [Memory.read, if_pos, if_neg (Nat.ne_of_lt hk),
        Memory.read_of_lt_wfFrom (show k < k' + 1 by omega) h'.2] at this
      exact absurd this h.1.2
    · subst hk
      have hu : u = u' := by simpa [Memory.read] using hr k
      subst hu
      have : m = m' := by
        refine Memory.ext_from h.2 h'.2 fun i => ?_
        by_cases hi : i = k
        · subst hi
          rw [Memory.read_of_lt_wfFrom (Nat.lt_succ_self i) h.2,
            Memory.read_of_lt_wfFrom (Nat.lt_succ_self i) h'.2]
        · simpa [Memory.read, hi] using hr i
      rw [this]
    · have := hr k'
      simp only [Memory.read, if_pos, if_neg (Nat.ne_of_lt hk),
        Memory.read_of_lt_wfFrom (show k' < k + 1 by omega) h.2] at this
      exact absurd this.symm h'.1.2

theorem Memory.ext {m m' : Memory} (h : m.wf = true) (h' : m'.wf = true)
    (hr : ∀ i, Memory.read m i = Memory.read m' i) : m = m' := Memory.ext_from h h' hr

end Sys2Proof.Machine
end

