-- ==== Sys2Proof/Laws/State.lean ====
section
/-! SUPPORT. One lemma per field per update: what each update of the state leaves as it was, and the
flags that the flag updates write. -/

namespace Sys2Proof.Machine

/-! ### `setReg` -/

@[simp] theorem State.setReg_params (s : State) (i : RegNum) (v : Word) : (s.setReg i v).params = s.params := rfl
@[simp] theorem State.setReg_input (s : State) (i : RegNum) (v : Word) : (s.setReg i v).input = s.input := rfl
@[simp] theorem State.setReg_status (s : State) (i : RegNum) (v : Word) : (s.setReg i v).status = s.status := rfl
@[simp] theorem State.setReg_fcause (s : State) (i : RegNum) (v : Word) : (s.setReg i v).fcause = s.fcause := rfl
@[simp] theorem State.setReg_finfo (s : State) (i : RegNum) (v : Word) : (s.setReg i v).finfo = s.finfo := rfl
@[simp] theorem State.setReg_proto (s : State) (i : RegNum) (v : Word) : (s.setReg i v).proto = s.proto := rfl
@[simp] theorem State.setReg_plen (s : State) (i : RegNum) (v : Word) : (s.setReg i v).plen = s.plen := rfl
@[simp] theorem State.setReg_nch (s : State) (i : RegNum) (v : Word) : (s.setReg i v).nch = s.nch := rfl
@[simp] theorem State.setReg_caps (s : State) (i : RegNum) (v : Word) : (s.setReg i v).caps = s.caps := rfl
@[simp] theorem State.setReg_hdrmask (s : State) (i : RegNum) (v : Word) : (s.setReg i v).hdrmask = s.hdrmask := rfl
@[simp] theorem State.setReg_tselmap (s : State) (i : RegNum) (v : Word) : (s.setReg i v).tselmap = s.tselmap := rfl
@[simp] theorem State.setReg_lsel (s : State) (i : RegNum) (v : Word) : (s.setReg i v).lsel = s.lsel := rfl
@[simp] theorem State.setReg_xmax (s : State) (i : RegNum) (v : Word) : (s.setReg i v).xmax = s.xmax := rfl
@[simp] theorem State.setReg_ymax (s : State) (i : RegNum) (v : Word) : (s.setReg i v).ymax = s.ymax := rfl
@[simp] theorem State.setReg_pmax (s : State) (i : RegNum) (v : Word) : (s.setReg i v).pmax = s.pmax := rfl
@[simp] theorem State.setReg_txmax (s : State) (i : RegNum) (v : Word) : (s.setReg i v).txmax = s.txmax := rfl
@[simp] theorem State.setReg_tymax (s : State) (i : RegNum) (v : Word) : (s.setReg i v).tymax = s.tymax := rfl
@[simp] theorem State.setReg_dmax (s : State) (i : RegNum) (v : Word) : (s.setReg i v).dmax = s.dmax := rfl
@[simp] theorem State.setReg_version (s : State) (i : RegNum) (v : Word) : (s.setReg i v).version = s.version := rfl
@[simp] theorem State.setReg_pktcnt (s : State) (i : RegNum) (v : Word) : (s.setReg i v).pktcnt = s.pktcnt := rfl
@[simp] theorem State.setReg_evcnt (s : State) (i : RegNum) (v : Word) : (s.setReg i v).evcnt = s.evcnt := rfl
@[simp] theorem State.setReg_lastch (s : State) (i : RegNum) (v : Word) : (s.setReg i v).lastch = s.lastch := rfl
@[simp] theorem State.setReg_fdt (s : State) (i : RegNum) (v : Word) : (s.setReg i v).fdt = s.fdt := rfl
@[simp] theorem State.setReg_cls (s : State) (i : RegNum) (v : Word) : (s.setReg i v).cls = s.cls := rfl
@[simp] theorem State.setReg_lay (s : State) (i : RegNum) (v : Word) : (s.setReg i v).lay = s.lay := rfl
@[simp] theorem State.setReg_tid (s : State) (i : RegNum) (v : Word) : (s.setReg i v).tid = s.tid := rfl
@[simp] theorem State.setReg_lut (s : State) (i : RegNum) (v : Word) : (s.setReg i v).lut = s.lut := rfl
@[simp] theorem State.setReg_cht (s : State) (i : RegNum) (v : Word) : (s.setReg i v).cht = s.cht := rfl
@[simp] theorem State.setReg_ring (s : State) (i : RegNum) (v : Word) : (s.setReg i v).ring = s.ring := rfl
@[simp] theorem State.setReg_pkt (s : State) (i : RegNum) (v : Word) : (s.setReg i v).pkt = s.pkt := rfl
@[simp] theorem State.setReg_evout (s : State) (i : RegNum) (v : Word) : (s.setReg i v).evout = s.evout := rfl

/-! ### `setCh` -/

@[simp] theorem State.setCh_params (s : State) (c : Nat) (e : Channel) : (s.setCh c e).params = s.params := rfl
@[simp] theorem State.setCh_input (s : State) (c : Nat) (e : Channel) : (s.setCh c e).input = s.input := rfl
@[simp] theorem State.setCh_x (s : State) (c : Nat) (e : Channel) : (s.setCh c e).x = s.x := rfl
@[simp] theorem State.setCh_status (s : State) (c : Nat) (e : Channel) : (s.setCh c e).status = s.status := rfl
@[simp] theorem State.setCh_fcause (s : State) (c : Nat) (e : Channel) : (s.setCh c e).fcause = s.fcause := rfl
@[simp] theorem State.setCh_finfo (s : State) (c : Nat) (e : Channel) : (s.setCh c e).finfo = s.finfo := rfl
@[simp] theorem State.setCh_proto (s : State) (c : Nat) (e : Channel) : (s.setCh c e).proto = s.proto := rfl
@[simp] theorem State.setCh_plen (s : State) (c : Nat) (e : Channel) : (s.setCh c e).plen = s.plen := rfl
@[simp] theorem State.setCh_nch (s : State) (c : Nat) (e : Channel) : (s.setCh c e).nch = s.nch := rfl
@[simp] theorem State.setCh_caps (s : State) (c : Nat) (e : Channel) : (s.setCh c e).caps = s.caps := rfl
@[simp] theorem State.setCh_hdrmask (s : State) (c : Nat) (e : Channel) : (s.setCh c e).hdrmask = s.hdrmask := rfl
@[simp] theorem State.setCh_tselmap (s : State) (c : Nat) (e : Channel) : (s.setCh c e).tselmap = s.tselmap := rfl
@[simp] theorem State.setCh_lsel (s : State) (c : Nat) (e : Channel) : (s.setCh c e).lsel = s.lsel := rfl
@[simp] theorem State.setCh_xmax (s : State) (c : Nat) (e : Channel) : (s.setCh c e).xmax = s.xmax := rfl
@[simp] theorem State.setCh_ymax (s : State) (c : Nat) (e : Channel) : (s.setCh c e).ymax = s.ymax := rfl
@[simp] theorem State.setCh_pmax (s : State) (c : Nat) (e : Channel) : (s.setCh c e).pmax = s.pmax := rfl
@[simp] theorem State.setCh_txmax (s : State) (c : Nat) (e : Channel) : (s.setCh c e).txmax = s.txmax := rfl
@[simp] theorem State.setCh_tymax (s : State) (c : Nat) (e : Channel) : (s.setCh c e).tymax = s.tymax := rfl
@[simp] theorem State.setCh_dmax (s : State) (c : Nat) (e : Channel) : (s.setCh c e).dmax = s.dmax := rfl
@[simp] theorem State.setCh_version (s : State) (c : Nat) (e : Channel) : (s.setCh c e).version = s.version := rfl
@[simp] theorem State.setCh_pktcnt (s : State) (c : Nat) (e : Channel) : (s.setCh c e).pktcnt = s.pktcnt := rfl
@[simp] theorem State.setCh_evcnt (s : State) (c : Nat) (e : Channel) : (s.setCh c e).evcnt = s.evcnt := rfl
@[simp] theorem State.setCh_lastch (s : State) (c : Nat) (e : Channel) : (s.setCh c e).lastch = s.lastch := rfl
@[simp] theorem State.setCh_fdt (s : State) (c : Nat) (e : Channel) : (s.setCh c e).fdt = s.fdt := rfl
@[simp] theorem State.setCh_cls (s : State) (c : Nat) (e : Channel) : (s.setCh c e).cls = s.cls := rfl
@[simp] theorem State.setCh_lay (s : State) (c : Nat) (e : Channel) : (s.setCh c e).lay = s.lay := rfl
@[simp] theorem State.setCh_tid (s : State) (c : Nat) (e : Channel) : (s.setCh c e).tid = s.tid := rfl
@[simp] theorem State.setCh_lut (s : State) (c : Nat) (e : Channel) : (s.setCh c e).lut = s.lut := rfl
@[simp] theorem State.setCh_ring (s : State) (c : Nat) (e : Channel) : (s.setCh c e).ring = s.ring := rfl
@[simp] theorem State.setCh_pkt (s : State) (c : Nat) (e : Channel) : (s.setCh c e).pkt = s.pkt := rfl
@[simp] theorem State.setCh_evout (s : State) (c : Nat) (e : Channel) : (s.setCh c e).evout = s.evout := rfl

/-! ### `clear` -/

@[simp] theorem State.clear_params (s : State) (c : Nat) : (s.clear c).params = s.params := rfl
@[simp] theorem State.clear_input (s : State) (c : Nat) : (s.clear c).input = s.input := rfl
@[simp] theorem State.clear_x (s : State) (c : Nat) : (s.clear c).x = s.x := rfl
@[simp] theorem State.clear_status (s : State) (c : Nat) : (s.clear c).status = s.status := rfl
@[simp] theorem State.clear_fcause (s : State) (c : Nat) : (s.clear c).fcause = s.fcause := rfl
@[simp] theorem State.clear_finfo (s : State) (c : Nat) : (s.clear c).finfo = s.finfo := rfl
@[simp] theorem State.clear_proto (s : State) (c : Nat) : (s.clear c).proto = s.proto := rfl
@[simp] theorem State.clear_plen (s : State) (c : Nat) : (s.clear c).plen = s.plen := rfl
@[simp] theorem State.clear_nch (s : State) (c : Nat) : (s.clear c).nch = s.nch := rfl
@[simp] theorem State.clear_caps (s : State) (c : Nat) : (s.clear c).caps = s.caps := rfl
@[simp] theorem State.clear_hdrmask (s : State) (c : Nat) : (s.clear c).hdrmask = s.hdrmask := rfl
@[simp] theorem State.clear_tselmap (s : State) (c : Nat) : (s.clear c).tselmap = s.tselmap := rfl
@[simp] theorem State.clear_lsel (s : State) (c : Nat) : (s.clear c).lsel = s.lsel := rfl
@[simp] theorem State.clear_xmax (s : State) (c : Nat) : (s.clear c).xmax = s.xmax := rfl
@[simp] theorem State.clear_ymax (s : State) (c : Nat) : (s.clear c).ymax = s.ymax := rfl
@[simp] theorem State.clear_pmax (s : State) (c : Nat) : (s.clear c).pmax = s.pmax := rfl
@[simp] theorem State.clear_txmax (s : State) (c : Nat) : (s.clear c).txmax = s.txmax := rfl
@[simp] theorem State.clear_tymax (s : State) (c : Nat) : (s.clear c).tymax = s.tymax := rfl
@[simp] theorem State.clear_dmax (s : State) (c : Nat) : (s.clear c).dmax = s.dmax := rfl
@[simp] theorem State.clear_version (s : State) (c : Nat) : (s.clear c).version = s.version := rfl
@[simp] theorem State.clear_pktcnt (s : State) (c : Nat) : (s.clear c).pktcnt = s.pktcnt := rfl
@[simp] theorem State.clear_evcnt (s : State) (c : Nat) : (s.clear c).evcnt = s.evcnt := rfl
@[simp] theorem State.clear_lastch (s : State) (c : Nat) : (s.clear c).lastch = s.lastch := rfl
@[simp] theorem State.clear_fdt (s : State) (c : Nat) : (s.clear c).fdt = s.fdt := rfl
@[simp] theorem State.clear_cls (s : State) (c : Nat) : (s.clear c).cls = s.cls := rfl
@[simp] theorem State.clear_lay (s : State) (c : Nat) : (s.clear c).lay = s.lay := rfl
@[simp] theorem State.clear_tid (s : State) (c : Nat) : (s.clear c).tid = s.tid := rfl
@[simp] theorem State.clear_lut (s : State) (c : Nat) : (s.clear c).lut = s.lut := rfl
@[simp] theorem State.clear_ring (s : State) (c : Nat) : (s.clear c).ring = s.ring := rfl
@[simp] theorem State.clear_pkt (s : State) (c : Nat) : (s.clear c).pkt = s.pkt := rfl
@[simp] theorem State.clear_evout (s : State) (c : Nat) : (s.clear c).evout = s.evout := rfl

/-! ### `enterProc` -/

@[simp] theorem State.enterProc_params (s : State) (c : Nat) (w code : Word) (t : ToolType) : (s.enterProc c w code t).params = s.params := rfl
@[simp] theorem State.enterProc_input (s : State) (c : Nat) (w code : Word) (t : ToolType) : (s.enterProc c w code t).input = s.input := rfl
@[simp] theorem State.enterProc_x (s : State) (c : Nat) (w code : Word) (t : ToolType) : (s.enterProc c w code t).x = s.x := rfl
@[simp] theorem State.enterProc_status (s : State) (c : Nat) (w code : Word) (t : ToolType) : (s.enterProc c w code t).status = s.status := rfl
@[simp] theorem State.enterProc_fcause (s : State) (c : Nat) (w code : Word) (t : ToolType) : (s.enterProc c w code t).fcause = s.fcause := rfl
@[simp] theorem State.enterProc_finfo (s : State) (c : Nat) (w code : Word) (t : ToolType) : (s.enterProc c w code t).finfo = s.finfo := rfl
@[simp] theorem State.enterProc_proto (s : State) (c : Nat) (w code : Word) (t : ToolType) : (s.enterProc c w code t).proto = s.proto := rfl
@[simp] theorem State.enterProc_plen (s : State) (c : Nat) (w code : Word) (t : ToolType) : (s.enterProc c w code t).plen = s.plen := rfl
@[simp] theorem State.enterProc_nch (s : State) (c : Nat) (w code : Word) (t : ToolType) : (s.enterProc c w code t).nch = s.nch := rfl
@[simp] theorem State.enterProc_caps (s : State) (c : Nat) (w code : Word) (t : ToolType) : (s.enterProc c w code t).caps = s.caps := rfl
@[simp] theorem State.enterProc_hdrmask (s : State) (c : Nat) (w code : Word) (t : ToolType) : (s.enterProc c w code t).hdrmask = s.hdrmask := rfl
@[simp] theorem State.enterProc_tselmap (s : State) (c : Nat) (w code : Word) (t : ToolType) : (s.enterProc c w code t).tselmap = s.tselmap := rfl
@[simp] theorem State.enterProc_lsel (s : State) (c : Nat) (w code : Word) (t : ToolType) : (s.enterProc c w code t).lsel = s.lsel := rfl
@[simp] theorem State.enterProc_xmax (s : State) (c : Nat) (w code : Word) (t : ToolType) : (s.enterProc c w code t).xmax = s.xmax := rfl
@[simp] theorem State.enterProc_ymax (s : State) (c : Nat) (w code : Word) (t : ToolType) : (s.enterProc c w code t).ymax = s.ymax := rfl
@[simp] theorem State.enterProc_pmax (s : State) (c : Nat) (w code : Word) (t : ToolType) : (s.enterProc c w code t).pmax = s.pmax := rfl
@[simp] theorem State.enterProc_txmax (s : State) (c : Nat) (w code : Word) (t : ToolType) : (s.enterProc c w code t).txmax = s.txmax := rfl
@[simp] theorem State.enterProc_tymax (s : State) (c : Nat) (w code : Word) (t : ToolType) : (s.enterProc c w code t).tymax = s.tymax := rfl
@[simp] theorem State.enterProc_dmax (s : State) (c : Nat) (w code : Word) (t : ToolType) : (s.enterProc c w code t).dmax = s.dmax := rfl
@[simp] theorem State.enterProc_version (s : State) (c : Nat) (w code : Word) (t : ToolType) : (s.enterProc c w code t).version = s.version := rfl
@[simp] theorem State.enterProc_pktcnt (s : State) (c : Nat) (w code : Word) (t : ToolType) : (s.enterProc c w code t).pktcnt = s.pktcnt := rfl
@[simp] theorem State.enterProc_evcnt (s : State) (c : Nat) (w code : Word) (t : ToolType) : (s.enterProc c w code t).evcnt = s.evcnt := rfl
@[simp] theorem State.enterProc_fdt (s : State) (c : Nat) (w code : Word) (t : ToolType) : (s.enterProc c w code t).fdt = s.fdt := rfl
@[simp] theorem State.enterProc_cls (s : State) (c : Nat) (w code : Word) (t : ToolType) : (s.enterProc c w code t).cls = s.cls := rfl
@[simp] theorem State.enterProc_lay (s : State) (c : Nat) (w code : Word) (t : ToolType) : (s.enterProc c w code t).lay = s.lay := rfl
@[simp] theorem State.enterProc_tid (s : State) (c : Nat) (w code : Word) (t : ToolType) : (s.enterProc c w code t).tid = s.tid := rfl
@[simp] theorem State.enterProc_lut (s : State) (c : Nat) (w code : Word) (t : ToolType) : (s.enterProc c w code t).lut = s.lut := rfl
@[simp] theorem State.enterProc_ring (s : State) (c : Nat) (w code : Word) (t : ToolType) : (s.enterProc c w code t).ring = s.ring := rfl
@[simp] theorem State.enterProc_pkt (s : State) (c : Nat) (w code : Word) (t : ToolType) : (s.enterProc c w code t).pkt = s.pkt := rfl
@[simp] theorem State.enterProc_evout (s : State) (c : Nat) (w code : Word) (t : ToolType) : (s.enterProc c w code t).evout = s.evout := rfl

/-! ### `emit` -/

@[simp] theorem State.emit_params (s : State) (ev : Event) : (s.emit ev).params = s.params := rfl
@[simp] theorem State.emit_input (s : State) (ev : Event) : (s.emit ev).input = s.input := rfl
@[simp] theorem State.emit_x (s : State) (ev : Event) : (s.emit ev).x = s.x := rfl
@[simp] theorem State.emit_status (s : State) (ev : Event) : (s.emit ev).status = s.status := rfl
@[simp] theorem State.emit_fcause (s : State) (ev : Event) : (s.emit ev).fcause = s.fcause := rfl
@[simp] theorem State.emit_finfo (s : State) (ev : Event) : (s.emit ev).finfo = s.finfo := rfl
@[simp] theorem State.emit_proto (s : State) (ev : Event) : (s.emit ev).proto = s.proto := rfl
@[simp] theorem State.emit_plen (s : State) (ev : Event) : (s.emit ev).plen = s.plen := rfl
@[simp] theorem State.emit_nch (s : State) (ev : Event) : (s.emit ev).nch = s.nch := rfl
@[simp] theorem State.emit_caps (s : State) (ev : Event) : (s.emit ev).caps = s.caps := rfl
@[simp] theorem State.emit_hdrmask (s : State) (ev : Event) : (s.emit ev).hdrmask = s.hdrmask := rfl
@[simp] theorem State.emit_tselmap (s : State) (ev : Event) : (s.emit ev).tselmap = s.tselmap := rfl
@[simp] theorem State.emit_lsel (s : State) (ev : Event) : (s.emit ev).lsel = s.lsel := rfl
@[simp] theorem State.emit_xmax (s : State) (ev : Event) : (s.emit ev).xmax = s.xmax := rfl
@[simp] theorem State.emit_ymax (s : State) (ev : Event) : (s.emit ev).ymax = s.ymax := rfl
@[simp] theorem State.emit_pmax (s : State) (ev : Event) : (s.emit ev).pmax = s.pmax := rfl
@[simp] theorem State.emit_txmax (s : State) (ev : Event) : (s.emit ev).txmax = s.txmax := rfl
@[simp] theorem State.emit_tymax (s : State) (ev : Event) : (s.emit ev).tymax = s.tymax := rfl
@[simp] theorem State.emit_dmax (s : State) (ev : Event) : (s.emit ev).dmax = s.dmax := rfl
@[simp] theorem State.emit_version (s : State) (ev : Event) : (s.emit ev).version = s.version := rfl
@[simp] theorem State.emit_pktcnt (s : State) (ev : Event) : (s.emit ev).pktcnt = s.pktcnt := rfl
@[simp] theorem State.emit_lastch (s : State) (ev : Event) : (s.emit ev).lastch = s.lastch := rfl
@[simp] theorem State.emit_fdt (s : State) (ev : Event) : (s.emit ev).fdt = s.fdt := rfl
@[simp] theorem State.emit_cls (s : State) (ev : Event) : (s.emit ev).cls = s.cls := rfl
@[simp] theorem State.emit_lay (s : State) (ev : Event) : (s.emit ev).lay = s.lay := rfl
@[simp] theorem State.emit_tid (s : State) (ev : Event) : (s.emit ev).tid = s.tid := rfl
@[simp] theorem State.emit_lut (s : State) (ev : Event) : (s.emit ev).lut = s.lut := rfl
@[simp] theorem State.emit_cht (s : State) (ev : Event) : (s.emit ev).cht = s.cht := rfl
@[simp] theorem State.emit_ring (s : State) (ev : Event) : (s.emit ev).ring = s.ring := rfl
@[simp] theorem State.emit_pkt (s : State) (ev : Event) : (s.emit ev).pkt = s.pkt := rfl

/-! ### `consumePkt` -/

@[simp] theorem State.consumePkt_params (s : State) : (s.consumePkt).params = s.params := rfl
@[simp] theorem State.consumePkt_input (s : State) : (s.consumePkt).input = s.input := rfl
@[simp] theorem State.consumePkt_x (s : State) : (s.consumePkt).x = s.x := rfl
@[simp] theorem State.consumePkt_fcause (s : State) : (s.consumePkt).fcause = s.fcause := rfl
@[simp] theorem State.consumePkt_finfo (s : State) : (s.consumePkt).finfo = s.finfo := rfl
@[simp] theorem State.consumePkt_proto (s : State) : (s.consumePkt).proto = s.proto := rfl
@[simp] theorem State.consumePkt_plen (s : State) : (s.consumePkt).plen = s.plen := rfl
@[simp] theorem State.consumePkt_nch (s : State) : (s.consumePkt).nch = s.nch := rfl
@[simp] theorem State.consumePkt_caps (s : State) : (s.consumePkt).caps = s.caps := rfl
@[simp] theorem State.consumePkt_hdrmask (s : State) : (s.consumePkt).hdrmask = s.hdrmask := rfl
@[simp] theorem State.consumePkt_tselmap (s : State) : (s.consumePkt).tselmap = s.tselmap := rfl
@[simp] theorem State.consumePkt_lsel (s : State) : (s.consumePkt).lsel = s.lsel := rfl
@[simp] theorem State.consumePkt_xmax (s : State) : (s.consumePkt).xmax = s.xmax := rfl
@[simp] theorem State.consumePkt_ymax (s : State) : (s.consumePkt).ymax = s.ymax := rfl
@[simp] theorem State.consumePkt_pmax (s : State) : (s.consumePkt).pmax = s.pmax := rfl
@[simp] theorem State.consumePkt_txmax (s : State) : (s.consumePkt).txmax = s.txmax := rfl
@[simp] theorem State.consumePkt_tymax (s : State) : (s.consumePkt).tymax = s.tymax := rfl
@[simp] theorem State.consumePkt_dmax (s : State) : (s.consumePkt).dmax = s.dmax := rfl
@[simp] theorem State.consumePkt_version (s : State) : (s.consumePkt).version = s.version := rfl
@[simp] theorem State.consumePkt_pktcnt (s : State) : (s.consumePkt).pktcnt = s.pktcnt := rfl
@[simp] theorem State.consumePkt_evcnt (s : State) : (s.consumePkt).evcnt = s.evcnt := rfl
@[simp] theorem State.consumePkt_lastch (s : State) : (s.consumePkt).lastch = s.lastch := rfl
@[simp] theorem State.consumePkt_fdt (s : State) : (s.consumePkt).fdt = s.fdt := rfl
@[simp] theorem State.consumePkt_cls (s : State) : (s.consumePkt).cls = s.cls := rfl
@[simp] theorem State.consumePkt_lay (s : State) : (s.consumePkt).lay = s.lay := rfl
@[simp] theorem State.consumePkt_tid (s : State) : (s.consumePkt).tid = s.tid := rfl
@[simp] theorem State.consumePkt_lut (s : State) : (s.consumePkt).lut = s.lut := rfl
@[simp] theorem State.consumePkt_cht (s : State) : (s.consumePkt).cht = s.cht := rfl
@[simp] theorem State.consumePkt_ring (s : State) : (s.consumePkt).ring = s.ring := rfl
@[simp] theorem State.consumePkt_evout (s : State) : (s.consumePkt).evout = s.evout := rfl

/-! ### `latch` -/

@[simp] theorem State.latch_params (s : State) (len : Nat) : (s.latch len).params = s.params := rfl
@[simp] theorem State.latch_input (s : State) (len : Nat) : (s.latch len).input = s.input := rfl
@[simp] theorem State.latch_x (s : State) (len : Nat) : (s.latch len).x = s.x := rfl
@[simp] theorem State.latch_fcause (s : State) (len : Nat) : (s.latch len).fcause = s.fcause := rfl
@[simp] theorem State.latch_finfo (s : State) (len : Nat) : (s.latch len).finfo = s.finfo := rfl
@[simp] theorem State.latch_proto (s : State) (len : Nat) : (s.latch len).proto = s.proto := rfl
@[simp] theorem State.latch_plen (s : State) (len : Nat) : (s.latch len).plen = s.plen := rfl
@[simp] theorem State.latch_nch (s : State) (len : Nat) : (s.latch len).nch = s.nch := rfl
@[simp] theorem State.latch_caps (s : State) (len : Nat) : (s.latch len).caps = s.caps := rfl
@[simp] theorem State.latch_hdrmask (s : State) (len : Nat) : (s.latch len).hdrmask = s.hdrmask := rfl
@[simp] theorem State.latch_tselmap (s : State) (len : Nat) : (s.latch len).tselmap = s.tselmap := rfl
@[simp] theorem State.latch_lsel (s : State) (len : Nat) : (s.latch len).lsel = s.lsel := rfl
@[simp] theorem State.latch_xmax (s : State) (len : Nat) : (s.latch len).xmax = s.xmax := rfl
@[simp] theorem State.latch_ymax (s : State) (len : Nat) : (s.latch len).ymax = s.ymax := rfl
@[simp] theorem State.latch_pmax (s : State) (len : Nat) : (s.latch len).pmax = s.pmax := rfl
@[simp] theorem State.latch_txmax (s : State) (len : Nat) : (s.latch len).txmax = s.txmax := rfl
@[simp] theorem State.latch_tymax (s : State) (len : Nat) : (s.latch len).tymax = s.tymax := rfl
@[simp] theorem State.latch_dmax (s : State) (len : Nat) : (s.latch len).dmax = s.dmax := rfl
@[simp] theorem State.latch_version (s : State) (len : Nat) : (s.latch len).version = s.version := rfl
@[simp] theorem State.latch_evcnt (s : State) (len : Nat) : (s.latch len).evcnt = s.evcnt := rfl
@[simp] theorem State.latch_lastch (s : State) (len : Nat) : (s.latch len).lastch = s.lastch := rfl
@[simp] theorem State.latch_fdt (s : State) (len : Nat) : (s.latch len).fdt = s.fdt := rfl
@[simp] theorem State.latch_cls (s : State) (len : Nat) : (s.latch len).cls = s.cls := rfl
@[simp] theorem State.latch_lay (s : State) (len : Nat) : (s.latch len).lay = s.lay := rfl
@[simp] theorem State.latch_tid (s : State) (len : Nat) : (s.latch len).tid = s.tid := rfl
@[simp] theorem State.latch_lut (s : State) (len : Nat) : (s.latch len).lut = s.lut := rfl
@[simp] theorem State.latch_cht (s : State) (len : Nat) : (s.latch len).cht = s.cht := rfl
@[simp] theorem State.latch_evout (s : State) (len : Nat) : (s.latch len).evout = s.evout := rfl

/-! ### `setResync` -/

@[simp] theorem State.setResync_params (s : State) : (s.setResync).params = s.params := rfl
@[simp] theorem State.setResync_input (s : State) : (s.setResync).input = s.input := rfl
@[simp] theorem State.setResync_x (s : State) : (s.setResync).x = s.x := rfl
@[simp] theorem State.setResync_fcause (s : State) : (s.setResync).fcause = s.fcause := rfl
@[simp] theorem State.setResync_finfo (s : State) : (s.setResync).finfo = s.finfo := rfl
@[simp] theorem State.setResync_proto (s : State) : (s.setResync).proto = s.proto := rfl
@[simp] theorem State.setResync_plen (s : State) : (s.setResync).plen = s.plen := rfl
@[simp] theorem State.setResync_nch (s : State) : (s.setResync).nch = s.nch := rfl
@[simp] theorem State.setResync_caps (s : State) : (s.setResync).caps = s.caps := rfl
@[simp] theorem State.setResync_hdrmask (s : State) : (s.setResync).hdrmask = s.hdrmask := rfl
@[simp] theorem State.setResync_tselmap (s : State) : (s.setResync).tselmap = s.tselmap := rfl
@[simp] theorem State.setResync_lsel (s : State) : (s.setResync).lsel = s.lsel := rfl
@[simp] theorem State.setResync_xmax (s : State) : (s.setResync).xmax = s.xmax := rfl
@[simp] theorem State.setResync_ymax (s : State) : (s.setResync).ymax = s.ymax := rfl
@[simp] theorem State.setResync_pmax (s : State) : (s.setResync).pmax = s.pmax := rfl
@[simp] theorem State.setResync_txmax (s : State) : (s.setResync).txmax = s.txmax := rfl
@[simp] theorem State.setResync_tymax (s : State) : (s.setResync).tymax = s.tymax := rfl
@[simp] theorem State.setResync_dmax (s : State) : (s.setResync).dmax = s.dmax := rfl
@[simp] theorem State.setResync_version (s : State) : (s.setResync).version = s.version := rfl
@[simp] theorem State.setResync_pktcnt (s : State) : (s.setResync).pktcnt = s.pktcnt := rfl
@[simp] theorem State.setResync_evcnt (s : State) : (s.setResync).evcnt = s.evcnt := rfl
@[simp] theorem State.setResync_lastch (s : State) : (s.setResync).lastch = s.lastch := rfl
@[simp] theorem State.setResync_fdt (s : State) : (s.setResync).fdt = s.fdt := rfl
@[simp] theorem State.setResync_cls (s : State) : (s.setResync).cls = s.cls := rfl
@[simp] theorem State.setResync_lay (s : State) : (s.setResync).lay = s.lay := rfl
@[simp] theorem State.setResync_tid (s : State) : (s.setResync).tid = s.tid := rfl
@[simp] theorem State.setResync_lut (s : State) : (s.setResync).lut = s.lut := rfl
@[simp] theorem State.setResync_cht (s : State) : (s.setResync).cht = s.cht := rfl
@[simp] theorem State.setResync_ring (s : State) : (s.setResync).ring = s.ring := rfl
@[simp] theorem State.setResync_pkt (s : State) : (s.setResync).pkt = s.pkt := rfl
@[simp] theorem State.setResync_evout (s : State) : (s.setResync).evout = s.evout := rfl

/-! ### `setErrFraming` -/

@[simp] theorem State.setErrFraming_params (s : State) : (s.setErrFraming).params = s.params := rfl
@[simp] theorem State.setErrFraming_input (s : State) : (s.setErrFraming).input = s.input := rfl
@[simp] theorem State.setErrFraming_x (s : State) : (s.setErrFraming).x = s.x := rfl
@[simp] theorem State.setErrFraming_fcause (s : State) : (s.setErrFraming).fcause = s.fcause := rfl
@[simp] theorem State.setErrFraming_finfo (s : State) : (s.setErrFraming).finfo = s.finfo := rfl
@[simp] theorem State.setErrFraming_proto (s : State) : (s.setErrFraming).proto = s.proto := rfl
@[simp] theorem State.setErrFraming_plen (s : State) : (s.setErrFraming).plen = s.plen := rfl
@[simp] theorem State.setErrFraming_nch (s : State) : (s.setErrFraming).nch = s.nch := rfl
@[simp] theorem State.setErrFraming_caps (s : State) : (s.setErrFraming).caps = s.caps := rfl
@[simp] theorem State.setErrFraming_hdrmask (s : State) : (s.setErrFraming).hdrmask = s.hdrmask := rfl
@[simp] theorem State.setErrFraming_tselmap (s : State) : (s.setErrFraming).tselmap = s.tselmap := rfl
@[simp] theorem State.setErrFraming_lsel (s : State) : (s.setErrFraming).lsel = s.lsel := rfl
@[simp] theorem State.setErrFraming_xmax (s : State) : (s.setErrFraming).xmax = s.xmax := rfl
@[simp] theorem State.setErrFraming_ymax (s : State) : (s.setErrFraming).ymax = s.ymax := rfl
@[simp] theorem State.setErrFraming_pmax (s : State) : (s.setErrFraming).pmax = s.pmax := rfl
@[simp] theorem State.setErrFraming_txmax (s : State) : (s.setErrFraming).txmax = s.txmax := rfl
@[simp] theorem State.setErrFraming_tymax (s : State) : (s.setErrFraming).tymax = s.tymax := rfl
@[simp] theorem State.setErrFraming_dmax (s : State) : (s.setErrFraming).dmax = s.dmax := rfl
@[simp] theorem State.setErrFraming_version (s : State) : (s.setErrFraming).version = s.version := rfl
@[simp] theorem State.setErrFraming_pktcnt (s : State) : (s.setErrFraming).pktcnt = s.pktcnt := rfl
@[simp] theorem State.setErrFraming_evcnt (s : State) : (s.setErrFraming).evcnt = s.evcnt := rfl
@[simp] theorem State.setErrFraming_lastch (s : State) : (s.setErrFraming).lastch = s.lastch := rfl
@[simp] theorem State.setErrFraming_fdt (s : State) : (s.setErrFraming).fdt = s.fdt := rfl
@[simp] theorem State.setErrFraming_cls (s : State) : (s.setErrFraming).cls = s.cls := rfl
@[simp] theorem State.setErrFraming_lay (s : State) : (s.setErrFraming).lay = s.lay := rfl
@[simp] theorem State.setErrFraming_tid (s : State) : (s.setErrFraming).tid = s.tid := rfl
@[simp] theorem State.setErrFraming_lut (s : State) : (s.setErrFraming).lut = s.lut := rfl
@[simp] theorem State.setErrFraming_cht (s : State) : (s.setErrFraming).cht = s.cht := rfl
@[simp] theorem State.setErrFraming_ring (s : State) : (s.setErrFraming).ring = s.ring := rfl
@[simp] theorem State.setErrFraming_pkt (s : State) : (s.setErrFraming).pkt = s.pkt := rfl
@[simp] theorem State.setErrFraming_evout (s : State) : (s.setErrFraming).evout = s.evout := rfl

/-! ### `setErrUnkPkt` -/

@[simp] theorem State.setErrUnkPkt_params (s : State) : (s.setErrUnkPkt).params = s.params := rfl
@[simp] theorem State.setErrUnkPkt_input (s : State) : (s.setErrUnkPkt).input = s.input := rfl
@[simp] theorem State.setErrUnkPkt_x (s : State) : (s.setErrUnkPkt).x = s.x := rfl
@[simp] theorem State.setErrUnkPkt_fcause (s : State) : (s.setErrUnkPkt).fcause = s.fcause := rfl
@[simp] theorem State.setErrUnkPkt_finfo (s : State) : (s.setErrUnkPkt).finfo = s.finfo := rfl
@[simp] theorem State.setErrUnkPkt_proto (s : State) : (s.setErrUnkPkt).proto = s.proto := rfl
@[simp] theorem State.setErrUnkPkt_plen (s : State) : (s.setErrUnkPkt).plen = s.plen := rfl
@[simp] theorem State.setErrUnkPkt_nch (s : State) : (s.setErrUnkPkt).nch = s.nch := rfl
@[simp] theorem State.setErrUnkPkt_caps (s : State) : (s.setErrUnkPkt).caps = s.caps := rfl
@[simp] theorem State.setErrUnkPkt_hdrmask (s : State) : (s.setErrUnkPkt).hdrmask = s.hdrmask := rfl
@[simp] theorem State.setErrUnkPkt_tselmap (s : State) : (s.setErrUnkPkt).tselmap = s.tselmap := rfl
@[simp] theorem State.setErrUnkPkt_lsel (s : State) : (s.setErrUnkPkt).lsel = s.lsel := rfl
@[simp] theorem State.setErrUnkPkt_xmax (s : State) : (s.setErrUnkPkt).xmax = s.xmax := rfl
@[simp] theorem State.setErrUnkPkt_ymax (s : State) : (s.setErrUnkPkt).ymax = s.ymax := rfl
@[simp] theorem State.setErrUnkPkt_pmax (s : State) : (s.setErrUnkPkt).pmax = s.pmax := rfl
@[simp] theorem State.setErrUnkPkt_txmax (s : State) : (s.setErrUnkPkt).txmax = s.txmax := rfl
@[simp] theorem State.setErrUnkPkt_tymax (s : State) : (s.setErrUnkPkt).tymax = s.tymax := rfl
@[simp] theorem State.setErrUnkPkt_dmax (s : State) : (s.setErrUnkPkt).dmax = s.dmax := rfl
@[simp] theorem State.setErrUnkPkt_version (s : State) : (s.setErrUnkPkt).version = s.version := rfl
@[simp] theorem State.setErrUnkPkt_pktcnt (s : State) : (s.setErrUnkPkt).pktcnt = s.pktcnt := rfl
@[simp] theorem State.setErrUnkPkt_evcnt (s : State) : (s.setErrUnkPkt).evcnt = s.evcnt := rfl
@[simp] theorem State.setErrUnkPkt_lastch (s : State) : (s.setErrUnkPkt).lastch = s.lastch := rfl
@[simp] theorem State.setErrUnkPkt_fdt (s : State) : (s.setErrUnkPkt).fdt = s.fdt := rfl
@[simp] theorem State.setErrUnkPkt_cls (s : State) : (s.setErrUnkPkt).cls = s.cls := rfl
@[simp] theorem State.setErrUnkPkt_lay (s : State) : (s.setErrUnkPkt).lay = s.lay := rfl
@[simp] theorem State.setErrUnkPkt_tid (s : State) : (s.setErrUnkPkt).tid = s.tid := rfl
@[simp] theorem State.setErrUnkPkt_lut (s : State) : (s.setErrUnkPkt).lut = s.lut := rfl
@[simp] theorem State.setErrUnkPkt_cht (s : State) : (s.setErrUnkPkt).cht = s.cht := rfl
@[simp] theorem State.setErrUnkPkt_ring (s : State) : (s.setErrUnkPkt).ring = s.ring := rfl
@[simp] theorem State.setErrUnkPkt_pkt (s : State) : (s.setErrUnkPkt).pkt = s.pkt := rfl
@[simp] theorem State.setErrUnkPkt_evout (s : State) : (s.setErrUnkPkt).evout = s.evout := rfl

/-! ### `setErrUnkTool` -/

@[simp] theorem State.setErrUnkTool_params (s : State) : (s.setErrUnkTool).params = s.params := rfl
@[simp] theorem State.setErrUnkTool_input (s : State) : (s.setErrUnkTool).input = s.input := rfl
@[simp] theorem State.setErrUnkTool_x (s : State) : (s.setErrUnkTool).x = s.x := rfl
@[simp] theorem State.setErrUnkTool_fcause (s : State) : (s.setErrUnkTool).fcause = s.fcause := rfl
@[simp] theorem State.setErrUnkTool_finfo (s : State) : (s.setErrUnkTool).finfo = s.finfo := rfl
@[simp] theorem State.setErrUnkTool_proto (s : State) : (s.setErrUnkTool).proto = s.proto := rfl
@[simp] theorem State.setErrUnkTool_plen (s : State) : (s.setErrUnkTool).plen = s.plen := rfl
@[simp] theorem State.setErrUnkTool_nch (s : State) : (s.setErrUnkTool).nch = s.nch := rfl
@[simp] theorem State.setErrUnkTool_caps (s : State) : (s.setErrUnkTool).caps = s.caps := rfl
@[simp] theorem State.setErrUnkTool_hdrmask (s : State) : (s.setErrUnkTool).hdrmask = s.hdrmask := rfl
@[simp] theorem State.setErrUnkTool_tselmap (s : State) : (s.setErrUnkTool).tselmap = s.tselmap := rfl
@[simp] theorem State.setErrUnkTool_lsel (s : State) : (s.setErrUnkTool).lsel = s.lsel := rfl
@[simp] theorem State.setErrUnkTool_xmax (s : State) : (s.setErrUnkTool).xmax = s.xmax := rfl
@[simp] theorem State.setErrUnkTool_ymax (s : State) : (s.setErrUnkTool).ymax = s.ymax := rfl
@[simp] theorem State.setErrUnkTool_pmax (s : State) : (s.setErrUnkTool).pmax = s.pmax := rfl
@[simp] theorem State.setErrUnkTool_txmax (s : State) : (s.setErrUnkTool).txmax = s.txmax := rfl
@[simp] theorem State.setErrUnkTool_tymax (s : State) : (s.setErrUnkTool).tymax = s.tymax := rfl
@[simp] theorem State.setErrUnkTool_dmax (s : State) : (s.setErrUnkTool).dmax = s.dmax := rfl
@[simp] theorem State.setErrUnkTool_version (s : State) : (s.setErrUnkTool).version = s.version := rfl
@[simp] theorem State.setErrUnkTool_pktcnt (s : State) : (s.setErrUnkTool).pktcnt = s.pktcnt := rfl
@[simp] theorem State.setErrUnkTool_evcnt (s : State) : (s.setErrUnkTool).evcnt = s.evcnt := rfl
@[simp] theorem State.setErrUnkTool_lastch (s : State) : (s.setErrUnkTool).lastch = s.lastch := rfl
@[simp] theorem State.setErrUnkTool_fdt (s : State) : (s.setErrUnkTool).fdt = s.fdt := rfl
@[simp] theorem State.setErrUnkTool_cls (s : State) : (s.setErrUnkTool).cls = s.cls := rfl
@[simp] theorem State.setErrUnkTool_lay (s : State) : (s.setErrUnkTool).lay = s.lay := rfl
@[simp] theorem State.setErrUnkTool_tid (s : State) : (s.setErrUnkTool).tid = s.tid := rfl
@[simp] theorem State.setErrUnkTool_lut (s : State) : (s.setErrUnkTool).lut = s.lut := rfl
@[simp] theorem State.setErrUnkTool_cht (s : State) : (s.setErrUnkTool).cht = s.cht := rfl
@[simp] theorem State.setErrUnkTool_ring (s : State) : (s.setErrUnkTool).ring = s.ring := rfl
@[simp] theorem State.setErrUnkTool_pkt (s : State) : (s.setErrUnkTool).pkt = s.pkt := rfl
@[simp] theorem State.setErrUnkTool_evout (s : State) : (s.setErrUnkTool).evout = s.evout := rfl

/-! ### `setErrChExh` -/

@[simp] theorem State.setErrChExh_params (s : State) : (s.setErrChExh).params = s.params := rfl
@[simp] theorem State.setErrChExh_input (s : State) : (s.setErrChExh).input = s.input := rfl
@[simp] theorem State.setErrChExh_x (s : State) : (s.setErrChExh).x = s.x := rfl
@[simp] theorem State.setErrChExh_fcause (s : State) : (s.setErrChExh).fcause = s.fcause := rfl
@[simp] theorem State.setErrChExh_finfo (s : State) : (s.setErrChExh).finfo = s.finfo := rfl
@[simp] theorem State.setErrChExh_proto (s : State) : (s.setErrChExh).proto = s.proto := rfl
@[simp] theorem State.setErrChExh_plen (s : State) : (s.setErrChExh).plen = s.plen := rfl
@[simp] theorem State.setErrChExh_nch (s : State) : (s.setErrChExh).nch = s.nch := rfl
@[simp] theorem State.setErrChExh_caps (s : State) : (s.setErrChExh).caps = s.caps := rfl
@[simp] theorem State.setErrChExh_hdrmask (s : State) : (s.setErrChExh).hdrmask = s.hdrmask := rfl
@[simp] theorem State.setErrChExh_tselmap (s : State) : (s.setErrChExh).tselmap = s.tselmap := rfl
@[simp] theorem State.setErrChExh_lsel (s : State) : (s.setErrChExh).lsel = s.lsel := rfl
@[simp] theorem State.setErrChExh_xmax (s : State) : (s.setErrChExh).xmax = s.xmax := rfl
@[simp] theorem State.setErrChExh_ymax (s : State) : (s.setErrChExh).ymax = s.ymax := rfl
@[simp] theorem State.setErrChExh_pmax (s : State) : (s.setErrChExh).pmax = s.pmax := rfl
@[simp] theorem State.setErrChExh_txmax (s : State) : (s.setErrChExh).txmax = s.txmax := rfl
@[simp] theorem State.setErrChExh_tymax (s : State) : (s.setErrChExh).tymax = s.tymax := rfl
@[simp] theorem State.setErrChExh_dmax (s : State) : (s.setErrChExh).dmax = s.dmax := rfl
@[simp] theorem State.setErrChExh_version (s : State) : (s.setErrChExh).version = s.version := rfl
@[simp] theorem State.setErrChExh_pktcnt (s : State) : (s.setErrChExh).pktcnt = s.pktcnt := rfl
@[simp] theorem State.setErrChExh_evcnt (s : State) : (s.setErrChExh).evcnt = s.evcnt := rfl
@[simp] theorem State.setErrChExh_lastch (s : State) : (s.setErrChExh).lastch = s.lastch := rfl
@[simp] theorem State.setErrChExh_fdt (s : State) : (s.setErrChExh).fdt = s.fdt := rfl
@[simp] theorem State.setErrChExh_cls (s : State) : (s.setErrChExh).cls = s.cls := rfl
@[simp] theorem State.setErrChExh_lay (s : State) : (s.setErrChExh).lay = s.lay := rfl
@[simp] theorem State.setErrChExh_tid (s : State) : (s.setErrChExh).tid = s.tid := rfl
@[simp] theorem State.setErrChExh_lut (s : State) : (s.setErrChExh).lut = s.lut := rfl
@[simp] theorem State.setErrChExh_cht (s : State) : (s.setErrChExh).cht = s.cht := rfl
@[simp] theorem State.setErrChExh_ring (s : State) : (s.setErrChExh).ring = s.ring := rfl
@[simp] theorem State.setErrChExh_pkt (s : State) : (s.setErrChExh).pkt = s.pkt := rfl
@[simp] theorem State.setErrChExh_evout (s : State) : (s.setErrChExh).evout = s.evout := rfl

/-! ### `setErrOverrun` -/

@[simp] theorem State.setErrOverrun_params (s : State) : (s.setErrOverrun).params = s.params := rfl
@[simp] theorem State.setErrOverrun_input (s : State) : (s.setErrOverrun).input = s.input := rfl
@[simp] theorem State.setErrOverrun_x (s : State) : (s.setErrOverrun).x = s.x := rfl
@[simp] theorem State.setErrOverrun_fcause (s : State) : (s.setErrOverrun).fcause = s.fcause := rfl
@[simp] theorem State.setErrOverrun_finfo (s : State) : (s.setErrOverrun).finfo = s.finfo := rfl
@[simp] theorem State.setErrOverrun_proto (s : State) : (s.setErrOverrun).proto = s.proto := rfl
@[simp] theorem State.setErrOverrun_plen (s : State) : (s.setErrOverrun).plen = s.plen := rfl
@[simp] theorem State.setErrOverrun_nch (s : State) : (s.setErrOverrun).nch = s.nch := rfl
@[simp] theorem State.setErrOverrun_caps (s : State) : (s.setErrOverrun).caps = s.caps := rfl
@[simp] theorem State.setErrOverrun_hdrmask (s : State) : (s.setErrOverrun).hdrmask = s.hdrmask := rfl
@[simp] theorem State.setErrOverrun_tselmap (s : State) : (s.setErrOverrun).tselmap = s.tselmap := rfl
@[simp] theorem State.setErrOverrun_lsel (s : State) : (s.setErrOverrun).lsel = s.lsel := rfl
@[simp] theorem State.setErrOverrun_xmax (s : State) : (s.setErrOverrun).xmax = s.xmax := rfl
@[simp] theorem State.setErrOverrun_ymax (s : State) : (s.setErrOverrun).ymax = s.ymax := rfl
@[simp] theorem State.setErrOverrun_pmax (s : State) : (s.setErrOverrun).pmax = s.pmax := rfl
@[simp] theorem State.setErrOverrun_txmax (s : State) : (s.setErrOverrun).txmax = s.txmax := rfl
@[simp] theorem State.setErrOverrun_tymax (s : State) : (s.setErrOverrun).tymax = s.tymax := rfl
@[simp] theorem State.setErrOverrun_dmax (s : State) : (s.setErrOverrun).dmax = s.dmax := rfl
@[simp] theorem State.setErrOverrun_version (s : State) : (s.setErrOverrun).version = s.version := rfl
@[simp] theorem State.setErrOverrun_pktcnt (s : State) : (s.setErrOverrun).pktcnt = s.pktcnt := rfl
@[simp] theorem State.setErrOverrun_evcnt (s : State) : (s.setErrOverrun).evcnt = s.evcnt := rfl
@[simp] theorem State.setErrOverrun_lastch (s : State) : (s.setErrOverrun).lastch = s.lastch := rfl
@[simp] theorem State.setErrOverrun_fdt (s : State) : (s.setErrOverrun).fdt = s.fdt := rfl
@[simp] theorem State.setErrOverrun_cls (s : State) : (s.setErrOverrun).cls = s.cls := rfl
@[simp] theorem State.setErrOverrun_lay (s : State) : (s.setErrOverrun).lay = s.lay := rfl
@[simp] theorem State.setErrOverrun_tid (s : State) : (s.setErrOverrun).tid = s.tid := rfl
@[simp] theorem State.setErrOverrun_lut (s : State) : (s.setErrOverrun).lut = s.lut := rfl
@[simp] theorem State.setErrOverrun_cht (s : State) : (s.setErrOverrun).cht = s.cht := rfl
@[simp] theorem State.setErrOverrun_ring (s : State) : (s.setErrOverrun).ring = s.ring := rfl
@[simp] theorem State.setErrOverrun_pkt (s : State) : (s.setErrOverrun).pkt = s.pkt := rfl
@[simp] theorem State.setErrOverrun_evout (s : State) : (s.setErrOverrun).evout = s.evout := rfl

/-! ### `setErrCmd` -/

@[simp] theorem State.setErrCmd_params (s : State) : (s.setErrCmd).params = s.params := rfl
@[simp] theorem State.setErrCmd_input (s : State) : (s.setErrCmd).input = s.input := rfl
@[simp] theorem State.setErrCmd_x (s : State) : (s.setErrCmd).x = s.x := rfl
@[simp] theorem State.setErrCmd_fcause (s : State) : (s.setErrCmd).fcause = s.fcause := rfl
@[simp] theorem State.setErrCmd_finfo (s : State) : (s.setErrCmd).finfo = s.finfo := rfl
@[simp] theorem State.setErrCmd_proto (s : State) : (s.setErrCmd).proto = s.proto := rfl
@[simp] theorem State.setErrCmd_plen (s : State) : (s.setErrCmd).plen = s.plen := rfl
@[simp] theorem State.setErrCmd_nch (s : State) : (s.setErrCmd).nch = s.nch := rfl
@[simp] theorem State.setErrCmd_caps (s : State) : (s.setErrCmd).caps = s.caps := rfl
@[simp] theorem State.setErrCmd_hdrmask (s : State) : (s.setErrCmd).hdrmask = s.hdrmask := rfl
@[simp] theorem State.setErrCmd_tselmap (s : State) : (s.setErrCmd).tselmap = s.tselmap := rfl
@[simp] theorem State.setErrCmd_lsel (s : State) : (s.setErrCmd).lsel = s.lsel := rfl
@[simp] theorem State.setErrCmd_xmax (s : State) : (s.setErrCmd).xmax = s.xmax := rfl
@[simp] theorem State.setErrCmd_ymax (s : State) : (s.setErrCmd).ymax = s.ymax := rfl
@[simp] theorem State.setErrCmd_pmax (s : State) : (s.setErrCmd).pmax = s.pmax := rfl
@[simp] theorem State.setErrCmd_txmax (s : State) : (s.setErrCmd).txmax = s.txmax := rfl
@[simp] theorem State.setErrCmd_tymax (s : State) : (s.setErrCmd).tymax = s.tymax := rfl
@[simp] theorem State.setErrCmd_dmax (s : State) : (s.setErrCmd).dmax = s.dmax := rfl
@[simp] theorem State.setErrCmd_version (s : State) : (s.setErrCmd).version = s.version := rfl
@[simp] theorem State.setErrCmd_pktcnt (s : State) : (s.setErrCmd).pktcnt = s.pktcnt := rfl
@[simp] theorem State.setErrCmd_evcnt (s : State) : (s.setErrCmd).evcnt = s.evcnt := rfl
@[simp] theorem State.setErrCmd_lastch (s : State) : (s.setErrCmd).lastch = s.lastch := rfl
@[simp] theorem State.setErrCmd_fdt (s : State) : (s.setErrCmd).fdt = s.fdt := rfl
@[simp] theorem State.setErrCmd_cls (s : State) : (s.setErrCmd).cls = s.cls := rfl
@[simp] theorem State.setErrCmd_lay (s : State) : (s.setErrCmd).lay = s.lay := rfl
@[simp] theorem State.setErrCmd_tid (s : State) : (s.setErrCmd).tid = s.tid := rfl
@[simp] theorem State.setErrCmd_lut (s : State) : (s.setErrCmd).lut = s.lut := rfl
@[simp] theorem State.setErrCmd_cht (s : State) : (s.setErrCmd).cht = s.cht := rfl
@[simp] theorem State.setErrCmd_ring (s : State) : (s.setErrCmd).ring = s.ring := rfl
@[simp] theorem State.setErrCmd_pkt (s : State) : (s.setErrCmd).pkt = s.pkt := rfl
@[simp] theorem State.setErrCmd_evout (s : State) : (s.setErrCmd).evout = s.evout := rfl

/-! ### `takeFault` and `refuse` -/

@[simp] theorem takeFault_params (r : Raise) (s : State) : (takeFault r s).params = s.params := rfl
@[simp] theorem takeFault_input (r : Raise) (s : State) : (takeFault r s).input = s.input := rfl
@[simp] theorem takeFault_x (r : Raise) (s : State) : (takeFault r s).x = s.x := rfl
@[simp] theorem takeFault_proto (r : Raise) (s : State) : (takeFault r s).proto = s.proto := rfl
@[simp] theorem takeFault_plen (r : Raise) (s : State) : (takeFault r s).plen = s.plen := rfl
@[simp] theorem takeFault_nch (r : Raise) (s : State) : (takeFault r s).nch = s.nch := rfl
@[simp] theorem takeFault_caps (r : Raise) (s : State) : (takeFault r s).caps = s.caps := rfl
@[simp] theorem takeFault_hdrmask (r : Raise) (s : State) : (takeFault r s).hdrmask = s.hdrmask := rfl
@[simp] theorem takeFault_tselmap (r : Raise) (s : State) : (takeFault r s).tselmap = s.tselmap := rfl
@[simp] theorem takeFault_lsel (r : Raise) (s : State) : (takeFault r s).lsel = s.lsel := rfl
@[simp] theorem takeFault_xmax (r : Raise) (s : State) : (takeFault r s).xmax = s.xmax := rfl
@[simp] theorem takeFault_ymax (r : Raise) (s : State) : (takeFault r s).ymax = s.ymax := rfl
@[simp] theorem takeFault_pmax (r : Raise) (s : State) : (takeFault r s).pmax = s.pmax := rfl
@[simp] theorem takeFault_txmax (r : Raise) (s : State) : (takeFault r s).txmax = s.txmax := rfl
@[simp] theorem takeFault_tymax (r : Raise) (s : State) : (takeFault r s).tymax = s.tymax := rfl
@[simp] theorem takeFault_dmax (r : Raise) (s : State) : (takeFault r s).dmax = s.dmax := rfl
@[simp] theorem takeFault_version (r : Raise) (s : State) : (takeFault r s).version = s.version := rfl
@[simp] theorem takeFault_pktcnt (r : Raise) (s : State) : (takeFault r s).pktcnt = s.pktcnt := rfl
@[simp] theorem takeFault_evcnt (r : Raise) (s : State) : (takeFault r s).evcnt = s.evcnt := rfl
@[simp] theorem takeFault_lastch (r : Raise) (s : State) : (takeFault r s).lastch = s.lastch := rfl
@[simp] theorem takeFault_fdt (r : Raise) (s : State) : (takeFault r s).fdt = s.fdt := rfl
@[simp] theorem takeFault_cls (r : Raise) (s : State) : (takeFault r s).cls = s.cls := rfl
@[simp] theorem takeFault_lay (r : Raise) (s : State) : (takeFault r s).lay = s.lay := rfl
@[simp] theorem takeFault_tid (r : Raise) (s : State) : (takeFault r s).tid = s.tid := rfl
@[simp] theorem takeFault_lut (r : Raise) (s : State) : (takeFault r s).lut = s.lut := rfl
@[simp] theorem takeFault_cht (r : Raise) (s : State) : (takeFault r s).cht = s.cht := rfl
@[simp] theorem takeFault_ring (r : Raise) (s : State) : (takeFault r s).ring = s.ring := rfl
@[simp] theorem takeFault_pkt (r : Raise) (s : State) : (takeFault r s).pkt = s.pkt := rfl
@[simp] theorem takeFault_evout (r : Raise) (s : State) : (takeFault r s).evout = s.evout := rfl
@[simp] theorem takeFault_status (r : Raise) (s : State) :
    (takeFault r s).status = { s.status with fault := true } := rfl
@[simp] theorem takeFault_fcause (r : Raise) (s : State) : (takeFault r s).fcause = r.cause := rfl
@[simp] theorem takeFault_finfo (r : Raise) (s : State) : (takeFault r s).finfo = r.info := rfl
theorem refuse_eq (s : State) : refuse s = s.setErrCmd := rfl

/-! ### What the updates write -/

@[simp] theorem State.setResync_status (s : State) :
    (s.setResync).status = { s.status with resync := true } := rfl
@[simp] theorem State.setErrFraming_status (s : State) :
    (s.setErrFraming).status = { s.status with errFraming := true } := rfl
@[simp] theorem State.setErrUnkPkt_status (s : State) :
    (s.setErrUnkPkt).status = { s.status with errUnkPkt := true } := rfl
@[simp] theorem State.setErrUnkTool_status (s : State) :
    (s.setErrUnkTool).status = { s.status with errUnkTool := true } := rfl
@[simp] theorem State.setErrChExh_status (s : State) :
    (s.setErrChExh).status = { s.status with errChExh := true } := rfl
@[simp] theorem State.setErrOverrun_status (s : State) :
    (s.setErrOverrun).status = { s.status with errOverrun := true } := rfl
@[simp] theorem State.setErrCmd_status (s : State) :
    (s.setErrCmd).status = { s.status with errCmd := true } := rfl
@[simp] theorem State.consumePkt_status (s : State) :
    s.consumePkt.status = { s.status with pktValid := false } := rfl
@[simp] theorem State.consumePkt_pkt (s : State) : s.consumePkt.pkt = [] := rfl
@[simp] theorem State.latch_status (s : State) (len : Nat) :
    (s.latch len).status = { s.status with pktValid := true } := rfl
@[simp] theorem State.latch_pkt (s : State) (len : Nat) : (s.latch len).pkt = s.ring.take len := rfl
@[simp] theorem State.latch_ring (s : State) (len : Nat) : (s.latch len).ring = s.ring.drop len := rfl
@[simp] theorem State.latch_pktcnt (s : State) (len : Nat) : (s.latch len).pktcnt = s.pktcnt + 1 := rfl
@[simp] theorem State.emit_evout (s : State) (ev : Event) : (s.emit ev).evout = s.evout ++ [ev] := rfl
@[simp] theorem State.emit_evcnt (s : State) (ev : Event) : (s.emit ev).evcnt = s.evcnt + 1 := rfl
@[simp] theorem State.setCh_cht (s : State) (c : Nat) (e : Channel) :
    (s.setCh c e).cht = s.cht.set c e := rfl
@[simp] theorem State.enterProc_lastch (s : State) (c : Nat) (w code : Word) (t : ToolType) :
    (s.enterProc c w code t).lastch = word c := rfl

end Sys2Proof.Machine
end

