-- ==== Sys2Proof/Laws/Ops.lean ====
section
/-! SUPPORT. What each shared operation can do, once: operand registers, the channel table, search,
events, the command step's checks, the end of a command. -/

namespace Sys2Proof.Machine

/-! ### Operand registers -/

theorem State.reg_setReg (s : State) (i r : RegNum) (v : Word) :
    (s.setReg i v).reg r = if r = i then v else s.reg r := by
  have hir : (i.toNat = r.toNat) ↔ r = i := by rw [BitVec.toNat_inj]; exact eq_comm
  simp only [State.reg, State.setReg, Vector.getElem_set, hir]

@[simp] theorem State.reg_setReg_self (s : State) (i : RegNum) (v : Word) :
    (s.setReg i v).reg i = v := by simp [State.reg_setReg]

theorem State.reg_setReg_of_ne (s : State) {i r : RegNum} (h : r ≠ i) (v : Word) :
    (s.setReg i v).reg r = s.reg r := by simp [State.reg_setReg, h]

/-- Registers depend on `x` alone. -/
theorem State.reg_congr {s t : State} (h : t.x = s.x) (r : RegNum) : t.reg r = s.reg r := by
  simp only [State.reg, h]

@[simp] theorem State.setReg_x_restore (s : State) (i : RegNum) (v : Word) :
    { s.setReg i v with x := s.x } = s := rfl

/-! ### Channel table -/

theorem State.ch_setCh (s : State) (c d : Nat) (e : Channel) :
    (s.setCh c e).ch d = if d = c ∧ c < s.cht.length then e else s.ch d := by
  simp only [State.ch, State.setCh, List.getD_eq_getElem?_getD, List.getElem?_set]
  by_cases hcd : c = d
  · subst hcd
    by_cases hc : c < s.cht.length <;> simp [hc]
  · simp [hcd, Ne.symm hcd]

@[simp] theorem State.ch_setCh_self (s : State) {c : Nat} (hc : c < s.cht.length) (e : Channel) :
    (s.setCh c e).ch c = e := by simp [State.ch_setCh, hc]

theorem State.ch_setCh_of_ne (s : State) {c d : Nat} (h : d ≠ c) (e : Channel) :
    (s.setCh c e).ch d = s.ch d := by simp [State.ch_setCh, h]

@[simp] theorem State.setCh_length (s : State) (c : Nat) (e : Channel) :
    (s.setCh c e).cht.length = s.cht.length := by simp

/-- Channels depend on `cht` alone. -/
theorem State.ch_congr {s t : State} (h : t.cht = s.cht) (c : Nat) : t.ch c = s.ch c := by
  simp only [State.ch, h]

@[simp] theorem Channel.cleared_cleared (e : Channel) : e.cleared.cleared = e.cleared := rfl
@[simp] theorem Channel.cleared_inProx (e : Channel) : e.cleared.inProx = false := rfl
@[simp] theorem Channel.cleared_serial (e : Channel) : e.cleared.serial = 0 := rfl
@[simp] theorem Channel.cleared_stamp (e : Channel) : e.cleared.stamp = e.stamp := rfl

/-! ### Search -/

/-- The lowest index below `n` with `P`: it is below `n`, has `P`, and no smaller index has it. -/
theorem lowest_eq_some {n c : Nat} {P : Nat → Bool} :
    lowest n P = some c ↔ c < n ∧ P c = true ∧ ∀ j, j < c → P j = false := by
  simp only [lowest, List.find?_range_eq_some, List.mem_range]
  constructor
  · rintro ⟨hP, hc, hj⟩
    exact ⟨hc, hP, fun j h => by simpa using hj j h⟩
  · rintro ⟨hc, hP, hj⟩
    exact ⟨hP, hc, fun j h => by simpa using hj j h⟩

theorem lowest_eq_none {n : Nat} {P : Nat → Bool} :
    lowest n P = none ↔ ∀ j, j < n → P j = false := by
  simp [lowest, List.find?_eq_none]

/-! ### Events -/

/-- `emitAll` appends its events in order and counts them; nothing else changes. -/
theorem State.emitAll_eq (evs : List Event) (s : State) :
    s.emitAll evs = { s with evout := s.evout ++ evs, evcnt := s.evcnt + word evs.length } := by
  induction evs generalizing s with
  | nil => simp [State.emitAll]
  | cons ev evs ih =>
    have h : s.emitAll (ev :: evs) = (s.emit ev).emitAll evs := rfl
    rw [h, ih]
    have hc : s.evcnt + 1 + word evs.length = s.evcnt + word (ev :: evs).length := by
      apply BitVec.eq_of_toNat_eq
      simp [BitVec.toNat_add, BitVec.toNat_ofNat]
      omega
    rw [← hc]
    simp [State.emit]

@[simp] theorem State.emitAll_evout (evs : List Event) (s : State) :
    (s.emitAll evs).evout = s.evout ++ evs := by rw [State.emitAll_eq]
@[simp] theorem State.emitAll_evcnt (evs : List Event) (s : State) :
    (s.emitAll evs).evcnt = s.evcnt + word evs.length := by rw [State.emitAll_eq]
@[simp] theorem State.emitAll_cht (evs : List Event) (s : State) : (s.emitAll evs).cht = s.cht := by
  rw [State.emitAll_eq]
@[simp] theorem State.emitAll_status (evs : List Event) (s : State) :
    (s.emitAll evs).status = s.status := by rw [State.emitAll_eq]

/-! ### The command step's checks -/

/-- `whenState` always answers a next state: the same one in the fault state, the refused one where
the check fails, else what the command makes. -/
theorem whenState_eq (ok : State → Bool) (s : State) (k : State → State) :
    whenState ok s k
      = .next (if s.status.fault then s else if ok s then k s else refuse s) := by
  unfold whenState
  split
  · rfl
  · split <;> rfl

theorem inAnyState_eq (s : State) (k : State → State) :
    inAnyState s k = .next (if s.status.fault then s else k s) := by
  simp [inAnyState, whenState_eq]

theorem inConfig_eq (s : State) (k : State → State) :
    inConfig s k
      = .next (if s.status.fault then s else if s.status.run then refuse s else k s) := by
  cases h : s.status.run <;> simp [inConfig, whenState_eq, h]

theorem inRun_eq (s : State) (k : State → State) :
    inRun s k = .next (if s.status.fault then s else if s.status.run then k s else refuse s) := by
  simp [inRun, whenState_eq]

/-- The end of a command: the fault, or `rd` written in the state the command leaves. -/
theorem finish_ok (s t : State) (rd : RegNum) (v : Word) : finish s rd (.ok (t, v)) = t.setReg rd v :=
  rfl

theorem finish_error (s : State) (rd : RegNum) (e : Raise) :
    finish s rd (.error e) = takeFault e s := rfl

/-- A word that is no legal encoding leaves the state as it is in the fault state where its opcode is no
inspection opcode, and sets `ERR_CMD` and nothing else in every other case. -/
theorem illegalWord_eq (op : BitVec 8) (s : State) :
    illegalWord op s = s ∧ s.status.fault = true ∧ inspectionOp op = false ∨
    illegalWord op s = s.setErrCmd ∧ (s.status.fault = false ∨ inspectionOp op = true) := by
  cases h : s.status.fault <;> cases h' : inspectionOp op <;> simp [illegalWord, refuse, h, h']

theorem inspectionOp_iff (w : Word) :
    inspectionOp (opField w) = true ↔ w.toNat / 2 ^ 24 ∈ [0, 1, 2, 3, 5] := by
  have h : (opField w).toNat = w.toNat / 2 ^ 24 := by
    simp [opField, BitVec.extractLsb'_toNat, Nat.shiftRight_eq_div_pow]
    omega
  simp [inspectionOp, ← h, ← BitVec.toNat_inj]
  omega

/-! ### Table writes and register writes -/

/-- What a table write can do: one word of one host-writable table. -/
theorem State.memWrite_cases {s t : State} {sp : Space} {i : Nat} {v : Word}
    (h : s.memWrite sp i v = some t) :
    (sp = .fdt ∧ t = { s with fdt := Memory.write s.fdt i v }) ∨
    (sp = .cls ∧ t = { s with cls := Memory.write s.cls i v }) ∨
    (sp = .lay ∧ t = { s with lay := Memory.write s.lay i v }) ∨
    (sp = .tid ∧ t = { s with tid := Memory.write s.tid i v }) := by
  cases sp <;> simp [State.memWrite] at h <;> simp [h]

/-- What `TWR` can do outside the fault state in the CONFIG state: refuse, or write one word at a legal
index of a host-writable table. -/
theorem State.twr_cases (s : State) (space : BitVec 16) (i : Nat) (v : Word) :
    s.twr space i v = refuse s ∨
    ∃ sp, Space.ofId space = some sp ∧ i < s.spaceSize sp ∧ s.memWrite sp i v = some (s.twr space i v) := by
  unfold State.twr
  cases hsp : Space.ofId space with
  | none => exact .inl rfl
  | some sp =>
    by_cases hi : i < s.spaceSize sp
    · cases hw : s.memWrite sp i v with
      | none => simp [hi, hw]
      | some t => exact .inr ⟨sp, rfl, hi, by simp [hi, hw]⟩
    · simp [hi]

/-- What `MTSR` can do outside the fault state: clear flags, refuse, or write one CFG register in the
CONFIG state. -/
theorem State.mtsr_cases (s : State) (sr : BitVec 16) (v : Word) :
    s.mtsr sr v = { s with status := s.status.clearSticky v } ∨ s.mtsr sr v = refuse s ∨
    ∃ r, s.status.run = false ∧ s.writeCfg r v = some (s.mtsr sr v) := by
  unfold State.mtsr
  split
  · exact .inl rfl
  · next r _ _ =>
    split
    · exact .inr (.inl rfl)
    · next hrun =>
      cases hw : s.writeCfg r v with
      | none => exact .inr (.inl rfl)
      | some t => exact .inr (.inr ⟨r, by simpa using hrun, by simp [hw]⟩)
  · exact .inr (.inl rfl)

end Sys2Proof.Machine
end

