-- ==== Sys2Proof/Laws/Decoder.lean ====
section
/-! SUPPORT. What the procedures of the channel table, the frame synchronizer and the decoders can do:
one lemma each, cited instead of unfolding it. -/

namespace Sys2Proof.Machine

/-! ### The commit frame -/

/-- `t` is `s` but for the channel table, `LASTCH`, EVOUT and its count, the range registers, and the flags
`ERR_UNKTOOL`, `ERR_CHEXH`, `TOUCHCAP`; the channel table keeps its length. This is all that committing a
packet, `ENTER` and `EXIT` can touch. -/
structure Commits (s t : State) : Prop where
  params : t.params = s.params
  input : t.input = s.input
  x : t.x = s.x
  fcause : t.fcause = s.fcause
  finfo : t.finfo = s.finfo
  proto : t.proto = s.proto
  plen : t.plen = s.plen
  nch : t.nch = s.nch
  caps : t.caps = s.caps
  hdrmask : t.hdrmask = s.hdrmask
  tselmap : t.tselmap = s.tselmap
  lsel : t.lsel = s.lsel
  pktcnt : t.pktcnt = s.pktcnt
  fdt : t.fdt = s.fdt
  cls : t.cls = s.cls
  lay : t.lay = s.lay
  tid : t.tid = s.tid
  lut : t.lut = s.lut
  ring : t.ring = s.ring
  pkt : t.pkt = s.pkt
  fault : t.status.fault = s.status.fault
  resync : t.status.resync = s.status.resync
  errFraming : t.status.errFraming = s.status.errFraming
  errUnkPkt : t.status.errUnkPkt = s.status.errUnkPkt
  errOverrun : t.status.errOverrun = s.status.errOverrun
  errCmd : t.status.errCmd = s.status.errCmd
  pktValid : t.status.pktValid = s.status.pktValid
  curveValid : t.status.curveValid = s.status.curveValid
  run : t.status.run = s.status.run
  cht_length : t.cht.length = s.cht.length

@[refl] theorem Commits.refl (s : State) : Commits s s :=
  ⟨rfl, rfl, rfl, rfl, rfl, rfl, rfl, rfl, rfl, rfl, rfl, rfl, rfl, rfl, rfl, rfl, rfl, rfl, rfl, rfl, rfl, rfl, rfl, rfl, rfl, rfl, rfl, rfl, rfl, rfl⟩

theorem Commits.trans {s t u : State} (h : Commits s t) (g : Commits t u) : Commits s u :=
  ⟨g.params.trans h.params,
    g.input.trans h.input,
    g.x.trans h.x,
    g.fcause.trans h.fcause,
    g.finfo.trans h.finfo,
    g.proto.trans h.proto,
    g.plen.trans h.plen,
    g.nch.trans h.nch,
    g.caps.trans h.caps,
    g.hdrmask.trans h.hdrmask,
    g.tselmap.trans h.tselmap,
    g.lsel.trans h.lsel,
    g.pktcnt.trans h.pktcnt,
    g.fdt.trans h.fdt,
    g.cls.trans h.cls,
    g.lay.trans h.lay,
    g.tid.trans h.tid,
    g.lut.trans h.lut,
    g.ring.trans h.ring,
    g.pkt.trans h.pkt,
    g.fault.trans h.fault,
    g.resync.trans h.resync,
    g.errFraming.trans h.errFraming,
    g.errUnkPkt.trans h.errUnkPkt,
    g.errOverrun.trans h.errOverrun,
    g.errCmd.trans h.errCmd,
    g.pktValid.trans h.pktValid,
    g.curveValid.trans h.curveValid,
    g.run.trans h.run,
    g.cht_length.trans h.cht_length⟩

theorem Commits.setErrUnkTool (s : State) : Commits s s.setErrUnkTool := by constructor <;> rfl
theorem Commits.setErrChExh (s : State) : Commits s s.setErrChExh := by constructor <;> rfl
theorem Commits.emit (s : State) (ev : Event) : Commits s (s.emit ev) := by constructor <;> rfl
theorem Commits.emitAll (s : State) (evs : List Event) : Commits s (s.emitAll evs) := by
  rw [State.emitAll_eq]; constructor <;> rfl
theorem Commits.setCh (s : State) (c : Nat) (e : Channel) : Commits s (s.setCh c e) := by
  constructor <;> simp
theorem Commits.clear (s : State) (c : Nat) : Commits s (s.clear c) := Commits.setCh s c _
theorem Commits.enterProc (s : State) (c : Nat) (w code : Word) (type : ToolType) :
    Commits s (s.enterProc c w code type) := by
  constructor <;> simp [State.enterProc]

/-! ### Channel table (42_channel_table.md) -/

theorem State.holds_iff (s : State) (c : Nat) (w : Word) :
    s.holds c w = true ↔ c < s.nch.toNat ∧ (s.ch c).inProx = true ∧ (s.ch c).serial = w := by
  simp [State.holds, and_assoc]

theorem State.free_iff (s : State) (c : Nat) :
    s.free c = true ↔ c < s.nch.toNat ∧ (s.ch c).inProx = false ∧ (s.ch c).serial = 0 := by
  simp [State.free, and_assoc]

theorem State.find_lt {s : State} {w : Word} {c : Nat} (h : s.find w = some c) : c < s.nch.toNat :=
  (lowest_eq_some.1 h).1

/-- `validType` can only set `ERR_UNKTOOL`. -/
theorem State.validType_state (s : State) (code : BitVec 4) :
    (s.validType code).1 = s ∨ (s.validType code).1 = s.setErrUnkTool := by
  unfold State.validType
  split
  · exact .inl rfl
  · exact .inr rfl

/-- `tidmap` can only set `ERR_UNKTOOL`. -/
theorem State.tidmap_state (s : State) (code : Word) :
    (s.tidmap code).1 = s ∨ (s.tidmap code).1 = s.setErrUnkTool := by
  unfold State.tidmap
  split
  · exact State.validType_state s _
  · exact .inr rfl

/-- `tselTool` can only set `ERR_UNKTOOL`. -/
theorem State.tselTool_state (s : State) (v : Word) :
    (s.tselTool v).1 = s ∨ (s.tselTool v).1 = s.setErrUnkTool := by
  have key : ∀ r : State × ToolType, (r.1 = s ∨ r.1 = s.setErrUnkTool) →
      ((if r.2 = .eraser ∧ s.hasEraser = false then (r.1, ToolType.pen) else r).1 = s ∨
        (if r.2 = .eraser ∧ s.hasEraser = false then (r.1, ToolType.pen) else r).1
          = s.setErrUnkTool) := by
    intro r hr
    split <;> exact hr
  refine key _ ?_
  split
  · exact .inr rfl
  · exact State.validType_state s _

/-- `arb_enter` answers a holder, else a free channel, else channel 0 with `ERR_CHEXH`. -/
theorem State.arbEnter_cases (s : State) (w : Word) :
    (∃ c, s.find w = some c ∧ s.arbEnter w = (s, c)) ∨
    (∃ c, s.find w = none ∧ s.lowestFree = some c ∧ s.arbEnter w = (s, c)) ∨
    (s.find w = none ∧ s.lowestFree = none ∧ s.arbEnter w = (s.setErrChExh, 0)) := by
  unfold State.arbEnter
  cases hf : s.find w with
  | some c => exact .inl ⟨c, rfl, rfl⟩
  | none =>
    cases hg : s.lowestFree with
    | some c => exact .inr (.inl ⟨c, rfl, rfl, rfl⟩)
    | none => exact .inr (.inr ⟨rfl, rfl, rfl⟩)

theorem State.arbEnter_lt {s : State} (h : 1 ≤ s.nch.toNat) (w : Word) :
    (s.arbEnter w).2 < s.nch.toNat := by
  rcases s.arbEnter_cases w with ⟨c, hc, he⟩ | ⟨c, _, hc, he⟩ | ⟨_, _, he⟩
  · simpa [he] using State.find_lt hc
  · simpa [he] using (lowest_eq_some.1 hc).1
  · simp only [he]; omega

/-- `tagch` answers the tag, else channel 0 with `ERR_CHEXH`. -/
theorem State.tagCh_cases (s : State) (tag : Word) :
    (tag.toNat < s.nch.toNat ∧ s.tagCh tag = (s, tag.toNat)) ∨
    (s.nch.toNat ≤ tag.toNat ∧ s.tagCh tag = (s.setErrChExh, 0)) := by
  unfold State.tagCh
  split
  · next h => exact .inl ⟨h, rfl⟩
  · next h => exact .inr ⟨by omega, rfl⟩

theorem State.tagCh_lt {s : State} (h : 1 ≤ s.nch.toNat) (tag : Word) :
    (s.tagCh tag).2 < s.nch.toNat := by
  rcases s.tagCh_cases tag with ⟨ht, he⟩ | ⟨_, he⟩ <;> simp only [he] <;> omega

theorem State.clear_ch (s : State) (c d : Nat) :
    (s.clear c).ch d = if d = c then (s.ch d).cleared else s.ch d := by
  rw [State.clear, State.ch_setCh]
  by_cases hd : d = c
  · subst hd
    by_cases hl : d < s.cht.length
    · simp [hl]
    · have : s.ch d = Channel.empty := by
        simp [State.ch, List.getD_eq_getElem?_getD, List.getElem?_eq_none (Nat.le_of_not_lt hl)]
      simp [hl, this]
      rfl
  · simp [hd]

/-- The entry `enter_proc` writes. -/
def State.enteredEntry (s : State) (c : Nat) (serial code : Word) (type : ToolType) : Channel :=
  { (if s.wasHere c serial then s.ch c else (s.ch c).cleared) with
    serial := serial, toolType := type, toolId := code, inProx := true, stamp := s.pktcnt }

theorem State.enterProc_ch (s : State) (c d : Nat) (serial code : Word) (type : ToolType) :
    (s.enterProc c serial code type).ch d
      = if d = c ∧ c < s.cht.length then s.enteredEntry c serial code type else s.ch d := by
  have h : (s.enterProc c serial code type).ch d
      = (s.setCh c (s.enteredEntry c serial code type)).ch d := State.ch_congr rfl d
  rw [h, State.ch_setCh]

theorem Commits.validType (s : State) (code : BitVec 4) : Commits s (s.validType code).1 := by
  rcases s.validType_state code with h | h <;> rw [h]
  exact Commits.setErrUnkTool s

theorem Commits.tidmap (s : State) (code : Word) : Commits s (s.tidmap code).1 := by
  rcases s.tidmap_state code with h | h <;> rw [h]
  exact Commits.setErrUnkTool s

theorem Commits.tselTool (s : State) (v : Word) : Commits s (s.tselTool v).1 := by
  rcases s.tselTool_state v with h | h <;> rw [h]
  exact Commits.setErrUnkTool s

theorem Commits.arbEnter (s : State) (w : Word) : Commits s (s.arbEnter w).1 := by
  rcases s.arbEnter_cases w with ⟨c, _, h⟩ | ⟨c, _, _, h⟩ | ⟨_, _, h⟩ <;> rw [h]
  exact Commits.setErrChExh s

theorem Commits.tagCh (s : State) (tag : Word) : Commits s (s.tagCh tag).1 := by
  rcases s.tagCh_cases tag with ⟨_, h⟩ | ⟨_, h⟩ <;> rw [h]
  exact Commits.setErrChExh s

theorem Commits.sel (s : State) (h : Hit) (v : Fields) : Commits s (s.sel h v).1 := by
  unfold State.sel
  split
  · exact Commits.tagCh s _
  · exact Commits.refl s
  · exact Commits.refl s

theorem Commits.enterTool (s : State) (w code : Word) : Commits s (s.enterTool w code).1 :=
  ((Commits.tidmap s code).trans (Commits.arbEnter _ w)).trans (Commits.enterProc _ _ _ _ _)

theorem Commits.exitTool (s : State) (w : Word) : Commits s (s.exitTool w) := by
  unfold State.exitTool
  split
  · exact Commits.clear s _
  · exact Commits.refl s

/-! ### Dispatch and commit (43_protocol_decoders.md) -/

theorem Commits.dispatch (s : State) (c : Nat) (motion : Bool) (v : Fields) :
    Commits s (s.dispatch c motion v) :=
  (Commits.emitAll s _).trans (Commits.setCh _ _ _)

/-- `dispatch` writes one entry and appends its events. -/
theorem State.dispatch_eq (s : State) (c : Nat) (motion : Bool) (v : Fields) :
    s.dispatch c motion v =
      { s with
        cht := s.cht.set c (s.dispatchEntry c v)
        evout := s.evout ++ s.dispatchEvents c motion v
        evcnt := s.evcnt + word (s.dispatchEvents c motion v).length } := by
  simp [State.dispatch, State.emitAll_eq, State.setCh]

theorem Commits.leave (s : State) (c : Nat) : Commits s (s.leave c) :=
  (Commits.clear s c).trans (Commits.emit _ _)

theorem Commits.orArb (s : State) (w : Word) (c : Option Nat) : Commits s (s.orArb w c).1 := by
  cases c with
  | some c => exact Commits.refl s
  | none => exact Commits.arbEnter s w

theorem Commits.flagEnter (s : State) (c : Option Nat) (v : Fields) :
    Commits s (s.flagEnter c v) :=
  ((((Commits.tselTool s _).trans (Commits.orArb _ 0 c)).trans (Commits.enterProc _ _ _ _ _)).trans
    (Commits.emit _ _)).trans (Commits.dispatch _ _ _ _)

theorem Commits.commitFlagprox (s : State) (h : Hit) (v : Fields) :
    Commits s (s.commitFlagprox h v) := by
  refine (Commits.sel s h v).trans ?_
  unfold State.commitFlagprox
  dsimp only
  split
  · exact Commits.dispatch _ _ _ _
  · exact Commits.flagEnter _ _ _
  · exact Commits.leave _ _
  · exact Commits.refl _

theorem Commits.commitEnter (s : State) (h : Hit) (v : Fields) : Commits s (s.commitEnter h v) := by
  have hr := (Commits.tidmap s ((v.get .toolid).getD 0)).trans (Commits.sel _ h v)
  unfold State.commitEnter
  dsimp only
  split
  · exact (hr.trans (Commits.orArb _ _ _)).trans (Commits.enterProc _ _ _ _ _)
  · exact ((hr.trans (Commits.orArb _ _ _)).trans (Commits.enterProc _ _ _ _ _)).trans
      (Commits.emit _ _)

theorem Commits.commitExit (s : State) (h : Hit) (v : Fields) : Commits s (s.commitExit h v) := by
  unfold State.commitExit
  refine (Commits.sel s h v).trans ?_
  dsimp only
  split
  · split
    · exact Commits.leave _ _
    · exact Commits.refl _
  · exact Commits.refl _

theorem Commits.commitGeneral (s : State) (h : Hit) (v : Fields) :
    Commits s (s.commitGeneral h v) := by
  unfold State.commitGeneral
  refine (Commits.sel s h v).trans ?_
  dsimp only
  split
  · split
    · exact Commits.dispatch _ _ _ _
    · exact Commits.refl _
  · exact Commits.refl _

/-- Phase 2 touches only what `Commits` allows. -/
theorem Commits.commit (s : State) (h : Hit) (v : Fields) : Commits s (s.commit h v) := by
  unfold State.commit
  split
  · exact Commits.refl s
  · exact Commits.commitFlagprox s h v
  · exact Commits.commitEnter s h v
  · exact Commits.commitExit s h v
  · exact Commits.commitGeneral s h v
  · exact Commits.dispatch s _ _ _
  · constructor <;> rfl
  · constructor <;> rfl

/-- What `decode_one` can do when it raises no fault: no packet and nothing changes; the packet is
dropped; or it is committed and consumed. -/
theorem State.decodeOne_ok {s t : State} {w : Word} (h : s.decodeOne = .ok (t, w)) :
    (s.status.pktValid = false ∧ t = s ∧ w = 0) ∨
    (s.status.pktValid = true ∧ s.classify = .ok none ∧ t = s.dropPkt ∧ w = 2) ∨
    (∃ i hit v, s.status.pktValid = true ∧ s.classify = .ok (some i) ∧ s.hitOf i = .ok hit ∧
      s.extract hit = .ok v ∧ t = (s.commit hit v).consumePkt ∧ w = 1) := by
  unfold State.decodeOne at h
  cases hp : s.status.pktValid with
  | false => simp [hp] at h; exact .inl ⟨rfl, h.1.symm, h.2.symm⟩
  | true =>
    simp only [hp, if_true] at h
    cases hc : s.classify with
    | error e => simp [hc] at h
    | ok o =>
      cases o with
      | none => simp [hc] at h; exact .inr (.inl ⟨rfl, rfl, h.1.symm, h.2.symm⟩)
      | some i =>
        simp only [hc] at h
        cases hh : s.hitOf i with
        | error e => simp [hh] at h
        | ok hit =>
          simp only [hh] at h
          cases hv : s.extract hit with
          | error e => simp [hv] at h
          | ok v =>
            simp [hv] at h
            exact .inr (.inr ⟨i, hit, v, rfl, rfl, hh, hv, h.1.symm, h.2.symm⟩)

/-! ### Frame synchronizer (44_frame_synchronizer.md) -/

/-- `t` is `s` but for the ring, PKT, `PKTCNT`, and the flags `ERR_FRAMING` and `PKTVALID`: all that fetching a
packet can touch. -/
structure Fetches (s t : State) : Prop where
  params : t.params = s.params
  input : t.input = s.input
  x : t.x = s.x
  fcause : t.fcause = s.fcause
  finfo : t.finfo = s.finfo
  proto : t.proto = s.proto
  plen : t.plen = s.plen
  nch : t.nch = s.nch
  caps : t.caps = s.caps
  hdrmask : t.hdrmask = s.hdrmask
  tselmap : t.tselmap = s.tselmap
  lsel : t.lsel = s.lsel
  fdt : t.fdt = s.fdt
  cls : t.cls = s.cls
  lay : t.lay = s.lay
  tid : t.tid = s.tid
  lut : t.lut = s.lut
  lastch : t.lastch = s.lastch
  cht : t.cht = s.cht
  evout : t.evout = s.evout
  evcnt : t.evcnt = s.evcnt
  xmax : t.xmax = s.xmax
  ymax : t.ymax = s.ymax
  pmax : t.pmax = s.pmax
  txmax : t.txmax = s.txmax
  tymax : t.tymax = s.tymax
  dmax : t.dmax = s.dmax
  version : t.version = s.version
  fault : t.status.fault = s.status.fault
  resync : t.status.resync = s.status.resync
  errUnkPkt : t.status.errUnkPkt = s.status.errUnkPkt
  errUnkTool : t.status.errUnkTool = s.status.errUnkTool
  errChExh : t.status.errChExh = s.status.errChExh
  errOverrun : t.status.errOverrun = s.status.errOverrun
  errCmd : t.status.errCmd = s.status.errCmd
  curveValid : t.status.curveValid = s.status.curveValid
  touchCap : t.status.touchCap = s.status.touchCap
  run : t.status.run = s.status.run

@[refl] theorem Fetches.refl (s : State) : Fetches s s :=
  ⟨rfl, rfl, rfl, rfl, rfl, rfl, rfl, rfl, rfl, rfl, rfl, rfl, rfl, rfl, rfl, rfl, rfl, rfl, rfl, rfl, rfl, rfl, rfl, rfl, rfl, rfl, rfl, rfl, rfl, rfl, rfl, rfl, rfl, rfl, rfl, rfl, rfl, rfl⟩

theorem Fetches.trans {s t u : State} (h : Fetches s t) (g : Fetches t u) : Fetches s u :=
  ⟨g.params.trans h.params,
    g.input.trans h.input,
    g.x.trans h.x,
    g.fcause.trans h.fcause,
    g.finfo.trans h.finfo,
    g.proto.trans h.proto,
    g.plen.trans h.plen,
    g.nch.trans h.nch,
    g.caps.trans h.caps,
    g.hdrmask.trans h.hdrmask,
    g.tselmap.trans h.tselmap,
    g.lsel.trans h.lsel,
    g.fdt.trans h.fdt,
    g.cls.trans h.cls,
    g.lay.trans h.lay,
    g.tid.trans h.tid,
    g.lut.trans h.lut,
    g.lastch.trans h.lastch,
    g.cht.trans h.cht,
    g.evout.trans h.evout,
    g.evcnt.trans h.evcnt,
    g.xmax.trans h.xmax,
    g.ymax.trans h.ymax,
    g.pmax.trans h.pmax,
    g.txmax.trans h.txmax,
    g.tymax.trans h.tymax,
    g.dmax.trans h.dmax,
    g.version.trans h.version,
    g.fault.trans h.fault,
    g.resync.trans h.resync,
    g.errUnkPkt.trans h.errUnkPkt,
    g.errUnkTool.trans h.errUnkTool,
    g.errChExh.trans h.errChExh,
    g.errOverrun.trans h.errOverrun,
    g.errCmd.trans h.errCmd,
    g.curveValid.trans h.curveValid,
    g.touchCap.trans h.touchCap,
    g.run.trans h.run⟩

theorem Fetches.latch (s : State) (len : Nat) : Fetches s (s.latch len) := by constructor <;> rfl

theorem Fetches.discard (s : State) (bytes : List Byte) :
    Fetches s { s.setErrFraming with ring := bytes } := by constructor <;> rfl

theorem Fetches.nextHeaderLoop (n : Nat) (s : State) : Fetches s (State.nextHeaderLoop n s).1 := by
  induction n generalizing s with
  | zero => exact Fetches.refl s
  | succ n ih =>
    unfold State.nextHeaderLoop
    split
    · exact Fetches.refl s
    · split
      · exact (Fetches.discard s _).trans (ih _)
      · split
        · exact (Fetches.discard s _).trans (ih _)
        · split
          · exact Fetches.refl s
          · exact Fetches.latch s _

/-- `next_packet` touches only what `Fetches` allows. -/
theorem Fetches.nextPacket (s : State) : Fetches s s.nextPacket.1 := by
  unfold State.nextPacket
  split
  · exact Fetches.refl s
  · split
    · exact Fetches.nextHeaderLoop _ s
    · unfold State.nextFixed
      split
      · exact Fetches.latch s _
      · exact Fetches.refl s

theorem Fetches.fillPkt (s : State) : Fetches s s.fillPkt := by
  unfold State.fillPkt
  split
  · exact Fetches.refl s
  · exact Fetches.nextPacket s

end Sys2Proof.Machine
end

