-- ==== Sys2Proof/Laws/Readings.lean ====
section
/-! SUPPORT. The model's operations against the readings of the rules in Safety.lean: fields of words in plain
arithmetic, the bitfield extractor, arbitration, framing. -/

namespace Sys2Proof.Machine

/-! ### Fields of words in plain arithmetic -/

theorem extractLsb'_toNat_eq {n : Nat} (w : BitVec n) (start len : Nat) :
    (w.extractLsb' start len).toNat = w.toNat / 2 ^ start % 2 ^ len := by
  rw [BitVec.extractLsb'_toNat, Nat.shiftRight_eq_div_pow]

theorem validBit_iff (w : Word) : validBit w = true ↔ 2 ^ 31 ≤ w.toNat := by
  simp [validBit, BitVec.getLsbD, Nat.testBit, Nat.shiftRight_eq_div_pow]
  omega

theorem validBit_eq_false (w : Word) : validBit w = false ↔ w.toNat < 2 ^ 31 := by
  rw [← Bool.not_eq_true, validBit_iff]; omega

theorem nfrag_eq (w : Word) : nfrag w = w.toNat % 8 := by
  exact (extractLsb'_toNat_eq w 0 3).trans (by rw [Nat.pow_zero, Nat.div_one]; rfl)
theorem signBit_eq (w : Word) : signBit w = w.toNat / 16 % 32 := by
  exact extractLsb'_toNat_eq w 4 5
theorem signedBit_iff (w : Word) : signedBit w = true ↔ w.toNat / 8 % 2 = 1 := by
  simp [signedBit, BitVec.getLsbD, Nat.testBit, Nat.shiftRight_eq_div_pow]
theorem byteIdx_eq (w : Word) : byteIdx w = w.toNat % 256 := by
  exact (extractLsb'_toNat_eq w 0 8).trans (by rw [Nat.pow_zero, Nat.div_one]; rfl)
theorem byteMask_toNat (w : Word) : (byteMask w).toNat = w.toNat / 256 % 256 := by
  exact extractLsb'_toNat_eq w 8 8
theorem condVal_toNat (w : Word) : (condVal w).toNat = w.toNat / 65536 % 256 := by
  exact extractLsb'_toNat_eq w 16 8
theorem ruleLayout_eq (w : Word) : ruleLayout w = w.toNat / 16 % 16 := by
  exact extractLsb'_toNat_eq w 4 4
theorem ruleFixedCh_eq (w : Word) : ruleFixedCh w = w.toNat / 1024 % 64 := by
  exact extractLsb'_toNat_eq w 10 6
theorem ruleReqTouch_eq (w : Word) : ruleReqTouch w = (w.toNat / 65536 % 2 == 1) := by
  simp [ruleReqTouch, BitVec.getLsbD, Nat.testBit, Nat.shiftRight_eq_div_pow]
theorem mapType_toNat (w : Word) : (mapType w).toNat = w.toNat % 16 := by
  exact (extractLsb'_toNat_eq w 0 4).trans (by rw [Nat.pow_zero, Nat.div_one]; rfl)
theorem lselMask_toNat (w : Word) : (lselMask w).toNat = w.toNat / 65536 % 256 := by
  exact extractLsb'_toNat_eq w 16 8
theorem lselValue_toNat (w : Word) : (lselValue w).toNat = w.toNat / 256 % 256 := by
  exact extractLsb'_toNat_eq w 8 8
theorem lselLen_eq (w : Word) : lselLen w = w.toNat % 256 := by
  exact (extractLsb'_toNat_eq w 0 8).trans (by rw [Nat.pow_zero, Nat.div_one]; rfl)
theorem tselEntry_toNat (s : State) (v : Nat) : (s.tselEntry v).toNat = s.tselmap.toNat / 16 ^ v % 16 := by
  rw [State.tselEntry, extractLsb'_toNat_eq, Nat.pow_mul]; norm_num

theorem fragShift_eq (w : Word) : fragShift w =
    if w.toNat / 65536 % 64 < 32 then ((w.toNat / 65536 % 64 : Nat) : Int)
    else ((w.toNat / 65536 % 64 : Nat) : Int) - 64 := by
  simp only [fragShift, BitVec.toInt, extractLsb'_toNat_eq]
  norm_num
  split <;> split <;> omega

/-- A tool from a map code. -/
theorem ToolType.ofCode_cases (c : BitVec 4) :
    (∃ t, ToolType.ofCode c = some t ∧ GivesTool c.toNat t false) ∨
    (ToolType.ofCode c = Option.none ∧ GivesTool c.toNat .pen true) := by
  have : ∀ c : BitVec 4, (∃ t, ToolType.ofCode c = some t ∧ (if 1 ≤ c.toNat ∧ c.toNat ≤ 9 then t.code.toNat = c.toNat else False)) ∨ (ToolType.ofCode c = Option.none ∧ ¬ (1 ≤ c.toNat ∧ c.toNat ≤ 9)) := by
    intro c; have := c.isLt; unfold ToolType.ofCode
    generalize c.toNat = n at *
    interval_cases n <;> simp [ToolType.code]
  rcases this c with ⟨t, h, h'⟩ | ⟨h, h'⟩
  · left; refine ⟨t, h, ?_⟩; unfold GivesTool; split <;> simp_all
  · right; refine ⟨h, ?_⟩; simp [GivesTool, h']

theorem State.cond_eq (s : State) (i : Nat) (w : Word) :
    s.cond i w = match s.condResult w.toNat with
      | .holds => .ok true
      | .fails => .ok false
      | .pastPacket => .error ⟨.clsRange, word i ||| word (w.toNat % 256) <<< 16⟩ := by
  have hm : byteMask w = 0 ↔ w.toNat / 256 % 256 = 0 := by
    rw [← BitVec.toNat_inj, byteMask_toNat]; simp
  have hv : condVal w = 0 ↔ w.toNat / 65536 % 256 = 0 := by
    rw [← BitVec.toNat_inj, condVal_toNat]; simp
  unfold State.cond State.condResult
  by_cases h : w.toNat / 256 % 256 = 0
  · rw [if_pos (hm.2 h), if_pos h]
    by_cases h2 : w.toNat / 65536 % 256 = 0
    · rw [if_pos h2, hv.2 h2]; rfl
    · rw [if_neg h2]
      have : condVal w ≠ 0 := fun e => h2 (hv.1 e)
      have e2 : (condVal w == 0) = false := beq_eq_false_iff_ne.2 this
      rw [e2]
  · rw [if_neg (fun e => h (hm.1 e)), if_neg h, byteIdx_eq]
    by_cases h3 : s.pkt.length ≤ w.toNat % 256
    · rw [if_pos h3, List.getElem?_eq_none h3]
    · rw [if_neg h3, List.getElem?_eq_getElem (by omega)]
      have e : (s.pktByte (w.toNat % 256) &&& byteMask w == condVal w)
          = decide ((s.pkt[w.toNat % 256]'(by omega)).toNat &&& (w.toNat / 256 % 256) = w.toNat / 65536 % 256) := by
        rw [Bool.eq_iff_iff]
        simp only [beq_iff_eq, decide_eq_true_eq, ← BitVec.toNat_inj, BitVec.toNat_and, byteMask_toNat, condVal_toNat]
        simp [State.pktByte, List.getD_eq_getElem?_getD, List.getElem?_eq_getElem (show w.toNat % 256 < s.pkt.length by omega)]
      rw [e]
      by_cases h4 : (s.pkt[w.toNat % 256]'(by omega)).toNat &&& (w.toNat / 256 % 256) = w.toNat / 65536 % 256
      · simp [h4]
      · simp [h4]


/-! ### The bitfield extractor (40_bitfield_extractor.md) -/

theorem shiftBy_toNat (b m : Byte) (w : Word) :
    (shiftBy ((b &&& m).setWidth 32) (fragShift w)).toNat =
      if w.toNat / 65536 % 64 < 32 then (b.toNat &&& m.toNat) * 2 ^ (w.toNat / 65536 % 64) % 2 ^ 32
      else (b.toNat &&& m.toNat) / 2 ^ (64 - w.toNat / 65536 % 64) := by
  have hb : (b &&& m).toNat < 256 := (b &&& m).isLt
  have hv : ((b &&& m).setWidth 32).toNat = b.toNat &&& m.toNat := by
    rw [BitVec.toNat_setWidth, Nat.mod_eq_of_lt (by omega), BitVec.toNat_and]
  rw [fragShift_eq, shiftBy]
  have hlt : w.toNat / 65536 % 64 < 64 := Nat.mod_lt _ (by decide)
  generalize w.toNat / 65536 % 64 = n at *
  by_cases h : n < 32
  · rw [if_pos h, if_pos h, if_pos (by omega), BitVec.toNat_shiftLeft, hv, Int.toNat_natCast, Nat.shiftLeft_eq]
  · rw [if_neg h, if_neg h, if_neg (by omega), BitVec.toNat_ushiftRight, hv, Nat.shiftRight_eq_div_pow]
    congr 2; omega

theorem State.readFragment_eq (s : State) (fid k : Nat) :
    (s.fragIdx fid k < s.pkt.length → ∃ v, s.readFragment fid k = .ok v ∧ v.toNat = s.fragValue fid k) ∧
    (s.pkt.length ≤ s.fragIdx fid k → s.readFragment fid k = .error
      ⟨.fieldRange, word fid ||| word k <<< 8 ||| word (s.fragIdx fid k) <<< 16⟩) := by
  unfold State.readFragment State.fragIdx State.fieldWord
  simp only [byteIdx_eq]
  constructor
  · intro h
    rw [if_neg (by omega)]
    refine ⟨_, rfl, ?_⟩
    rw [shiftBy_toNat, byteMask_toNat]
    simp only [State.fragValue, State.fragIdx, State.fieldWord]
    have : (s.pktByte ((Memory.read s.fdt (8 * fid + k)).toNat % 256)) = (s.pkt[(Memory.read s.fdt (8 * fid + k)).toNat % 256]?.getD 0) := by
      simp [State.pktByte, List.getD_eq_getElem?_getD]
    rw [this]; rfl
  · intro h
    rw [if_pos h]

theorem State.readFragments_ok (s : State) (fid : Nat) : ∀ (n k : Nat) (acc : Word),
    (∀ j, k ≤ j → j < k + n → s.fragIdx fid j < s.pkt.length) →
    ∃ v, s.readFragments fid n k acc = .ok v ∧
      v.toNat = (List.range n).foldl (fun a j => a ||| s.fragValue fid (k + j)) acc.toNat := by
  intro n
  induction n with
  | zero => intro k acc _; exact ⟨acc, rfl, rfl⟩
  | succ n ih =>
    intro k acc h
    obtain ⟨v, hv, hn⟩ := (s.readFragment_eq fid k).1 (h k (le_refl _) (by omega))
    obtain ⟨u, hu, hu'⟩ := ih (k+1) (acc ||| v) (fun j h1 h2 => h j (by omega) (by omega))
    refine ⟨u, by simp only [State.readFragments, hv, hu], ?_⟩
    rw [hu', List.range_succ_eq_map, List.foldl_cons, List.foldl_map, BitVec.toNat_or, hn]
    simp only [Nat.add_zero, Nat.succ_eq_add_one]
    congr 1
    funext a j; congr 2; omega

theorem State.readFragments_error (s : State) (fid : Nat) : ∀ (n k i : Nat) (acc : Word),
    k ≤ i → i < k + n → (∀ j, k ≤ j → j < i → s.fragIdx fid j < s.pkt.length) →
    s.pkt.length ≤ s.fragIdx fid i →
    s.readFragments fid n k acc = .error
      ⟨.fieldRange, word fid ||| word i <<< 8 ||| word (s.fragIdx fid i) <<< 16⟩ := by
  intro n
  induction n with
  | zero => intro k i acc h1 h2; omega
  | succ n ih =>
    intro k i acc h1 h2 h3 h4
    rcases Nat.eq_or_lt_of_le h1 with rfl | hlt
    · simp only [State.readFragments, (s.readFragment_eq fid k).2 h4]
    · obtain ⟨v, hv, _⟩ := (s.readFragment_eq fid k).1 (h3 k (le_refl _) hlt)
      simp only [State.readFragments, hv]
      exact ih (k+1) i _ hlt (by omega) (fun j a b => h3 j (by omega) b) h4

theorem State.fieldUsable_iff (s : State) (fid : Nat) : s.fieldUsable fid ↔
    ¬ (s.params.fdtSize ≤ fid ∨ validBit (Memory.read s.fdt (8 * fid)) = false ∨ nfrag (Memory.read s.fdt (8 * fid)) = 7) := by
  simp only [State.fieldUsable, State.fieldCount, State.fieldWord, nfrag_eq, validBit_eq_false, Nat.add_zero]
  omega

theorem signExtendFrom_toInt (acc : Word) (sb : Nat) (h : sb < 32) :
    (signExtendFrom acc sb).toInt = Int.bmod acc.toNat (2 ^ (sb + 1)) := by
  rw [signExtendFrom, BitVec.toInt_signExtend_of_le (by omega), BitVec.toInt_eq_toNat_bmod, BitVec.toNat_setWidth]
  push_cast
  exact Int.emod_bmod ..

theorem State.readField_unusable (s : State) (fid : Nat) (h : ¬ s.fieldUsable fid) :
    s.readField fid = .error ⟨.fieldInvalid, word fid⟩ := by
  rw [State.fieldUsable_iff, not_not] at h
  unfold State.readField
  rw [if_pos h]

theorem State.readField_error (s : State) (fid k : Nat) (h : s.fieldUsable fid) (h1 : 1 ≤ k)
    (h2 : k ≤ s.fieldCount fid) (h3 : ∀ j, 1 ≤ j → j < k → s.fragIdx fid j < s.pkt.length)
    (h4 : s.pkt.length ≤ s.fragIdx fid k) :
    s.readField fid = .error ⟨.fieldRange, word fid ||| word k <<< 8 ||| word (s.fragIdx fid k) <<< 16⟩ := by
  rw [State.fieldUsable_iff] at h
  unfold State.readField
  simp only [if_neg h]
  rw [nfrag_eq, s.readFragments_error fid _ 1 k 0 h1 (by unfold State.fieldCount State.fieldWord at h2; rw [Nat.add_zero] at h2; omega) h3 h4]

theorem State.readField_ok (s : State) (fid : Nat) (h : s.fieldUsable fid)
    (h3 : ∀ j, 1 ≤ j → j ≤ s.fieldCount fid → s.fragIdx fid j < s.pkt.length) :
    ∃ v, s.readField fid = .ok v ∧
      (s.fieldWord fid 0 / 8 % 2 = 0 → v.toNat = s.fieldBits fid) ∧
      (s.fieldWord fid 0 / 8 % 2 = 1 →
        v.toInt = Int.bmod (s.fieldBits fid) (2 ^ (s.fieldWord fid 0 / 16 % 32 + 1))) := by
  rw [State.fieldUsable_iff] at h
  obtain ⟨acc, ha, hn⟩ := s.readFragments_ok fid (s.fieldCount fid) 1 0 (fun j a b => h3 j a (by omega))
  have hbits : acc.toNat = s.fieldBits fid := by
    rw [hn, State.fieldBits]; simp only [Nat.add_comm 1]; rfl
  refine ⟨finishField (Memory.read s.fdt (8*fid)) acc, ?_, ?_, ?_⟩
  · unfold State.readField
    simp only [if_neg h]
    rw [nfrag_eq, show (Memory.read s.fdt (8 * fid)).toNat % 8 = s.fieldCount fid from rfl, ha]
  · intro h0
    have : signedBit (Memory.read s.fdt (8*fid)) = false := by
      rw [← Bool.not_eq_true, signedBit_iff]; unfold State.fieldWord at h0; simp at h0; omega
    rw [finishField, this, if_neg (by simp), hbits]
  · intro h0
    have : signedBit (Memory.read s.fdt (8*fid)) = true := by
      rw [signedBit_iff]; unfold State.fieldWord at h0; simpa using h0
    rw [finishField, this, if_pos rfl, signExtendFrom_toInt _ _ (by rw [signBit_eq]; omega), hbits, signBit_eq]
    rfl

theorem execRdfld_eq (s : State) (rd : RegNum) (fid : BitVec 16) (hf : s.status.fault = false) :
    exec (.rdfld rd fid) s = .next (match s.readField fid.toNat with
      | .error e => takeFault e s
      | .ok v => s.setReg rd v) := by
  show execRdfld rd fid s = _
  rw [execRdfld, inAnyState_eq, hf]
  cases s.readField fid.toNat <;> rfl

/-! ### Arbitration (42_channel_table.md) -/

theorem State.holds_iff_Holds (s : State) (c : Nat) (w : Word) : s.holds c w = true ↔ s.Holds c w :=
  s.holds_iff c w
theorem State.free_iff_Vacant (s : State) (c : Nat) : s.free c = true ↔ s.Vacant c := s.free_iff c

theorem State.find_eq_some (s : State) (w : Word) (c : Nat) : s.find w = some c ↔ s.Finds w c := by
  rw [State.find, lowest_eq_some]
  simp only [← Bool.not_eq_true, State.holds_iff_Holds]
  constructor
  · rintro ⟨_, h, g⟩; exact ⟨h, g⟩
  · rintro ⟨h, g⟩; exact ⟨h.1, h, g⟩

theorem State.find_eq_none (s : State) (w : Word) : s.find w = none ↔ s.FindsNone w := by
  rw [State.find, lowest_eq_none]
  simp only [← Bool.not_eq_true, State.holds_iff_Holds]

theorem State.lowestFree_eq_some (s : State) (c : Nat) :
    s.lowestFree = some c ↔ s.Vacant c ∧ ∀ d, d < c → ¬ s.Vacant d := by
  rw [State.lowestFree, lowest_eq_some]
  simp only [← Bool.not_eq_true, State.free_iff_Vacant]
  constructor
  · rintro ⟨_, h, g⟩; exact ⟨h, g⟩
  · rintro ⟨h, g⟩; exact ⟨h.1, h, g⟩

theorem State.lowestFree_eq_none (s : State) :
    s.lowestFree = none ↔ ∀ d, d < s.nch.toNat → ¬ s.Vacant d := by
  rw [State.lowestFree, lowest_eq_none]
  simp only [← Bool.not_eq_true, State.free_iff_Vacant]

/-- `arb_enter` answers the channel of R212 and can only set `ERR_CHEXH`. -/
theorem State.arbEnter_spec (s : State) (w : Word) :
    ∃ c e, s.ArbEnters w c e ∧ s.arbEnter w =
      ({ s with status := { s.status with errChExh := s.status.errChExh || e } }, c) := by
  rcases s.arbEnter_cases w with ⟨c, h, he⟩ | ⟨c, h, hf, he⟩ | ⟨h, hf, he⟩
  · exact ⟨c, false, .inl ⟨(s.find_eq_some w c).1 h, rfl⟩, by simp [he]⟩
  · exact ⟨c, false, .inr (.inl ⟨(s.find_eq_none w).1 h, ((s.lowestFree_eq_some c).1 hf).1, ((s.lowestFree_eq_some c).1 hf).2, rfl⟩), by simp [he]⟩
  · exact ⟨0, true, .inr (.inr ⟨(s.find_eq_none w).1 h, s.lowestFree_eq_none.1 hf, rfl, rfl⟩), by simp [he, State.setErrChExh]⟩

theorem State.ArbEnters.lt {s : State} {w : Word} {c : Nat} {e : Bool} (h : s.ArbEnters w c e)
    (hn : 1 ≤ s.nch.toNat) : c < s.nch.toNat := by
  rcases h with ⟨h, _⟩ | ⟨_, h, _⟩ | ⟨_, _, h, _⟩
  · exact h.1.1
  · exact h.1
  · omega

theorem State.validType_spec (s : State) (c : BitVec 4) : ∃ tool u, GivesTool c.toNat tool u ∧
    s.validType c = ({ s with status := { s.status with errUnkTool := s.status.errUnkTool || u } }, tool) := by
  rcases ToolType.ofCode_cases c with ⟨t, h, g⟩ | ⟨h, g⟩
  · exact ⟨t, false, g, by simp [State.validType, h]⟩
  · exact ⟨.pen, true, g, by simp [State.validType, h, State.setErrUnkTool]⟩

/-- `tidmap` answers the tool of R213 and can only set `ERR_UNKTOOL`. -/
theorem State.tidmap_spec (s : State) (code : Word) : ∃ tool u, s.MapsTool code tool u ∧
    s.tidmap code = ({ s with status := { s.status with errUnkTool := s.status.errUnkTool || u } }, tool) := by
  have hit : ∀ i, (validBit (Memory.read s.tid (2 * i + 1)) && Memory.read s.tid (2 * i) == code) = true ↔ s.TidHit code i := by
    intro i; simp [validBit_iff]
  cases h : s.tidEntry code with
  | none =>
    refine ⟨.pen, true, .inr ⟨?_, rfl, rfl⟩, by simp [State.tidmap, h, State.setErrUnkTool]⟩
    rw [State.tidEntry, lowest_eq_none] at h
    intro i hi hh; exact absurd ((hit i).2 hh) (by simp only [h i hi]; simp)
  | some i =>
    rw [State.tidEntry, lowest_eq_some] at h
    obtain ⟨hi, hP, hj⟩ := h
    obtain ⟨tool, u, hg, he⟩ := s.validType_spec (mapType (Memory.read s.tid (2 * i + 1)))
    rw [mapType_toNat] at hg
    refine ⟨tool, u, .inl ⟨i, hi, (hit i).1 hP, fun j hjl hh => absurd ((hit j).2 hh) (by simp only [hj j hjl]; simp), hg⟩, ?_⟩
    have : s.tidEntry code = some i := by rw [State.tidEntry, lowest_eq_some]; exact ⟨hi, hP, hj⟩
    rw [State.tidmap, this]
    exact he

/-- `tselmap` answers the tool of R214 and can only set `ERR_UNKTOOL`. -/
theorem State.tselTool_spec (s : State) (v : Word) : ∃ tool u, s.SelectsTool v tool u ∧
    s.tselTool v = ({ s with status := { s.status with errUnkTool := s.status.errUnkTool || u } }, tool) := by
  by_cases h : 7 < v.toNat
  · refine ⟨.pen, true, ⟨.pen, ?_, by simp⟩, ?_⟩
    · rw [if_neg (by omega)]; exact ⟨rfl, rfl⟩
    · simp [State.tselTool, h, State.setErrUnkTool]
  · obtain ⟨tool, u, hg, he⟩ := s.validType_spec (s.tselEntry v.toNat)
    rw [tselEntry_toNat] at hg
    refine ⟨_, u, ⟨tool, by rw [if_pos (by omega)]; exact hg, rfl⟩, ?_⟩
    simp only [State.tselTool, h, if_false, he]
    split <;> rfl

theorem State.enteredEntry_eq (s : State) (c : Nat) (w code : Word) (t : ToolType) :
    s.enteredEntry c w code t = s.populated c w code t := by
  unfold State.enteredEntry State.populated State.wasHere
  by_cases h : (s.ch c).inProx = true ∧ (s.ch c).serial = w
  · simp [h]
  · rw [if_neg h, if_neg (by simpa using h)]
    simp [Channel.cleared]

theorem State.exitTarget_spec (s : State) (w : Word) : s.ExitsTo w (s.exitTarget w) := by
  unfold State.exitTarget
  cases h : s.find w with
  | some c => exact .inl ((s.find_eq_some w c).1 h)
  | none =>
    rw [State.find_eq_none] at h
    by_cases hn : s.nch = 1
    · simp only [hn, if_true]; exact .inr ⟨h, by simp [hn], rfl⟩
    · simp only [hn, if_false]; exact ⟨h, fun e => hn (by apply BitVec.eq_of_toNat_eq; simpa using e)⟩

/-! ### Framing (44_frame_synchronizer.md) -/

theorem State.hdr_iff (s : State) (b : Byte) : s.hdr b = true ↔ s.IsHeader b := by
  simp [State.hdr, State.IsHeader]

theorem lselHit_iff (w : Word) (b : Byte) :
    (validBit w && (b &&& lselMask w) == lselValue w) = true ↔ lselHit w b := by
  rw [Bool.and_eq_true, validBit_iff, beq_iff_eq, ← BitVec.toNat_inj, BitVec.toNat_and, lselMask_toNat,
    lselValue_toNat]

/-- `lensel` answers the length of R307. -/
theorem State.lensel_spec (s : State) (b : Byte) : s.SelectsLength b (s.lensel b) := by
  unfold State.lensel
  have hl : s.lsel.toList = [s.lsel[0], s.lsel[1], s.lsel[2], s.lsel[3]] := by
    apply List.ext_getElem
    · simp
    · intro i h1 h2; simp at h1; interval_cases i <;> simp
  simp only [hl, List.find?_cons, List.find?_nil]
  have e : ∀ j, ∀ h : j < 4, (validBit s.lsel[j] && (b &&& lselMask s.lsel[j]) == lselValue s.lsel[j]) = decide (lselHit s.lsel[j] b) := by
    intro j h; rw [Bool.eq_iff_iff, lselHit_iff, decide_eq_true_iff]
  rw [e 0 (by decide), e 1 (by decide), e 2 (by decide), e 3 (by decide)]
  unfold State.SelectsLength
  by_cases h0 : lselHit s.lsel[0] b
  · rw [decide_eq_true h0]; exact .inl ⟨0, h0, fun k hk => by omega, lselLen_eq _⟩
  by_cases h1 : lselHit s.lsel[1] b
  · rw [decide_eq_false h0, decide_eq_true h1]
    refine .inl ⟨1, h1, fun k hk => ?_, lselLen_eq _⟩
    obtain rfl : k = 0 := by omega
    exact h0
  by_cases h2 : lselHit s.lsel[2] b
  · rw [decide_eq_false h0, decide_eq_false h1, decide_eq_true h2]
    refine .inl ⟨2, h2, fun k hk => ?_, lselLen_eq _⟩
    obtain rfl | rfl : k = 0 ∨ k = 1 := by omega
    · exact h0
    · exact h1
  by_cases h3 : lselHit s.lsel[3] b
  · rw [decide_eq_false h0, decide_eq_false h1, decide_eq_false h2, decide_eq_true h3]
    refine .inl ⟨3, h3, fun k hk => ?_, lselLen_eq _⟩
    obtain rfl | rfl | rfl : k = 0 ∨ k = 1 ∨ k = 2 := by omega
    · exact h0
    · exact h1
    · exact h2
  · rw [decide_eq_false h0, decide_eq_false h1, decide_eq_false h2, decide_eq_false h3]
    refine .inr ⟨fun k => ?_, rfl⟩
    obtain rfl | rfl | rfl | rfl : k = 0 ∨ k = 1 ∨ k = 2 ∨ k = 3 := by omega
    · exact h0
    · exact h1
    · exact h2
    · exact h3

theorem State.SelectsLength.unique {s : State} {b : Byte} {m n : Nat} (h : s.SelectsLength b m)
    (g : s.SelectsLength b n) : m = n := by
  rcases h with ⟨j, a1, a2, a3⟩ | ⟨a1, a2⟩ <;> rcases g with ⟨k, b1, b2, b3⟩ | ⟨b1, b2⟩
  · rcases lt_trichotomy j k with h | h | h
    · exact absurd a1 (b2 j h)
    · subst h; omega
    · exact absurd b1 (a2 k h)
  · exact absurd a1 (b1 j)
  · exact absurd b1 (a1 k)
  · omega

theorem HeaderScan.congr {s s' : State} (h1 : s'.hdrmask = s.hdrmask) (h2 : s'.lsel = s.lsel)
    (h3 : s'.plen = s.plen) {r k : List Byte} {d : Bool} {o : Option Nat} (h : HeaderScan s r k d o) :
    HeaderScan s' r k d o := by
  have e1 : ∀ b, s'.IsHeader b ↔ s.IsHeader b := by intro b; simp only [State.IsHeader, h1]
  have e2 : ∀ b n, s'.SelectsLength b n ↔ s.SelectsLength b n := by
    intro b n; simp only [State.SelectsLength, h2, h3]
  induction h with
  | empty => exact .empty
  | garbage b rest kept d o hb _ ih => exact .garbage b rest kept d o (by rwa [e1]) ih
  | truncated b0 rest kept len k d o a b c dd e f _ ih =>
    exact .truncated b0 rest kept len k d o ((e1 _).2 a) ((e2 _ _).2 b) c dd (by simpa only [e1] using e) (by simpa only [e1] using f) ih
  | short b0 rest len a b c d => exact .short b0 rest len ((e1 _).2 a) ((e2 _ _).2 b) c (by simpa only [e1] using d)
  | whole b0 rest len a b c d => exact .whole b0 rest len ((e1 _).2 a) ((e2 _ _).2 b) c (by simpa only [e1] using d)

theorem State.innerHeader_some {s : State} {len k : Nat} (h : s.innerHeader len = some k) :
    1 ≤ k ∧ k < len ∧ k < s.ring.length ∧ (∃ b, s.ring[k]? = some b ∧ s.IsHeader b) ∧
      ∀ j b, 1 ≤ j → j < k → s.ring[j]? = some b → ¬ s.IsHeader b := by
  rw [State.innerHeader, lowest_eq_some] at h
  obtain ⟨hlt, hP, hj⟩ := h
  simp only [Bool.and_eq_true, decide_eq_true_eq, State.hdr_iff, List.getD_eq_getElem?_getD] at hP
  have hk : k < s.ring.length := by omega
  refine ⟨hP.1, by omega, hk, ⟨_, List.getElem?_eq_getElem hk, by simpa [List.getElem?_eq_getElem hk] using hP.2⟩, ?_⟩
  intro j b h1 h2 h3 h4
  have := hj j h2
  simp only [List.getD_eq_getElem?_getD, h3, Option.getD_some, (s.hdr_iff b).2 h4, Bool.and_true, decide_eq_false_iff_not] at this
  omega

theorem State.innerHeader_none {s : State} {len : Nat} (h : s.innerHeader len = none) :
    ∀ j b, 1 ≤ j → j < len → s.ring[j]? = some b → ¬ s.IsHeader b := by
  rw [State.innerHeader, lowest_eq_none] at h
  intro j b h1 h2 h3 h4
  have hj : j < s.ring.length := by
    by_contra hh; rw [List.getElem?_eq_none (by omega)] at h3; simp at h3
  have := h j (by omega)
  simp only [List.getD_eq_getElem?_getD, h3, Option.getD_some, (s.hdr_iff b).2 h4, Bool.and_true, decide_eq_false_iff_not] at this
  omega

/-- `next_header` follows R306. -/
theorem State.nextHeaderLoop_scan : ∀ (n : Nat) (s : State), s.ring.length < n →
    ∃ kept d o, HeaderScan s s.ring kept d o ∧
      State.nextHeaderLoop n s = (s.afterScan kept d o, if o.isSome then 1 else 0) := by
  intro n
  induction n with
  | zero => intro s h; omega
  | succ n ih =>
    intro s h
    unfold State.nextHeaderLoop
    split
    · next hr => exact ⟨[], false, none, by rw [hr]; exact .empty, by simp [State.afterScan, ← hr]⟩
    · next b0 rest hr =>
      by_cases hh : s.hdr b0 = false
      · rw [if_pos hh]
        obtain ⟨kept, d, o, h1, h2⟩ := ih { s.setErrFraming with ring := rest } (by simp [hr] at h ⊢; omega)
        refine ⟨kept, true, o, ?_, ?_⟩
        · rw [hr]; refine .garbage b0 rest kept d o ?_ (HeaderScan.congr (s := { s.setErrFraming with ring := rest }) (s' := s) rfl rfl rfl h1)
          rw [← State.hdr_iff, hh]; simp
        · rw [h2]; cases o <;> simp [State.afterScan, State.setErrFraming]
      · rw [if_neg hh]
        have hhd : s.IsHeader b0 := by rw [← State.hdr_iff]; simpa using hh
        have hsel := s.lensel_spec b0
        split
        · next k hk =>
          obtain ⟨k1, k2, k3, k4, k5⟩ := State.innerHeader_some hk
          obtain ⟨kept, d, o, h1, h2⟩ := ih { s.setErrFraming with ring := s.ring.drop k } (by simp; omega)
          refine ⟨kept, true, o, ?_, ?_⟩
          · rw [hr] at k4 k5 ⊢
            refine .truncated b0 rest kept _ k d o hhd hsel k1 k2 k4 k5 ?_
            rw [← hr]
            exact HeaderScan.congr (s := { s.setErrFraming with ring := s.ring.drop k }) (s' := s) rfl rfl rfl h1
          · rw [h2]; cases o <;> simp [State.afterScan, State.setErrFraming]
        · next hk =>
          have hno := State.innerHeader_none hk
          by_cases hlt : s.ring.length < s.lensel b0
          · rw [if_pos hlt]
            refine ⟨s.ring, false, none, ?_, by simp [State.afterScan]⟩
            rw [hr] at hno hlt ⊢
            refine .short b0 rest _ hhd hsel (by simpa using hlt) ?_
            intro b hb
            obtain ⟨i, hi, rfl⟩ := List.mem_iff_getElem.1 hb
            refine hno (i+1) _ (by omega) ?_ (by simp)
            simp at hlt; omega
          · rw [if_neg hlt]
            refine ⟨s.ring, false, some (s.lensel b0), ?_, by simp [State.afterScan, State.latch]⟩
            rw [hr] at hno hlt ⊢
            exact .whole b0 rest _ hhd hsel (by simpa using hlt) hno

theorem HeaderScan.unique {s : State} {r k k' : List Byte} {d d' : Bool} {o o' : Option Nat}
    (h : HeaderScan s r k d o) : HeaderScan s r k' d' o' → k' = k ∧ d' = d ∧ o' = o := by
  induction h generalizing k' d' o' with
  | empty => intro g; cases g; exact ⟨rfl, rfl, rfl⟩
  | garbage b rest kept d o hb _ ih =>
    intro g
    cases g with
    | garbage _ _ _ _ _ _ g => obtain ⟨a, _, c⟩ := ih g; exact ⟨a, rfl, c⟩
    | truncated _ _ _ _ _ _ _ g => exact absurd g hb
    | short _ _ _ g => exact absurd g hb
    | whole _ _ _ g => exact absurd g hb
  | truncated b0 rest kept len k d o a b c dd e f _ ih =>
    intro g
    cases g with
    | garbage _ _ _ _ _ g => exact absurd a g
    | truncated _ _ _ len' j _ _ g1 g2 g3 g4 g5 g6 g7 =>
      obtain rfl := g2.unique b
      have : j = k := by
        rcases lt_trichotomy j k with h | h | h
        · obtain ⟨x, hx, hx'⟩ := g5; exact absurd hx' (f j x g3 h hx)
        · exact h
        · obtain ⟨x, hx, hx'⟩ := e; exact absurd hx' (g6 k x c h hx)
      subst this
      obtain ⟨a, _, c⟩ := ih g7; exact ⟨a, rfl, c⟩
    | short _ _ len' g1 g2 g3 g4 =>
      obtain ⟨x, hx, hx'⟩ := e
      obtain ⟨i, rfl⟩ : ∃ i, k = i + 1 := ⟨k - 1, by omega⟩
      rw [List.getElem?_cons_succ] at hx
      exact absurd hx' (g4 x (List.mem_of_getElem? hx))
    | whole _ _ len' g1 g2 g3 g4 =>
      obtain rfl := g2.unique b
      obtain ⟨x, hx, hx'⟩ := e
      exact absurd hx' (g4 k x c dd hx)
  | short b0 rest len a b c dd =>
    intro g
    cases g with
    | garbage _ _ _ _ _ g => exact absurd a g
    | truncated _ _ _ len' k _ _ g1 g2 g3 g4 g5 g6 g7 =>
      obtain ⟨x, hx, hx'⟩ := g5
      obtain ⟨i, rfl⟩ : ∃ i, k = i + 1 := ⟨k - 1, by omega⟩
      rw [List.getElem?_cons_succ] at hx
      exact absurd hx' (dd x (List.mem_of_getElem? hx))
    | short => exact ⟨rfl, rfl, rfl⟩
    | whole _ _ len' g1 g2 g3 g4 => obtain rfl := g2.unique b; omega
  | whole b0 rest len a b c dd =>
    intro g
    cases g with
    | garbage _ _ _ _ _ g => exact absurd a g
    | truncated _ _ _ len' k _ _ g1 g2 g3 g4 g5 g6 g7 =>
      obtain rfl := g2.unique b
      obtain ⟨x, hx, hx'⟩ := g5
      exact absurd hx' (dd k x g3 g4 hx)
    | short _ _ len' g1 g2 g3 g4 => obtain rfl := g2.unique b; omega
    | whole _ _ len' g1 g2 g3 g4 => obtain rfl := g2.unique b; exact ⟨rfl, rfl, rfl⟩

theorem State.nextHeader_scan (s : State) : ∃ kept d o, HeaderScan s s.ring kept d o ∧
      s.nextHeader = (s.afterScan kept d o, if o.isSome then 1 else 0) :=
  State.nextHeaderLoop_scan _ s (Nat.lt_succ_self _)

end Sys2Proof.Machine
end

