-- ==== Sys2Proof/Laws/Packets.lean ====
section
/-! SUPPORT. The model's operations against the readings of the rules in Safety.lean: classification and
extraction of a packet (43_protocol_decoders.md). -/

namespace Sys2Proof.Machine

/-! ### Classification (43_protocol_decoders.md) -/

theorem State.ruleHits_eq (s : State) (i : Nat) :
    (s.RuleMisses i → s.ruleHits i = .ok false) ∧
    (s.RuleValid i → s.condResult (s.ruleWord i 0) = .holds → s.condResult (s.ruleWord i 1) = .holds →
      s.ruleHits i = .ok true) ∧
    (∀ k, s.RuleValid i → (k = 0 ∨ (k = 1 ∧ s.condResult (s.ruleWord i 0) = .holds)) →
      s.condResult (s.ruleWord i k) = .pastPacket →
      s.ruleHits i = .error ⟨.clsRange, word i ||| word (s.ruleWord i k % 256) <<< 16⟩) := by
  have hA := s.cond_eq i (Memory.read s.cls (4 * i))
  have hB := s.cond_eq i (Memory.read s.cls (4 * i + 1))
  have e0 : s.ruleWord i 0 = (Memory.read s.cls (4 * i)).toNat := rfl
  have e1 : s.ruleWord i 1 = (Memory.read s.cls (4 * i + 1)).toNat := rfl
  have hv := validBit_iff (Memory.read s.cls (4 * i))
  unfold State.ruleHits State.RuleMisses State.RuleValid
  rw [hA, hB]
  simp only [← e0, ← e1] at *
  refine ⟨?_, ?_, ?_⟩
  · intro h
    by_cases v : validBit (Memory.read s.cls (4 * i)) = true
    · rw [if_pos v]
      rcases h with h | h | ⟨h, g⟩
      · exact absurd (hv.1 v) h
      · simp only [h]
      · simp only [h, g]
    · rw [if_neg v]
  · intro h g g'
    rw [if_pos (hv.2 h)]; simp only [g, g']
  · intro k h hk hp
    rw [if_pos (hv.2 h)]
    rcases hk with rfl | ⟨rfl, hh⟩
    · simp only [hp]
    · simp only [hh, hp]

theorem State.classifyIn_spec (s : State) (m : Nat) : ∀ (n k : Nat), k + n = m →
    (∀ j, k ≤ j → j < m → (∀ l, k ≤ l → l < j → s.RuleMisses l) →
      (∀ r, s.ruleHits j = .ok true → s.classifyIn ((List.range' k n)) = r → r = .ok (some j)) ∧
      (∀ e, s.ruleHits j = .error e → s.classifyIn ((List.range' k n)) = .error e)) ∧
    ((∀ l, k ≤ l → l < m → s.RuleMisses l) → s.classifyIn (List.range' k n) = .ok none) := by
  intro n
  induction n with
  | zero => intro k hk; exact ⟨fun j h1 h2 => by omega, fun _ => rfl⟩
  | succ n ih =>
    intro k hk
    obtain ⟨ih1, ih2⟩ := ih (k+1) (by omega)
    constructor
    · intro j h1 h2 hm
      rcases Nat.eq_or_lt_of_le h1 with rfl | hlt
      · constructor
        · intro r hr he
          simp only [List.range'_succ, State.classifyIn, hr] at he; exact he.symm
        · intro e he; simp only [List.range'_succ, State.classifyIn, he]
      · obtain ⟨a, b⟩ := ih1 j hlt h2 (fun l x y => hm l (by omega) y)
        have hk0 := (s.ruleHits_eq k).1 (hm k le_rfl hlt)
        constructor
        · intro r hr he
          simp only [List.range'_succ, State.classifyIn, hk0] at he
          exact a r hr he
        · intro e he; simp only [List.range'_succ, State.classifyIn, hk0]; exact b e he
    · intro h
      have hk0 := (s.ruleHits_eq k).1 (h k le_rfl (by omega))
      simp only [List.range'_succ, State.classifyIn, hk0]
      exact ih2 (fun l x y => h l (by omega) y)

/-- `classify` answers the first rule hit. -/
theorem State.classify_hit {s : State} {i : Nat} (h : s.FirstHit i) : s.classify = .ok (some i) := by
  obtain ⟨h1, h2, h3, h4, h5⟩ := h
  have := (s.classifyIn_spec s.params.clsSize s.params.clsSize 0 (by omega)).1 i (Nat.zero_le _) h1 (fun l _ x => h5 l x)
  rw [State.classify, List.range_eq_range']
  exact this.1 _ ((s.ruleHits_eq i).2.1 h2 h3 h4) rfl

theorem State.classify_none {s : State} (h : ∀ i, i < s.params.clsSize → s.RuleMisses i) :
    s.classify = .ok none := by
  rw [State.classify, List.range_eq_range']
  exact (s.classifyIn_spec s.params.clsSize s.params.clsSize 0 (by omega)).2 (fun l _ x => h l x)

theorem State.classify_error {s : State} {i k : Nat} (hi : i < s.params.clsSize)
    (hm : ∀ j, j < i → s.RuleMisses j) (hv : s.RuleValid i)
    (hk : k = 0 ∨ (k = 1 ∧ s.condResult (s.ruleWord i 0) = .holds))
    (hp : s.condResult (s.ruleWord i k) = .pastPacket) :
    s.classify = .error ⟨.clsRange, word i ||| word (s.ruleWord i k % 256) <<< 16⟩ := by
  rw [State.classify, List.range_eq_range']
  exact ((s.classifyIn_spec s.params.clsSize s.params.clsSize 0 (by omega)).1 i (Nat.zero_le _) hi (fun l _ x => hm l x)).2 _ ((s.ruleHits_eq i).2.2 k hv hk hp)

/-- The kind a code stands for. -/
def kindCode : Kind → Nat
  | .ignore => 0 | .flagprox => 1 | .enter => 2 | .exit => 3 | .general => 4 | .pad => 5
  | .qreply => 6 | .tqreply => 7

def modeCode : ChMode → Nat
  | .arb => 0 | .tag => 1 | .fixed => 2

theorem Kind.ofCode_spec (c : BitVec 4) (p : Proto) :
    (c.toNat ∈ kindsOf p → ∃ k, Kind.ofCode c = some k ∧ kindCode k = c.toNat ∧ k.legal p.shape = true) ∧
    (c.toNat ∉ kindsOf p → ∀ k, Kind.ofCode c = some k → k.legal p.shape = false) := by
  have := c.isLt
  unfold Kind.ofCode
  generalize c.toNat = n at *
  cases p <;> interval_cases n <;> simp [kindsOf, kindCode, Kind.legal, Proto.shape]

theorem ChMode.ofCode_spec (c : BitVec 2) :
    (c.toNat ≠ 3 → ∃ m, ChMode.ofCode c = some m ∧ modeCode m = c.toNat) ∧
    (c.toNat = 3 → ChMode.ofCode c = none) := by
  have := c.isLt
  unfold ChMode.ofCode
  generalize c.toNat = n at *
  interval_cases n <;> simp [modeCode]

theorem State.hitOf_bad {s : State} {i : Nat} (h : s.kindOf i ∉ kindsOf s.proto ∨ s.modeOf i = 3) :
    s.hitOf i = .error ⟨.badKind, word i⟩ := by
  have ek : ((Memory.read s.cls (4 * i + 2)).extractLsb' 0 4).toNat = s.kindOf i :=
    (extractLsb'_toNat_eq _ 0 4).trans (by rw [Nat.pow_zero, Nat.div_one]; rfl)
  have em : ((Memory.read s.cls (4 * i + 2)).extractLsb' 8 2).toNat = s.modeOf i := extractLsb'_toNat_eq _ 8 2
  unfold State.hitOf ruleKind ruleChMode
  simp only []
  split
  · next k m hk hm =>
    rcases h with h | h
    · rw [← ek] at h
      rw [(Kind.ofCode_spec _ s.proto).2 h k hk]; simp
    · rw [← em] at h
      rw [(ChMode.ofCode_spec _).2 h] at hm; simp at hm
  · rfl

/-- The hit of a legal kind. -/
theorem State.hitOf_ok {s : State} {i : Nat} (h : s.kindOf i ∈ kindsOf s.proto) (hm : s.modeOf i ≠ 3) :
    ∃ k m, kindCode k = s.kindOf i ∧ modeCode m = s.modeOf i ∧
      s.hitOf i = .ok ⟨i, if s.PacketGated i then .ignore else k, s.layoutOf i, m, s.fixedOf i⟩ := by
  have ek : ((Memory.read s.cls (4 * i + 2)).extractLsb' 0 4).toNat = s.kindOf i :=
    (extractLsb'_toNat_eq _ 0 4).trans (by rw [Nat.pow_zero, Nat.div_one]; rfl)
  have em : ((Memory.read s.cls (4 * i + 2)).extractLsb' 8 2).toNat = s.modeOf i := extractLsb'_toNat_eq _ 8 2
  rw [← ek] at h
  rw [← em] at hm
  obtain ⟨k, hk, hk', hl⟩ := (Kind.ofCode_spec _ s.proto).1 h
  obtain ⟨m, hm1, hm2⟩ := (ChMode.ofCode_spec _).1 hm
  refine ⟨k, m, by rw [hk', ek], by rw [hm2, em], ?_⟩
  unfold State.hitOf ruleKind ruleChMode
  simp only [hk, hm1, hl, if_true, ruleLayout_eq, ruleFixedCh_eq]
  have : s.effectiveKind (Memory.read s.cls (4 * i + 2)) k = if s.PacketGated i then .ignore else k := by
    unfold State.effectiveKind
    have hr : ruleReqTouch (Memory.read s.cls (4 * i + 2)) = s.reqTouchOf i := ruleReqTouch_eq _
    rw [hr]
    have hpad : k = .pad ↔ s.kindOf i = 5 := by rw [← ek, ← hk']; cases k <;> simp [kindCode]
    simp only [hpad, State.PacketGated, Bool.and_eq_true, Bool.not_eq_true']
    by_cases h1 : s.reqTouchOf i = true ∧ s.status.touchCap = false
    · simp [h1]
    · by_cases h2 : s.kindOf i = 5 ∧ s.hasPad = false
      · simp [h2]
      · simp [h1, h2]
  rw [this]; rfl

/-! ### Extraction -/

theorem Slot.num_inj : ∀ a b : Slot, a.num = b.num → a = b := by
  intro a b h
  cases a <;> cases b <;> simp [Slot.num] at h ⊢ <;> omega

/-- The slot of a number. -/
theorem State.slotByte_eq (s : State) (i : Nat) (slot : Slot) :
    s.slotByte (s.layoutOf i) slot = s.slotCode i slot.num := by
  rw [State.slotByte, extractLsb'_toNat_eq, State.slotCode, Nat.pow_mul]; norm_num

theorem State.gated_or_absent (s : State) (i : Nat) (slot : Slot) :
    s.SlotAbsent i slot.num ↔ s.gated slot = true ∨ s.slotCode i slot.num = 0 := by
  unfold State.SlotAbsent
  cases slot <;> simp [Slot.num, State.gated]
  rename_i a
  fin_cases a <;> simp

/-- Extraction of a list of slots that all read. -/
theorem State.extractIn_ok (s : State) (i : Nat) : ∀ (l : List Slot), (∀ x, x ∈ l → s.gated x = false) →
    s.SlotsRead i (l.map Slot.num) → l.Nodup →
    ∃ v, s.extractIn (s.layoutOf i) l = .ok v ∧ ∀ x, Fields.get v x =
      if x ∈ l ∧ ¬ s.SlotAbsent i x.num then (s.readField (s.slotCode i x.num - 1)).toOption else none := by
  intro l
  induction l with
  | nil => intro _ _ _; exact ⟨[], rfl, fun x => by simp [Fields.get]⟩
  | cons a l ih =>
    intro hg hr hn
    obtain ⟨v, hv, hx⟩ := ih (fun x h => hg x (by simp [h])) (fun n h => hr n (by simp at h ⊢; exact .inr h)) (List.nodup_cons.1 hn).2
    have hna := (List.nodup_cons.1 hn).1
    unfold State.extractIn
    rw [State.slotByte_eq]
    by_cases h0 : s.slotCode i a.num = 0
    · rw [if_pos h0]
      refine ⟨v, hv, fun x => ?_⟩
      rw [hx]
      by_cases hxa : x = a
      · subst hxa
        have : s.SlotAbsent i x.num := (s.gated_or_absent i x).2 (.inr h0)
        simp [this]
      · simp [hxa]
    · rw [if_neg h0]
      have hna' : ¬ s.SlotAbsent i a.num := by
        rw [State.gated_or_absent, hg a (by simp)]; simp [h0]
      have hok := (hr a.num (by simp)).resolve_left hna'
      cases hf : s.readField (s.slotCode i a.num - 1) with
      | error e => rw [hf] at hok; simp [Except.isOk, Except.toBool] at hok
      | ok w =>
        simp only [hv]
        refine ⟨(a, w) :: v, rfl, fun x => ?_⟩
        by_cases hxa : x = a
        · subst hxa
          simp [Fields.get, hna', hf, Except.toOption]
        · have : Fields.get ((a, w) :: v) x = Fields.get v x := by
            show List.lookup x ((a, w) :: v) = List.lookup x v
            rw [List.lookup_cons]
            cases hb : (x == a) with
            | true => exact absurd (by simpa using hb) hxa
            | false => rfl
          rw [this, hx]; simp [hxa]

theorem State.extractIn_error (s : State) (i : Nat) (e : Raise) : ∀ (pre : List Slot) (a : Slot) (post : List Slot),
    (∀ x, x ∈ pre → s.gated x = false) →
    s.SlotsRead i (pre.map Slot.num) → ¬ s.SlotAbsent i a.num →
    s.readField (s.slotCode i a.num - 1) = .error e →
    s.extractIn (s.layoutOf i) (pre ++ a :: post) = .error e := by
  intro pre
  induction pre with
  | nil =>
    intro a post _ _ hna he
    have : s.slotCode i a.num ≠ 0 := fun h => hna ((s.gated_or_absent i a).2 (.inr h))
    simp only [List.nil_append, State.extractIn, State.slotByte_eq, if_neg this, he]
  | cons b pre ih =>
    intro a post hg hr hna he
    have := ih a post (fun x h => hg x (by simp [h])) (fun n h => hr n (by simp at h ⊢; exact .inr h)) hna he
    simp only [List.cons_append, State.extractIn, State.slotByte_eq, this]
    by_cases h0 : s.slotCode i b.num = 0
    · rw [if_pos h0]
    · rw [if_neg h0]
      have hnb : ¬ s.SlotAbsent i b.num := by rw [State.gated_or_absent, hg b (by simp)]; simp [h0]
      have hok := (hr b.num (by simp)).resolve_left hnb
      cases hf : s.readField (s.slotCode i b.num - 1) with
      | error e => rw [hf] at hok; simp [Except.isOk, Except.toBool] at hok
      | ok w => rfl

theorem Kind.slots_num (k : Kind) : k.slots.map Slot.num = kindSlots (kindCode k) := by
  cases k <;> decide

theorem Kind.slots_nodup (k : Kind) : (k.slots ++ [Slot.tag]).Nodup := by
  cases k <;> decide

theorem Hit.usesTag_iff (h : Hit) : h.usesTag = true ↔
    modeCode h.chMode = 1 ∧ 1 ≤ kindCode h.kind ∧ kindCode h.kind ≤ 4 := by
  unfold Hit.usesTag
  cases h.kind <;> cases h.chMode <;> simp [Kind.selects, modeCode, kindCode]


/-- The hit of rule `i`, ungated. -/
def State.hitFor (s : State) (i : Nat) (k : Kind) (m : ChMode) : Hit :=
  ⟨i, k, s.layoutOf i, m, s.fixedOf i⟩

theorem Hit.usesTag_eq {s : State} {i : Nat} {k : Kind} {m : ChMode} (hk : kindCode k = s.kindOf i)
    (hm : modeCode m = s.modeOf i) :
    (s.hitFor i k m).usesTag = decide (s.modeOf i = 1 ∧ 1 ≤ s.kindOf i ∧ s.kindOf i ≤ 4) := by
  rw [Bool.eq_iff_iff, Hit.usesTag_iff, decide_eq_true_iff]
  show modeCode m = 1 ∧ 1 ≤ kindCode k ∧ kindCode k ≤ 4 ↔ _
  rw [hk, hm]

theorem State.slotOrder_eq {s : State} {i : Nat} {k : Kind} {m : ChMode} (hk : kindCode k = s.kindOf i)
    (hm : modeCode m = s.modeOf i) :
    s.slotOrder i = (k.slots ++ if (s.hitFor i k m).usesTag then [Slot.tag] else []).map Slot.num := by
  rw [List.map_append, Kind.slots_num, State.slotOrder, hk, Hit.usesTag_eq hk hm]
  by_cases h : s.modeOf i = 1 ∧ 1 ≤ s.kindOf i ∧ s.kindOf i ≤ 4
  · rw [if_pos h, decide_eq_true h, if_pos rfl]; rfl
  · rw [if_neg h, decide_eq_false h]; rfl

theorem State.extractSlots_ok {s : State} {i : Nat} {k : Kind} {m : ChMode} (hk : kindCode k = s.kindOf i)
    (hm : modeCode m = s.modeOf i) (hr : s.SlotsRead i (s.slotOrder i)) :
    ∃ v, s.extractIn (s.layoutOf i) (s.slotsOf (s.hitFor i k m)) = .ok v ∧
      ∀ x, Fields.get v x = s.slotValue i x.num := by
  have ho := State.slotOrder_eq hk hm
  unfold State.slotsOf
  show ∃ v, s.extractIn (s.layoutOf i) (List.filter _ (k.slots ++ _)) = _ ∧ _
  generalize hl : (k.slots ++ if (s.hitFor i k m).usesTag then [Slot.tag] else []) = l at *
  have hnd : l.Nodup := by
    rw [← hl]
    split
    · exact k.slots_nodup
    · simpa using (List.nodup_append.1 k.slots_nodup).1
  obtain ⟨v, hv, hx⟩ := s.extractIn_ok i (l.filter fun slot => !s.gated slot) (by simp)
    (by intro n hn; apply hr; rw [ho]; simp at hn ⊢; obtain ⟨a, ⟨b, _⟩, c⟩ := hn; exact ⟨a, b, c⟩) (hnd.filter _)
  refine ⟨v, hv, fun x => ?_⟩
  rw [hx]
  unfold State.slotValue
  have e1 : x.num ∈ s.slotOrder i ↔ x ∈ l := by
    rw [ho, List.mem_map]
    exact ⟨fun ⟨a, h1, h2⟩ => Slot.num_inj _ _ h2 ▸ h1, fun h => ⟨x, h, rfl⟩⟩
  simp only [e1, List.mem_filter]
  congr 1
  rw [eq_iff_iff]
  constructor
  · rintro ⟨⟨a, _⟩, b⟩; exact ⟨a, b⟩
  · rintro ⟨a, b⟩
    refine ⟨⟨a, ?_⟩, b⟩
    rw [s.gated_or_absent] at b
    simp at b ⊢; exact b.1

theorem State.extractSlots_error {s : State} {i : Nat} {k : Kind} {m : ChMode} (hk : kindCode k = s.kindOf i)
    (hm : modeCode m = s.modeOf i) {pre post : List Nat} {n : Nat} {e : Raise}
    (ho : s.slotOrder i = pre ++ n :: post) (hr : s.SlotsRead i pre) (hna : ¬ s.SlotAbsent i n)
    (he : s.readField (s.slotCode i n - 1) = .error e) :
    s.extractIn (s.layoutOf i) (s.slotsOf (s.hitFor i k m)) = .error e := by
  have ho' := State.slotOrder_eq hk hm
  unfold State.slotsOf
  show s.extractIn (s.layoutOf i) (List.filter _ (k.slots ++ _)) = _
  generalize hl : (k.slots ++ if (s.hitFor i k m).usesTag then [Slot.tag] else []) = l at *
  rw [ho'] at ho
  obtain ⟨l1, l2, rfl, rfl, h2⟩ := List.map_eq_append_iff.1 ho
  obtain ⟨a, l3, rfl, rfl, rfl⟩ := List.map_eq_cons_iff.1 h2
  have hg : s.gated a = false := by
    rw [s.gated_or_absent] at hna; simp at hna; exact hna.1
  rw [List.filter_append, List.filter_cons_of_pos (by simp [hg])]
  refine s.extractIn_error i e _ a _ (by simp) ?_ hna he
  intro n hn; apply hr; simp at hn ⊢; obtain ⟨a, ⟨b, _⟩, c⟩ := hn; exact ⟨a, b, c⟩

theorem Hit.required_num {s : State} {i : Nat} {k : Kind} {m : ChMode} (hk : kindCode k = s.kindOf i)
    (hm : modeCode m = s.modeOf i) : (s.hitFor i k m).required.map Slot.num = s.requiredSlots i := by
  unfold Hit.required State.requiredSlots
  rw [List.map_append, Hit.usesTag_eq hk hm]
  congr 1
  · rw [← hk]; cases k <;> simp [State.hitFor, kindCode, Slot.num]
  · by_cases h : s.modeOf i = 1 ∧ 1 ≤ s.kindOf i ∧ s.kindOf i ≤ 4
    · rw [if_pos h, decide_eq_true h, if_pos rfl]; rfl
    · rw [if_neg h, decide_eq_false h]; rfl

theorem Hit.missing_none {s : State} {i : Nat} {k : Kind} {m : ChMode} (hk : kindCode k = s.kindOf i)
    (hm : modeCode m = s.modeOf i) {v : Fields} (hv : ∀ x, Fields.get v x = s.slotValue i x.num) :
    (s.hitFor i k m).missing v = none ↔ ∀ n, n ∈ s.requiredSlots i → (s.slotValue i n).isSome = true := by
  rw [Hit.missing, List.find?_eq_none, ← Hit.required_num hk hm]
  simp only [hv, List.mem_map, forall_exists_index, and_imp, forall_apply_eq_imp_iff₂]
  constructor
  · intro h x hx; have := h x hx; simpa [Option.isSome_iff_ne_none] using this
  · intro h x hx; have := h x hx; simpa [Option.isSome_iff_ne_none] using this

theorem Hit.missing_some {s : State} {i : Nat} {k : Kind} {m : ChMode} (hk : kindCode k = s.kindOf i)
    (hm : modeCode m = s.modeOf i) {v : Fields} (hv : ∀ x, Fields.get v x = s.slotValue i x.num)
    {pre post : List Nat} {n : Nat} (hs : s.requiredSlots i = pre ++ n :: post)
    (hp : ∀ m, m ∈ pre → (s.slotValue i m).isSome = true) (hn : s.slotValue i n = none) :
    ∃ a, (s.hitFor i k m).missing v = some a ∧ a.num = n := by
  rw [← Hit.required_num hk hm] at hs
  obtain ⟨l1, l2, h1, rfl, h2⟩ := List.map_eq_append_iff.1 hs
  obtain ⟨a, l3, rfl, rfl, rfl⟩ := List.map_eq_cons_iff.1 h2
  refine ⟨a, ?_, rfl⟩
  rw [Hit.missing, h1, List.find?_append, List.find?_eq_none.2, Option.none_or, List.find?_cons_of_pos]
  · simp [hv, hn]
  · intro x hx; have := hp x.num (List.mem_map_of_mem hx); simp only [hv]; simpa [Option.isSome_iff_ne_none] using this

theorem State.curveFaults_iff (s : State) (m : Word) : s.curveFaults m = true ↔ s.status.curveValid = true ∧ m.toInt ≤ 0 := by
  simp [State.curveFaults]

theorem selects_iff (k : Kind) : k.selects = true ↔ 1 ≤ kindCode k ∧ kindCode k ≤ 4 := by
  cases k <;> simp [Kind.selects, kindCode]

/-- Phase 1 on a packet all of whose checks pass. -/
theorem State.extract_ok {s : State} {i : Nat} {k : Kind} {m : ChMode} (hk : kindCode k = s.kindOf i)
    (hm : modeCode m = s.modeOf i) (h : s.ExtractsAll i) :
    ∃ v, s.extract (s.hitFor i k m) = .ok v ∧ ∀ x, Fields.get v x = s.slotValue i x.num := by
  obtain ⟨hr, hq, hf, hp⟩ := h
  obtain ⟨v, hv, hx⟩ := State.extractSlots_ok hk hm hr
  refine ⟨v, ?_, hx⟩
  unfold State.extract
  have e1 : s.extractIn (s.hitFor i k m).layout (s.slotsOf (s.hitFor i k m)) = .ok v := hv
  have e2 : s.checkFields (s.hitFor i k m) v = .ok () := by
    unfold State.checkFields
    rw [(Hit.missing_none hk hm hx).2 hq]
    simp only []
    rw [if_neg, if_neg]
    · rintro ⟨_, h2, h3⟩
      rw [hx] at h2
      have h2' : (s.slotValue i 8).isSome = true := h2
      rw [State.curveFaults_iff] at h3
      have := hp h2' h3.1; omega
    · rintro ⟨h1, h2, h3⟩
      have : s.modeOf i = 2 := by rw [← hm]; show modeCode m = 2; have : m = .fixed := h2; rw [this]; rfl
      rw [selects_iff] at h1
      have h1' : 1 ≤ kindCode k ∧ kindCode k ≤ 4 := h1
      rw [hk] at h1'
      have := hf this h1'.1 h1'.2
      have h3' : s.nch.toNat ≤ s.fixedOf i := h3
      omega
  rw [e1]; simp only [e2]

end Sys2Proof.Machine
end

