-- ==== Sys2Proof/Laws/Commit.lean ====
section
/-! SUPPORT. What DECODE and NEXTPKT leave of the state, against the readings of Safety.lean: selection,
dispatch, leaving, and the bytes framing takes (43_protocol_decoders.md, 44_frame_synchronizer.md). -/

namespace Sys2Proof.Machine

/-- Writing a register changes that register only. -/
theorem OnlyReg.setReg (s : State) (rd : RegNum) (v : Word) : OnlyReg s rd v (s.setReg rd v) :=
  ⟨by simp, fun r h => by simp [State.reg_setReg_of_ne _ h], by simp⟩

/-- `DECODE` where it runs. -/
theorem execDecode_eq (s : State) (rd : RegNum) (hf : s.status.fault = false) (hr : s.status.run = true) :
    exec (.decode rd) s = .next (finish s rd s.decodeOne) := by
  show execDecode rd s = _
  simp [execDecode, inRun_eq, hf, hr]

/-- Three byte fields OR'ed together, as a sum (60_exceptions.md R365). -/
theorem or_shift (a b c : Nat) (ha : a < 256) (hb : b < 256) (hc : c < 256) :
    word a ||| word b <<< 8 ||| word c <<< 16 = word (a + b * 2^8 + c * 2^16) := by
  apply BitVec.eq_of_toNat_eq
  simp [BitVec.toNat_or, BitVec.toNat_shiftLeft, Nat.shiftLeft_eq]
  rw [Nat.mod_eq_of_lt (show a < 4294967296 by omega), Nat.mod_eq_of_lt (show b * 256 < 4294967296 by omega), Nat.mod_eq_of_lt (show c * 65536 < 4294967296 by omega), Nat.mod_eq_of_lt (show a + b*256 + c * 65536 < 4294967296 by omega)]
  have h1 : a ||| b * 256 = a + b * 256 := by
    have := Nat.two_pow_add_eq_or_of_lt (i := 8) (b := a) (by omega) b
    norm_num at this
    rw [Nat.or_comm, Nat.mul_comm b]; omega
  have h2 := Nat.two_pow_add_eq_or_of_lt (i := 16) (b := a + b * 256) (by omega) c
  norm_num at h2
  rw [h1, Nat.or_comm, Nat.mul_comm c]; omega

/-- Two byte fields, at bits 0 and 16. -/
theorem or_shift16 (a c : Nat) (ha : a < 256) (hc : c < 256) :
    word a ||| word c <<< 16 = word (a + c * 2^16) := by
  have := or_shift a 0 c ha (by decide) hc
  simpa using this

/-- Two byte fields, at bits 0 and 8. -/
theorem or_shift8 (a c : Nat) (ha : a < 256) (hc : c < 256) :
    word a ||| word c <<< 8 = word (a + c * 2^8) := by
  have := or_shift a c 0 ha hc (by decide)
  simpa using this

/-- `decode_one` on a packet of a legal, ungated kind: extraction, then commit. -/
theorem State.decodeOne_kind {s : State} {i kind : Nat} (h : s.DecodesKind i kind) :
    ∃ k m, kindCode k = s.kindOf i ∧ modeCode m = s.modeOf i ∧ s.decodeOne =
      match s.extract (s.hitFor i k m) with
        | .error e => .error e
        | .ok v => .ok ((s.commit (s.hitFor i k m) v).consumePkt, 1) := by
  obtain ⟨⟨hf, hr, hp, hh⟩, hk, hkp, hm, hg⟩ := h
  obtain ⟨k, m, h1, h2, h3⟩ := State.hitOf_ok (hk ▸ hkp) hm
  refine ⟨k, m, h1, h2, ?_⟩
  rw [if_neg hg] at h3
  simp only [State.decodeOne, hp, if_true, State.classify_hit hh, h3]
  rfl

/-- `DECODE` on a packet that passes phase 1: commit, consume, result 1. -/
theorem decode_pass {s : State} {i kind : Nat} (h : s.DecodesKind i kind) (rd : RegNum) (he : s.ExtractsAll i) :
    ∃ k m v, kindCode k = kind ∧ modeCode m = s.modeOf i ∧ (∀ x, Fields.get v x = s.slotValue i x.num) ∧
      exec (.decode rd) s = .next (((s.commit (s.hitFor i k m) v).consumePkt).setReg rd 1) := by
  obtain ⟨k, m, h1, h2, h3⟩ := State.decodeOne_kind h
  obtain ⟨v, hv, hx⟩ := State.extract_ok h1 h2 he
  refine ⟨k, m, v, h1.trans h.2.1, h2, hx, ?_⟩
  rw [execDecode_eq s rd h.1.1 h.1.2.1, h3, hv]; rfl

theorem slot_axis (a : Fin 10) : (Slot.axis a).num = 6 + a.val := rfl

/-- `val[a]` against the reading of R261. -/
theorem axisVal_eq {s : State} {i : Nat} {v : Fields} (hx : ∀ x, Fields.get v x = s.slotValue i x.num) (a : Fin 10) :
    s.axisVal v a = s.axisOut i a.val := by
  simp only [State.axisVal, State.axisOut, hx, slot_axis]
  have : (a = 2) ↔ (a.val = 2) := by constructor <;> intro h <;> first | (subst h; rfl) | exact Fin.ext h
  simp only [this]

/-- `val[a]` reads the curve and the pressure range only. -/
theorem axisVal_congr {s s' : State} (v : Fields) (a : Fin 10) (h1 : s'.status.curveValid = s.status.curveValid)
   (h2 : s'.pmax = s.pmax) (h3 : s'.lut = s.lut) (h4 : s'.params = s.params) : s'.axisVal v a = s.axisVal v a := by
  simp only [State.axisVal, State.curveValue, State.remap, h1, h2, h3, h4]

/-- The events of a dispatch in a state that agrees on what R261 reads. -/
theorem dispatchEvents_spec {s s' : State} {i c : Nat} {motion : Bool} {v : Fields} (hx : ∀ x, Fields.get v x = s.slotValue i x.num)
   (h1 : s'.status.curveValid = s.status.curveValid)
   (h2 : s'.pmax = s.pmax) (h3 : s'.lut = s.lut) (h4 : s'.params = s.params) :
    s.DispatchEvents i c motion (s'.ch c).btn (s'.dispatchEvents c motion v) := by
  have ha : ∀ a : Fin 10, s'.axisVal v a = s.axisOut i a.val := fun a => (axisVal_congr v a h1 h2 h3 h4).trans (axisVal_eq hx a)
  refine ⟨(match v.get .buttons with
    | some new => buttonEvents c (s'.ch c).btn new
    | none => []), ?_, ?_, ?_⟩
  · simp only [State.dispatchEvents, State.wheelEvents, State.motionEvent, ha]
    simp only [List.append_assoc]
    rfl
  · intro e
    rw [hx]
    show e ∈ (match s.slotValue i 5 with | some new => buttonEvents c (s'.ch c).btn new | none => []) ↔ _
    cases s.slotValue i 5 with
    | none => simp
    | some new =>
      simp only [buttonEvents, List.mem_map, List.mem_filter, List.mem_finRange, true_and, Option.some.injEq]
      constructor
      · rintro ⟨k, hk, rfl⟩; exact ⟨new, rfl, k, by simpa [BitVec.getLsbD_xor] using hk, rfl⟩
      · rintro ⟨_, rfl, k, hk, rfl⟩; exact ⟨k, by simpa [BitVec.getLsbD_xor] using hk, rfl⟩
  · rw [hx]
    show List.Pairwise _ (match s.slotValue i 5 with | some new => buttonEvents c (s'.ch c).btn new | none => [])
    cases s.slotValue i 5 with
    | none => exact List.Pairwise.nil
    | some new =>
      simp only [buttonEvents]
      rw [List.pairwise_map]
      apply List.Pairwise.filter
      have := List.pairwise_lt_finRange 32
      exact this.imp fun {a b} h => ⟨a, b, _, _, h, rfl, rfl⟩

/-- The entry after a dispatch in such a state. -/
theorem dispatchEntry_spec {s s' : State} {i c : Nat} {v : Fields} (hx : ∀ x, Fields.get v x = s.slotValue i x.num)
   (h1 : s'.status.curveValid = s.status.curveValid)
   (h2 : s'.pmax = s.pmax) (h3 : s'.lut = s.lut) (h4 : s'.params = s.params) (h5 : s'.pktcnt = s.pktcnt) :
    s'.dispatchEntry c v = s.dispatched i (s'.ch c) := by
  have ha : ∀ a : Fin 10, s'.axisVal v a = s.axisOut i a.val := fun a => (axisVal_congr v a h1 h2 h3 h4).trans (axisVal_eq hx a)
  unfold State.dispatchEntry State.dispatched
  simp only [ha, hx, h5]
  rfl

/-- `s` with `ERR_CHEXH` set if `e`. -/
def State.orChExh (s : State) (e : Bool) : State := { s with status := { s.status with errChExh := s.status.errChExh || e } }

/-- `s` with `ERR_UNKTOOL` set if `e`. -/
def State.orUnkTool (s : State) (e : Bool) : State := { s with status := { s.status with errUnkTool := s.status.errUnkTool || e } }

/-- `sel()` against the reading of R252. -/
theorem State.sel_spec {s s' : State} {i : Nat} {k : Kind} {m : ChMode} (h2 : modeCode m = s.modeOf i) {v : Fields}
    (hx : ∀ x, Fields.get v x = s.slotValue i x.num) (hn : s'.nch = s.nch) :
    match s.selected i with
    | some r => s'.sel (s.hitFor i k m) v = (State.orChExh s' r.2, some r.1)
    | none => s'.sel (s.hitFor i k m) v = (s', none) := by
  unfold State.selected State.sel
  simp only [show (s.hitFor i k m).chMode = m from rfl]
  cases m <;> simp [modeCode] at h2 <;> simp only [← h2]
  · simp
  · simp only [if_true, hx, Slot.num]
    have e : s'.nch.toNat = s.nch.toNat := by rw [hn]
    rcases s'.tagCh_cases ((s.slotValue i 2).getD 0) with ⟨a, b⟩ | ⟨a, b⟩
    · rw [e] at a; rw [b, if_pos a]; simp [State.orChExh]
    · rw [e] at a; rw [b, if_neg (by omega)]; simp [State.orChExh, State.setErrChExh]
  · simp [State.orChExh, State.hitFor]

/-- What DECODE leaves, from what the commit leaves. -/
theorem Decoded.mk' {s t : State} {rd : RegNum} {ch : Nat → Channel} {evs : List Event} {lc : Word} {st : Status}
   (u : State) (ht : t = (u.consumePkt).setReg rd 1)
   (h1 : ∀ c, u.ch c = ch c) (h2 : u.cht.length = s.cht.length) (h3 : u.evout = s.evout ++ evs) (h4 : u.evcnt = s.evcnt + word evs.length)
   (h5 : u.lastch = lc) (h6 : u.status = st) (h7 : { u with cht := s.cht, evout := s.evout, evcnt := s.evcnt, lastch := s.lastch, status := s.status } = s) : Decoded s rd ch evs lc st t := by
  subst ht
  have hxx : u.x = s.x := by have := congrArg State.x h7; exact this
  refine ⟨by simp, fun r h => ?_, fun c => h1 c, h2, h3, h4, h5, rfl, by rw [← h6]; rfl, ?_⟩
  · rw [State.reg_setReg_of_ne _ h]; exact State.reg_congr hxx r
  · have h7' := h7
    cases s; cases u; simp only [State.mk.injEq, State.setReg, State.consumePkt] at h7 ⊢
    simp_all

/-- `clear` leaves the stamp alone. -/
theorem State.clear_ch_eq (s : State) (c d : Nat) : (s.clear c).ch d = if d = c then { stamp := (s.ch c).stamp } else s.ch d := by
  rw [State.clear_ch]; by_cases h : d = c
  · subst h; simp [Channel.cleared]
  · simp [h]

/-- A packet that ends in `leave`. -/
theorem leave_decoded {s u : State} {rd : RegNum} {c : Nat} (e : Bool) (hu : u = (State.orChExh s e).leave c) :
    Decoded s rd (fun d => if d = c then { stamp := (s.ch c).stamp } else s.ch d)
      [Event.prox c (s.ch c).toolType false (s.ch c).serial] s.lastch
      { s.status with errChExh := s.status.errChExh || e } ((u.consumePkt).setReg rd 1) := by
  subst hu
  refine Decoded.mk' _ rfl (fun d => ?_) ?_ ?_ ?_ rfl rfl rfl
  · show ((State.orChExh s e).clear c).ch d = _
    rw [State.clear_ch_eq]; rfl
  · simp [State.leave, State.clear, State.orChExh]
  · rfl
  · simp [State.leave, State.clear, State.orChExh]

/-- A packet that changes no channel. -/
theorem same_decoded {s u : State} {rd : RegNum} (e : Bool) (hu : u = State.orChExh s e) :
    Decoded s rd s.ch [] s.lastch { s.status with errChExh := s.status.errChExh || e } ((u.consumePkt).setReg rd 1) := by
  subst hu
  refine Decoded.mk' _ rfl (fun d => rfl) rfl ?_ ?_ rfl rfl rfl
  · simp [State.orChExh]
  · simp [State.orChExh]

/-- A packet that changes no channel and no flag. -/
theorem same_decoded0 {s u : State} {rd : RegNum} (hu : u = s) :
    Decoded s rd s.ch [] s.lastch s.status ((u.consumePkt).setReg rd 1) := by
  subst hu
  refine Decoded.mk' _ rfl (fun d => rfl) rfl ?_ ?_ rfl rfl rfl
  · simp
  · simp

/-- Nothing set. -/
theorem State.orChExh_false (s : State) : State.orChExh s false = s := by simp [State.orChExh]

/-- `sel()` on the state of the packet. -/
theorem State.sel_cases {s : State} {i : Nat} {k : Kind} {m : ChMode} (h2 : modeCode m = s.modeOf i) {v : Fields}
    (hx : ∀ x, Fields.get v x = s.slotValue i x.num) :
   (∃ r, s.selected i = some r ∧ s.sel (s.hitFor i k m) v = (State.orChExh s r.2, some r.1)) ∨ (s.selected i = none ∧ s.sel (s.hitFor i k m) v = (s, none)) := by
  have := @State.sel_spec s s i k m h2 v hx rfl
  cases h : s.selected i with
  | some r => rw [h] at this; exact .inl ⟨r, rfl, this⟩
  | none => rw [h] at this; exact .inr ⟨rfl, this⟩

/-- A packet that is dispatched to a channel as it stands. -/
theorem dispatch_decoded {s : State} {i c : Nat} {rd : RegNum} {v : Fields} (e : Bool) (motion : Bool) (hx : ∀ x, Fields.get v x = s.slotValue i x.num)
   (hc : c < s.cht.length) :
    ∃ evs, s.DispatchEvents i c motion (s.ch c).btn evs ∧
     Decoded s rd (fun d => if d = c then s.dispatched i (s.ch c) else s.ch d) evs s.lastch
              { s.status with errChExh := s.status.errChExh || e } ((((State.orChExh s e).dispatch c motion v).consumePkt).setReg rd 1) ∧
       evs = (State.orChExh s e).dispatchEvents c motion v := by
  refine ⟨_, @dispatchEvents_spec s (State.orChExh s e) i c motion v hx rfl rfl rfl rfl, ?_, rfl⟩
  refine Decoded.mk' _ rfl (fun d => ?_) ?_ ?_ ?_ ?_ ?_ ?_
  · rw [State.dispatch, State.ch_setCh, @dispatchEntry_spec s (State.orChExh s e) i c v hx rfl rfl rfl rfl rfl]
    have : c < ((State.orChExh s e).emitAll ((State.orChExh s e).dispatchEvents c motion v)).cht.length := by simpa [State.orChExh] using hc
    simp only [this, and_true]
    split
    · rfl
    · exact State.ch_congr (by simp [State.orChExh]) d
  all_goals rw [State.dispatch_eq]
  · simp [State.orChExh]
  · rfl
  · rfl
  · rfl
  · rfl
  · rfl

/-- A channel in proximity is an entry of the table. -/
theorem State.inProx_lt {s : State} {c : Nat} (h : (s.ch c).inProx = true) : c < s.cht.length := by
  by_contra hn
  have : s.ch c = Channel.empty := List.getD_eq_default _ _ (by omega)
  rw [this] at h; cases h

/-- A packet that ends in a dispatch with motion, after the commit emitted `pre`. -/
theorem dispatch_decoded_gen {s u : State} {i c : Nat} {rd : RegNum} {v : Fields} {pre : List Event} {chs : Nat → Channel} {e : Channel} {lc : Word} {st : Status}
   (hx : ∀ x, Fields.get v x = s.slotValue i x.num)
   (h1 : u.status.curveValid = s.status.curveValid) (h2 : u.pmax = s.pmax) (h3 : u.lut = s.lut) (h4 : u.params = s.params) (h5 : u.pktcnt = s.pktcnt)
   (hl : c < u.cht.length) (hl' : u.cht.length = s.cht.length) (hch : ∀ d, u.ch d = chs d) (he : chs c = e)
   (hev : u.evout = s.evout ++ pre) (hevc : u.evcnt = s.evcnt + word pre.length) (hlc : u.lastch = lc) (hst : u.status = st)
   (hr : { u with cht := s.cht, evout := s.evout, evcnt := s.evcnt, lastch := s.lastch, status := s.status } = s) :
    ∃ evs, s.DispatchEvents i c true e.btn evs ∧
      Decoded s rd (fun d => if d = c then s.dispatched i e else chs d) (pre ++ evs) lc st (((u.dispatch c true v).consumePkt).setReg rd 1) := by
  refine ⟨u.dispatchEvents c true v, ?_, ?_⟩
  · have := @dispatchEvents_spec s u i c true v hx h1 h2 h3 h4
    rwa [hch, he] at this
  · refine Decoded.mk' _ rfl (fun d => ?_) ?_ ?_ ?_ ?_ ?_ ?_
    · rw [State.dispatch, State.ch_setCh, @dispatchEntry_spec s u i c v hx h1 h2 h3 h4 h5]
      have : c < (u.emitAll (u.dispatchEvents c true v)).cht.length := by simpa using hl
      simp only [this, and_true]
      split
      · rw [hch, he]
      · rw [show (u.emitAll (u.dispatchEvents c true v)).ch d = u.ch d from State.ch_congr (by simp) d, hch]
    all_goals rw [State.dispatch_eq]
    · simpa using hl'
    · show u.evout ++ _ = _
      rw [hev, List.append_assoc]
    · show u.evcnt + _ = _
      rw [hevc, BitVec.add_assoc]; congr 1
      apply BitVec.eq_of_toNat_eq; simp
    · exact hlc
    · exact hst
    · exact hr

/-- `NEXTPKT` where it runs. -/
theorem execNextpkt_eq (s : State) (rd : RegNum) (hf : s.status.fault = false) (hr : s.status.run = true) :
    exec (.nextpkt rd) s = .next (s.nextPacket.1.setReg rd s.nextPacket.2) := by
  show execNextpkt rd s = _
  simp [execNextpkt, inRun_eq, hf, hr]

/-- Framing keeps a tail of the ring. -/
theorem HeaderScan.length_le {s : State} {r kept : List Byte} {d : Bool} {o : Option Nat} (h : HeaderScan s r kept d o) : kept.length ≤ r.length := by
  induction h with
  | empty => exact le_rfl
  | garbage => simp; omega
  | truncated b0 rest kept len k d o h1 h2 h3 h4 h5 h6 h7 ih => simp at ih ⊢; omega
  | short => exact le_rfl
  | whole => exact le_rfl

/-- A whole packet lies in the bytes that stay. -/
theorem HeaderScan.whole_le {s : State} {r kept : List Byte} {d : Bool} {o : Option Nat} (h : HeaderScan s r kept d o) :
   ∀ len, o = some len → len ≤ kept.length ∧ ∃ b, s.SelectsLength b len := by
  induction h with
  | empty => simp
  | garbage _ _ _ _ _ _ _ ih => exact ih
  | truncated _ _ _ _ _ _ _ _ _ _ _ _ _ _ ih => exact ih
  | short => simp
  | whole b0 rest len h1 h2 h3 => intro l hl; simp at hl; subst hl; exact ⟨by simpa using h3, b0, h2⟩

/-- A valid `LSEL` selects a legal length. -/
theorem legalLsel_len {p : Params} {w : Word} (h : legalLsel p w = true) (hv : 2^31 ≤ w.toNat) : 1 ≤ w.toNat % 256 ∧ w.toNat % 256 ≤ p.pktMax := by
  have hv' := (validBit_iff w).2 hv
  simp only [legalLsel, hv', Bool.and_eq_true, Bool.not_true, Bool.false_or, decide_eq_true_eq, lselLen_eq] at h
  exact h.2

/-- Every selected length is legal in the RUN state. -/
theorem State.SelectsLength.legal {s : State} (h : ProfileLegal s) (hr : s.status.run = true) {b : Byte} {len : Nat} (hs : s.SelectsLength b len) :
   1 ≤ len ∧ len ≤ s.params.pktMax := by
  rcases hs with ⟨j, a, _, rfl⟩ | ⟨_, rfl⟩
  · exact legalLsel_len (h.lsel_ok j) a.1
  · exact ⟨h.run_plen hr, h.plen_le⟩

/-- `next_packet` on a legal profile: no packet, or one of at least one byte taken from the ring. -/
theorem State.nextPacket_cases {s : State} (h : ProfileLegal s) (hr : s.status.run = true) (hp : s.status.pktValid = false) :
   (s.nextPacket.1.status.pktValid = false ∧ s.nextPacket.1.pkt = s.pkt ∧ s.nextPacket.1.ring.length ≤ s.ring.length ∧ s.nextPacket.1.pktcnt = s.pktcnt ∧ s.nextPacket.2 = 0) ∨
   (s.nextPacket.1.status.pktValid = true ∧ 1 ≤ s.nextPacket.1.pkt.length ∧ s.nextPacket.1.pkt.length ≤ s.params.pktMax ∧
     s.nextPacket.1.ring.length + s.nextPacket.1.pkt.length ≤ s.ring.length ∧ s.nextPacket.2 = 1) := by
  unfold State.nextPacket
  rw [hp]; simp only [Bool.false_eq_true, if_false]
  split
  · obtain ⟨kept, d, o, h1, h2⟩ := s.nextHeader_scan
    rw [h2]
    have hl := HeaderScan.length_le h1
    cases o with
    | none => exact .inl ⟨hp, rfl, hl, rfl, rfl⟩
    | some len =>
      obtain ⟨a, b, c⟩ := HeaderScan.whole_le h1 len rfl
      have := State.SelectsLength.legal h hr c
      refine .inr ⟨rfl, ?_, ?_, ?_, rfl⟩ <;> simp [State.afterScan] <;> omega
  · unfold State.nextFixed
    have h1 := h.run_plen hr; have h2 := h.plen_le
    split
    · refine .inr ⟨rfl, ?_, ?_, ?_, rfl⟩ <;> simp [State.latch] <;> omega
    · exact .inl ⟨hp, rfl, le_rfl, rfl, rfl⟩

/-- What `decode_one` leaves of the state where it raises no fault. -/
theorem State.decodeOne_frame {s t : State} {w : Word} (h : s.decodeOne = .ok (t, w)) (hp : s.status.pktValid = true) :
   t.params = s.params ∧ t.input = s.input ∧ t.x = s.x ∧ t.fcause = s.fcause ∧ t.finfo = s.finfo ∧ t.proto = s.proto ∧ t.plen = s.plen ∧ t.nch = s.nch ∧
   t.caps = s.caps ∧ t.hdrmask = s.hdrmask ∧ t.tselmap = s.tselmap ∧ t.lsel = s.lsel ∧ t.pktcnt = s.pktcnt ∧ t.fdt = s.fdt ∧ t.cls = s.cls ∧ t.lay = s.lay ∧ t.tid = s.tid ∧
   t.lut = s.lut ∧ t.ring = s.ring ∧ t.pkt = [] ∧ t.status.pktValid = false ∧ t.status.fault = s.status.fault ∧ t.status.run = s.status.run ∧ t.status.curveValid = s.status.curveValid ∧ t.cht.length = s.cht.length := by
  rcases State.decodeOne_ok h with ⟨a, _⟩ | ⟨_, _, rfl, _⟩ | ⟨i, hit, v, _, _, _, _, rfl, _⟩
  · rw [hp] at a; cases a
  · refine ⟨rfl, rfl, rfl, rfl, rfl, rfl, rfl, rfl, rfl, rfl, rfl, rfl, rfl, rfl, rfl, rfl, rfl, rfl, rfl, rfl, rfl, rfl, rfl, rfl, rfl⟩
  · have c := Commits.commit s hit v
    refine ⟨c.params, c.input, c.x, c.fcause, c.finfo, c.proto, c.plen, c.nch, c.caps, c.hdrmask, c.tselmap, c.lsel, c.pktcnt, c.fdt, c.cls, c.lay, c.tid, c.lut, c.ring, rfl, rfl, c.fault, c.run, c.curveValid, c.cht_length⟩

/-- The profile's legality depends on the profile registers only. -/
theorem ProfileLegal.of_eq {s t : State} (h : ProfileLegal s) (h1 : t.params = s.params) (h2 : t.plen = s.plen) (h3 : t.nch = s.nch) (h4 : t.caps = s.caps)
   (h5 : t.lsel = s.lsel) (h6 : t.hdrmask = s.hdrmask) (h7 : t.proto = s.proto) (h8 : t.status.run = s.status.run) : ProfileLegal t := by
  have hp : t.hasPad = s.hasPad := by simp only [State.hasPad, h4]
  exact ⟨h1 ▸ h.params, by rw [h1, h2]; exact h.plen_le, by rw [h3]; exact h.nch_pos, by rw [h1, h3, hp]; exact h.nch_le,
    by rw [h1, h5]; exact h.lsel_ok, by rw [h2, h8]; exact h.run_plen, by rw [h6, h7, h8]; exact h.run_hdrmask⟩

end Sys2Proof.Machine
end

