-- ==== Sys2Proof/Laws/Curve.lean ====
section
/-! SUPPORT. What the curve engine does, against the readings of Safety.lean: the flatness test, the line
rasterizer in closed form, and `subdivide` as the lines of its segments in order (41_pressure_curve.md R173
to R178). -/

namespace Sys2Proof.Machine

/-! ### The flatness test (R174, R175) -/

/-- On the line through `a` and `d`, the squared distance to `p` grows away from the projection. -/
theorem Pt.near_iff (tol : Rat) (p a d : Pt) : p.near tol a d = true ↔ NearSegment tol p a d := by
  have key : ∃ t : ℚ, 0 ≤ t ∧ t ≤ 1 ∧
      p.dist2 a d = (p.x - (a.x + t * (d.x - a.x))) ^ 2 + (p.y - (a.y + t * (d.y - a.y))) ^ 2 ∧
      ∀ r : ℚ, 0 ≤ r → r ≤ 1 → p.dist2 a d ≤
        (p.x - (a.x + r * (d.x - a.x))) ^ 2 + (p.y - (a.y + r * (d.y - a.y))) ^ 2 := by
    by_cases hd : a = d
    · subst hd
      exact ⟨0, le_refl _, zero_le_one, by simp [Pt.dist2], by simp [Pt.dist2]⟩
    obtain ⟨px, py⟩ := p
    obtain ⟨ax, ay⟩ := a
    obtain ⟨dx, dy⟩ := d
    simp only [Pt.mk.injEq, not_and] at hd
    simp only [Pt.dist2, Pt.mk.injEq, not_and.mpr hd, if_false]
    obtain ⟨vx, rfl⟩ : ∃ v, dx = ax + v := ⟨dx - ax, by ring⟩
    obtain ⟨vy, rfl⟩ : ∃ v, dy = ay + v := ⟨dy - ay, by ring⟩
    simp only [add_sub_cancel_left]
    have hL : 0 < vx * vx + vy * vy := by
      by_contra h
      have h1 : vx = 0 := by nlinarith [mul_self_nonneg vx, mul_self_nonneg vy]
      have h2 : vy = 0 := by nlinarith [mul_self_nonneg vx, mul_self_nonneg vy]
      exact hd (by simp [h1]) (by simp [h2])
    generalize hq : ((px - ax) * vx + (py - ay) * vy) / (vx * vx + vy * vy) = q
    have hq' : (px - ax) * vx + (py - ay) * vy = q * (vx * vx + vy * vy) := by
      rw [← hq, div_mul_cancel₀ _ hL.ne']
    refine ⟨clampRat q 0 1, by simp [clampRat], by simp [clampRat], rfl, fun r h0 h1 => ?_⟩
    have diff : ∀ t, (px - (ax + r * vx)) ^ 2 + (py - (ay + r * vy)) ^ 2 -
        ((px - (ax + t * vx)) ^ 2 + (py - (ay + t * vy)) ^ 2) =
        (vx * vx + vy * vy) * ((r - t) * (r + t - 2 * q)) := by
      intro t
      linear_combination (-2 * (r - t)) * hq'
    refine sub_nonneg.mp ?_
    rw [diff]
    refine mul_nonneg hL.le ?_
    rcases le_total q 0 with h | h
    · have : clampRat q 0 1 = 0 := by simp [clampRat, h]
      rw [this]; nlinarith
    rcases le_total q 1 with h' | h'
    · have : clampRat q 0 1 = q := by simp [clampRat, h, h']
      rw [this]; nlinarith [mul_self_nonneg (r - q)]
    · have : clampRat q 0 1 = 1 := by simp [clampRat, h']
      rw [this]; nlinarith
  obtain ⟨t, h0, h1, heq, hle⟩ := key
  simp only [Pt.near, decide_eq_true_eq]
  exact ⟨fun h => ⟨t, h0, h1, heq ▸ h⟩, fun ⟨r, hr0, hr1, h⟩ => (hle r hr0 hr1).trans_lt h⟩

/-! ### The line rasterizer (R178) -/

theorem wf_plot {lut : Memory} (h : Memory.wf lut = true) (x y : Int) :
    Memory.wf (plot lut x y) = true := Memory.wf_write h _ _

theorem read_plot {lut : Memory} (h : Memory.wf lut = true) (x y i : Nat) :
    Memory.read (plot lut x y) i = if i = x then word y else Memory.read lut i := by
  simp [plot, Memory.read_write h, word]

/-- The x-dominant loop from round `j` on writes the rounded value at each index that is left. -/
theorem lineX_spec (x0 y0 dx dy : Nat) (hd : dy < dx) (sy : Int) (hs : 0 < dy → sy = 1) :
    ∀ (n j : Nat) (d : Int) (lut : Memory), j + n = dx → Memory.wf lut = true →
      d = 2 * (j + 1) * dy - dx - 2 * dx * (((2 * j * dy + dx) / (2 * dx) : Nat) : Int) →
      Memory.wf (lineX (x0 + dx : Nat) 1 sy (2 * dx) (2 * dy) n (x0 + j : Nat)
        (y0 + (2 * j * dy + dx) / (2 * dx) : Nat) d lut) = true ∧
      ∀ i, Memory.read (lineX (x0 + dx : Nat) 1 sy (2 * dx) (2 * dy) n (x0 + j : Nat)
        (y0 + (2 * j * dy + dx) / (2 * dx) : Nat) d lut) i =
        if x0 + j ≤ i ∧ i ≤ x0 + dx then word (y0 + (2 * (i - x0) * dy + dx) / (2 * dx))
        else Memory.read lut i := by
  intro n
  induction n with
  | zero =>
    intro j d lut hj hw _
    refine ⟨wf_plot hw _ _, fun i => ?_⟩
    rw [lineX, read_plot hw]
    by_cases hi : i = x0 + j
    · rw [if_pos hi, if_pos (by omega), show i - x0 = j by omega]
    · rw [if_neg hi, if_neg (by omega)]
  | succ n ih =>
    intro j d lut hj hw hd'
    have hne : ((x0 + j : Nat) : Int) ≠ ((x0 + dx : Nat) : Int) := by omega
    have hw' := wf_plot hw ((x0 + j : Nat) : Int) ((y0 + (2 * j * dy + dx) / (2 * dx) : Nat) : Int)
    have hpos : 0 < 2 * dx := by omega
    have e1 := Nat.div_add_mod (2 * j * dy + dx) (2 * dx)
    have l1 := Nat.mod_lt (2 * j * dy + dx) hpos
    have e2 := Nat.div_add_mod (2 * (j + 1) * dy + dx) (2 * dx)
    have l2 := Nat.mod_lt (2 * (j + 1) * dy + dx) hpos
    have e3 : 2 * (j + 1) * dy = 2 * j * dy + 2 * dy := by ring
    -- the next rounded value is this one, or one above it where `d` is not negative
    have step : (2 * (j + 1) * dy + dx) / (2 * dx) =
        (2 * j * dy + dx) / (2 * dx) + if 0 ≤ d then 1 else 0 := by
      generalize (2 * j * dy + dx) / (2 * dx) = m at *
      have e4 : (2 * (j + 1) * dy : Int) = (2 * j * dy + 2 * dy : Nat) := by push_cast; ring
      have e5 : (2 * dx * (m : Int)) = ((2 * dx * m : Nat) : Int) := by push_cast; ring
      rw [e4, e5] at hd'
      split <;> (rw [Nat.div_eq_iff hpos]; constructor <;> ring_nf at * <;> omega)
    have hread : ∀ i, (if x0 + (j + 1) ≤ i ∧ i ≤ x0 + dx then
          word (y0 + (2 * (i - x0) * dy + dx) / (2 * dx))
        else Memory.read (plot lut ((x0 + j : Nat) : Int)
          ((y0 + (2 * j * dy + dx) / (2 * dx) : Nat) : Int)) i) =
        if x0 + j ≤ i ∧ i ≤ x0 + dx then word (y0 + (2 * (i - x0) * dy + dx) / (2 * dx))
        else Memory.read lut i := by
      intro i
      rw [read_plot hw]
      by_cases hi : i = x0 + j
      · rw [if_neg (by omega), if_pos hi, if_pos (by omega), show i - x0 = j by omega]
      · rw [if_neg hi]
        exact if_congr (by omega) rfl rfl
    rw [lineX, if_neg hne]
    by_cases h0 : 0 ≤ d
    · have hs1 : sy = 1 := hs (by
        rcases Nat.eq_zero_or_pos dy with h | h
        · subst h
          simp only [Nat.zero_add, Nat.cast_zero, mul_zero, zero_sub] at hd'
          have : (0 : Int) ≤ 2 * dx * ((dx / (2 * dx) : Nat) : Int) := by positivity
          omega
        · exact h)
      rw [if_pos h0] at step
      have := ih (j + 1) (d - 2 * dx + 2 * dy) _ (by omega) hw' (by
        rw [step, hd']; push_cast; ring)
      rw [step] at this
      rw [if_pos h0, hs1, show ((x0 + j : Nat) : Int) + 1 = ((x0 + (j + 1) : Nat) : Int) by omega,
        show (((y0 + (2 * j * dy + dx) / (2 * dx) : Nat) : Int) + 1 : Int) =
          ((y0 + ((2 * j * dy + dx) / (2 * dx) + 1) : Nat) : Int) by omega]
      rw [hs1] at this
      exact ⟨this.1, fun i => (this.2 i).trans (hread i)⟩
    · rw [if_neg h0, Nat.add_zero] at step
      have := ih (j + 1) (d + 2 * dy) _ (by omega) hw' (by rw [step, hd']; push_cast; ring)
      rw [step] at this
      rw [if_neg h0, show ((x0 + j : Nat) : Int) + 1 = ((x0 + (j + 1) : Nat) : Int) by omega]
      exact ⟨this.1, fun i => (this.2 i).trans (hread i)⟩

/-- The y-dominant loop from round `k` on: the last of the values that fall on an index stays, and an
index on which none falls keeps its word. -/
theorem lineY_spec (x0 y0 dx dy : Nat) (hd : dx ≤ dy) (sx : Int) (hs : 0 < dx → sx = 1) :
    ∀ (n k : Nat) (d : Int) (lut : Memory), k + n = dy → Memory.wf lut = true →
      d = 2 * (k + 1) * dx - dy - 2 * dy * (((2 * k * dx + dy) / (2 * dy) : Nat) : Int) →
      Memory.wf (lineY (y0 + dy : Nat) sx 1 (2 * dx) (2 * dy) n
        (x0 + (2 * k * dx + dy) / (2 * dy) : Nat) (y0 + k : Nat) d lut) = true ∧
      (∀ i, (∀ l, k ≤ l → l ≤ dy → i ≠ x0 + (2 * l * dx + dy) / (2 * dy)) →
        Memory.read (lineY (y0 + dy : Nat) sx 1 (2 * dx) (2 * dy) n
          (x0 + (2 * k * dx + dy) / (2 * dy) : Nat) (y0 + k : Nat) d lut) i = Memory.read lut i) ∧
      ∀ l, k ≤ l → l ≤ dy →
        (∀ m, l < m → m ≤ dy →
          x0 + (2 * l * dx + dy) / (2 * dy) ≠ x0 + (2 * m * dx + dy) / (2 * dy)) →
        Memory.read (lineY (y0 + dy : Nat) sx 1 (2 * dx) (2 * dy) n
          (x0 + (2 * k * dx + dy) / (2 * dy) : Nat) (y0 + k : Nat) d lut)
          (x0 + (2 * l * dx + dy) / (2 * dy)) = word (y0 + l) := by
  intro n
  induction n with
  | zero =>
    intro k d lut hk hw _
    rw [lineY]
    refine ⟨wf_plot hw _ _, fun i hi => ?_, fun l h1 h2 _ => ?_⟩
    · rw [read_plot hw, if_neg (hi k (le_refl _) (by omega))]
    · rw [read_plot hw, show l = k by omega, if_pos rfl]
  | succ n ih =>
    intro k d lut hk hw hd'
    have hne : ((y0 + k : Nat) : Int) ≠ ((y0 + dy : Nat) : Int) := by omega
    have hw' := wf_plot hw ((x0 + (2 * k * dx + dy) / (2 * dy) : Nat) : Int) ((y0 + k : Nat) : Int)
    have hpos : 0 < 2 * dy := by omega
    have e1 := Nat.div_add_mod (2 * k * dx + dy) (2 * dy)
    have l1 := Nat.mod_lt (2 * k * dx + dy) hpos
    have e3 : 2 * (k + 1) * dx = 2 * k * dx + 2 * dx := by ring
    -- the next index is this one, or one further where `d` is not negative
    have step : (2 * (k + 1) * dx + dy) / (2 * dy) =
        (2 * k * dx + dy) / (2 * dy) + if 0 ≤ d then 1 else 0 := by
      generalize (2 * k * dx + dy) / (2 * dy) = m at *
      have e4 : (2 * (k + 1) * dx : Int) = (2 * k * dx + 2 * dx : Nat) := by push_cast; ring
      have e5 : (2 * dy * (m : Int)) = ((2 * dy * m : Nat) : Int) := by push_cast; ring
      rw [e4, e5] at hd'
      split <;> (rw [Nat.div_eq_iff hpos]; constructor <;> ring_nf at * <;> omega)
    -- what the rounds after this one leave, put together with this round's word
    have glue : ∀ lut' : Memory,
        (∀ i, (∀ l, k + 1 ≤ l → l ≤ dy → i ≠ x0 + (2 * l * dx + dy) / (2 * dy)) →
          Memory.read lut' i = Memory.read (plot lut
            ((x0 + (2 * k * dx + dy) / (2 * dy) : Nat) : Int) ((y0 + k : Nat) : Int)) i) →
        (∀ l, k + 1 ≤ l → l ≤ dy →
          (∀ m, l < m → m ≤ dy →
            x0 + (2 * l * dx + dy) / (2 * dy) ≠ x0 + (2 * m * dx + dy) / (2 * dy)) →
          Memory.read lut' (x0 + (2 * l * dx + dy) / (2 * dy)) = word (y0 + l)) →
        (∀ i, (∀ l, k ≤ l → l ≤ dy → i ≠ x0 + (2 * l * dx + dy) / (2 * dy)) →
          Memory.read lut' i = Memory.read lut i) ∧
        ∀ l, k ≤ l → l ≤ dy →
          (∀ m, l < m → m ≤ dy →
            x0 + (2 * l * dx + dy) / (2 * dy) ≠ x0 + (2 * m * dx + dy) / (2 * dy)) →
          Memory.read lut' (x0 + (2 * l * dx + dy) / (2 * dy)) = word (y0 + l) := by
      intro lut' h1 h2
      refine ⟨fun i hi => ?_, fun l hl hl' hlast => ?_⟩
      · rw [h1 i fun l hl => hi l (by omega), read_plot hw, if_neg (hi k (le_refl _) (by omega))]
      · rcases Nat.eq_or_lt_of_le hl with rfl | hl
        · rw [h1 _ fun m hm => hlast m (by omega), read_plot hw, if_pos rfl]
        · exact h2 l hl hl' hlast
    rw [lineY, if_neg hne]
    by_cases h0 : 0 ≤ d
    · have hs1 : sx = 1 := hs (by
        rcases Nat.eq_zero_or_pos dx with h | h
        · subst h
          simp only [Nat.zero_add, Nat.cast_zero, mul_zero, zero_sub] at hd'
          have : (0 : Int) ≤ 2 * dy * ((dy / (2 * dy) : Nat) : Int) := by positivity
          omega
        · exact h)
      rw [if_pos h0] at step
      have := ih (k + 1) (d - 2 * dy + 2 * dx) _ (by omega) hw' (by
        rw [step, hd']; push_cast; ring)
      rw [step] at this
      rw [if_pos h0, hs1, show ((y0 + k : Nat) : Int) + 1 = ((y0 + (k + 1) : Nat) : Int) by omega,
        show (((x0 + (2 * k * dx + dy) / (2 * dy) : Nat) : Int) + 1 : Int) =
          ((x0 + ((2 * k * dx + dy) / (2 * dy) + 1) : Nat) : Int) by omega]
      rw [hs1] at this
      exact ⟨this.1, glue _ this.2.1 this.2.2⟩
    · rw [if_neg h0, Nat.add_zero] at step
      have := ih (k + 1) (d + 2 * dx) _ (by omega) hw' (by rw [step, hd']; push_cast; ring)
      rw [step] at this
      rw [if_neg h0, show ((y0 + k : Nat) : Int) + 1 = ((y0 + (k + 1) : Nat) : Int) by omega]
      exact ⟨this.1, glue _ this.2.1 this.2.2⟩

/-- What a line whose ends do not decrease can do: it writes the values that it leaves, and no other
index. -/
theorem line_spec {lut : Memory} (hw : Memory.wf lut = true) (x0 y0 dx dy : Nat) :
    Memory.wf (line x0 y0 (x0 + dx : Nat) (y0 + dy : Nat) lut) = true ∧
    (∀ i, (∀ v, ¬ LineLeaves x0 y0 dx dy i v) →
      Memory.read (line x0 y0 (x0 + dx : Nat) (y0 + dy : Nat) lut) i = Memory.read lut i) ∧
    ∀ i v, LineLeaves x0 y0 dx dy i v →
      Memory.read (line x0 y0 (x0 + dx : Nat) (y0 + dy : Nat) lut) i = word v := by
  have ex : (((x0 + dx : Nat) : Int) - x0) = dx := by omega
  have ey : (((y0 + dy : Nat) : Int) - y0) = dy := by omega
  have sgn : ∀ n : Nat, 0 < n → (if (0 : Int) < n then (1 : Int) else -1) = 1 := fun n h => by
    rw [if_pos (by omega)]
  unfold line
  simp only [ex, ey, Int.natAbs_natCast]
  by_cases h : dy < dx
  · have := lineX_spec x0 y0 dx dy h (if (0 : Int) < dy then 1 else -1) (sgn dy) dx 0
      (2 * dy - 2 * dx / 2) lut (by omega) hw (by
        rw [show (2 * 0 * dy + dx) / (2 * dx) = 0 by rw [Nat.div_eq_zero_iff]; omega]; push_cast; omega)
    rw [show (2 * 0 * dy + dx) / (2 * dx) = 0 by rw [Nat.div_eq_zero_iff]; omega] at this
    rw [if_pos (by omega), sgn dx (by omega)]
    simp only [Nat.add_zero] at this
    simp only [LineLeaves, if_pos h]
    refine ⟨this.1, fun i hi => ?_, fun i v => ?_⟩
    · rw [this.2 i, if_neg]
      rintro ⟨h1, h2⟩
      exact hi _ ⟨i - x0, by omega, by omega, rfl⟩
    · rintro ⟨j, hj, rfl, rfl⟩
      rw [this.2, if_pos (by omega), show x0 + j - x0 = j by omega]
  · have z : (2 * 0 * dx + dy) / (2 * dy) = 0 := by rw [Nat.div_eq_zero_iff]; omega
    have := lineY_spec x0 y0 dx dy (by omega) (if (0 : Int) < dx then 1 else -1) (sgn dx) dy 0
      (2 * dx - 2 * dy / 2) lut (by omega) hw (by rw [z]; push_cast; omega)
    rw [z] at this
    simp only [Nat.add_zero] at this
    rw [if_neg (by omega)]
    simp only [LineLeaves, if_neg h]
    have hsy : lineY ((y0 + dy : Nat) : Int) (if (0 : Int) < dx then 1 else -1)
        (if (0 : Int) < dy then 1 else -1) (2 * dx) (2 * dy) dy x0 y0 (2 * dx - 2 * dy / 2) lut =
        lineY ((y0 + dy : Nat) : Int) (if (0 : Int) < dx then 1 else -1) 1 (2 * dx) (2 * dy) dy x0 y0
          (2 * dx - 2 * dy / 2) lut := by
      rcases Nat.eq_zero_or_pos dy with hz | hz
      · subst hz; rfl
      · rw [sgn dy hz]
    rw [hsy]
    refine ⟨this.1, fun i hi => this.2.1 i fun l _ hl e => ?_, fun i v => ?_⟩
    · -- the last value that falls on the index
      let P := fun m => m ≤ dy ∧ i = x0 + (2 * m * dx + dy) / (2 * dy)
      have hP : P (Nat.findGreatest P dy) := Nat.findGreatest_spec (P := P) hl ⟨hl, e⟩
      exact hi _ ⟨_, hP.1, hP.2, rfl, fun m hm hmd he =>
        Nat.findGreatest_is_greatest (P := P) hm hmd ⟨hmd, he⟩⟩
    · rintro ⟨k, hk, rfl, rfl, hlast⟩
      exact this.2.2 k (Nat.zero_le _) hk hlast

/-- A line stays between its ends. -/
theorem LineLeaves.within {x0 y0 dx dy i v : Nat} (h : LineLeaves x0 y0 dx dy i v) :
    x0 ≤ i ∧ i ≤ x0 + dx ∧ y0 ≤ v ∧ v ≤ y0 + dy := by
  unfold LineLeaves at h
  split at h
  · next hd =>
    obtain ⟨j, hj, rfl, rfl⟩ := h
    have : (2 * j * dy + dx) / (2 * dx) ≤ dy := by
      rw [Nat.div_le_iff_le_mul_add_pred (by omega)]
      nlinarith [Nat.mul_le_mul_right dy hj, Nat.sub_add_cancel (show 1 ≤ 2 * dx by omega)]
    exact ⟨by omega, by omega, Nat.le_add_right _ _, by omega⟩
  · next hd =>
    obtain ⟨k, hk, rfl, rfl, _⟩ := h
    have : (2 * k * dx + dy) / (2 * dy) ≤ dx := by
      rcases Nat.eq_zero_or_pos dy with h0 | h0
      · subst h0; simp
      · rw [Nat.div_le_iff_le_mul_add_pred (by omega)]
        nlinarith [Nat.mul_le_mul_right dx hk, Nat.sub_add_cancel (show 1 ≤ 2 * dy by omega)]
    exact ⟨Nat.le_add_right _ _, by omega, by omega, by omega⟩

/-- A line leaves a value at every index between its ends: there are no holes (R179). -/
theorem exists_lineLeaves {x0 dx i : Nat} (y0 dy : Nat) (h0 : x0 ≤ i) (h1 : i ≤ x0 + dx) :
    ∃ v, LineLeaves x0 y0 dx dy i v := by
  unfold LineLeaves
  split
  · exact ⟨_, i - x0, by omega, by omega, rfl⟩
  · next hd =>
    -- the last value whose index is not past `i`: the next one is at most one index further
    let f := fun k => x0 + (2 * k * dx + dy) / (2 * dy)
    have f0 : f 0 ≤ i := by
      have : (2 * 0 * dx + dy) / (2 * dy) = 0 := by rw [Nat.div_eq_zero_iff]; omega
      simp only [f, this]; omega
    have fdy : f dy = x0 + dx := by
      simp only [f]
      rcases Nat.eq_zero_or_pos dy with hz | hz
      · subst hz; simp; omega
      · rw [show (2 * dy * dx + dy) / (2 * dy) = dx by
          rw [Nat.div_eq_iff (by omega)]; constructor <;> (ring_nf; omega)]
    have fstep : ∀ k, k < dy → f (k + 1) ≤ f k + 1 := by
      intro k hk
      have : (2 * (k + 1) * dx + dy) / (2 * dy) ≤ (2 * k * dx + dy + 2 * dy) / (2 * dy) :=
        Nat.div_le_div_right (by ring_nf; omega)
      rw [Nat.add_div_right _ (by omega)] at this
      simp only [f]; omega
    let P := fun k => f k ≤ i
    have hP : P (Nat.findGreatest P dy) := Nat.findGreatest_spec (P := P) (Nat.zero_le _) f0
    have hle : Nat.findGreatest P dy ≤ dy := Nat.findGreatest_le dy
    have hmax : ∀ m, Nat.findGreatest P dy < m → m ≤ dy → ¬ P m := fun m hm hmd =>
      Nat.findGreatest_is_greatest hm hmd
    have heq : i = f (Nat.findGreatest P dy) := by
      rcases Nat.eq_or_lt_of_le hle with h | h
      · have h2 : f (Nat.findGreatest P dy) ≤ i := hP
        rw [h, fdy] at h2 ⊢
        omega
      · have h2 : ¬ f (Nat.findGreatest P dy + 1) ≤ i := hmax _ (Nat.lt_succ_self _) h
        have h3 := fstep _ h
        have h4 : f (Nat.findGreatest P dy) ≤ i := hP
        omega
    refine ⟨_, _, hle, heq, rfl, fun l hl hld he => hmax l hl hld ?_⟩
    exact Nat.le_of_eq he.symm

/-! ### Segments (R173, R177) -/

theorem toTable_eq {n : Nat} {q : ℚ} (h : 0 ≤ q) : toTable n q = (tableCoord n q : Int) := by
  have : 0 ≤ ⌊q * n⌋ := Int.floor_nonneg.mpr (by positivity)
  rw [tableCoord, Int.toNat_of_nonneg this]
  rfl

theorem tableCoord_mono {n : Nat} {p q : ℚ} (h : p ≤ q) : tableCoord n p ≤ tableCoord n q :=
  Int.toNat_le_toNat (Int.floor_le_floor (mul_le_mul_of_nonneg_right h (by positivity)))

/-- The ends of a segment are in the positive quadrant and do not decrease. -/
structure SegmentUp (e : Pt × Pt) : Prop where
  x0 : 0 ≤ e.1.x
  y0 : 0 ≤ e.1.y
  x : e.1.x ≤ e.2.x
  y : e.1.y ≤ e.2.y

/-- What drawing a segment can do. -/
theorem drawSegment_spec {lut : Memory} (hw : Memory.wf lut = true) (n : Nat) {e : Pt × Pt}
    (he : SegmentUp e) :
    Memory.wf (drawSegment n e.1 e.2 lut) = true ∧
    (∀ i, (∀ v, ¬ SegmentLeaves n e i v) →
      Memory.read (drawSegment n e.1 e.2 lut) i = Memory.read lut i) ∧
    ∀ i v, SegmentLeaves n e i v → Memory.read (drawSegment n e.1 e.2 lut) i = word v := by
  have hx := tableCoord_mono (n := n) he.x
  have hy := tableCoord_mono (n := n) he.y
  have := line_spec hw (tableCoord n e.1.x) (tableCoord n e.1.y)
    (tableCoord n e.2.x - tableCoord n e.1.x) (tableCoord n e.2.y - tableCoord n e.1.y)
  rw [Nat.add_sub_cancel' hx, Nat.add_sub_cancel' hy] at this
  rw [drawSegment, toTable_eq he.x0, toTable_eq he.y0, toTable_eq (he.x0.trans he.x),
    toTable_eq (he.y0.trans he.y)]
  exact this

/-- Segments drawn one after the other. -/
def drawAll (n : Nat) (segs : List (Pt × Pt)) (lut : Memory) : Memory :=
  segs.foldl (fun l e => drawSegment n e.1 e.2 l) lut

theorem drawAll_append (n : Nat) (first second : List (Pt × Pt)) (lut : Memory) :
    drawAll n (first ++ second) lut = drawAll n second (drawAll n first lut) := List.foldl_append

/-- Drawing segments keeps the canonical form, and the words at indexes where none leaves a value. -/
theorem drawAll_keeps (n : Nat) : ∀ {segs : List (Pt × Pt)} {lut : Memory},
    Memory.wf lut = true → (∀ e, e ∈ segs → SegmentUp e) →
    Memory.wf (drawAll n segs lut) = true ∧
    ∀ i, (∀ e, e ∈ segs → ∀ v, ¬ SegmentLeaves n e i v) →
      Memory.read (drawAll n segs lut) i = Memory.read lut i
  | [], _, hw, _ => ⟨hw, fun _ _ => rfl⟩
  | e :: segs, lut, hw, he => by
    have h1 := drawSegment_spec hw n (he e (by simp))
    have h2 := drawAll_keeps n (segs := segs) h1.1 fun f hf => he f (by simp [hf])
    exact ⟨h2.1, fun i hi =>
      (h2.2 i fun f hf => hi f (by simp [hf])).trans (h1.2.1 i (hi e (by simp)))⟩

/-- Drawing segments leaves the value of the last one that has one at the index. -/
theorem drawAll_last (n : Nat) {before after : List (Pt × Pt)} {e : Pt × Pt} {lut : Memory}
    (hw : Memory.wf lut = true) (he : ∀ f, f ∈ before ++ e :: after → SegmentUp f) {i v : Nat}
    (hv : SegmentLeaves n e i v) (ha : ∀ f, f ∈ after → ∀ w, ¬ SegmentLeaves n f i w) :
    Memory.read (drawAll n (before ++ e :: after) lut) i = word v := by
  have h1 := drawAll_keeps n (segs := before) hw fun f hf => he f (by simp [hf])
  have h2 := drawSegment_spec h1.1 n (he e (by simp))
  have h3 := drawAll_keeps n (segs := after) h2.1 fun f hf => he f (by simp [hf])
  rw [drawAll_append]
  exact (h3.2 i ha).trans (h2.2.2 i v hv)

/-! ### Subdivision (R173, R176, R179) -/

theorem controlPoint_eq (w : Word) : controlPoint w = packedPoint w := by
  simp [controlPoint, packedPoint, coord, BitVec.extractLsb'_toNat, Nat.shiftRight_eq_div_pow,
    Nat.mod_eq_of_lt (show w.toNat / 65536 < 65536 by omega)]

/-- A control point lies in the unit square. -/
theorem packedPoint_unit (w : Word) :
    0 ≤ (packedPoint w).x ∧ (packedPoint w).x ≤ 1 ∧ 0 ≤ (packedPoint w).y ∧ (packedPoint w).y ≤ 1 := by
  have h : ∀ k : ℕ, 0 ≤ ((min k 32768 : ℕ) : ℚ) / 32768 ∧ ((min k 32768 : ℕ) : ℚ) / 32768 ≤ 1 := by
    intro k
    refine ⟨by positivity, (div_le_one (by norm_num)).mpr ?_⟩
    exact_mod_cast min_le_right k 32768
  exact ⟨(h _).1, (h _).2, (h _).1, (h _).2⟩

/-- The coordinate with these control values never falls along the curve (R179 (a)): the derivative, in
Bernstein form, is not negative. -/
def Rising (a b c d : ℚ) : Prop :=
  a ≤ b ∧ c ≤ d ∧ (b ≤ c ∨ (b - c) ^ 2 ≤ (b - a) * (d - c))

/-- Control values in the unit interval give a coordinate that never falls. -/
theorem Rising.unit {u v : ℚ} (hu : 0 ≤ u) (hu' : u ≤ 1) (hv : 0 ≤ v) (hv' : v ≤ 1) :
    Rising 0 u v 1 := by
  refine ⟨hu, hv', ?_⟩
  rcases le_total u v with h | h
  · exact .inl h
  · exact .inr (by nlinarith)

theorem Rising.le {a b c d : ℚ} (h : Rising a b c d) : a ≤ d ∧ a + b ≤ c + d := by
  obtain ⟨h1, h2, h | h⟩ := h
  · constructor <;> linarith
  · have : 2 * (b - c) ≤ (b - a) + (d - c) := by
      nlinarith [sq_nonneg ((b - a) - (d - c)), sq_nonneg (b - c)]
    constructor <;> linarith

/-- Both halves of the curve rise where the whole does. -/
theorem Rising.halves {a b c d : ℚ} (h : Rising a b c d) :
    Rising a ((a + b) / 2) ((a + 2 * b + c) / 4) ((a + 3 * b + 3 * c + d) / 8) ∧
    Rising ((a + 3 * b + 3 * c + d) / 8) ((b + 2 * c + d) / 4) ((c + d) / 2) d := by
  have hl := h.le
  obtain ⟨h1, h2, h3⟩ := h
  refine ⟨⟨by linarith, by linarith, ?_⟩, ⟨by linarith, by linarith, ?_⟩⟩
  · rcases h3 with h3 | h3
    · left; linarith
    · right; nlinarith
  · rcases h3 with h3 | h3
    · left; linarith
    · right; nlinarith

/-- `subdivide` draws the segments of the reading, in order; they rise from `a` to `d`, and every index
between the two lies on one of them. -/
theorem subdivide_spec (m : Params) : ∀ (r depth : Nat) (a b c d : Pt), depth + r = m.depthMax →
    Rising a.x b.x c.x d.x → Rising a.y b.y c.y d.y → 0 ≤ a.x → 0 ≤ a.y →
    ∃ segs, CurveSegments m depth a b c d segs ∧
      (∀ lut, subdivide m.curveRes m.flatTol r a b c d lut = drawAll m.curveRes segs lut) ∧
      (∀ e, e ∈ segs → SegmentUp e ∧ e.2.x ≤ d.x ∧ e.2.y ≤ d.y) ∧
      ∀ i, tableCoord m.curveRes a.x ≤ i → i ≤ tableCoord m.curveRes d.x →
        ∃ e, e ∈ segs ∧ ∃ v, SegmentLeaves m.curveRes e i v := by
  intro r
  have one : ∀ (depth : Nat) (a b c d : Pt),
      Rising a.x b.x c.x d.x → Rising a.y b.y c.y d.y → 0 ≤ a.x → 0 ≤ a.y →
      depth = m.depthMax ∨ (NearSegment m.flatTol b a d ∧ NearSegment m.flatTol c a d) →
      ∃ segs, CurveSegments m depth a b c d segs ∧
        (∀ lut, drawSegment m.curveRes a d lut = drawAll m.curveRes segs lut) ∧
        (∀ e, e ∈ segs → SegmentUp e ∧ e.2.x ≤ d.x ∧ e.2.y ≤ d.y) ∧
        ∀ i, tableCoord m.curveRes a.x ≤ i → i ≤ tableCoord m.curveRes d.x →
          ∃ e, e ∈ segs ∧ ∃ v, SegmentLeaves m.curveRes e i v := by
    intro depth a b c d hx hy ha ha' hflat
    refine ⟨[(a, d)], .chord depth a b c d hflat, fun _ => rfl, fun e he => ?_, fun i h0 h1 => ?_⟩
    · obtain rfl := List.mem_singleton.mp he
      exact ⟨⟨ha, ha', hx.le.1, hy.le.1⟩, le_refl _, le_refl _⟩
    · exact ⟨_, List.mem_singleton.mpr rfl, exists_lineLeaves _ _ h0 (by simp only; omega)⟩
  induction r with
  | zero =>
    intro depth a b c d hr hx hy ha ha'
    exact one depth a b c d hx hy ha ha' (.inl (by omega))
  | succ r ih =>
    intro depth a b c d hr hx hy ha ha'
    by_cases hn : b.near m.flatTol a d = true ∧ c.near m.flatTol a d = true
    · obtain ⟨segs, h⟩ := one depth a b c d hx hy ha ha'
        (.inr ⟨(Pt.near_iff ..).mp hn.1, (Pt.near_iff ..).mp hn.2⟩)
      refine ⟨segs, h.1, fun lut => ?_, h.2.2⟩
      rw [subdivide, if_pos (by simp [hn]), h.2.1]
    · have mx := hx.halves
      have my := hy.halves
      obtain ⟨s1, c1, d1, u1, v1⟩ := ih (depth + 1) a ⟨(a.x + b.x) / 2, (a.y + b.y) / 2⟩
        ⟨(a.x + 2 * b.x + c.x) / 4, (a.y + 2 * b.y + c.y) / 4⟩
        ⟨(a.x + 3 * b.x + 3 * c.x + d.x) / 8, (a.y + 3 * b.y + 3 * c.y + d.y) / 8⟩
        (by omega) mx.1 my.1 ha ha'
      obtain ⟨s2, c2, d2, u2, v2⟩ := ih (depth + 1)
        ⟨(a.x + 3 * b.x + 3 * c.x + d.x) / 8, (a.y + 3 * b.y + 3 * c.y + d.y) / 8⟩
        ⟨(b.x + 2 * c.x + d.x) / 4, (b.y + 2 * c.y + d.y) / 4⟩
        ⟨(c.x + d.x) / 2, (c.y + d.y) / 2⟩ d
        (by omega) mx.2 my.2 (ha.trans mx.1.le.1) (ha'.trans my.1.le.1)
      refine ⟨s1 ++ s2, .halves depth a b c d _ _ _ _ _ s1 s2 (by omega) (fun h => hn
        ⟨(Pt.near_iff ..).mpr h.1, (Pt.near_iff ..).mpr h.2⟩) rfl rfl rfl rfl rfl c1 c2,
        fun lut => ?_, fun e he => ?_, fun i h0 h1 => ?_⟩
      · rw [drawAll_append, ← d1, ← d2, subdivide, if_neg (by simpa using hn)]
        have e1 : ∀ p q w : ℚ, ((p + q) / 2 + (q + w) / 2) / 2 = (p + 2 * q + w) / 4 := by
          intros; ring
        have e2 : ∀ p q w z : ℚ, ((p + 2 * q + w) / 4 + (q + 2 * w + z) / 4) / 2 =
            (p + 3 * q + 3 * w + z) / 8 := by
          intros; ring
        simp only [Pt.mid, e1, e2]
      · rcases List.mem_append.mp he with he | he
        · have := u1 e he
          exact ⟨this.1, this.2.1.trans mx.2.le.1, this.2.2.trans my.2.le.1⟩
        · exact u2 e he
      · rcases le_total i (tableCoord m.curveRes ((a.x + 3 * b.x + 3 * c.x + d.x) / 8)) with h | h
        · obtain ⟨e, he, hv⟩ := v1 i h0 h
          exact ⟨e, List.mem_append.mpr (.inl he), hv⟩
        · obtain ⟨e, he, hv⟩ := v2 i h h1
          exact ⟨e, List.mem_append.mpr (.inr he), hv⟩

/-- `BUILD` keeps the canonical form of the table, and writes no word past its end (R178). -/
theorem State.build_lut_keeps {s : State} (hw : Memory.wf s.lut = true) (w1 w2 : Word) :
    Memory.wf (s.build w1 w2).lut = true ∧
    ∀ i, s.params.curveRes < i → Memory.read (s.build w1 w2).lut i = Memory.read s.lut i := by
  obtain ⟨hx1, hx1', hy1, hy1'⟩ := packedPoint_unit w1
  obtain ⟨hx2, hx2', hy2, hy2'⟩ := packedPoint_unit w2
  obtain ⟨segs, _, hd, hu, _⟩ := subdivide_spec s.params s.params.depthMax 0 ⟨0, 0⟩ (packedPoint w1)
    (packedPoint w2) ⟨1, 1⟩ (by omega) (Rising.unit hx1 hx1' hx2 hx2')
    (Rising.unit hy1 hy1' hy2 hy2') (le_refl _) (le_refl _)
  have keeps := drawAll_keeps s.params.curveRes hw fun e he => (hu e he).1
  have t1 : tableCoord s.params.curveRes 1 = s.params.curveRes := by simp [tableCoord]
  simp only [State.build, buildLut, controlPoint_eq, hd]
  refine ⟨keeps.1, fun i hi => keeps.2 i fun e he v hv => ?_⟩
  have h1 := hv.within.2.1
  have h2 := tableCoord_mono (n := s.params.curveRes) (hu e he).1.x
  have h3 := tableCoord_mono (n := s.params.curveRes) (hu e he).2.1
  simp only [t1] at h3
  omega

end Sys2Proof.Machine
end

