-- ==== Sys2Proof/Laws/PerInstr.lean ====
section
/-! SUPPORT. One lemma per constructor of `Instr`: the encoder writes a word of the instruction's row of
spec/opcode_table.json. -/

namespace Sys2Proof.Laws.EncodesRow

/-- The encoding of a well-formed instruction lies in its row of the opcode table. -/
def Statement (i : Instr) : Prop := i.wellFormed = true → encode i &&& i.rowMask = i.rowMatch

/-- Two words agree under a mask when their bits do. -/
theorem and_eq_of_bits {a m b : Word}
    (h : ∀ i, i < 32 → (a.getLsbD i && m.getLsbD i) = b.getLsbD i) : a &&& m = b := by
  apply BitVec.eq_of_getLsbD_eq
  intro i hi
  rw [BitVec.getLsbD_and]
  exact h i hi

/-- The bits of an RI word. -/
theorem formatRI_getLsbD (op : BitVec 8) (rd rs1 : RegNum) (imm : BitVec 16) (i : Nat) :
    (formatRI op rd rs1 imm).getLsbD i =
      if i < 16 then imm.getLsbD i
      else if i - 16 < 4 then rs1.getLsbD (i - 16)
      else if i - 16 - 4 < 4 then rd.getLsbD (i - 16 - 4)
      else op.getLsbD (i - 16 - 4 - 4) := by
  unfold formatRI
  refine (BitVec.getLsbD_append (x := op ++ rd ++ rs1) (y := imm)).trans ?_
  rw [BitVec.getLsbD_append, BitVec.getLsbD_append]

/-- The bits of an R3 word. -/
theorem formatR3_getLsbD (op : BitVec 8) (rd rs1 rs2 : RegNum) (i : Nat) :
    (formatR3 op rd rs1 rs2).getLsbD i =
      if i < 12 then false
      else if i - 12 < 4 then rs2.getLsbD (i - 12)
      else if i - 12 - 4 < 4 then rs1.getLsbD (i - 12 - 4)
      else if i - 12 - 4 - 4 < 4 then rd.getLsbD (i - 12 - 4 - 4)
      else op.getLsbD (i - 12 - 4 - 4 - 4) := by
  unfold formatR3
  refine (BitVec.getLsbD_append (x := op ++ rd ++ rs1 ++ rs2) (y := 0#12)).trans ?_
  rw [BitVec.getLsbD_append, BitVec.getLsbD_append, BitVec.getLsbD_append]
  split <;> simp_all

/-- The bits of a B word. -/
theorem formatB_getLsbD (op imm : BitVec 8) (i : Nat) :
    (formatB op imm).getLsbD i =
      if i < 8 then imm.getLsbD i
      else if i - 8 < 16 then false
      else op.getLsbD (i - 8 - 16) := by
  unfold formatB
  refine (BitVec.getLsbD_append (x := op ++ 0#16) (y := imm)).trans ?_
  rw [BitVec.getLsbD_append]
  split <;> simp_all

theorem nop : Statement (.nop) := by
  intro _
  decide

theorem li (rd : RegNum) (imm : BitVec 16) : Statement (.li rd imm) := by
  intro _
  apply and_eq_of_bits
  intro i hi
  simp only [encode, Instr.rowMask, Instr.rowMatch, formatRI_getLsbD]
  interval_cases i <;> simp

theorem lui (rd : RegNum) (imm : BitVec 16) : Statement (.lui rd imm) := by
  intro _
  apply and_eq_of_bits
  intro i hi
  simp only [encode, Instr.rowMask, Instr.rowMatch, formatRI_getLsbD]
  interval_cases i <;> simp

theorem mfsr (rd : RegNum) (sr : BitVec 16) : Statement (.mfsr rd sr) := by
  intro _
  apply and_eq_of_bits
  intro i hi
  simp only [encode, Instr.rowMask, Instr.rowMatch, formatRI_getLsbD]
  interval_cases i <;> simp

theorem mtsr (sr : BitVec 16) (rs1 : RegNum) : Statement (.mtsr sr rs1) := by
  intro _
  apply and_eq_of_bits
  intro i hi
  simp only [encode, Instr.rowMask, Instr.rowMatch, formatRI_getLsbD]
  interval_cases i <;> simp

theorem trd (rd rs1 : RegNum) (space : BitVec 16) : Statement (.trd rd rs1 space) := by
  intro _
  apply and_eq_of_bits
  intro i hi
  simp only [encode, Instr.rowMask, Instr.rowMatch, formatRI_getLsbD]
  interval_cases i <;> simp

theorem twr (rv rs1 : RegNum) (space : BitVec 16) : Statement (.twr rv rs1 space) := by
  intro _
  apply and_eq_of_bits
  intro i hi
  simp only [encode, Instr.rowMask, Instr.rowMatch, formatRI_getLsbD]
  interval_cases i <;> simp

theorem init : Statement (.init) := by
  intro _
  decide

theorem halt : Statement (.halt) := by
  intro _
  decide

theorem rdfld (rd : RegNum) (fid : BitVec 16) : Statement (.rdfld rd fid) := by
  intro _
  apply and_eq_of_bits
  intro i hi
  simp only [encode, Instr.rowMask, Instr.rowMatch, formatRI_getLsbD]
  interval_cases i <;> simp

theorem build (rs1 rs2 : RegNum) : Statement (.build rs1 rs2) := by
  intro _
  apply and_eq_of_bits
  intro i hi
  simp only [encode, Instr.rowMask, Instr.rowMatch, formatR3_getLsbD]
  interval_cases i <;> simp

theorem apply (rd rs1 rs2 : RegNum) : Statement (.apply rd rs1 rs2) := by
  intro _
  apply and_eq_of_bits
  intro i hi
  simp only [encode, Instr.rowMask, Instr.rowMatch, formatR3_getLsbD]
  interval_cases i <;> simp

theorem enter (rd rs1 rs2 : RegNum) : Statement (.enter rd rs1 rs2) := by
  intro _
  apply and_eq_of_bits
  intro i hi
  simp only [encode, Instr.rowMask, Instr.rowMatch, formatR3_getLsbD]
  interval_cases i <;> simp

theorem exit (rs1 : RegNum) : Statement (.exit rs1) := by
  intro _
  apply and_eq_of_bits
  intro i hi
  simp only [encode, Instr.rowMask, Instr.rowMatch, formatR3_getLsbD]
  interval_cases i <;> simp

theorem chfor (rd rs1 : RegNum) (mode : BitVec 16) : Statement (.chfor rd rs1 mode) := by
  intro h
  have h' : mode.toNat ≤ 2 := by simpa [Instr.wellFormed, chforModeOk] using h
  have hm : mode = 0 ∨ mode = 1 ∨ mode = 2 := by bv_omega
  apply and_eq_of_bits
  intro i hi
  simp only [encode, Instr.rowMask, Instr.rowMatch, formatRI_getLsbD]
  rcases hm with rfl | rfl | rfl <;> interval_cases i <;> simp


theorem feed (b : Byte) : Statement (.feed b) := by
  intro _
  apply and_eq_of_bits
  intro i hi
  simp only [encode, Instr.rowMask, Instr.rowMatch, formatB_getLsbD]
  interval_cases i <;> simp

theorem feedr (rs1 : RegNum) : Statement (.feedr rs1) := by
  intro _
  apply and_eq_of_bits
  intro i hi
  simp only [encode, Instr.rowMask, Instr.rowMatch, formatR3_getLsbD]
  interval_cases i <;> simp

theorem nextpkt (rd : RegNum) : Statement (.nextpkt rd) := by
  intro _
  apply and_eq_of_bits
  intro i hi
  simp only [encode, Instr.rowMask, Instr.rowMatch, formatR3_getLsbD]
  interval_cases i <;> simp

theorem decode (rd : RegNum) : Statement (.decode rd) := by
  intro _
  apply and_eq_of_bits
  intro i hi
  simp only [encode, Instr.rowMask, Instr.rowMatch, formatR3_getLsbD]
  interval_cases i <;> simp

theorem pump (rd : RegNum) : Statement (.pump rd) := by
  intro _
  apply and_eq_of_bits
  intro i hi
  simp only [encode, Instr.rowMask, Instr.rowMatch, formatR3_getLsbD]
  interval_cases i <;> simp

theorem pktP45Enter (low : BitVec 2) : Statement (.pktP45Enter low) := by
  intro _
  revert low
  decide

end Sys2Proof.Laws.EncodesRow
end

