-- ==== Sys2Proof/Tests/Slice0.lean ====
section
/-! SUPPORT. The model's own tests: the well-formedness smoke, words of the spec's encodings, one step of
each instruction on small states (values of spec/95_test_vectors.md), and for each statement with
hypotheses a state and operands that meet them. -/

namespace Sys2Proof.Tests

set_option Elab.async false

open Sys2Proof Sys2Proof.Machine

/-! ### Well-formedness -/

theorem test_wellFormed_refuses_chfor_mode_3 : Instr.wellFormed (.chfor 8 9 3) = false := by decide
theorem test_wellFormed_refuses_chfor_mode_top : Instr.wellFormed (.chfor 0 0 0xFFFF) = false := by
  decide
theorem test_wellFormed_accepts_chfor_mode_2 : Instr.wellFormed (.chfor 8 9 2) = true := by decide

/-! ### Decoding: words written out from 30_encoding.md R100 and R103, field by field -/

/-- The decoder reads `i` from the word and the encoder writes it back. -/
def reads (w : Word) (i : Instr) : Bool :=
  match decode w with
  | .ok j => j == i && encode i == w
  | .error _ => false

/-- The decoder refuses the word. -/
def rejects (w : Word) : Bool :=
  match decode w with
  | .ok _ => false
  | .error _ => true

theorem test_decode_nop : reads 0b00000000_0000_0000_0000000000000000 .nop = true := by decide
theorem test_decode_li :
    reads 0b00000001_0010_0000_0000000011111010 (.li 2 0xFA) = true := by decide
theorem test_decode_lui :
    reads 0b00000010_0010_0000_1000000000000000 (.lui 2 0x8000) = true := by decide
theorem test_decode_mfsr :
    reads 0b00000011_1000_0000_0000000000000001 (.mfsr 8 1) = true := by decide
theorem test_decode_mtsr :
    reads 0b00000100_0000_0010_0000000000000101 (.mtsr 5 2) = true := by decide
theorem test_decode_trd :
    reads 0b00000101_0111_0110_0000000000000100 (.trd 7 6 4) = true := by decide
theorem test_decode_twr :
    reads 0b00000110_0010_0001_0000000000000011 (.twr 2 1 3) = true := by decide
theorem test_decode_init : reads 0b00000111_0000_0000_0000000000000000 .init = true := by decide
theorem test_decode_halt : reads 0b00001000_0000_0000_0000000000000000 .halt = true := by decide
theorem test_decode_rdfld :
    reads 0b00010000_0101_0000_0000000000000110 (.rdfld 5 6) = true := by decide
theorem test_decode_build :
    reads 0b00100000_0000_0001_0010_000000000000 (.build 1 2) = true := by decide
theorem test_decode_apply :
    reads 0b00100001_0101_0011_0100_000000000000 (.apply 5 3 4) = true := by decide
theorem test_decode_enter :
    reads 0b00110000_0011_0001_0010_000000000000 (.enter 3 1 2) = true := by decide
theorem test_decode_exit :
    reads 0b00110001_0000_0001_0000_000000000000 (.exit 1) = true := by decide
theorem test_decode_chfor :
    reads 0b00110010_1000_1001_0000000000000010 (.chfor 8 9 2) = true := by decide
theorem test_decode_feed :
    reads 0b01000000_0000000000000000_11000010 (.feed 0xC2) = true := by decide
theorem test_decode_feedr :
    reads 0b01000001_0000_0001_0000_000000000000 (.feedr 1) = true := by decide
theorem test_decode_nextpkt :
    reads 0b01000010_0011_0000_0000_000000000000 (.nextpkt 3) = true := by decide
theorem test_decode_decode :
    reads 0b01000011_0011_0000_0000_000000000000 (.decode 3) = true := by decide
theorem test_decode_pump :
    reads 0b01000100_0011_0000_0000_000000000000 (.pump 3) = true := by decide
theorem test_decode_packet_byte :
    decodePacketByte 0b110000_10 = some (.pktP45Enter 2) ∧ decodePacketByte 0b110001_00 = none := by
  decide

/-- An unassigned opcode, an unused register field, a must-be-zero bit, mode 3 (R104). -/
theorem test_decode_rejects :
    rejects 0x09000000 = true ∧ rejects 0x01010000 = true ∧ rejects 0x00000001 = true ∧
      rejects 0x32000003 = true := by decide

theorem test_decodeTableWord :
    decodeTableWord 32 0x43300000 = some (.decode 3) ∧
      decodeTableWord 8 0xC3 = some (.pktP45Enter 3) ∧ decodeTableWord 32 0xC3 = none := by decide

/-! ### Small states -/

/-- A property of the next state; false of a fault or a refusal. -/
def next (o : Out) (p : State → Bool) : Bool :=
  match o with
  | .next t => p t
  | .fault _ => false
  | .refused _ => false

/-- Small parameters, so that a test is quick. -/
def tiny : Params :=
  { Params.default with
    curveRes := 4, nchMax := 3, pktMax := 10, ringSize := 12, fdtSize := 8, clsSize := 2,
    tidSize := 2 }

theorem tiny_wf : tiny.Wf := by constructor <;> decide

/-- `s` with `r1`, `r2`, `r3` loaded. -/
def with3 (s : State) (a b c : Word) : State :=
  { s with x := Vector.ofFn fun i => if i = 1 then a else if i = 2 then b else if i = 3 then c else 0 }

/-- A profile of two tool channels and a pad, in the CONFIG state. -/
def config : State :=
  { State.afterReset tiny (Vector.replicate 16 0) with plen := 4, nch := 2, caps := 15 }

/-- The same, in the RUN state. -/
def running : State :=
  { config with
    status := { run := true }, cht := [Channel.empty, Channel.empty, Channel.padEntry] }

/-- The same, in the fault state. -/
def faulted : State :=
  { running with status := { run := true, fault := true }, fcause := .fieldRange, finfo := 0x103 }

/-- Two tools in proximity, PEN with serial 0 on channel 0 and MOUSE with serial 7 on channel 1. -/
def twoTools : State :=
  { running with
    cht := [{ toolType := .pen, inProx := true },
      { serial := 7, toolType := .mouse, inProx := true, btn := 1 }, Channel.padEntry]
    lastch := 1
    tid := [(0, 0x22), (1, 0x80000001)] }

/-- A table in which the curve is built: the identity for `N` = 4. -/
def curved : State :=
  { running with
    lut := [(1, 1), (2, 2), (3, 3), (4, 4)], status := { run := true, curveValid := true } }

/-- An ISDV4 profile: header bit 7, length 6 for a header byte with bits 7 and 6, else 4. -/
def stylus (ring : List Byte) : State :=
  { running with
    proto := .isdv4, caps := 0, hdrmask := 0x80, lsel := #v[0x80C0C006, 0, 0, 0], ring := ring }

/-- Field `f` is packet byte `f` (f < 4), and layout 0 has prox, toolsel, tag, tool ID, serial,
buttons, X, pressure, wheels and the first query slot; rule 0 is always hit, with word 2 `w2`. -/
def latched (s : State) (proto : Proto) (w2 : Word) (pkt : List Byte) : State :=
  { s with
    proto := proto
    pkt := pkt
    status := { s.status with pktValid := true }
    cls := [(0, 0x80000000), (2, w2)]
    fdt := [(0, 0x80000001), (1, 0xFF00), (8, 0x80000001), (9, 0xFF01), (16, 0x80000001),
      (17, 0xFF02), (24, 0x80000001), (25, 0xFF03)]
    lay := [(0, 0x03020201), (1, 0x00040302), (2, 0x00000004), (3, 0x04040000), (4, 1)] }

/-! ### One step of each instruction -/

theorem test_nop : next (exec .nop faulted) (fun t => t == faulted) = true := by decide +kernel
theorem test_li : next (exec (.li 2 0x00FA) config) (fun t => t.reg 2 == 0xFA) = true := by
  decide +kernel
theorem test_lui :
    next (exec (.lui 2 0x8000) (with3 config 0 0x12341234 0))
      (fun t => t.reg 2 == 0x80001234) = true := by decide +kernel
theorem test_mfsr_id : next (exec (.mfsr 8 0) faulted) (fun t => t.reg 8 == 0x42465801) = true := by
  decide +kernel
theorem test_mfsr_undefined :
    next (exec (.mfsr 8 0x0E) (with3 config 0 0 0))
      (fun t => t.reg 8 == 0 && t.status.errCmd) = true := by decide +kernel
theorem test_mtsr_nch :
    next (exec (.mtsr 6 1) (with3 { config with caps := 0 } 3 0 0)) (fun t => t.nch == 3) = true := by
  decide +kernel
theorem test_mtsr_illegal :
    next (exec (.mtsr 6 1) (with3 config 3 0 0)) (fun t => t.nch == 2 && t.status.errCmd) = true := by
  decide +kernel
theorem test_trd_channel :
    next (exec (.trd 7 1 5) (with3 twoTools 17 0 0)) (fun t => t.reg 7 == 0x16) = true := by
  decide +kernel
theorem test_trd_past_end :
    next (exec (.trd 7 1 6) (with3 running 0 0 0)) (fun t => t.reg 7 == 0 && t.status.errCmd) = true := by
  decide +kernel
theorem test_twr :
    next (exec (.twr 2 1 3) (with3 config 3 0x80000005 0))
      (fun t => Memory.read t.tid 3 == 0x80000005) = true := by decide +kernel
theorem test_twr_lut_refused :
    next (exec (.twr 2 1 4) (with3 config 0 1 0)) (fun t => t.lut == [] && t.status.errCmd) = true := by
  decide +kernel
theorem test_init :
    next (exec .init config)
      (fun t => t.status.toWord == 0x800 && t.ch 2 == Channel.padEntry && t.lastch == noch) = true := by
  decide +kernel
theorem test_init_refused :
    next (exec .init { config with plen := 0 }) (fun t => t.status.toWord == 0x80) = true := by
  decide +kernel
theorem test_halt : next (exec .halt twoTools) (fun t => !t.status.run && t.cht == twoTools.cht) = true := by
  decide +kernel

/-- 95_test_vectors.md section 2, row 5: byte 0xC2 signed from bit 7. -/
theorem test_rdfld_signed :
    next (exec (.rdfld 5 0) { running with pkt := [0x02, 0xC2], fdt := [(0, 0x80000079), (1, 0xFF01)] })
      (fun t => t.reg 5 == 0xFFFFFFC2) = true := by decide +kernel
/-- Row 24: the second fragment names the byte past the packet. -/
theorem test_rdfld_range :
    next (exec (.rdfld 5 3)
      { running with
        pkt := List.replicate 10 0, fdt := [(24, 0x80000002), (25, 0xFF09), (26, 0x8FF0A)] })
      (fun t => t.fcause == .fieldRange && t.finfo == 0x000A0203) = true := by decide +kernel

/-- Section 3.1. -/
theorem test_line :
    line 0 0 5 2 [] = [(2, 1), (3, 1), (4, 2), (5, 2)] ∧
      line 0 0 3 2 [] = [(1, 1), (2, 1), (3, 2)] ∧
      line 0 0 2 5 [] = [(0, 1), (1, 3), (2, 5)] ∧ line 3 3 3 7 [] = [(3, 7)] := by decide +kernel
/-- Section 3.2, the second table (`N` = 16). -/
theorem test_build :
    next (exec (.build 1 2)
      (with3 { config with params := { tiny with curveRes := 16, depthMax := 16 } }
        0x00004000 0x40008000 0))
      (fun t => (t.lut.map fun p => p.2.toNat) ==
        [3, 6, 8, 9, 10, 11, 12, 13, 13, 14, 14, 14, 15, 15, 15, 16, 16]) = true := by decide +kernel
/-- Section 3.1: `line(0,0,2,5)` leaves 1, 3 and 5; `line(10,10,12,11)` leaves 11 at 11. -/
theorem test_line_leaves :
    LineLeaves 0 0 2 5 0 1 ∧ LineLeaves 0 0 2 5 1 3 ∧ LineLeaves 0 0 2 5 2 5 ∧
      LineLeaves 10 10 2 1 11 11 :=
  ⟨⟨1, by decide, by decide, rfl, by omega⟩, ⟨3, by decide, by decide, rfl, by omega⟩,
    ⟨5, by decide, by decide, rfl, by omega⟩, ⟨1, by decide, rfl, rfl⟩⟩
theorem test_build_in_run_refused :
    next (exec (.build 1 2) running) (fun t => t.lut == [] && t.status.toWord == 0x880) = true := by
  decide +kernel
/-- Section 3.2: `curve(100, 255)` is 95 with the identity table for `N` = 16, whose entry 6 is 6. -/
theorem test_apply :
    next (exec (.apply 5 1 2)
      (with3 { curved with params := { tiny with curveRes := 16 }, lut := [(6, 6)] } 100 255 0))
      (fun t => t.reg 5 == 95) = true := by decide +kernel
theorem test_apply_range :
    next (exec (.apply 5 1 2) (with3 curved 100 0x80000000 0))
      (fun t => t.fcause == .curveRange && t.finfo == 0x80000000 && t.reg 5 == 0) = true := by
  decide +kernel

theorem test_enter :
    next (exec (.enter 3 1 2) (with3 { running with tid := [(0, 0x22), (1, 0x80000001)] } 9 0x22 0))
      (fun t => t.reg 3 == 0 && t.lastch == 0 && (t.ch 0).toolType == .pen && (t.ch 0).serial == 9)
      = true := by decide +kernel
/-- Section 4 step 9: no free channel and no map entry. -/
theorem test_enter_exhausted :
    next (exec (.enter 12 1 2) (with3 twoTools 0x55 0x999 0))
      (fun t => t.reg 12 == 0 && t.status.toWord == 0x830 && (t.ch 0).serial == 0x55) = true := by
  decide +kernel
theorem test_exit :
    next (exec (.exit 1) (with3 twoTools 7 0 0))
      (fun t => t.ch 1 == Channel.empty && t.lastch == 1) = true := by decide +kernel
theorem test_exit_unknown :
    next (exec (.exit 1) (with3 twoTools 2 0 0)) (fun t => t.cht == twoTools.cht) = true := by
  decide +kernel
theorem test_chfor_serial :
    next (exec (.chfor 8 1 2) (with3 twoTools 7 0 0)) (fun t => t.reg 8 == 1) = true := by
  decide +kernel
theorem test_chfor_tag :
    next (exec (.chfor 8 1 1) (with3 twoTools 2 0 0))
      (fun t => t.reg 8 == 0 && t.status.toWord == 0x820) = true := by decide +kernel

theorem test_feed : next (exec (.feed 0xC2) running) (fun t => t.ring == [0xC2]) = true := by
  decide +kernel
theorem test_feed_overrun :
    next (exec (.feed 1) { running with ring := List.replicate 12 0 })
      (fun t => t.ring.length == 12 && t.status.toWord == 0x840) = true := by decide +kernel
theorem test_feedr :
    next (exec (.feedr 1) (with3 running 0x123456C2 0 0)) (fun t => t.ring == [0xC2]) = true := by
  decide +kernel
theorem test_nextpkt_fixed :
    next (exec (.nextpkt 3) { running with ring := [0, 1, 2, 3, 4, 5] })
      (fun t => t.reg 3 == 1 && t.pkt == [0, 1, 2, 3] && t.ring == [4, 5] && t.pktcnt == 1) = true := by
  decide +kernel
/-- Section 5.2, third row: a header inside a packet. -/
theorem test_nextpkt_header :
    next (exec (.nextpkt 3) (stylus [0x81, 0x01, 0x82, 0x04, 0x05, 0x06]))
      (fun t => t.reg 3 == 1 && t.pkt == [0x82, 4, 5, 6] && t.status.toWord == 0x904) = true := by
  decide +kernel

/-- GENERAL for serial 7 on channel 1: motion, the buttons that changed, then the wheels. -/
theorem test_decode_general :
    next (exec (.decode 3) (latched twoTools .proto5 4 [0, 7, 2, 0xFE]))
      (fun t => t.reg 3 == 1 && t.evcnt == 5 && (t.ch 1).btn == 2 &&
        (t.evout.drop 1).take 2 == [.button 1 0 false, .button 1 1 true]) = true := by decide +kernel
/-- Section 6.1, F4: FLAGPROX is not legal for a SUBTYPE protocol. -/
theorem test_decode_bad_kind :
    next (exec (.decode 3) (latched running .proto5 1 [0, 0, 0, 0]))
      (fun t => t.status.toWord == 0x901 && t.fcause == .badKind && t.pkt.length == 4) = true := by
  decide +kernel
/-- Two packets, each dropped as unknown (section 5.1). -/
theorem test_pump :
    next (exec (.pump 3) { running with ring := List.replicate 10 0 })
      (fun t => t.reg 3 == 2 && t.ring.length == 2 && t.status.toWord == 0x80A) = true := by
  decide +kernel
theorem test_packet_pattern_refused :
    next (step (running.withFetchWord 8 0xC2)) (fun t => t.status.toWord == 0x880) = true := by
  decide +kernel

/-- 95_test_vectors.md S1: the source's enter packet, by the facts of R123 and R124 as profile data. -/
theorem test_packet_pattern_enters :
    next (exec (.decode 3)
      { (running.loadField 0 p45ToolIdField).loadField 1 p45SerialField with
        proto := .proto5
        status := { run := true, pktValid := true }
        cls := [(0, p45EnterCond), (2, 2)]
        lay := [(0, 0x01000000), (1, 2)]
        tid := [(0, 0x22), (1, 0x80000001)]
        pkt := [0x02, 0xC2, 0x02, 0x20, 0x12, 0x34, 0x56, 0x78, 0, 0] })
      (fun t => t.reg 3 == 1 && t.evout == [.prox 0 .pen true 0x01234567] &&
        t.evout.flatMap Event.words == [0x10000011, 0x01234567]) = true := by decide +kernel

/-! ### Witnesses: the hypotheses of each statement, met together, clause by clause -/

/-- `s` to which the host issues `w`. -/
def issued (s : State) (w : Word) : State := { s with input := [.command w] }

theorem witness_DecodeEncodeRoundTrip : Instr.wellFormed (.chfor 15 15 2) = true := by decide
theorem witness_DecodeAcceptsTheOpcodeTable : decode 0x32FF0002 = .ok (.chfor 15 15 2) := by rfl
theorem witness_StepRunsTheDecodedCommand :
    decode 0x43300000 = .ok (.decode 3) ∧
      (issued running 0x43300000).input = .command 0x43300000 :: [] := ⟨rfl, rfl⟩
/-- In the fault state a word with `NOP`'s opcode and a wrong must-be-zero bit passes step 1 of R101 and is
refused by step 2 (R330). -/
theorem test_illegal_nop_in_fault_state :
    next (step (issued faulted 0x00000001)) (fun t => t == (refuse faulted)) = true := by
  decide +kernel
/-- An unassigned opcode and opcode 4 in the fault state; an unassigned opcode outside it; opcode 0 in
it. -/
theorem witness_IllegalWordsAreRefused :
    (decode 0x09000000 = .error (.unassignedOpcode 9) ∧ decode 0x04100000 = .error (.mustBeZero 4) ∧
      (issued faulted 0x04100000).input = .command 0x04100000 :: [] ∧
      (issued faulted 0x04100000).status.fault = true ∧
      (0x04100000 : Word).toNat / 2 ^ 24 ∉ [0, 1, 2, 3, 5] ∧
      (0x09000000 : Word).toNat / 2 ^ 24 ∉ [0, 1, 2, 3, 5]) ∧
    (issued running 0x09000000).status.fault = false ∧
    decode 0x00000001 = .error (.mustBeZero 0) ∧ (0x00000001 : Word).toNat / 2 ^ 24 ∈ [0, 1, 2, 3, 5] :=
  ⟨⟨rfl, rfl, rfl, rfl, by decide, by decide⟩, rfl, rfl, by decide⟩
theorem witness_HardwareResetGivesTheResetState :
    ({ faulted with input := [.reset (Vector.replicate 16 5)] } : State).input =
      .reset (Vector.replicate 16 5) :: [] := rfl
theorem witness_EveryStepAnswers : State.reset.input = [] := rfl
/-- The three clauses: ENTER in the fault state, TWR while running, PUMP while configuring. -/
theorem witness_CommandsNeedTheirState :
    (Instr.need (.enter 1 2 3) = some .run ∧ faulted.status.fault = true ∧ Need.run ≠ .every) ∧
    (Instr.need (.twr 1 2 3) = some .config ∧ running.status.fault = false ∧
      running.status.run = true) ∧
    (Instr.need (.pump 1) = some .run ∧ config.status.fault = false ∧ config.status.run = false) := by
  decide
theorem witness_FaultStateKeepsTheEvidence :
    (issued faulted 0x012000FA).status.fault = true ∧ (issued faulted 0x40000001).status.fault = true ∧
      (∃ t, step (issued faulted 0x012000FA) = .next t) ∧
      (∃ t, step (issued faulted 0x40000001) = .next t) ∧
      (0x40000001 : Word).toNat / 2 ^ 24 ∉ [0, 1, 2, 3, 5] ∧
      (∃ t, step (issued faulted 0x00000001) = .next t) ∧
      (0x00000001 : Word).toNat / 2 ^ 24 ∈ [0, 1, 2, 3, 5] ∧ ∃ e, decode 0x00000001 = .error e :=
  ⟨rfl, rfl, ⟨_, rfl⟩, ⟨_, rfl⟩, by decide, ⟨_, rfl⟩, by decide, _, rfl⟩
/-- A step that stays in the fault state, and one that leaves it. -/
theorem witness_OnlyResetLeavesTheFaultState :
    (∃ t, step (issued faulted 0x08000000) = .next t) ∧
      ∃ t, step { faulted with input := [.reset (Vector.replicate 16 0)] } = .next t :=
  ⟨⟨_, rfl⟩, ⟨_, rfl⟩⟩
/-- The last number of the table, and a number in a gap of it. -/
theorem witness_MfsrReadsEverySystemRegister :
    ((0x1C#16).toNat, word faulted.pkt.length) ∈ faulted.sysRegs ∧
      ∀ v, ((0x0E#16).toNat, v) ∉ faulted.sysRegs := by
  constructor
  · simp [State.sysRegs]
  · intro v
    simp [State.sysRegs]
theorem witness_StatusReadsWholeAndClearsByWriting :
    faulted.status.fault = true ∧ running.status.fault = false := ⟨rfl, rfl⟩
/-- NCH + HAS_PAD = NCH_MAX is legal and one more is not; RUN refuses; the fault state ignores. -/
theorem witness_MtsrWritesLegalProfileValues :
    config.params.Wf ∧ (0x06#16) ≠ 0x01 ∧ config.status.fault = false ∧ config.status.run = false ∧
      (with3 config 2 3 0).cfgLegal (0x06#16).toNat ((with3 config 2 3 0).reg 1).toNat ∧
      ¬ (with3 config 2 3 0).cfgLegal (0x06#16).toNat ((with3 config 2 3 0).reg 2).toNat ∧
      running.status.run = true ∧ faulted.status.fault = true := by
  refine ⟨tiny_wf, by decide, rfl, rfl, ?_, ?_, rfl, rfl⟩ <;> unfold State.cfgLegal <;> decide +kernel
/-- The last index of CHT, and the first past it. -/
theorem witness_TrdReadsEveryTable :
    (with3 running 47 48 0).table (5#16).toNat ((with3 running 47 48 0).reg 1).toNat = some 0 ∧
      (with3 running 47 48 0).table (5#16).toNat ((with3 running 47 48 0).reg 2).toNat = none := by
  decide +kernel

/-- A state whose tables list nothing has sound tables. -/
theorem empty_tables_sound (s : State) (h : s.fdt = [] ∧ s.cls = [] ∧ s.lay = [] ∧ s.tid = [] ∧
    s.lut = []) : TablesSound s := by
  obtain ⟨h1, h2, h3, h4, h5⟩ := h
  constructor <;> first | (intro i _; simp_all) | simp_all [Memory.wf, Memory.wfFrom]

/-- The last index of TID, the first past it, and the space LUT; `TablesSound` holds the canonical forms. -/
theorem witness_TwrStoresOneWord :
    TablesSound (with3 config 3 4 0) ∧ config.status.fault = false ∧ config.status.run = false ∧
      ((with3 config 3 4 0).table (3#16).toNat ((with3 config 3 4 0).reg 1).toNat).isSome = true ∧
      (with3 config 3 4 0).table (3#16).toNat ((with3 config 3 4 0).reg 2).toNat = none ∧
      4 ≤ (4#16).toNat ∧ TablesSound running ∧ running.status.run = true ∧ TablesSound faulted ∧
      faulted.status.fault = true := by
  refine ⟨empty_tables_sound _ ⟨rfl, rfl, rfl, rfl, rfl⟩, rfl, rfl, by decide +kernel,
    by decide +kernel, by decide, empty_tables_sound _ ⟨rfl, rfl, rfl, rfl, rfl⟩, rfl,
    empty_tables_sound _ ⟨rfl, rfl, rfl, rfl, rfl⟩, rfl⟩
/-- The pad at the last entry; no packet length; ISDV4 without a header mask; the fault state. -/
theorem witness_InitStartsASession :
    (config.status.fault = false ∧ config.plen ≠ 0 ∧
      ¬ (config.proto = .isdv4 ∧ config.hdrmask = 0) ∧ config.hasPad = true ∧
      config.nch.toNat + 1 = config.params.nchMax) ∧
    ({ config with plen := 0 } : State).plen = 0 ∧
    (({ config with proto := .isdv4 } : State).proto = .isdv4 ∧
      ({ config with proto := .isdv4 } : State).hdrmask = 0) ∧
    faulted.status.fault = true := by decide
theorem witness_HaltStopsDecoding :
    faulted.status.fault = true ∧ running.status.fault = false ∧ config.status.fault = false ∧
      config.status.run = false ∧ Instr.need (.feed 1) = some .run := by decide

/-- Field 2 of a packet of three bytes reads its last byte. -/
theorem witness_RdfldAssemblesTheField :
    (latched running .proto5 0 [1, 2, 3]).status.fault = false ∧
      (latched running .proto5 0 [1, 2, 3]).fieldUsable (2#16).toNat ∧
      ∀ k, k ≤ (latched running .proto5 0 [1, 2, 3]).fieldCount (2#16).toNat → 1 ≤ k →
        (latched running .proto5 0 [1, 2, 3]).fragIdx (2#16).toNat k <
          (latched running .proto5 0 [1, 2, 3]).pkt.length := by
  refine ⟨rfl, ?_, by decide +kernel⟩
  unfold State.fieldUsable
  decide +kernel
/-- A field id at the table's size; field 3, whose byte index is the packet's length. -/
theorem witness_RdfldFaultsOnABrokenDescriptor :
    (latched running .proto5 0 [1, 2, 3]).params.Wf ∧
      ¬ (latched running .proto5 0 [1, 2, 3]).fieldUsable (8#16).toNat ∧
      (latched running .proto5 0 [1, 2, 3]).fieldUsable (3#16).toNat ∧
      1 ≤ (latched running .proto5 0 [1, 2, 3]).fieldCount (3#16).toNat ∧
      (latched running .proto5 0 [1, 2, 3]).pkt.length ≤
        (latched running .proto5 0 [1, 2, 3]).fragIdx (3#16).toNat 1 := by
  refine ⟨tiny_wf, ?_, ?_, ?_, ?_⟩ <;> (try unfold State.fieldUsable) <;> decide +kernel
/-- Two states with different operand registers, latched bytes 0 and tables, and the same field 1. -/
theorem witness_FieldsDependOnDescriptorAndPacketOnly :
    (latched running .proto5 0 [1, 2]).params.fdtSize =
        (latched (with3 twoTools 1 2 3) .pl 5 [9, 2]).params.fdtSize ∧
      (∀ k, k ≤ (latched running .proto5 0 [1, 2]).fieldCount (1#16).toNat →
        (latched running .proto5 0 [1, 2]).fieldWord (1#16).toNat k =
          (latched (with3 twoTools 1 2 3) .pl 5 [9, 2]).fieldWord (1#16).toNat k) ∧
      (∀ k, k ≤ (latched running .proto5 0 [1, 2]).fieldCount (1#16).toNat → 1 ≤ k →
        (latched running .proto5 0 [1, 2]).pkt[
            (latched running .proto5 0 [1, 2]).fragIdx (1#16).toNat k]? =
          (latched (with3 twoTools 1 2 3) .pl 5 [9, 2]).pkt[
            (latched running .proto5 0 [1, 2]).fragIdx (1#16).toNat k]?) := by decide +kernel
theorem witness_SourceEnterPacketFields :
    running.status.fault = false ∧ Memory.wf running.fdt = true ∧
      (7#16).toNat < running.params.fdtSize ∧
      ({ running with pkt := [2, 0xC2, 2, 0x20, 0x12, 0x34, 0x56, 0x78, 0, 0] } : State).pkt =
        (#v[2, 0xC2, 2, 0x20, 0x12, 0x34, 0x56, 0x78, 0, 0] : Vector Byte 10).toList := by decide
theorem witness_BuiltTablesAreTotalAndMonotone :
    config.params.Wf ∧ config.params.curveRes < 2 ^ 32 ∧ config.status.fault = false ∧
      config.status.run = false ∧ Memory.wf config.lut = true ∧ Memory.wf [(0, 3), (9, 1)] = true :=
  ⟨tiny_wf, by decide, rfl, rfl, rfl, by decide⟩
/-- Control points off the diagonal, (0, 0.5) and (0.5, 1). -/
theorem witness_BuildDrawsTheSubdividedCurve :
    (with3 config 0x00004000 0x40008000 0).params.curveRes < 2 ^ 32 ∧ config.status.fault = false ∧
      config.status.run = false ∧ Memory.wf config.lut = true ∧
      ¬ NearSegment tiny.flatTol (packedPoint 0x00004000) ⟨0, 0⟩ ⟨1, 1⟩ := by
  refine ⟨by decide, rfl, rfl, rfl, fun h => ?_⟩
  rw [← Pt.near_iff] at h
  exact absurd h (by rw [← controlPoint_eq]; decide +kernel)
/-- Near control points, (0.25, 0.25) and (0.5, 0.5), and the default ones. -/
theorem witness_CollinearPointsBuildTheIdentity :
    ((controlPoint 0x20002000).dist2 ⟨0, 0⟩ ⟨1, 1⟩ < tiny.flatTol ^ 2 ∧
      (controlPoint 0x40004000).dist2 ⟨0, 0⟩ ⟨1, 1⟩ < tiny.flatTol ^ 2) ∧
    (with3 config 0 0x80008000 0).reg 1 = 0 ∧ (with3 config 0 0x80008000 0).reg 2 = 0x80008000 := by
  decide +kernel
/-- No curve; range 0; range 1 with raw 1 (index N); the fault state. -/
theorem witness_ApplyRemapsThroughTheCurve :
    curved.params.Wf ∧ faulted.status.fault = true ∧ running.status.curveValid = false ∧
      curved.status.fault = false ∧ curved.status.curveValid = true ∧
      ((with3 curved 1 0 1).reg 2).toInt ≤ 0 ∧ 0 < ((with3 curved 1 0 1).reg 3).toInt ∧
      max 0 (min ((with3 curved 1 0 1).reg 1).toInt ((with3 curved 1 0 1).reg 3).toInt) = 1 ∧
      ⌊(((1 : ℤ) : ℚ) * curved.params.curveRes / ((1 : ℤ) : ℚ))⌋ = 4 := by
  refine ⟨tiny_wf, rfl, rfl, rfl, rfl, by decide +kernel, by decide +kernel, by decide +kernel, ?_⟩
  rw [show curved.params.curveRes = 4 from rfl]
  norm_num
/-- The identity table, raw values 0 and the range 4, which is `N`. -/
theorem witness_CurvePropertiesHold :
    curved.params.Wf ∧ curved.status.curveValid = true ∧ 0 < ((with3 curved 0 4 4).reg 3).toInt ∧
      (∀ i, i < curved.params.curveRes →
        (Memory.read curved.lut i).toNat ≤ (Memory.read curved.lut (i + 1)).toNat) ∧
      (∀ i, i < curved.params.curveRes + 1 → (Memory.read curved.lut i).toNat = i) ∧
      ((with3 curved 0 4 4).reg 1).toInt = 0 ∧
      ((with3 curved 0 4 4).reg 2).toInt = ((with3 curved 0 4 4).reg 3).toInt ∧
      ((with3 curved 0 4 4).reg 3).toInt ≤ curved.params.curveRes := by
  refine ⟨tiny_wf, rfl, ?_⟩
  decide +kernel

theorem witness_EnterArbitratesAndPopulates :
    twoTools.status.fault = false ∧ twoTools.status.run = true ∧ 1 ≤ twoTools.nch.toNat ∧
      twoTools.nch.toNat ≤ twoTools.cht.length := by decide
/-- Serial 5, then serial 6: channel 1 is still free. -/
theorem witness_TwoToolsAreNeverMerged :
    ∃ t u, exec (.enter 3 1 0) (with3 running 5 6 0) = .next t ∧ exec (.enter 4 2 0) t = .next u ∧
      (with3 running 5 6 0).reg 1 ≠ t.reg 2 ∧ t.Vacant 1 := by
  refine ⟨_, _, rfl, rfl, ?_⟩
  decide +kernel
/-- A serial that is held, one that is not. -/
theorem witness_ExitClearsTheChannel :
    twoTools.status.run = true ∧ twoTools.nch.toNat ≤ twoTools.cht.length ∧
      twoTools.Finds ((with3 twoTools 7 2 0).reg 1) 1 ∧
      twoTools.FindsNone ((with3 twoTools 7 2 0).reg 2) := by decide +kernel
/-- The last tag and the first past it; a serial that is held, and one that is not; mode 3. -/
theorem witness_ChforAnswersByMode :
    ((with3 twoTools 1 2 7).reg 1).toNat < twoTools.nch.toNat ∧
      twoTools.nch.toNat ≤ ((with3 twoTools 1 2 7).reg 2).toNat ∧
      twoTools.Finds ((with3 twoTools 1 2 7).reg 3) 1 ∧
      twoTools.FindsNone ((with3 twoTools 1 2 7).reg 2) ∧ 2 < (3#16).toNat := by decide +kernel
/-- One byte of room, and a full ring. -/
theorem witness_FeedAppendsAByte :
    running.status.run = true ∧
      (List.replicate 11 (0 : Byte)).length < running.params.ringSize ∧
      (List.replicate 12 (0 : Byte)).length = running.params.ringSize := by decide
/-- A packet latched; one byte too few; exactly PLEN bytes. -/
theorem witness_NextpktFramesFixedLengths :
    (latched running .proto5 0 []).status.pktValid = true ∧ running.status.pktValid = false ∧
      running.proto ≠ .isdv4 ∧ ([1, 2, 3] : List Byte).length < running.plen.toNat ∧
      ({ running with ring := [1, 2, 3, 4] } : State).ring = [1, 2, 3, 4] ++ [] ∧
      ([1, 2, 3, 4] : List Byte).length = running.plen.toNat := by decide
theorem witness_NextpktFramesByHeaderBit :
    (stylus [0x11, 0x81, 1]).status.fault = false ∧ (stylus [0x11, 0x81, 1]).status.run = true ∧
      (stylus [0x11, 0x81, 1]).status.pktValid = false ∧
      (stylus [0x11, 0x81, 1]).proto = .isdv4 := by decide

/-- A stylus with two bytes of garbage before a packet. -/
def noisy : State := stylus [0x11, 0x22, 0x81, 1, 2, 3]

theorem noisy_legal : ProfileLegal noisy :=
  ⟨tiny_wf, by decide, by decide, by decide, by decide +kernel, by decide, by decide⟩

theorem witness_GarbageBeforeAHeaderIsTransparent :
    ProfileLegal noisy ∧ noisy.status.fault = false ∧ noisy.status.run = true ∧
      noisy.status.pktValid = false ∧ noisy.proto = .isdv4 ∧
      noisy.ring = [0x11, 0x22] ++ [0x81, 1, 2, 3] ∧ ∀ b, b ∈ [0x11, 0x22] → ¬ noisy.IsHeader b :=
  ⟨noisy_legal, rfl, rfl, rfl, rfl, rfl, by decide⟩
/-- A header and one byte of garbage before it: NEXTPKT answers 0. -/
theorem witness_PollingDoesNotChangeFraming :
    (stylus [0x11, 0x81]).ring.length < (stylus [0x11, 0x81]).params.ringSize ∧
      ∃ t, exec (.nextpkt 3) (stylus [0x11, 0x81]) = .next t ∧ t.reg 3 = 0 := by
  refine ⟨by decide, _, rfl, ?_⟩
  decide +kernel

/-- The running profile with a packet latched and the classification table `rules`. -/
def ruled (rules : Memory) (pkt : List Byte) : State :=
  { running with status := { run := true, pktValid := true }, cls := rules, pkt := pkt }

/-- No packet; a rule that is not valid and one whose condition A fails. -/
theorem witness_DecodeWithoutARecognisedPacket :
    running.status.pktValid = false ∧ (ruled [(4, 0x8005FF00)] [1]).status.pktValid = true ∧
      ∀ i, i < (ruled [(4, 0x8005FF00)] [1]).params.clsSize →
        (ruled [(4, 0x8005FF00)] [1]).RuleMisses i := by decide +kernel
/-- Condition A of the last rule, then condition B of the first, each at the packet's length. -/
theorem witness_ConditionsPastThePacketFault :
    ((ruled [(4, 0x8000FF04)] [1, 2, 3, 4]).status.pktValid = true ∧
      1 < (ruled [(4, 0x8000FF04)] [1, 2, 3, 4]).params.clsSize ∧
      (∀ j, j < 1 → (ruled [(4, 0x8000FF04)] [1, 2, 3, 4]).RuleMisses j) ∧
      (ruled [(4, 0x8000FF04)] [1, 2, 3, 4]).RuleValid 1 ∧
      (ruled [(4, 0x8000FF04)] [1, 2, 3, 4]).condResult
        ((ruled [(4, 0x8000FF04)] [1, 2, 3, 4]).ruleWord 1 0) = .pastPacket) ∧
    ((ruled [(0, 0x8001FF00), (1, 0xFF01)] [1]).RuleValid 0 ∧
      (ruled [(0, 0x8001FF00), (1, 0xFF01)] [1]).condResult
        ((ruled [(0, 0x8001FF00), (1, 0xFF01)] [1]).ruleWord 0 0) = .holds ∧
      (ruled [(0, 0x8001FF00), (1, 0xFF01)] [1]).condResult
        ((ruled [(0, 0x8001FF00), (1, 0xFF01)] [1]).ruleWord 0 1) = .pastPacket) := by decide +kernel

/-- A GENERAL packet of three bytes: X reads past it, serial and buttons do not. -/
def shortGeneral : State := latched running .proto5 4 [1, 7, 2]
/-- An ENTER packet of the empty layout 1. -/
def emptyEnter : State := latched running .proto5 0x12 [1, 7, 2, 3]
/-- A GENERAL packet with the fixed channel 2, which is the pad's. -/
def fixedGeneral : State := latched running .proto5 0xA04 [1, 7, 2, 3]
/-- A GENERAL packet with pressure, a curve, and the pressure range 0. -/
def rangeless : State := latched curved .proto5 4 [1, 7, 2, 3]

/-- The four clauses. -/
theorem witness_BrokenLayoutsFaultInOrder :
    (shortGeneral.DecodesKind 0 4 ∧
      shortGeneral.slotOrder 0 = [4, 5] ++ 6 :: [7, 8, 9, 10, 11, 12, 13, 14, 15] ∧
      shortGeneral.SlotsRead 0 [4, 5] ∧ ¬ shortGeneral.SlotAbsent 0 6 ∧
      shortGeneral.readField (shortGeneral.slotCode 0 6 - 1) = .error ⟨.fieldRange, 0x00030103⟩) ∧
    (emptyEnter.DecodesKind 0 2 ∧ emptyEnter.SlotsRead 0 (emptyEnter.slotOrder 0) ∧
      emptyEnter.requiredSlots 0 = [] ++ 3 :: [] ∧ emptyEnter.slotValue 0 3 = none) ∧
    (fixedGeneral.DecodesKind 0 4 ∧ fixedGeneral.SlotsRead 0 (fixedGeneral.slotOrder 0) ∧
      fixedGeneral.requiredSlots 0 = [] ∧ fixedGeneral.modeOf 0 = 2 ∧
      fixedGeneral.nch.toNat ≤ fixedGeneral.fixedOf 0) ∧
    (rangeless.DecodesKind 0 4 ∧ rangeless.SlotsRead 0 (rangeless.slotOrder 0) ∧
      rangeless.requiredSlots 0 = [] ∧ rangeless.FixedOk 0 ∧
      (rangeless.slotValue 0 8).isSome = true ∧ rangeless.status.curveValid = true ∧
      rangeless.pmax.toInt ≤ 0) := by
  refine ⟨⟨by decide +kernel, by decide +kernel, by decide +kernel, by decide +kernel, rfl⟩, ?_, ?_, ?_⟩
    <;> decide +kernel

/-- An illegal kind; mode 3 of an IGNORE; IGNORE; touch required; a pad packet without a pad. -/
theorem witness_KindsAreCheckedThenGated :
    ((latched running .proto5 1 [0]).DecodesRule 0 ∧
      (latched running .proto5 1 [0]).kindOf 0 ∉ kindsOf .proto5) ∧
    ((latched running .pl 0x300 [0]).DecodesRule 0 ∧ (latched running .pl 0x300 [0]).modeOf 0 = 3) ∧
    ((latched running .pl 0 [0]).DecodesRule 0 ∧ (latched running .pl 0 [0]).modeOf 0 ≠ 3 ∧
      (latched running .pl 0 [0]).kindOf 0 = 0) ∧
    ((latched running .pl 0x10001 [0]).DecodesRule 0 ∧
      (latched running .pl 0x10001 [0]).PacketGated 0) ∧
    ((latched { running with caps := 7 } .proto4 5 [0]).DecodesRule 0 ∧
      (latched { running with caps := 7 } .proto4 5 [0]).PacketGated 0) := by
  refine ⟨?_, ?_, ?_, ?_, ?_⟩ <;> decide +kernel
theorem witness_QueryRepliesSetTheRanges :
    (latched running .isdv4 6 [9]).DecodesKind 0 6 ∧
      (latched running .isdv4 6 [9]).SlotsRead 0 ((latched running .isdv4 6 [9]).slotOrder 0) ∧
      (latched running .isdv4 7 [9]).DecodesKind 0 7 := by decide +kernel
/-- ARB mode; then TAG mode with the last tag. -/
theorem witness_EnterPacketsEnterTheTool :
    1 ≤ running.nch.toNat ∧ running.nch.toNat ≤ running.cht.length ∧
      ((latched running .proto5 2 [1, 7, 2, 3]).DecodesKind 0 2 ∧
        (latched running .proto5 2 [1, 7, 2, 3]).ExtractsAll 0 ∧
        (latched running .proto5 2 [1, 7, 2, 3]).slotValue 0 3 = some 2) ∧
      ((latched running .proto5 0x102 [1, 1, 2, 3]).DecodesKind 0 2 ∧
        (latched running .proto5 0x102 [1, 1, 2, 3]).ExtractsAll 0 ∧
        (latched running .proto5 0x102 [1, 1, 2, 3]).slotValue 0 3 = some 2) := by
  refine ⟨by decide, by decide, ?_, ?_⟩ <;> decide +kernel
theorem witness_ExitPacketsReportTheExit :
    (latched twoTools .proto5 3 [1, 7, 2, 3]).DecodesKind 0 3 ∧
      (latched twoTools .proto5 3 [1, 7, 2, 3]).ExtractsAll 0 := by decide +kernel
theorem witness_GeneralPacketsDispatch :
    (latched twoTools .proto5 4 [1, 7, 2, 3]).DecodesKind 0 4 ∧
      (latched twoTools .proto5 4 [1, 7, 2, 3]).ExtractsAll 0 := by decide +kernel
theorem witness_FlagproxPacketsEnter :
    (latched running .graphire 1 [1, 7, 2, 3]).DecodesKind 0 1 ∧
      (latched running .graphire 1 [1, 7, 2, 3]).ExtractsAll 0 ∧
      (latched running .graphire 1 [1, 7, 2, 3]).slotValue 0 0 = some 1 ∧
      (latched running .graphire 1 [1, 7, 2, 3]).selected 0 = none ∧
      (latched running .graphire 1 [1, 7, 2, 3]).FindsNone 0 := by decide +kernel
/-- The tool on channel 0 with the flag set and not set; no tool and the flag not set. -/
theorem witness_FlagproxPacketsStayOrLeave :
    ((latched twoTools .graphire 1 [1, 7, 2, 3]).DecodesKind 0 1 ∧
      (latched twoTools .graphire 1 [1, 7, 2, 3]).ExtractsAll 0 ∧
      (latched twoTools .graphire 1 [1, 7, 2, 3]).slotValue 0 0 = some 1 ∧
      (latched twoTools .graphire 1 [1, 7, 2, 3]).selected 0 = none ∧
      (latched twoTools .graphire 1 [1, 7, 2, 3]).Finds 0 0) ∧
    ((latched twoTools .graphire 1 [0, 7, 2, 3]).DecodesKind 0 1 ∧
      (latched twoTools .graphire 1 [0, 7, 2, 3]).ExtractsAll 0 ∧
      (latched twoTools .graphire 1 [0, 7, 2, 3]).slotValue 0 0 = some 0 ∧
      (latched twoTools .graphire 1 [0, 7, 2, 3]).Finds 0 0) ∧
    ((latched running .graphire 1 [0, 7, 2, 3]).DecodesKind 0 1 ∧
      (latched running .graphire 1 [0, 7, 2, 3]).ExtractsAll 0 ∧
      (latched running .graphire 1 [0, 7, 2, 3]).slotValue 0 0 = some 0 ∧
      (latched running .graphire 1 [0, 7, 2, 3]).FindsNone 0) := by
  refine ⟨⟨?_, ?_, ?_⟩, ⟨?_, ?_, ?_⟩, ⟨?_, ?_, ?_⟩⟩ <;> decide +kernel
theorem witness_PadPacketsDispatchToThePad :
    running.nch.toNat < running.cht.length ∧
      (latched running .proto5 5 [1, 7, 2, 3]).DecodesKind 0 5 ∧
      (latched running .proto5 5 [1, 7, 2, 3]).ExtractsAll 0 := by decide +kernel
theorem witness_FaultsArePrecise :
    running.status.fault = false ∧
      ∃ t, exec (.rdfld 3 8) running = .next t ∧ t.status.fault = true := ⟨rfl, _, rfl, rfl⟩

/-- The running profile with three bytes in the ring. -/
def partway : State := { running with ring := [1, 2, 3] }

theorem partway_legal : ProfileLegal partway :=
  ⟨tiny_wf, by decide, by decide, by decide, by decide +kernel, by decide, by decide⟩

theorem witness_PumpIsNextpktAndDecode :
    ProfileLegal partway ∧ partway.status.fault = false ∧ partway.status.run = true :=
  ⟨partway_legal, rfl, rfl⟩
theorem witness_DecodeReadsNoOtherState :
    (latched twoTools .proto5 4 [1, 7, 2, 3]).status.fault = false ∧
      (latched twoTools .proto5 4 [1, 7, 2, 3]).status.run = true := ⟨rfl, rfl⟩
theorem witness_EventsEncodeAsWords : 255 < 256 := by decide
theorem witness_ProfileIsReadOnlyInRun :
    running.status.run = true ∧ (issued running 0x06210003).input = [.command 0x06210003] ∧
      (∃ t, step (issued running 0x06210003) = .next t) ∧
      (0x06210003 : Word).toNat / 2 ^ 24 ≠ 0x43 ∧ (0x06210003 : Word).toNat / 2 ^ 24 ≠ 0x44 :=
  ⟨rfl, rfl, ⟨_, rfl⟩, by decide, by decide⟩
/-- A DECODE, and an INIT. -/
theorem witness_EventsAreOnlyAppended :
    (∃ t, step (issued running 0x43300000) = .next t) ∧ (0x43300000 : Word) ≠ 0x07000000 ∧
      ∃ t, step (issued running 0x07000000) = .next t :=
  ⟨⟨_, rfl⟩, by decide, ⟨_, rfl⟩⟩
theorem witness_ResetMeetsTheInvariants : Params.default.Wf ∧ tiny.Wf :=
  ⟨by constructor <;> decide, tiny_wf⟩

/-- The two tools are distinct, the pad stands after them and nothing stands behind it. -/
theorem twoTools_kept : ChannelsKept twoTools ∧ SerialsApart twoTools := by
  have h : ∀ c, c < 2 → ∀ d, d < 2 → c ≠ d → (twoTools.ch c).serial ≠ (twoTools.ch d).serial := by
    decide +kernel
  exact ⟨⟨by decide +kernel, fun c hc => List.getD_eq_default _ _ hc⟩,
    fun c d hc hd hne _ _ => h c hc d hd hne⟩
theorem twoTools_channels : ChannelTable twoTools ∧ SerialsDistinct twoTools :=
  ⟨⟨rfl, fun _ => twoTools_kept.1, fun _ _ => by decide +kernel, fun _ => by decide +kernel⟩,
    fun _ => twoTools_kept.2⟩
/-- The session of `twoTools`, halted. -/
def halted : State := { twoTools with status := { twoTools.status with run := false } }
theorem halted_kept : ChannelTable halted ∧ ChannelsKept halted ∧ SerialsApart halted :=
  ⟨⟨rfl, nofun, nofun, nofun⟩, ⟨twoTools_kept.1.1, twoTools_kept.1.2⟩, twoTools_kept.2⟩

theorem twoTools_legal : ProfileLegal twoTools :=
  ⟨tiny_wf, by decide, by decide, by decide, by decide +kernel, by decide, by decide⟩

theorem witness_StepsKeepTheProfileLegal :
    ProfileLegal twoTools ∧ ∃ t, step twoTools = .next t := ⟨twoTools_legal, _, rfl⟩
theorem witness_StepsKeepTablesAndFaultRecord :
    TablesSound partway ∧ FaultRecord partway ∧ FaultRecord faulted ∧ ∃ t, step partway = .next t :=
  ⟨empty_tables_sound _ ⟨rfl, rfl, rfl, rfl, rfl⟩, ⟨fun _ => ⟨rfl, rfl⟩, by decide⟩,
    ⟨by decide, by decide⟩, _, rfl⟩
theorem witness_StepsKeepThePacketBuffer :
    ProfileLegal partway ∧ PacketBuffer partway ∧ ∃ t, step partway = .next t :=
  ⟨partway_legal, ⟨by decide, by decide, by decide⟩, _, rfl⟩
theorem config_empty (c : Nat) : config.ch c = Channel.empty := by
  simp [State.ch, config, State.afterReset, List.getD_eq_getElem?_getD, List.getElem?_replicate]
  split <;> rfl
theorem halt_writes_none (sr : BitVec 16) : ¬ (issued halted 0x08000000).NextWrites sr := by
  rintro ⟨_, _, _, h, hd⟩
  cases h
  exact nomatch hd
/-- A running session; a halted one, and a command that writes neither register; no session yet, and a
write of CAPS. -/
theorem witness_StepsKeepTheChannelTable :
    ProfileLegal twoTools ∧ ChannelTable twoTools ∧ (∃ t, step twoTools = .next t) ∧
      (ProfileLegal halted ∧ ChannelTable halted ∧ ChannelsKept halted ∧
        ¬ (issued halted 0x08000000).NextWrites 0x06 ∧ ¬ (issued halted 0x08000000).NextWrites 0x07 ∧
        ∃ t, step (issued halted 0x08000000) = .next t) ∧
      (ChannelsKept config ∧ (issued config 0x04010007).NextWrites 0x07 ∧
        (∀ c, config.ch c = Channel.empty) ∧ ∃ t, step (issued config 0x04010007) = .next t) :=
  ⟨twoTools_legal, twoTools_channels.1, ⟨_, rfl⟩,
    ⟨⟨tiny_wf, by decide, by decide, by decide, by decide +kernel, by decide, by decide⟩,
      halted_kept.1, halted_kept.2.1, halt_writes_none _, halt_writes_none _, _, rfl⟩,
    ⟨fun c _ _ => by rw [config_empty c]; rfl, fun c _ => config_empty c⟩,
    ⟨_, _, _, rfl, rfl⟩, config_empty, _, rfl⟩
/-- The profile's one valid rule is an ENTER rule of channel mode ARB; the host issues HALT. -/
theorem witness_StepsKeepSerialsDistinct :
    ProfileLegal { twoTools with cls := [(0, 0x80000000), (2, 2)] } ∧
      ChannelTable { twoTools with cls := [(0, 0x80000000), (2, 2)] } ∧
      SerialsDistinct { twoTools with cls := [(0, 0x80000000), (2, 2)] } ∧
      SerialsApart halted ∧ ¬ (issued halted 0x08000000).NextWrites 0x06 ∧
      (∀ i, i < tiny.clsSize →
        ({ twoTools with cls := [(0, 0x80000000), (2, 2)] } : State).RuleValid i →
        ({ twoTools with cls := [(0, 0x80000000), (2, 2)] } : State).modeOf i = 0) ∧
      ∃ t, step { twoTools with cls := [(0, 0x80000000), (2, 2)] } = .next t :=
  ⟨⟨tiny_wf, by decide, by decide, by decide, by decide +kernel, by decide, by decide⟩,
    ⟨rfl, fun _ => ⟨twoTools_kept.1.1, twoTools_kept.1.2⟩, fun _ _ => by decide +kernel,
      fun _ => by decide +kernel⟩,
    twoTools_channels.2, halted_kept.2.2, halt_writes_none _, by decide +kernel, _, rfl⟩

end Sys2Proof.Tests
end

section
/-! PROOFS of the statements of 00_scope.md: the step runs the decoded command, every step answers, and the
profile is read-only in the RUN state. The last two rest on one frame, `CommandFrame`, proved once for each
instruction. -/

namespace Sys2Proof

/-! ### The opcode of a decoded word -/

/-- The opcode of the instruction's row in the opcode table. -/
def Instr.opcode (i : Instr) : Nat := i.rowMatch.toNat / 2 ^ 24

theorem opField_toNat (w : Word) : (opField w).toNat = w.toNat / 2 ^ 24 := by
  simp only [opField, BitVec.extractLsb'_toNat, Nat.shiftRight_eq_div_pow]
  omega

theorem whenZero_eq_ok {w : Word} {zero : Bool} {i j : Instr} (h : whenZero w zero i = .ok j) :
    i = j := by
  unfold whenZero at h
  split at h
  · exact Except.ok.inj h
  · cases h

/-- A word decodes only to an instruction of its own opcode. `CHFOR` (15) has its mode check, `TRD` (6) and
`TWR` (7) have no must-be-zero bit, and the last case is the unassigned opcodes; every other one is a
`whenZero`. -/
theorem decode_opcode {w : Word} {i : Instr} (h : decode w = .ok i) : i.opcode = w.toNat / 2 ^ 24 := by
  rw [← opField_toNat]
  unfold decode at h
  dsimp only at h
  split at h
  case h_15 hop =>
    split at h
    · cases h; simp [Instr.opcode, Instr.rowMatch, hop]
    · cases h
  case h_21 => cases h
  case h_6 hop | h_7 hop => cases h; simp [Instr.opcode, Instr.rowMatch, hop]
  all_goals
    next hop => cases whenZero_eq_ok h; simp [Instr.opcode, Instr.rowMatch, hop]

theorem Instr.opcode_decode (rd : RegNum) : (Instr.decode rd).opcode = 0x43 := by
  simp [Instr.opcode, Instr.rowMatch]

theorem Instr.opcode_pump (rd : RegNum) : (Instr.pump rd).opcode = 0x44 := by
  simp [Instr.opcode, Instr.rowMatch]

namespace Machine

/-! ### The step, case by case on the host's next input -/

theorem step_of_no_input {s : State} (h : s.input = []) : step s = .next s := by
  simp only [step, State.takeInput, h]

theorem step_of_reset {s : State} {x : Vector Word 16} {rest : List HostInput}
    (h : s.input = .reset x :: rest) : step s = .next (hardwareReset x { s with input := rest }) := by
  simp only [step, State.takeInput, h]

theorem step_of_command {s : State} {w : Word} {rest : List HostInput}
    (h : s.input = .command w :: rest) : step s = commandStep w { s with input := rest } := by
  simp only [step, State.takeInput, h]

theorem commandStep_of_ok {w : Word} {i : Instr} (h : decode w = .ok i) (s : State) :
    commandStep w s = exec i s := by
  simp only [commandStep, h]

theorem commandStep_of_error {w : Word} {e : IllegalWord} (h : decode w = .error e) (s : State) :
    commandStep w s = .next (illegalWord (opField w) s) := by
  simp only [commandStep, h]

/-- Taking the word just issued gives the state back. -/
theorem step_issue (s : State) (w : Word) : step (s.issue w) = commandStep w s :=
  step_of_command (s := s.issue w) rfl

theorem withFetchWord_toNat (s : State) (nbits : Nat) (w : Word) :
    s.withFetchWord nbits w.toNat = s.issue w := by
  rw [State.withFetchWord, BitVec.ofNat_toNat, BitVec.setWidth_eq]

/-- Settles O4: the step takes the command word from the list, and a placed word is the head of it. -/
theorem stepRunsTheDecodedCommand : Obligations.StepRunsTheDecodedCommand := by
  intro s w rest i hi
  refine ⟨fun h => ?_, fun nbits => ?_⟩
  · rw [step_of_command h, commandStep_of_ok hi]
  · rw [withFetchWord_toNat, step_issue, commandStep_of_ok hi]

/-! ### The profile and the range registers of a state -/

/-- The profile but for the range registers (00_scope.md R12): the CFG registers that tell how packets are
read, the table memories, and the curve with its flag. -/
structure Profile where
  proto : Proto
  plen : BitVec 8
  nch : BitVec 7
  caps : BitVec 4
  hdrmask : Byte
  tselmap : Word
  lsel : Vector Word 4
  fdt : Memory
  cls : Memory
  lay : Memory
  tid : Memory
  lut : Memory
  curveValid : Bool

/-- The range registers and `VERSION`, which a QREPLY packet writes (43_protocol_decoders.md R268). -/
structure Ranges where
  xmax : Word
  ymax : Word
  pmax : Word
  txmax : Word
  tymax : Word
  dmax : Word
  version : Word

/-- The profile that `s` holds. -/
def State.profile (s : State) : Profile where
  proto := s.proto
  plen := s.plen
  nch := s.nch
  caps := s.caps
  hdrmask := s.hdrmask
  tselmap := s.tselmap
  lsel := s.lsel
  fdt := s.fdt
  cls := s.cls
  lay := s.lay
  tid := s.tid
  lut := s.lut
  curveValid := s.status.curveValid

/-- The range registers that `s` holds. -/
def State.ranges (s : State) : Ranges where
  xmax := s.xmax
  ymax := s.ymax
  pmax := s.pmax
  txmax := s.txmax
  tymax := s.tymax
  dmax := s.dmax
  version := s.version

theorem Commits.profile {s t : State} (h : Commits s t) : t.profile = s.profile := by
  simp only [State.profile, h.proto, h.plen, h.nch, h.caps, h.hdrmask, h.tselmap, h.lsel, h.fdt, h.cls,
    h.lay, h.tid, h.lut, h.curveValid]

theorem Fetches.profile {s t : State} (h : Fetches s t) : t.profile = s.profile := by
  simp only [State.profile, h.proto, h.plen, h.nch, h.caps, h.hdrmask, h.tselmap, h.lsel, h.fdt, h.cls,
    h.lay, h.tid, h.lut, h.curveValid]

theorem Fetches.ranges {s t : State} (h : Fetches s t) : t.ranges = s.ranges := by
  simp only [State.ranges, h.xmax, h.ymax, h.pmax, h.txmax, h.tymax, h.dmax, h.version]

/-! ### What decoding packets keeps -/

/-- `t` has the parameters, the host's inputs and the profile of `s`. -/
structure KeepsProfile (s t : State) : Prop where
  params : t.params = s.params
  input : t.input = s.input
  profile : t.profile = s.profile

theorem KeepsProfile.refl (s : State) : KeepsProfile s s := ⟨rfl, rfl, rfl⟩

theorem KeepsProfile.trans {s t u : State} (h : KeepsProfile s t) (g : KeepsProfile t u) :
    KeepsProfile s u :=
  ⟨g.params.trans h.params, g.input.trans h.input, g.profile.trans h.profile⟩

theorem Commits.keepsProfile {s t : State} (h : Commits s t) : KeepsProfile s t :=
  ⟨h.params, h.input, h.profile⟩

theorem Fetches.keepsProfile {s t : State} (h : Fetches s t) : KeepsProfile s t :=
  ⟨h.params, h.input, h.profile⟩

theorem KeepsProfile.decodeOne {s t : State} {w : Word} (h : s.decodeOne = .ok (t, w)) :
    KeepsProfile s t := by
  rcases State.decodeOne_ok h with ⟨_, rfl, _⟩ | ⟨_, _, rfl, _⟩ | ⟨_, hit, v, _, _, _, _, rfl, _⟩
  · exact .refl t
  · exact ⟨rfl, rfl, rfl⟩
  · exact (Commits.commit s hit v).keepsProfile.trans ⟨rfl, rfl, rfl⟩

theorem KeepsProfile.pumpLoop (k n : Nat) (s : State) : KeepsProfile s (State.pumpLoop k n s).1 := by
  induction k generalizing n s with
  | zero => exact .refl s
  | succ k ih =>
    have hfill : KeepsProfile s s.fillPkt := (Fetches.fillPkt s).keepsProfile
    unfold State.pumpLoop
    split
    · split
      · exact hfill
      · next t _ hd => exact (hfill.trans (.decodeOne hd)).trans (ih (n + 1) t)
    · exact hfill

/-- The end of a command: the fault, which keeps the profile, or a register written in the state left. -/
theorem KeepsProfile.finish {s t : State} {rd : RegNum} {r : Except Raise (State × Word)}
    (h : KeepsProfile s t) (hr : ∀ u v, r = .ok (u, v) → KeepsProfile s u) :
    KeepsProfile s (finish t rd r) := by
  match r with
  | .error _ => exact h.trans ⟨rfl, rfl, rfl⟩
  | .ok (u, v) => exact (hr u v rfl).trans ⟨rfl, rfl, rfl⟩

/-! ### What the shared operations keep of the range registers -/

theorem State.tidmap_ranges (s : State) (code : Word) : (s.tidmap code).1.ranges = s.ranges := by
  rcases s.tidmap_state code with h | h <;> rw [h]
  rfl

theorem State.arbEnter_ranges (s : State) (serial : Word) :
    (s.arbEnter serial).1.ranges = s.ranges := by
  rcases s.arbEnter_cases serial with ⟨_, _, h⟩ | ⟨_, _, _, h⟩ | ⟨_, _, h⟩ <;> rw [h]
  rfl

theorem State.tagCh_ranges (s : State) (tag : Word) : (s.tagCh tag).1.ranges = s.ranges := by
  rcases s.tagCh_cases tag with ⟨_, h⟩ | ⟨_, h⟩ <;> rw [h]
  rfl

theorem State.enterProc_ranges (s : State) (c : Nat) (serial code : Word) (type : ToolType) :
    (s.enterProc c serial code type).ranges = s.ranges := rfl

theorem State.enterTool_ranges (s : State) (serial code : Word) :
    (s.enterTool serial code).1.ranges = s.ranges := by
  simp only [State.enterTool, State.enterProc_ranges, State.arbEnter_ranges, State.tidmap_ranges]

theorem State.exitTool_ranges (s : State) (serial : Word) :
    (s.exitTool serial).ranges = s.ranges := by
  unfold State.exitTool
  split <;> rfl

/-! ### The frame of a command -/

/-- What a command of opcode `op` leaves of `s` in `t`: the parameters and the host's inputs always; in the
RUN state the profile; and there, but for DECODE and PUMP, the range registers. -/
structure CommandFrame (op : Nat) (s t : State) : Prop where
  params : t.params = s.params
  input : t.input = s.input
  profile : s.status.run = true → t.profile = s.profile
  ranges : s.status.run = true → op ≠ 0x43 → op ≠ 0x44 → t.ranges = s.ranges

section Frames
variable {op : Nat} {s t : State}

theorem KeepsProfile.commandFrame (h : KeepsProfile s t)
    (hr : op ≠ 0x43 → op ≠ 0x44 → t.ranges = s.ranges) : CommandFrame op s t :=
  ⟨h.params, h.input, fun _ => h.profile, fun _ => hr⟩

/-- An update that writes none of the framed pieces, in whatever operating state. -/
theorem CommandFrame.of_eq (hp : t.params = s.params) (hi : t.input = s.input)
    (hprofile : t.profile = s.profile) (hranges : t.ranges = s.ranges) : CommandFrame op s t :=
  ⟨hp, hi, fun _ => hprofile, fun _ _ _ => hranges⟩

/-- Outside the RUN state only the parameters and the host's inputs are framed. -/
theorem CommandFrame.of_config (hrun : s.status.run = false) (hp : t.params = s.params)
    (hi : t.input = s.input) : CommandFrame op s t :=
  ⟨hp, hi, fun h => by simp [hrun] at h, fun h => by simp [hrun] at h⟩

theorem CommandFrame.refl (op : Nat) (s : State) : CommandFrame op s s := .of_eq rfl rfl rfl rfl

theorem CommandFrame.refuse (op : Nat) (s : State) : CommandFrame op s (refuse s) :=
  .of_eq rfl rfl rfl rfl

theorem CommandFrame.illegalWord (op : Nat) (code : BitVec 8) (s : State) :
    CommandFrame op s (illegalWord code s) := by
  rcases illegalWord_eq code s with ⟨h, _⟩ | ⟨h, _⟩ <;> rw [h]
  · exact .refl op s
  · exact .refuse op s

/-- Writing a register afterwards stays in the frame. -/
theorem CommandFrame.setReg (h : CommandFrame op s t) (rd : RegNum) (v : Word) :
    CommandFrame op s (t.setReg rd v) :=
  ⟨h.params, h.input, h.profile, h.ranges⟩

/-- A command that computes a value, or raises a fault, and writes nothing but `rd`. -/
theorem CommandFrame.finish_value (rd : RegNum) (r : Except Raise Word) :
    CommandFrame op s (finish s rd (r.map fun v => (s, v))) := by
  cases r <;> exact .of_eq rfl rfl rfl rfl

/-- The command step's checks (R101): what is ignored or refused is in the frame, so a command that is in
it where it may run always is. -/
theorem whenState_frame {ok : State → Bool} {k : State → State}
    (hk : ok s = true → CommandFrame op s (k s)) :
    ∃ t, whenState ok s k = .next t ∧ CommandFrame op s t := by
  refine ⟨_, whenState_eq ok s k, ?_⟩
  split
  · exact .refl op s
  · split
    · next h => exact hk h
    · exact .refuse op s

theorem inAnyState_frame {k : State → State} (hk : CommandFrame op s (k s)) :
    ∃ t, inAnyState s k = .next t ∧ CommandFrame op s t :=
  whenState_frame fun _ => hk

theorem inConfig_frame {k : State → State} (hk : s.status.run = false → CommandFrame op s (k s)) :
    ∃ t, inConfig s k = .next t ∧ CommandFrame op s t :=
  whenState_frame fun h => hk (by simpa using h)

theorem inRun_frame {k : State → State} (hk : CommandFrame op s (k s)) :
    ∃ t, inRun s k = .next t ∧ CommandFrame op s t :=
  whenState_frame fun _ => hk

/-! ### The frame of each command with cases of its own -/

theorem State.writeCfg_params_input {r : SysReg} {v : Word} (h : s.writeCfg r v = some t) :
    t.params = s.params ∧ t.input = s.input := by
  cases r
  case proto =>
    obtain ⟨_, _, rfl⟩ := Option.map_eq_some_iff.1 h
    exact ⟨rfl, rfl⟩
  case plen | nch | caps | hdrmask | lsel =>
    obtain ⟨_, h⟩ := Option.ite_none_right_eq_some.1 h
    cases h
    exact ⟨rfl, rfl⟩
  all_goals cases h <;> exact ⟨rfl, rfl⟩

theorem State.memWrite_params_input {sp : Space} {i : Nat} {v : Word}
    (h : s.memWrite sp i v = some t) : t.params = s.params ∧ t.input = s.input := by
  rcases State.memWrite_cases h with ⟨_, rfl⟩ | ⟨_, rfl⟩ | ⟨_, rfl⟩ | ⟨_, rfl⟩ <;> exact ⟨rfl, rfl⟩

theorem mtsr_frame (op : Nat) (s : State) (sr : BitVec 16) (v : Word) :
    CommandFrame op s (s.mtsr sr v) := by
  rcases s.mtsr_cases sr v with h | h | ⟨r, hrun, h⟩
  · rw [h]; exact .of_eq rfl rfl rfl rfl
  · rw [h]; exact .refuse op s
  · obtain ⟨hp, hi⟩ := State.writeCfg_params_input h
    exact .of_config hrun hp hi

theorem twr_frame (op : Nat) (hrun : s.status.run = false) (space : BitVec 16) (i : Nat) (v : Word) :
    CommandFrame op s (s.twr space i v) := by
  rcases s.twr_cases space i v with h | ⟨sp, _, _, h⟩
  · rw [h]; exact .refuse op s
  · obtain ⟨hp, hi⟩ := State.memWrite_params_input h
    exact .of_config hrun hp hi

theorem initSession_frame (op : Nat) (s : State) :
    CommandFrame op s (if s.initRefused then refuse s else s.initSession) := by
  split
  · exact .refuse op s
  · exact .of_eq rfl rfl rfl rfl

theorem enterTool_frame (op : Nat) (s : State) (serial code : Word) :
    CommandFrame op s (s.enterTool serial code).1 :=
  (Commits.enterTool s serial code).keepsProfile.commandFrame fun _ _ => s.enterTool_ranges serial code

theorem exitTool_frame (op : Nat) (s : State) (serial : Word) :
    CommandFrame op s (s.exitTool serial) :=
  (Commits.exitTool s serial).keepsProfile.commandFrame fun _ _ => s.exitTool_ranges serial

theorem channelFor_frame (op : Nat) (s : State) (v : Word) (mode : BitVec 16) :
    CommandFrame op s (s.channelFor v mode).1 := by
  unfold State.channelFor
  split
  · exact .refl op s
  · exact (Commits.tagCh s v).keepsProfile.commandFrame fun _ _ => s.tagCh_ranges v
  · exact .refl op s

theorem feedByte_frame (op : Nat) (s : State) (b : Byte) : CommandFrame op s (s.feedByte b) := by
  unfold State.feedByte
  split <;> exact .of_eq rfl rfl rfl rfl

theorem nextPacket_frame (op : Nat) (s : State) : CommandFrame op s s.nextPacket.1 :=
  (Fetches.nextPacket s).keepsProfile.commandFrame fun _ _ => (Fetches.nextPacket s).ranges

theorem execMfsr_frame (op : Nat) (rd : RegNum) (sr : BitVec 16) (s : State) :
    ∃ t, execMfsr rd sr s = .next t ∧ CommandFrame op s t := by
  unfold execMfsr
  split <;> exact ⟨_, rfl, .of_eq rfl rfl rfl rfl⟩

theorem execTrd_frame (op : Nat) (rd rs1 : RegNum) (space : BitVec 16) (s : State) :
    ∃ t, execTrd rd rs1 space s = .next t ∧ CommandFrame op s t := by
  unfold execTrd
  split
  · split <;> exact ⟨_, rfl, .of_eq rfl rfl rfl rfl⟩
  · exact ⟨_, rfl, .of_eq rfl rfl rfl rfl⟩

theorem execChfor_frame (op : Nat) (rd rs1 : RegNum) (mode : BitVec 16) (s : State) :
    ∃ t, execChfor rd rs1 mode s = .next t ∧ CommandFrame op s t := by
  unfold execChfor
  split
  · exact inRun_frame <| (channelFor_frame op s _ mode).setReg rd _
  · exact ⟨_, rfl, .illegalWord op 0x32 s⟩

theorem decode_frame (rd : RegNum) (s : State) :
    CommandFrame 0x43 s (finish s rd s.decodeOne) :=
  (KeepsProfile.finish (.refl s) fun _ _ h => .decodeOne h).commandFrame fun h => absurd rfl h

theorem pump_frame (rd : RegNum) (k : Nat) (s : State) :
    CommandFrame 0x44 s
      (finish (State.pumpLoop k 0 s).1 rd
        ((State.pumpLoop k 0 s).2.map fun n => ((State.pumpLoop k 0 s).1, word n))) := by
  have hloop : KeepsProfile s (State.pumpLoop k 0 s).1 := .pumpLoop k 0 s
  refine (KeepsProfile.finish hloop fun u v h => ?_).commandFrame fun _ h => absurd rfl h
  cases hr : (State.pumpLoop k 0 s).2 with
  | error e => rw [hr] at h; cases h
  | ok n => rw [hr] at h; cases h; exact hloop

end Frames

/-- Every instruction answers a next state in its frame, from every state. -/
theorem exec_frame (i : Instr) (s : State) :
    ∃ t, exec i s = .next t ∧ CommandFrame i.opcode s t := by
  cases i with
  | nop => exact ⟨s, rfl, .refl _ s⟩
  | li rd imm => exact ⟨_, rfl, (CommandFrame.refl _ s).setReg rd _⟩
  | lui rd imm => exact ⟨_, rfl, (CommandFrame.refl _ s).setReg rd _⟩
  | mfsr rd sr => exact execMfsr_frame _ rd sr s
  | mtsr sr rs1 => apply inAnyState_frame; exact mtsr_frame _ s sr _
  | trd rd rs1 space => exact execTrd_frame _ rd rs1 space s
  | twr rv rs1 space => apply inConfig_frame; exact fun hrun => twr_frame _ hrun space _ _
  | init => apply inAnyState_frame; exact initSession_frame _ s
  | halt => apply inAnyState_frame; exact .of_eq rfl rfl rfl rfl
  | rdfld rd fid => apply inAnyState_frame; exact .finish_value rd _
  | build rs1 rs2 => apply inConfig_frame; exact fun hrun => .of_config hrun rfl rfl
  | apply rd rs1 rs2 => apply inAnyState_frame; exact .finish_value rd _
  | enter rd rs1 rs2 => apply inRun_frame; exact (enterTool_frame _ s _ _).setReg rd _
  | exit rs1 => apply inRun_frame; exact exitTool_frame _ s _
  | chfor rd rs1 mode => exact execChfor_frame _ rd rs1 mode s
  | feed b => apply inRun_frame; exact feedByte_frame _ s b
  | feedr rs1 => apply inRun_frame; exact feedByte_frame _ s _
  | nextpkt rd => apply inRun_frame; exact (nextPacket_frame _ s).setReg rd _
  | decode rd => rw [Instr.opcode_decode]; apply inRun_frame; exact decode_frame rd s
  | pump rd => rw [Instr.opcode_pump]; apply inRun_frame; exact pump_frame rd _ s
  | pktP45Enter low => exact ⟨_, rfl, .illegalWord _ _ s⟩

/-- Every command word answers a next state in the frame of its opcode, an illegal one too. -/
theorem commandStep_frame (w : Word) (s : State) :
    ∃ t, commandStep w s = .next t ∧ CommandFrame (w.toNat / 2 ^ 24) s t := by
  cases hd : decode w with
  | ok i =>
    rw [commandStep_of_ok hd, ← decode_opcode hd]
    exact exec_frame i s
  | error e => exact ⟨_, commandStep_of_error hd s, .illegalWord _ _ s⟩

/-! ### The statements -/

/-- Settles O7, by the kinds of host input: waiting, reset, and a command word. -/
theorem everyStepAnswers : Obligations.EveryStepAnswers := by
  intro s
  match hin : s.input with
  | [] => exact ⟨s, step_of_no_input hin, rfl, hin, fun _ => rfl⟩
  | .reset x :: rest => exact ⟨_, step_of_reset hin, rfl, rfl, nofun⟩
  | .command w :: rest =>
    obtain ⟨t, ht, hframe⟩ := commandStep_frame w { s with input := rest }
    exact ⟨t, (step_of_command hin).trans ht, hframe.params, hframe.input, nofun⟩

/-- Settles O52, from the frame of the command word. -/
theorem profileIsReadOnlyInRun : Obligations.ProfileIsReadOnlyInRun := by
  intro s t w rest hrun hin hstep
  obtain ⟨u, hu, hframe⟩ := commandStep_frame w { s with input := rest }
  obtain rfl : u = t := by
    rw [step_of_command hin, hu] at hstep
    exact Host.Outcome.next.inj hstep
  have hkept := And.intro (hframe.profile hrun) (hframe.ranges hrun)
  simpa only [State.profile, State.ranges, Profile.mk.injEq, Ranges.mk.injEq, and_assoc] using hkept

end Machine
end Sys2Proof
end

section
/-! PROOFS of the statements of 10_state.md, first part: what one step of a command word can do, said once
(`Effect`). The invariants of the state are then proved over its cases. -/

namespace Sys2Proof.Machine

/-! ### Updates that no invariant speaks of -/

/-- The state `s` with other operand registers and other flags, but for `FAULT`, `PKTVALID` and `RUN`. -/
inductive Quiet (s : State) : State → Prop
  | mk (x : Vector Word 16) (f : Status) (fault : f.fault = s.status.fault)
      (pktValid : f.pktValid = s.status.pktValid) (run : f.run = s.status.run) :
      Quiet s { s with x := x, status := f }

theorem Quiet.refl (s : State) : Quiet s s := .mk _ _ rfl rfl rfl

theorem Quiet.setReg (s : State) (rd : RegNum) (v : Word) : Quiet s (s.setReg rd v) :=
  .mk _ _ rfl rfl rfl

theorem Quiet.refuse (s : State) : Quiet s (refuse s) := .mk _ _ rfl rfl rfl

theorem Quiet.setErrUnkTool (s : State) : Quiet s s.setErrUnkTool := .mk _ _ rfl rfl rfl

theorem Quiet.setErrChExh (s : State) : Quiet s s.setErrChExh := .mk _ _ rfl rfl rfl

theorem Quiet.setErrOverrun (s : State) : Quiet s s.setErrOverrun := .mk _ _ rfl rfl rfl

theorem Quiet.clearSticky (s : State) (v : Word) :
    Quiet s { s with status := s.status.clearSticky v } := .mk _ _ rfl rfl rfl

theorem Quiet.trans {s t u : State} (h : Quiet s t) (g : Quiet t u) : Quiet s u := by
  cases h with
  | mk x f hfault hvalid hrun =>
    cases g with
    | mk y g gfault gvalid grun =>
      exact .mk y g (gfault.trans hfault) (gvalid.trans hvalid) (grun.trans hrun)

theorem Quiet.illegalWord (op : BitVec 8) (s : State) : Quiet s (illegalWord op s) := by
  rcases illegalWord_eq op s with ⟨h, _⟩ | ⟨h, _⟩ <;> rw [h]
  · exact .refl s
  · exact .refuse s

theorem Quiet.tidmap (s : State) (code : Word) : Quiet s (s.tidmap code).1 := by
  rcases s.tidmap_state code with h | h <;> rw [h]
  · exact .refl s
  · exact .setErrUnkTool s

theorem Quiet.tselTool (s : State) (v : Word) : Quiet s (s.tselTool v).1 := by
  rcases s.tselTool_state v with h | h <;> rw [h]
  · exact .refl s
  · exact .setErrUnkTool s

theorem Quiet.tagCh (s : State) (tag : Word) : Quiet s (s.tagCh tag).1 := by
  rcases s.tagCh_cases tag with ⟨_, h⟩ | ⟨_, h⟩ <;> rw [h]
  · exact .refl s
  · exact .setErrChExh s

theorem Quiet.arbEnter (s : State) (serial : Word) : Quiet s (s.arbEnter serial).1 := by
  rcases s.arbEnter_cases serial with ⟨_, _, h⟩ | ⟨_, _, _, h⟩ | ⟨_, _, h⟩ <;> rw [h]
  · exact .refl s
  · exact .refl s
  · exact .setErrChExh s

theorem Quiet.channelFor (s : State) (v : Word) (mode : BitVec 16) :
    Quiet s (s.channelFor v mode).1 := by
  unfold State.channelFor
  split
  · exact .refl s
  · exact .tagCh s v
  · exact .refl s

/-! ### A fault always has a cause (60_exceptions.md R363) -/

/-- Where `r` raises a fault, the fault names a cause. -/
def RaisesCause {α : Type} (r : Except Raise α) : Prop := ∀ e, r = .error e → e.cause ≠ .none

section Causes
variable {α β : Type}

theorem RaisesCause.ok (a : α) : RaisesCause (.ok a : Except Raise α) := nofun

theorem RaisesCause.error {e : Raise} (h : e.cause ≠ .none) :
    RaisesCause (.error e : Except Raise α) := by
  rintro _ ⟨⟩
  exact h

/-- A computation that passes the fault of `r` on. -/
theorem RaisesCause.of_error {r : Except Raise α} {e : Raise} (h : RaisesCause r)
    (he : r = .error e) : RaisesCause (.error e : Except Raise β) := .error (h e he)

theorem RaisesCause.map {r : Except Raise α} (h : RaisesCause r) (f : α → β) :
    RaisesCause (r.map f) := by
  match r with
  | .error e => exact .error (h e rfl)
  | .ok a => exact .ok (f a)

theorem State.readFragments_raises (s : State) (fid n k : Nat) (acc : Word) :
    RaisesCause (s.readFragments fid n k acc) := by
  induction n generalizing k acc with
  | zero => exact .ok acc
  | succ n ih =>
    have hfrag : RaisesCause (s.readFragment fid k) := by
      unfold State.readFragment
      dsimp only
      split
      · exact .error nofun
      · exact .ok _
    unfold State.readFragments
    split
    · next e he => exact hfrag.of_error he
    · exact ih _ _

theorem State.readField_raises (s : State) (fid : Nat) : RaisesCause (s.readField fid) := by
  unfold State.readField
  dsimp only
  split
  · exact .error nofun
  · split
    · next e he => exact (s.readFragments_raises _ _ _ _).of_error he
    · exact .ok _

theorem State.curve_raises (s : State) (raw max info : Word) : RaisesCause (s.curve raw max info) := by
  unfold State.curve
  split
  · exact .error nofun
  · exact .ok _

theorem State.cond_raises (s : State) (i : Nat) (w : Word) : RaisesCause (s.cond i w) := by
  unfold State.cond
  split
  · exact .ok _
  · split
    · exact .error nofun
    · exact .ok _

theorem State.ruleHits_raises (s : State) (i : Nat) : RaisesCause (s.ruleHits i) := by
  unfold State.ruleHits
  split
  · split
    · next e he => exact (s.cond_raises _ _).of_error he
    · exact .ok _
    · exact s.cond_raises _ _
  · exact .ok _

theorem State.classifyIn_raises (s : State) (is : List Nat) : RaisesCause (s.classifyIn is) := by
  induction is with
  | nil => exact .ok _
  | cons i is ih =>
    unfold State.classifyIn
    split
    · next e he => exact (s.ruleHits_raises i).of_error he
    · exact .ok _
    · exact ih

theorem State.hitOf_raises (s : State) (i : Nat) : RaisesCause (s.hitOf i) := by
  unfold State.hitOf
  dsimp only
  split
  · split
    · exact .ok _
    · exact .error nofun
  · exact .error nofun

theorem State.extractIn_raises (s : State) (layout : Nat) (slots : List Slot) :
    RaisesCause (s.extractIn layout slots) := by
  induction slots with
  | nil => exact .ok _
  | cons slot slots ih =>
    unfold State.extractIn
    split
    · exact ih
    · split
      · next e he => exact (s.readField_raises _).of_error he
      · split
        · next e he => exact ih.of_error he
        · exact .ok _

theorem State.checkFields_raises (s : State) (h : Hit) (v : Fields) :
    RaisesCause (s.checkFields h v) := by
  unfold State.checkFields
  split
  · exact .error nofun
  · split
    · exact .error nofun
    · split
      · exact .error nofun
      · exact .ok _

theorem State.extract_raises (s : State) (h : Hit) : RaisesCause (s.extract h) := by
  unfold State.extract
  split
  · next e he => exact (s.extractIn_raises _ _).of_error he
  · split
    · next e he => exact (s.checkFields_raises _ _).of_error he
    · exact .ok _

theorem State.decodeOne_raises (s : State) : RaisesCause s.decodeOne := by
  unfold State.decodeOne
  split
  · split
    · next e he => exact (s.classifyIn_raises _).of_error he
    · exact .ok _
    · split
      · next e he => exact (s.hitOf_raises _).of_error he
      · split
        · next e he => exact (s.extract_raises _).of_error he
        · exact .ok _
  · exact .ok _

theorem State.pumpLoop_raises (k n : Nat) (s : State) : RaisesCause (State.pumpLoop k n s).2 := by
  induction k generalizing n s with
  | zero => exact .ok n
  | succ k ih =>
    unfold State.pumpLoop
    split
    · split
      · next e he => exact s.fillPkt.decodeOne_raises.of_error he
      · exact ih _ _
    · exact .ok n

end Causes

/-! ### What a step can do -/

/-- `DECODE` and `PUMP`, the commands that decode packets. -/
def Decodes (o : Option Instr) : Prop := ∃ rd, o = some (.decode rd) ∨ o = some (.pump rd)

/-- One packet is fetched into the empty buffer, or, where `decodes` allows it, decoded without a fault. -/
inductive PacketStep (decodes : Prop) (s : State) : State → Prop
  | fetch : s.status.pktValid = false → PacketStep decodes s s.nextPacket.1
  | decode {t : State} {w : Word} : decodes → s.decodeOne = .ok (t, w) → PacketStep decodes s t

/-- Packets fetched and decoded one after the other. -/
abbrev PacketSteps (decodes : Prop) : State → State → Prop :=
  Relation.ReflTransGen (PacketStep decodes)

/-- What the command `o` can make of `s`, with the state that the effect needs; an illegal word is `none`. The
last two cases end a command: by flags and registers, and by the fault. -/
inductive Effect (o : Option Instr) (s : State) : State → Prop
  | none : Effect o s s
  | config {t : State} {sr : BitVec 16} {rs1 : RegNum} {r : SysReg} {v : Word} :
      o = some (.mtsr sr rs1) → SysReg.ofNum sr = some r → s.status.run = false →
      s.writeCfg r v = some t → Effect o s t
  | table {t : State} {sp : Space} {i : Nat} {v : Word} :
      s.status.run = false → i < s.spaceSize sp → s.memWrite sp i v = some t → Effect o s t
  | build (w1 w2 : Word) : s.status.run = false → Effect o s (s.build w1 w2)
  | init : o = some .init → Effect o s s.initSession
  | halt : Effect o s { s with status := { s.status with run := false } }
  | enter (serial code : Word) : s.status.run = true → Effect o s (s.enterTool serial code).1
  | exit (serial : Word) : s.status.run = true → Effect o s (s.exitTool serial)
  | feed (b : Byte) : s.ring.length ≠ s.params.ringSize → Effect o s { s with ring := s.ring ++ [b] }
  | packets {t : State} : s.status.run = true → PacketSteps (Decodes o) s t → Effect o s t
  | quiet {t u : State} : Effect o s t → Quiet t u → Effect o s u
  | fault {t : State} {e : Raise} : Effect o s t → e.cause ≠ .none → Effect o s (takeFault e t)

section Effects
variable {o : Option Instr} {s : State}

theorem Effect.ofQuiet {t : State} (h : Quiet s t) : Effect o s t := .quiet .none h

theorem PacketSteps.nextPacket (d : Prop) (s : State) : PacketSteps d s s.nextPacket.1 := by
  cases hvalid : s.status.pktValid with
  | false => exact .single (.fetch hvalid)
  | true =>
    have hsame : s.nextPacket.1 = s := by simp [State.nextPacket, hvalid]
    rw [hsame]

theorem PacketSteps.fillPkt (d : Prop) (s : State) : PacketSteps d s s.fillPkt := by
  unfold State.fillPkt
  split
  · exact .refl
  · exact .nextPacket d s

theorem PacketSteps.pumpLoop {d : Prop} (hd : d) (k n : Nat) (s : State) :
    PacketSteps d s (State.pumpLoop k n s).1 := by
  induction k generalizing n s with
  | zero => exact .refl
  | succ k ih =>
    have hfill : PacketSteps d s s.fillPkt := .fillPkt d s
    unfold State.pumpLoop
    split
    · split
      · exact hfill
      · next t _ ht => exact (hfill.tail (.decode hd ht)).trans (ih (n + 1) t)
    · exact hfill

/-- The end of a command: the fault with its cause, or a register written in the state left. -/
theorem Effect.finish {t : State} {rd : RegNum} {r : Except Raise (State × Word)} (ht : Effect o s t)
    (hcause : RaisesCause r) (hok : ∀ u v, r = .ok (u, v) → Effect o s u) :
    Effect o s (finish t rd r) := by
  match r with
  | .error e => exact .fault ht (hcause e rfl)
  | .ok (u, v) => exact .quiet (hok u v rfl) (.setReg u rd v)

/-- A command that computes a value, or raises a fault, and writes nothing but `rd`. -/
theorem Effect.finish_value (rd : RegNum) {r : Except Raise Word} (hcause : RaisesCause r) :
    Effect o s (Machine.finish s rd (r.map fun v => (s, v))) := by
  refine .finish .none (hcause.map _) fun u v h => ?_
  match r with
  | .error _ => cases h
  | .ok _ => cases h; exact .none

/-- The command step's checks (R101): a command whose meaning is an effect where it may run always has one. -/
theorem whenState_effect {ok : State → Bool} {k : State → State}
    (hk : ok s = true → Effect o s (k s)) : ∃ t, whenState ok s k = .next t ∧ Effect o s t := by
  refine ⟨_, whenState_eq ok s k, ?_⟩
  split
  · exact .none
  · split
    · next h => exact hk h
    · exact .ofQuiet (.refuse s)

theorem inAnyState_effect {k : State → State} (hk : Effect o s (k s)) :
    ∃ t, inAnyState s k = .next t ∧ Effect o s t :=
  whenState_effect fun _ => hk

theorem inConfig_effect {k : State → State} (hk : s.status.run = false → Effect o s (k s)) :
    ∃ t, inConfig s k = .next t ∧ Effect o s t :=
  whenState_effect fun h => hk (by simpa using h)

theorem inRun_effect {k : State → State} (hk : s.status.run = true → Effect o s (k s)) :
    ∃ t, inRun s k = .next t ∧ Effect o s t :=
  whenState_effect hk

/-! ### The effect of each command with cases of its own -/

theorem mtsr_effect (s : State) (sr : BitVec 16) (rs1 : RegNum) (v : Word) :
    Effect (some (.mtsr sr rs1)) s (s.mtsr sr v) := by
  unfold State.mtsr
  split
  · exact .ofQuiet (.clearSticky s v)
  · next r _ hr =>
    split
    · exact .ofQuiet (.refuse s)
    · next hrun =>
      cases hw : s.writeCfg r v with
      | none => exact .ofQuiet (.refuse s)
      | some t => exact .config rfl hr (by simpa using hrun) hw
  · exact .ofQuiet (.refuse s)

theorem twr_effect (hrun : s.status.run = false) (space : BitVec 16) (i : Nat) (v : Word) :
    Effect o s (s.twr space i v) := by
  rcases s.twr_cases space i v with h | ⟨sp, _, hi, h⟩
  · rw [h]; exact .ofQuiet (.refuse s)
  · exact .table hrun hi h

theorem init_effect (s : State) :
    Effect (some .init) s (if s.initRefused then refuse s else s.initSession) := by
  split
  · exact .ofQuiet (.refuse s)
  · exact .init rfl

theorem feedByte_effect (s : State) (b : Byte) : Effect o s (s.feedByte b) := by
  unfold State.feedByte
  split
  · exact .ofQuiet (.setErrOverrun s)
  · next h => exact .feed b h

theorem execMfsr_effect (rd : RegNum) (sr : BitVec 16) (s : State) :
    ∃ t, execMfsr rd sr s = .next t ∧ Effect o s t := by
  unfold execMfsr
  split
  · exact ⟨_, rfl, .ofQuiet (.setReg s rd _)⟩
  · exact ⟨_, rfl, .ofQuiet ((Quiet.refuse s).trans (.setReg _ rd _))⟩

theorem execTrd_effect (rd rs1 : RegNum) (space : BitVec 16) (s : State) :
    ∃ t, execTrd rd rs1 space s = .next t ∧ Effect o s t := by
  have hrefused : Effect o s (s.setErrCmd.setReg rd 0) :=
    .ofQuiet ((Quiet.refuse s).trans (.setReg _ rd _))
  unfold execTrd
  split
  · split
    · exact ⟨_, rfl, .ofQuiet (.setReg s rd _)⟩
    · exact ⟨_, rfl, hrefused⟩
  · exact ⟨_, rfl, hrefused⟩

theorem execChfor_effect (rd rs1 : RegNum) (mode : BitVec 16) (s : State) :
    ∃ t, execChfor rd rs1 mode s = .next t ∧ Effect o s t := by
  unfold execChfor
  split
  · exact inRun_effect fun _ => .ofQuiet ((Quiet.channelFor s _ mode).trans (.setReg _ rd _))
  · exact ⟨_, rfl, .ofQuiet (.illegalWord 0x32 s)⟩

theorem decode_effect (rd : RegNum) (hrun : s.status.run = true) :
    Effect (some (.decode rd)) s (finish s rd s.decodeOne) :=
  .finish .none s.decodeOne_raises fun _ _ h =>
    .packets hrun (.single (.decode ⟨rd, .inl rfl⟩ h))

theorem pump_effect (rd : RegNum) (k : Nat) (hrun : s.status.run = true) :
    Effect (some (.pump rd)) s
      (finish (State.pumpLoop k 0 s).1 rd
        ((State.pumpLoop k 0 s).2.map fun n => ((State.pumpLoop k 0 s).1, word n))) := by
  have hloop : Effect (some (.pump rd)) s (State.pumpLoop k 0 s).1 :=
    .packets hrun (.pumpLoop ⟨rd, .inr rfl⟩ k 0 s)
  refine .finish hloop ((s.pumpLoop_raises k 0).map _) fun u v h => ?_
  cases hr : (State.pumpLoop k 0 s).2 with
  | error e => rw [hr] at h; cases h
  | ok n => rw [hr] at h; cases h; exact hloop

end Effects

/-- Every instruction has one of the effects, from every state. -/
theorem exec_effect (i : Instr) (s : State) : ∃ t, exec i s = .next t ∧ Effect (some i) s t := by
  cases i with
  | nop => exact ⟨s, rfl, .none⟩
  | li rd imm => exact ⟨_, rfl, .ofQuiet (.setReg s rd _)⟩
  | lui rd imm => exact ⟨_, rfl, .ofQuiet (.setReg s rd _)⟩
  | mfsr rd sr => exact execMfsr_effect rd sr s
  | mtsr sr rs1 => apply inAnyState_effect; exact mtsr_effect s sr rs1 _
  | trd rd rs1 space => exact execTrd_effect rd rs1 space s
  | twr rv rs1 space => apply inConfig_effect; exact fun hrun => twr_effect hrun space _ _
  | init => apply inAnyState_effect; exact init_effect s
  | halt => apply inAnyState_effect; exact .halt
  | rdfld rd fid => apply inAnyState_effect; exact .finish_value rd (s.readField_raises _)
  | build rs1 rs2 => apply inConfig_effect; exact .build _ _
  | apply rd rs1 rs2 => apply inAnyState_effect; exact .finish_value rd (s.curve_raises _ _ _)
  | enter rd rs1 rs2 =>
    apply inRun_effect
    exact fun hrun => .quiet (.enter _ _ hrun) (.setReg _ rd _)
  | exit rs1 => apply inRun_effect; exact .exit _
  | chfor rd rs1 mode => exact execChfor_effect rd rs1 mode s
  | feed b => apply inRun_effect; exact fun _ => feedByte_effect s b
  | feedr rs1 => apply inRun_effect; exact fun _ => feedByte_effect s _
  | nextpkt rd =>
    apply inRun_effect
    exact fun hrun => .quiet (.packets hrun (.nextPacket _ s)) (.setReg _ rd _)
  | decode rd => apply inRun_effect; exact decode_effect rd
  | pump rd => apply inRun_effect; exact pump_effect rd _
  | pktP45Enter low => exact ⟨_, rfl, .ofQuiet (.illegalWord _ s)⟩

/-- Every command word has one of the effects, an illegal one too. -/
theorem commandStep_effect (w : Word) (s : State) :
    ∃ t, commandStep w s = .next t ∧ Effect (decode w).toOption s t := by
  cases hd : decode w with
  | ok i =>
    rw [commandStep_of_ok hd]
    exact exec_effect i s
  | error e => exact ⟨_, commandStep_of_error hd s, .ofQuiet (.illegalWord _ s)⟩

/-- A step of a command word is an effect of it on the state with the word taken. -/
theorem effect_of_step {s t : State} {w : Word} {rest : List HostInput}
    (hin : s.input = .command w :: rest) (h : step s = .next t) :
    Effect (decode w).toOption { s with input := rest } t := by
  obtain ⟨u, hu, heffect⟩ := commandStep_effect w { s with input := rest }
  rw [step_of_command hin, hu] at h
  cases h
  exact heffect

/-- What a step can do: wait, reset, or run a command word. -/
theorem step_cases {s t : State} (h : step s = .next t) :
    t = s ∨ (∃ x rest, t = hardwareReset x { s with input := rest }) ∨
    ∃ w rest, s.input = .command w :: rest ∧ Effect (decode w).toOption { s with input := rest } t := by
  match hin : s.input with
  | [] =>
    rw [step_of_no_input hin] at h
    cases h
    exact .inl rfl
  | .reset x :: rest =>
    rw [step_of_reset hin] at h
    cases h
    exact .inr (.inl ⟨x, rest, rfl⟩)
  | .command w :: rest => exact .inr (.inr ⟨w, rest, rfl, effect_of_step hin h⟩)

/-! ### What fetching and decoding packets keeps -/

/-- `FAULT`, `FCAUSE` and `FINFO`. -/
def State.faultRecord (s : State) : Bool × FCause × Word := (s.status.fault, s.fcause, s.finfo)

theorem Commits.faultRecord {s t : State} (h : Commits s t) : t.faultRecord = s.faultRecord := by
  simp only [State.faultRecord, h.fault, h.fcause, h.finfo]

theorem Fetches.faultRecord {s t : State} (h : Fetches s t) : t.faultRecord = s.faultRecord := by
  simp only [State.faultRecord, h.fault, h.fcause, h.finfo]

/-- `t` has the profile, the fault record and the `RUN` flag of `s`: packets change none of them. -/
structure KeepsControl (s t : State) : Prop extends KeepsProfile s t where
  faultRecord : t.faultRecord = s.faultRecord
  run : t.status.run = s.status.run

theorem KeepsControl.refl (s : State) : KeepsControl s s := ⟨.refl s, rfl, rfl⟩

theorem KeepsControl.trans {s t u : State} (h : KeepsControl s t) (g : KeepsControl t u) :
    KeepsControl s u :=
  ⟨h.toKeepsProfile.trans g.toKeepsProfile, g.faultRecord.trans h.faultRecord, g.run.trans h.run⟩

theorem PacketStep.keepsControl {d : Prop} {s t : State} (h : PacketStep d s t) :
    KeepsControl s t := by
  cases h with
  | fetch _ =>
    have hf := Fetches.nextPacket s
    exact ⟨hf.keepsProfile, hf.faultRecord, hf.run⟩
  | decode _ h =>
    refine ⟨.decodeOne h, ?_, ?_⟩ <;>
      rcases State.decodeOne_ok h with ⟨_, rfl, _⟩ | ⟨_, _, rfl, _⟩ | ⟨_, hit, v, _, _, _, _, rfl, _⟩
    · rfl
    · rfl
    · exact (Commits.commit s hit v).faultRecord
    · rfl
    · rfl
    · exact (Commits.commit s hit v).run

theorem PacketSteps.keepsControl {d : Prop} {s t : State} (h : PacketSteps d s t) :
    KeepsControl s t := by
  induction h with
  | refl => exact .refl s
  | tail _ hstep ih => exact ih.trans hstep.keepsControl

/-- A predicate that each packet keeps, in a state with the profile, fault record and `RUN` flag of the first,
holds after all of them. -/
theorem PacketSteps.invariant {d : Prop} {s t : State} {P : State → Prop} (h : PacketSteps d s t)
    (hs : P s) (hstep : ∀ a b, KeepsControl s a → P a → PacketStep d a b → P b) : P t := by
  induction h with
  | refl => exact hs
  | tail hpre hlast ih => exact hstep _ _ (PacketSteps.keepsControl hpre) ih hlast

theorem ProfileLegal.of_keepsControl {s t : State} (h : ProfileLegal s) (hk : KeepsControl s t) :
    ProfileLegal t := by
  have hp := hk.profile
  simp only [State.profile, Profile.mk.injEq] at hp
  obtain ⟨hproto, hplen, hnch, hcaps, hhdrmask, _, hlsel, _⟩ := hp
  exact h.of_eq hk.params hplen hnch hcaps hlsel hhdrmask hproto hk.run

/-! ### What writing a CFG register keeps -/

/-- Writing a CFG register changes profile registers only; `NCH` and `CAPS` only by their own number. -/
theorem State.writeCfg_keeps {s t : State} {r : SysReg} {v : Word} (h : s.writeCfg r v = some t) :
    ProfileOnly s t ∧ (r ≠ .nch → t.nch = s.nch) ∧ (r ≠ .caps → t.caps = s.caps) := by
  cases r
  case proto =>
    obtain ⟨_, _, rfl⟩ := Option.map_eq_some_iff.1 h
    exact ⟨rfl, fun _ => rfl, fun _ => rfl⟩
  case nch =>
    obtain ⟨_, h⟩ := Option.ite_none_right_eq_some.1 h
    cases h
    exact ⟨rfl, fun hne => absurd rfl hne, fun _ => rfl⟩
  case caps =>
    obtain ⟨_, h⟩ := Option.ite_none_right_eq_some.1 h
    cases h
    exact ⟨rfl, fun _ => rfl, fun hne => absurd rfl hne⟩
  case plen | hdrmask | lsel =>
    obtain ⟨_, h⟩ := Option.ite_none_right_eq_some.1 h
    cases h
    exact ⟨rfl, fun _ => rfl, fun _ => rfl⟩
  all_goals cases h <;> exact ⟨rfl, fun _ => rfl, fun _ => rfl⟩

end Sys2Proof.Machine
end

section
/-! PROOFS of the statements of 10_state.md, second part: hardware reset, `STATUS`, the table memories with
the fault record, and the packet buffer. -/

namespace Sys2Proof.Machine

/-! ### The state after hardware reset (10_state.md R60) -/

section Reset
variable (p : Params) (x : Vector Word 16)

/-- After hardware reset every channel is empty, whether the table has an entry for it or not. -/
theorem State.afterReset_ch (c : Nat) : (State.afterReset p x).ch c = Channel.empty := by
  simp only [State.ch, State.afterReset, List.getD_eq_getElem?_getD, List.getElem?_replicate]
  split <;> rfl

theorem State.afterReset_lsel (j : Fin 4) : (State.afterReset p x).lsel[j] = 0 := by
  simp [State.afterReset]

theorem State.afterReset_cht_length : (State.afterReset p x).cht.length = p.nchMax := by
  simp [State.afterReset]

theorem profileLegal_afterReset {p : Params} (hp : p.Wf) : ProfileLegal (State.afterReset p x) where
  params := hp
  plen_le := Nat.zero_le _
  nch_pos := le_refl 1
  nch_le := by simpa [State.afterReset, State.hasPad] using hp.nchMax_pos
  lsel_ok j := by rw [State.afterReset_lsel]; simp [legalLsel, validBit]
  run_plen := nofun
  run_hdrmask := nofun

theorem tablesSound_afterReset : TablesSound (State.afterReset p x) :=
  ⟨rfl, rfl, rfl, rfl, rfl, fun _ _ => rfl, fun _ _ => rfl, fun _ _ => rfl, fun _ _ => rfl,
    fun _ _ => rfl⟩

theorem faultRecord_afterReset : FaultRecord (State.afterReset p x) := ⟨fun _ => ⟨rfl, rfl⟩, nofun⟩

theorem packetBuffer_afterReset : PacketBuffer (State.afterReset p x) :=
  ⟨⟨fun _ => rfl, fun _ => rfl⟩, Nat.zero_le _, Nat.zero_le _⟩

theorem channelTable_afterReset : ChannelTable (State.afterReset p x) :=
  ⟨State.afterReset_cht_length p x, nofun, nofun, nofun⟩

/-- A table of empty entries keeps R51 (i) and (ii). -/
theorem channelsKept_of_empty {s : State} (h : ∀ c, s.ch c = Channel.empty) : ChannelsKept s :=
  ⟨fun c _ _ => by rw [h c]; rfl, fun c _ => h c⟩

/-- In a table of empty entries no tool is in proximity. -/
theorem serialsApart_of_empty {s : State} (h : ∀ c, s.ch c = Channel.empty) : SerialsApart s := by
  intro c _ _ _ _ hc
  rw [h c] at hc
  cases hc

theorem channelsKept_afterReset : ChannelsKept (State.afterReset p x) :=
  channelsKept_of_empty (State.afterReset_ch p x)

theorem serialsApart_afterReset : SerialsApart (State.afterReset p x) :=
  serialsApart_of_empty (State.afterReset_ch p x)

end Reset

theorem Params.default_wf : Params.default.Wf := by
  constructor
  case flatTol_pos => exact Rat.num_pos.1 Int.one_pos
  all_goals simp [Params.default]

/-- Settles O54, from the invariants of the reset state one by one. -/
theorem resetMeetsTheInvariants : Obligations.ResetMeetsTheInvariants := by
  unfold Obligations.ResetMeetsTheInvariants
  refine (and_iff_left_of_imp fun hall => hall Params.default _ Params.default_wf).2 fun p x hp => ?_
  exact ⟨profileLegal_afterReset x hp, tablesSound_afterReset p x, packetBuffer_afterReset p x,
    channelTable_afterReset p x, fun _ => serialsApart_afterReset p x, faultRecord_afterReset p x,
    channelsKept_afterReset p x, serialsApart_afterReset p x⟩

theorem Status.toWord_clear : ({} : Status).toWord = 0 := by decide

/-- Settles O6: the step resets, and every field of the state after reset is a literal but for the tables of
channels and length selectors. -/
theorem hardwareResetGivesTheResetState : Obligations.HardwareResetGivesTheResetState := by
  intro s x rest hin
  exact ⟨_, step_of_reset hin, rfl, rfl, rfl, Status.toWord_clear, rfl, rfl, rfl, rfl, rfl, rfl, rfl, rfl,
    State.afterReset_lsel s.params x, rfl, rfl, rfl, rfl, rfl, rfl, rfl, rfl, rfl, rfl,
    fun _ => ⟨rfl, rfl, rfl, rfl, rfl⟩, State.afterReset_cht_length s.params x,
    State.afterReset_ch s.params x, rfl, rfl, rfl⟩

/-! ### `STATUS` (10_state.md R23, R32) -/

/-- The flags of `STATUS` from bit 0 on. -/
def Status.bits (f : Status) : List Bool :=
  [f.fault, f.resync, f.errFraming, f.errUnkPkt, f.errUnkTool, f.errChExh, f.errOverrun, f.errCmd,
    f.pktValid, f.curveValid, f.touchCap, f.run]

/-- Bit `i` of the `STATUS` word is flag `i`, and 0 past the flags. -/
theorem Status.toWord_getLsbD (f : Status) (i : Nat) : f.toWord.getLsbD i = f.bits.getD i false := by
  by_cases hi : i < 32
  · unfold Status.toWord Status.bits
    simp only [BitVec.getLsbD_append, BitVec.getLsbD_ofBool]
    interval_cases i <;> simp
  · rw [BitVec.getLsbD_of_ge _ _ (by omega), List.getD_eq_default _ _ (by simp [Status.bits]; omega)]

/-- Clearing by `v` takes from the flags exactly the sticky ones that `v` names. -/
theorem Status.clearSticky_getLsbD (f : Status) (v : Word) (i : Nat) :
    (f.clearSticky v).toWord.getLsbD i
      = (f.toWord.getLsbD i && !(decide (1 ≤ i ∧ i ≤ 7) && v.getLsbD i)) := by
  simp only [Status.toWord_getLsbD]
  by_cases hi : i < 12
  · interval_cases i <;> simp [Status.bits, Status.clearSticky]
  · simp [Status.bits, show 12 ≤ i by omega]

/-- The attention line is the OR of `STATUS` bits 1 to 7. -/
theorem State.attentionLine_iff (s : State) :
    s.attentionLine = true ↔ ∃ i, 1 ≤ i ∧ i ≤ 7 ∧ s.status.toWord.getLsbD i = true := by
  simp only [Status.toWord_getLsbD, State.attentionLine, Bool.or_eq_true]
  constructor
  · rintro ((((((h | h) | h) | h) | h) | h) | h)
    exacts [⟨1, by simpa [Status.bits]⟩, ⟨2, by simpa [Status.bits]⟩, ⟨3, by simpa [Status.bits]⟩,
      ⟨4, by simpa [Status.bits]⟩, ⟨5, by simpa [Status.bits]⟩, ⟨6, by simpa [Status.bits]⟩,
      ⟨7, by simpa [Status.bits]⟩]
  · rintro ⟨i, h1, h7, h⟩
    interval_cases i <;> simp [Status.bits] at h <;> simp [h]

/-- `MTSR STATUS` where it runs, in CONFIG and RUN alike. -/
theorem execMtsr_status (s : State) (rs1 : RegNum) (hf : s.status.fault = false) :
    exec (.mtsr 0x01 rs1) s
      = .next { s with status := s.status.clearSticky (s.reg rs1) } := by
  show execMtsr 0x01 rs1 s = _
  simp [execMtsr, inAnyState_eq, hf, State.mtsr, SysReg.ofNum]

/-- Settles O13, from the bits of the `STATUS` word. -/
theorem statusReadsWholeAndClearsByWriting : Obligations.StatusReadsWholeAndClearsByWriting := by
  intro s rs1 rd
  refine ⟨?_, ?_, s.attentionLine_iff, ⟨_, rfl, .setReg s rd _⟩, fun hf => ?_, fun hf => ?_⟩
  · rw [funext s.status.toWord_getLsbD]
    rfl
  · rw [Status.toWord_getLsbD]
    rfl
  · show execMtsr 0x01 rs1 s = _
    simp [execMtsr, inAnyState_eq, hf]
  · exact ⟨_, execMtsr_status s rs1 hf, rfl, s.status.clearSticky_getLsbD (s.reg rs1)⟩

/-! ### The table memories (10_state.md R45 to R49) -/

/-- The sizes of the table memories, and the memories. -/
def State.tables (s : State) : Params × Memory × Memory × Memory × Memory × Memory :=
  (s.params, s.fdt, s.cls, s.lay, s.tid, s.lut)

section Tables
variable {s t : State}

theorem TablesSound.congr (h : TablesSound s) (ht : t.tables = s.tables) : TablesSound t := by
  simp only [State.tables, Prod.mk.injEq] at ht
  obtain ⟨hp, hfdt, hcls, hlay, htid, hlut⟩ := ht
  obtain ⟨h1, h2, h3, h4, h5, h6, h7, h8, h9, h10⟩ := h
  constructor <;> simpa only [hp, hfdt, hcls, hlay, htid, hlut]

theorem KeepsProfile.tables (h : KeepsProfile s t) : t.tables = s.tables := by
  have hp := h.profile
  simp only [State.profile, Profile.mk.injEq] at hp
  obtain ⟨_, _, _, _, _, _, _, hfdt, hcls, hlay, htid, hlut, _⟩ := hp
  simp only [State.tables, h.params, hfdt, hcls, hlay, htid, hlut]

theorem ProfileOnly.tables (h : ProfileOnly s t) : t.tables = s.tables := by
  have hview := congrArg State.tables h
  exact hview

/-- A write below the end of a table writes nothing past it. -/
theorem Memory.read_write_end {m : Memory} (hm : Memory.wf m = true) {n i : Nat} (hi : i < n) (v : Word)
    (hend : ∀ j, n ≤ j → Memory.read m j = 0) (j : Nat) (hj : n ≤ j) :
    Memory.read (Memory.write m i v) j = 0 := by
  rw [Memory.read_write hm, if_neg (by omega)]
  exact hend j hj

/-- A table write at a legal index keeps the tables canonical and within their size. -/
theorem TablesSound.memWrite {sp : Space} {i : Nat} {v : Word} (h : TablesSound s)
    (hi : i < s.spaceSize sp) (hw : s.memWrite sp i v = some t) : TablesSound t := by
  rcases State.memWrite_cases hw with ⟨rfl, rfl⟩ | ⟨rfl, rfl⟩ | ⟨rfl, rfl⟩ | ⟨rfl, rfl⟩
  · exact { h with
      fdt_wf := Memory.wf_write h.fdt_wf i v
      fdt_end := Memory.read_write_end h.fdt_wf hi v h.fdt_end }
  · exact { h with
      cls_wf := Memory.wf_write h.cls_wf i v
      cls_end := Memory.read_write_end h.cls_wf hi v h.cls_end }
  · exact { h with
      lay_wf := Memory.wf_write h.lay_wf i v
      lay_end := Memory.read_write_end h.lay_wf hi v h.lay_end }
  · exact { h with
      tid_wf := Memory.wf_write h.tid_wf i v
      tid_end := Memory.read_write_end h.tid_wf hi v h.tid_end }

/-- Drawing a curve keeps the LUT canonical and within its size. -/
theorem TablesSound.build (h : TablesSound s) (w1 w2 : Word) : TablesSound (s.build w1 w2) := by
  obtain ⟨hwf, hread⟩ := State.build_lut_keeps h.lut_wf w1 w2
  exact { h with lut_wf := hwf, lut_end := fun i hi => (hread i hi).trans (h.lut_end i hi) }

/-- Only `TWR` and `BUILD` touch the tables. -/
theorem Effect.tablesSound {o : Option Instr} (he : Effect o s t) (h : TablesSound s) :
    TablesSound t := by
  induction he with
  | none => exact h
  | config _ _ _ hw => exact h.congr (State.writeCfg_keeps hw).1.tables
  | table _ hi hw => exact h.memWrite hi hw
  | build w1 w2 _ => exact h.build w1 w2
  | init | halt | feed => exact h.congr rfl
  | enter serial code _ => exact h.congr (Commits.enterTool s serial code).keepsProfile.tables
  | exit serial _ => exact h.congr (Commits.exitTool s serial).keepsProfile.tables
  | packets _ hp => exact h.congr hp.keepsControl.tables
  | quiet _ hq ih => cases hq; exact ih.congr rfl
  | fault _ _ ih => exact ih.congr rfl

end Tables

/-! ### The fault record (10_state.md R33, R34) -/

section Record
variable {s t : State}

theorem FaultRecord.congr (h : FaultRecord s) (ht : t.faultRecord = s.faultRecord) :
    FaultRecord t := by
  simp only [State.faultRecord, Prod.mk.injEq] at ht
  obtain ⟨hfault, hfcause, hfinfo⟩ := ht
  exact ⟨by rw [hfault, hfcause, hfinfo]; exact h.clear, by rw [hfault, hfcause]; exact h.raised⟩

theorem ProfileOnly.faultRecord (h : ProfileOnly s t) : t.faultRecord = s.faultRecord := by
  have hview := congrArg State.faultRecord h
  exact hview

/-- Only taking a fault touches the record, and it names a cause. -/
theorem Effect.faultRecord {o : Option Instr} (he : Effect o s t) (h : FaultRecord s) :
    FaultRecord t := by
  induction he with
  | none => exact h
  | config _ _ _ hw => exact h.congr (State.writeCfg_keeps hw).1.faultRecord
  | table _ _ hw =>
    rcases State.memWrite_cases hw with ⟨_, rfl⟩ | ⟨_, rfl⟩ | ⟨_, rfl⟩ | ⟨_, rfl⟩ <;> exact h.congr rfl
  | build | init | halt | feed => exact h.congr rfl
  | enter serial code _ => exact h.congr (Commits.enterTool s serial code).faultRecord
  | exit serial _ => exact h.congr (Commits.exitTool s serial).faultRecord
  | packets _ hp => exact h.congr hp.keepsControl.faultRecord
  | quiet _ hq ih =>
    cases hq with
    | mk _ _ hfault => exact ih.congr (by simp only [State.faultRecord, hfault])
  | fault _ hcause _ => exact ⟨nofun, fun _ => hcause⟩

end Record

/-- Settles O56, by what a step can do. -/
theorem stepsKeepTablesAndFaultRecord : Obligations.StepsKeepTablesAndFaultRecord := by
  intro s t h
  rcases step_cases h with rfl | ⟨x, rest, rfl⟩ | ⟨w, rest, _, heffect⟩
  · exact ⟨id, id⟩
  · exact ⟨fun _ => (tablesSound_afterReset s.params x).congr rfl,
      fun _ => (faultRecord_afterReset s.params x).congr rfl⟩
  · exact ⟨fun hs => heffect.tablesSound (hs.congr rfl), fun hs => heffect.faultRecord (hs.congr rfl)⟩

/-! ### The packet buffer (10_state.md R53 to R55) -/

/-- The capacities, `PKTVALID`, PKT and the ring. -/
def State.packetBuffer (s : State) : Params × Bool × List Byte × List Byte :=
  (s.params, s.status.pktValid, s.pkt, s.ring)

section Buffer
variable {s t : State}

theorem PacketBuffer.congr (h : PacketBuffer s) (ht : t.packetBuffer = s.packetBuffer) :
    PacketBuffer t := by
  simp only [State.packetBuffer, Prod.mk.injEq] at ht
  obtain ⟨hp, hvalid, hpkt, hring⟩ := ht
  exact ⟨by rw [hvalid, hpkt]; exact h.valid_iff, by rw [hp, hpkt]; exact h.pkt_le,
    by rw [hp, hring]; exact h.ring_le⟩

theorem Commits.packetBuffer (h : Commits s t) : t.packetBuffer = s.packetBuffer := by
  simp only [State.packetBuffer, h.params, h.pktValid, h.pkt, h.ring]

theorem ProfileOnly.packetBuffer (h : ProfileOnly s t) : t.packetBuffer = s.packetBuffer := by
  have hview := congrArg State.packetBuffer h
  exact hview

/-- Consuming the packet leaves none. -/
theorem PacketBuffer.consumePkt (h : PacketBuffer s) : PacketBuffer s.consumePkt :=
  ⟨⟨fun _ => rfl, fun _ => rfl⟩, Nat.zero_le _, h.ring_le⟩

/-- Fetching leaves the buffer without a packet, or with a packet of at least one byte and a legal length. -/
theorem PacketBuffer.nextPacket (hl : ProfileLegal s) (hrun : s.status.run = true)
    (hvalid : s.status.pktValid = false) (h : PacketBuffer s) : PacketBuffer s.nextPacket.1 := by
  have hparams := (Fetches.nextPacket s).params
  have hring := h.ring_le
  rcases State.nextPacket_cases hl hrun hvalid with ⟨hv, hpkt, hle, _⟩ | ⟨hv, hpos, hmax, hle, _⟩
  · exact ⟨by rw [hv, hpkt]; simpa [hvalid] using h.valid_iff, by rw [hparams, hpkt]; exact h.pkt_le,
      by rw [hparams]; omega⟩
  · have hne : s.nextPacket.1.pkt ≠ [] := List.ne_nil_of_length_pos hpos
    exact ⟨by simp [hv, hne], by rw [hparams]; exact hmax, by rw [hparams]; omega⟩

theorem PacketBuffer.decodeOne {w : Word} (h : PacketBuffer s) (hd : s.decodeOne = .ok (t, w)) :
    PacketBuffer t := by
  rcases State.decodeOne_ok hd with ⟨_, rfl, _⟩ | ⟨_, _, rfl, _⟩ | ⟨_, hit, v, _, _, _, _, rfl, _⟩
  · exact h
  · exact h.consumePkt.congr rfl
  · exact (h.congr (Commits.commit s hit v).packetBuffer).consumePkt

theorem PacketBuffer.packets {d : Prop} (hl : ProfileLegal s) (hrun : s.status.run = true)
    (hp : PacketSteps d s t) (h : PacketBuffer s) : PacketBuffer t :=
  hp.invariant h fun a _ hk ha hstep => by
    cases hstep with
    | fetch hvalid => exact ha.nextPacket (hl.of_keepsControl hk) (hk.run.trans hrun) hvalid
    | decode _ hd => exact ha.decodeOne hd

/-- A byte is fed only where the ring has room. -/
theorem Effect.packetBuffer {o : Option Instr} (hl : ProfileLegal s) (he : Effect o s t)
    (h : PacketBuffer s) : PacketBuffer t := by
  induction he with
  | none => exact h
  | config _ _ _ hw => exact h.congr (State.writeCfg_keeps hw).1.packetBuffer
  | table _ _ hw =>
    rcases State.memWrite_cases hw with ⟨_, rfl⟩ | ⟨_, rfl⟩ | ⟨_, rfl⟩ | ⟨_, rfl⟩ <;> exact h.congr rfl
  | build | halt => exact h.congr rfl
  | init => exact ⟨⟨fun _ => rfl, fun _ => rfl⟩, Nat.zero_le _, Nat.zero_le _⟩
  | enter serial code _ => exact h.congr (Commits.enterTool s serial code).packetBuffer
  | exit serial _ => exact h.congr (Commits.exitTool s serial).packetBuffer
  | feed b hroom =>
    have hring := h.ring_le
    exact ⟨h.valid_iff, h.pkt_le, by simp only [List.length_append, List.length_singleton]; omega⟩
  | packets hrun hp => exact h.packets hl hrun hp
  | quiet _ hq ih =>
    cases hq with
    | mk _ _ _ hvalid => exact ih.congr (by simp only [State.packetBuffer, hvalid])
  | fault _ _ ih => exact ih.congr rfl

end Buffer

/-- Taking the host's input leaves the profile legal. -/
theorem ProfileLegal.input {s : State} (h : ProfileLegal s) (rest : List HostInput) :
    ProfileLegal { s with input := rest } :=
  h.of_eq rfl rfl rfl rfl rfl rfl rfl rfl

/-- Settles O57, by what a step can do. -/
theorem stepsKeepThePacketBuffer : Obligations.StepsKeepThePacketBuffer := by
  intro s t hl hs h
  rcases step_cases h with rfl | ⟨x, rest, rfl⟩ | ⟨w, rest, _, heffect⟩
  · exact hs
  · exact (packetBuffer_afterReset s.params x).congr rfl
  · exact heffect.packetBuffer (hl.input rest) (hs.congr rfl)

end Sys2Proof.Machine
end

section
/-! PROOFS of the statements of 10_state.md, third part: the channel table, in and outside the RUN state, the
serial numbers, and the events. What ENTER, EXIT and a decoded packet do to the channels is said once, as a
sequence of `ChannelStep`s. -/

namespace Sys2Proof.Machine

/-! ### Frames -/

/-- `t` has the channel table of `s`, and the registers that say how it is divided. -/
structure SameTable (s t : State) : Prop where
  params : t.params = s.params
  nch : t.nch = s.nch
  caps : t.caps = s.caps
  cht : t.cht = s.cht
  lastch : t.lastch = s.lastch

/-- `t` has the channel table of `s`, and its events. -/
structure SameChannels (s t : State) : Prop extends SameTable s t where
  evout : t.evout = s.evout
  evcnt : t.evcnt = s.evcnt

section Frames
variable {s t : State}

theorem SameTable.ch (h : SameTable s t) (c : Nat) : t.ch c = s.ch c := State.ch_congr h.cht c

theorem SameTable.hasPad (h : SameTable s t) : t.hasPad = s.hasPad := by
  simp only [State.hasPad, h.caps]

theorem Quiet.sameChannels (h : Quiet s t) : SameChannels s t := by
  cases h
  exact ⟨⟨rfl, rfl, rfl, rfl, rfl⟩, rfl, rfl⟩

theorem Quiet.run_eq (h : Quiet s t) : t.status.run = s.status.run := by
  cases h with
  | mk _ _ _ _ hrun => exact hrun

theorem Fetches.sameChannels (h : Fetches s t) : SameChannels s t :=
  ⟨⟨h.params, h.nch, h.caps, h.cht, h.lastch⟩, h.evout, h.evcnt⟩

theorem SameChannels.consumePkt (s : State) : SameChannels s s.consumePkt :=
  ⟨⟨rfl, rfl, rfl, rfl, rfl⟩, rfl, rfl⟩

theorem SameChannels.dropPkt (s : State) : SameChannels s s.dropPkt :=
  ⟨⟨rfl, rfl, rfl, rfl, rfl⟩, rfl, rfl⟩

theorem State.memWrite_sameChannels {sp : Space} {i : Nat} {v : Word} (h : s.memWrite sp i v = some t) :
    SameChannels s t ∧ t.status = s.status := by
  rcases State.memWrite_cases h with ⟨_, rfl⟩ | ⟨_, rfl⟩ | ⟨_, rfl⟩ | ⟨_, rfl⟩ <;>
    exact ⟨⟨⟨rfl, rfl, rfl, rfl, rfl⟩, rfl, rfl⟩, rfl⟩

end Frames

/-! ### Steps of the channel table -/

/-- One thing that a command does to the channels. Where `legal` holds, the channel entered or left is a tool
channel and the one dispatched to is in proximity; where `arb` holds, a serial is entered on the channel that
holds it, if one does. -/
inductive ChannelStep (legal arb : Prop) (s : State) : State → Prop
  | same {t : State} : SameChannels s t → ChannelStep legal arb s t
  | enter (c : Nat) (serial code : Word) (type : ToolType) : (legal → c < s.nch.toNat) →
      (arb → ∀ d, s.Holds d serial → s.Holds c serial) →
      ChannelStep legal arb s (s.enterProc c serial code type)
  | clear (c : Nat) : (legal → c < s.nch.toNat) → ChannelStep legal arb s (s.clear c)
  | dispatch (c : Nat) (motion : Bool) (v : Fields) : (legal → (s.ch c).inProx = true) →
      ChannelStep legal arb s (s.dispatch c motion v)
  | emit (ev : Event) : ChannelStep legal arb s (s.emit ev)

/-- Such steps one after the other. -/
abbrev ChannelSteps (legal arb : Prop) : State → State → Prop :=
  Relation.ReflTransGen (ChannelStep legal arb)

section Steps
variable {legal arb : Prop} {s t : State}

theorem SameChannels.steps (h : SameChannels s t) : ChannelSteps legal arb s t := .single (.same h)

theorem Quiet.steps (h : Quiet s t) : ChannelSteps legal arb s t := h.sameChannels.steps

theorem State.Holds.congr (h : SameTable s t) (c : Nat) (serial : Word) :
    t.Holds c serial ↔ s.Holds c serial := by
  simp only [State.Holds, h.nch, h.ch]

/-- Arbitration finds the channel that holds the serial, where one does. -/
theorem State.arbEnter_holds (s : State) (serial : Word) {d : Nat} (hd : s.Holds d serial) :
    s.Holds (s.arbEnter serial).2 serial := by
  rcases s.arbEnter_cases serial with ⟨c, hfind, he⟩ | ⟨_, hnone, _⟩ | ⟨hnone, _⟩
  · rw [he]
    exact ((State.find_eq_some s serial c).1 hfind).1
  · exact absurd hd ((State.find_eq_none s serial).1 hnone d hd.1)
  · exact absurd hd ((State.find_eq_none s serial).1 hnone d hd.1)

/-- The channel that `sel` chose is a tool channel, where a fixed one is (R217, R250). -/
theorem State.sel_lt {h : Hit} {v : Fields} {c : Nat} (hpos : 1 ≤ s.nch.toNat)
    (hfixed : h.chMode = .fixed → h.fixedCh < s.nch.toNat) (hc : (s.sel h v).2 = some c) :
    c < s.nch.toNat := by
  unfold State.sel at hc
  split at hc
  · cases hc; exact State.tagCh_lt hpos _
  · next hmode => cases hc; exact hfixed hmode
  · cases hc

theorem State.sel_arb {h : Hit} (harb : h.chMode = .arb) (v : Fields) : s.sel h v = (s, none) := by
  simp only [State.sel, harb]

theorem Quiet.sel (s : State) (h : Hit) (v : Fields) : Quiet s (s.sel h v).1 := by
  unfold State.sel
  split
  · exact .tagCh s _
  · exact .refl s
  · exact .refl s

theorem Quiet.orArb (s : State) (serial : Word) (c : Option Nat) : Quiet s (s.orArb serial c).1 := by
  cases c with
  | some _ => exact .refl s
  | none => exact .arbEnter s serial

/-- Entering on the channel chosen or arbitrated. -/
theorem State.orArb_steps {c : Option Nat} (serial code : Word) (type : ToolType)
    (hpos : legal → 1 ≤ s.nch.toNat) (hc : legal → ∀ d, c = some d → d < s.nch.toNat)
    (harb : arb → c = none) :
    ChannelSteps legal arb s
      ((s.orArb serial c).1.enterProc (s.orArb serial c).2 serial code type) := by
  have hsame := (Quiet.orArb s serial c).sameChannels.toSameTable
  refine (Quiet.orArb s serial c).steps.tail (.enter _ _ _ _ (fun hl => ?_) fun ha d hd => ?_)
  · rw [hsame.nch]
    cases c with
    | some c => exact hc hl c rfl
    | none => exact State.arbEnter_lt (hpos hl) serial
  · obtain rfl := harb ha
    rw [State.Holds.congr hsame] at hd ⊢
    exact s.arbEnter_holds serial hd

theorem State.leave_steps {c : Nat} (hc : legal → c < s.nch.toNat) :
    ChannelSteps legal arb s (s.leave c) :=
  (Relation.ReflTransGen.single (.clear c hc)).tail (.emit _)

theorem State.enterTool_steps (serial code : Word) (hpos : legal → 1 ≤ s.nch.toNat) :
    ChannelSteps legal arb s (s.enterTool serial code).1 := by
  have hmap := Quiet.tidmap s code
  have hnch := hmap.sameChannels.nch
  exact hmap.steps.trans
    (State.orArb_steps (c := none) serial code _ (by rwa [hnch]) nofun fun _ => rfl)

theorem State.exitTarget_lt {c : Nat} {serial : Word} (h : s.exitTarget serial = some c) :
    c < s.nch.toNat := by
  unfold State.exitTarget at h
  split at h
  · next hfind => cases h; exact State.find_lt hfind
  · split at h
    · next hone => cases h; rw [hone]; decide
    · cases h

theorem State.exitTool_steps (serial : Word) : ChannelSteps legal arb s (s.exitTool serial) := by
  unfold State.exitTool
  split
  · next hc => exact .single (.clear _ fun _ => State.exitTarget_lt hc)
  · exact .refl

end Steps

/-! ### The channel table while the block runs -/

/-- `ChannelTable` of a state in RUN, its condition left out (10_state.md R51 (i) and (ii), R52). -/
structure RunTable (s : State) : Prop where
  size : s.cht.length = s.params.nchMax
  kept : ChannelsKept s
  pad : s.hasPad = true →
    (s.ch s.nch.toNat).toolType = .pad ∧ (s.ch s.nch.toNat).inProx = true ∧
      (s.ch s.nch.toNat).serial = 0
  lastch : s.lastch = noch ∨ s.lastch.toNat < s.nch.toNat

section Table
variable {s t : State}

theorem ChannelTable.runTable (h : ChannelTable s) (hrun : s.status.run = true) : RunTable s :=
  ⟨h.size, h.kept hrun, h.pad_present hrun, h.lastch_ok hrun⟩

theorem RunTable.channelTable (h : RunTable s) : ChannelTable s :=
  ⟨h.size, fun _ => h.kept, fun _ => h.pad, fun _ => h.lastch⟩

/-- Outside the RUN state only the size of the table is fixed. -/
theorem ChannelTable.of_config (hsize : s.cht.length = s.params.nchMax) (hrun : s.status.run = false) :
    ChannelTable s :=
  ⟨hsize, fun h => by simp [hrun] at h, fun h => by simp [hrun] at h, fun h => by simp [hrun] at h⟩

theorem ChannelsKept.congr (h : ChannelsKept s) (ht : SameTable s t) : ChannelsKept t :=
  ⟨by simpa only [ht.nch, ht.ch] using h.out_cleared,
    by simpa only [ht.nch, ht.ch, ht.hasPad] using h.unused_empty⟩

theorem RunTable.congr (h : RunTable s) (ht : SameTable s t) : RunTable t :=
  ⟨by rw [ht.cht, ht.params]; exact h.size, h.kept.congr ht,
    by rw [ht.nch, ht.ch, ht.hasPad]; exact h.pad, by rw [ht.nch, ht.lastch]; exact h.lastch⟩

theorem ChannelTable.congr (h : ChannelTable s) (ht : SameTable s t)
    (hrun : t.status.run = s.status.run) : ChannelTable t := by
  cases hr : s.status.run with
  | true => exact ((h.runTable hr).congr ht).channelTable
  | false =>
    exact .of_config (by rw [ht.cht, ht.params]; exact h.size) (hrun.trans hr)

theorem word_toNat_of_lt {n : BitVec 7} {c : Nat} (h : c < n.toNat) : (word c).toNat = c := by
  have := n.isLt
  simp only [BitVec.toNat_ofNat]
  omega

theorem RunTable.enterProc {c : Nat} (h : RunTable s) (hc : c < s.nch.toNat) (serial code : Word)
    (type : ToolType) : RunTable (s.enterProc c serial code type) where
  size := (Commits.enterProc s c serial code type).cht_length.trans h.size
  kept := by
    refine ⟨fun d hd hout => ?_, fun d hd => ?_⟩
    · rw [State.enterProc_ch] at hout ⊢
      split at hout
      · cases hout
      · next hne =>
        rw [if_neg hne]
        exact h.kept.out_cleared d hd hout
    · have hpast : s.nch.toNat + (if s.hasPad then 1 else 0) ≤ d := hd
      rw [State.enterProc_ch, if_neg (by omega)]
      exact h.kept.unused_empty d hpast
  pad hpad := by
    have hkeep : (s.enterProc c serial code type).ch s.nch.toNat = s.ch s.nch.toNat := by
      rw [State.enterProc_ch, if_neg (by omega)]
    have := h.pad hpad
    rwa [← hkeep] at this
  lastch := .inr (by rw [State.enterProc_lastch, word_toNat_of_lt hc]; exact hc)

theorem RunTable.clear {c : Nat} (h : RunTable s) (hc : c < s.nch.toNat) : RunTable (s.clear c) where
  size := (Commits.clear s c).cht_length.trans h.size
  kept := by
    refine ⟨fun d hd hout => ?_, fun d hd => ?_⟩
    · rw [State.clear_ch] at hout ⊢
      split at hout
      · next heq => rw [if_pos heq]; rfl
      · next hne =>
        rw [if_neg hne]
        exact h.kept.out_cleared d hd hout
    · have hpast : s.nch.toNat + (if s.hasPad then 1 else 0) ≤ d := hd
      rw [State.clear_ch, if_neg (by omega)]
      exact h.kept.unused_empty d hpast
  pad hpad := by
    have hkeep : (s.clear c).ch s.nch.toNat = s.ch s.nch.toNat := by
      rw [State.clear_ch, if_neg (by omega)]
    have := h.pad hpad
    rwa [← hkeep] at this
  lastch := h.lastch

theorem State.dispatch_ch (s : State) (c d : Nat) (motion : Bool) (v : Fields) :
    (s.dispatch c motion v).ch d
      = if d = c ∧ c < s.cht.length then s.dispatchEntry c v else s.ch d := by
  rw [State.dispatch, State.ch_setCh, State.emitAll_cht,
    State.ch_congr (State.emitAll_cht (s.dispatchEvents c motion v) s)]

/-- A dispatch keeps what identifies the tool of every entry. -/
theorem State.dispatch_tool (s : State) (c d : Nat) (motion : Bool) (v : Fields) :
    ((s.dispatch c motion v).ch d).toolType = (s.ch d).toolType ∧
    ((s.dispatch c motion v).ch d).inProx = (s.ch d).inProx ∧
    ((s.dispatch c motion v).ch d).serial = (s.ch d).serial := by
  rw [State.dispatch_ch]
  split
  · next h => rw [h.1]; exact ⟨rfl, rfl, rfl⟩
  · exact ⟨rfl, rfl, rfl⟩

theorem RunTable.dispatch {c : Nat} (h : RunTable s) (hc : (s.ch c).inProx = true) (motion : Bool)
    (v : Fields) : RunTable (s.dispatch c motion v) := by
  have hframe := Commits.dispatch s c motion v
  have hpadEq : (s.dispatch c motion v).hasPad = s.hasPad := by simp only [State.hasPad, hframe.caps]
  -- an entry that must be empty is not the one dispatched to, which is in proximity
  have hother : ∀ d, (s.ch d).inProx = false → (s.dispatch c motion v).ch d = s.ch d := by
    intro d hd
    rw [State.dispatch_ch, if_neg]
    rintro ⟨rfl, _⟩
    simp [hc] at hd
  refine ⟨hframe.cht_length.trans (h.size.trans (by rw [hframe.params])),
    ⟨fun d hd hout => ?_, fun d hd => ?_⟩, fun hpad => ?_, ?_⟩
  · rw [(s.dispatch_tool c d motion v).2.1] at hout
    rw [hframe.nch] at hd
    rw [hother d hout]
    exact h.kept.out_cleared d hd hout
  · rw [hframe.nch, hpadEq] at hd
    have hempty := h.kept.unused_empty d hd
    rw [hother d (by rw [hempty]; rfl), hempty]
  · obtain ⟨htype, hprox, hserial⟩ := s.dispatch_tool c s.nch.toNat motion v
    rw [hframe.nch, htype, hprox, hserial]
    exact h.pad (hpadEq ▸ hpad)
  · rw [hframe.nch, State.dispatch_eq]
    exact h.lastch

theorem RunTable.steps {legal arb : Prop} (hl : legal) (hsteps : ChannelSteps legal arb s t)
    (h : RunTable s) : RunTable t := by
  induction hsteps with
  | refl => exact h
  | tail _ hstep ih =>
    cases hstep with
    | same hsame => exact ih.congr hsame.toSameTable
    | enter c serial code type hc _ => exact ih.enterProc (hc hl) serial code type
    | clear c hc => exact ih.clear (hc hl)
    | dispatch c motion v hc => exact ih.dispatch (hc hl) motion v
    | emit ev => exact ih.congr ⟨rfl, rfl, rfl, rfl, rfl⟩

end Table

/-! ### Serial numbers (10_state.md R51 (iii)) -/

section Serials
variable {s t : State}

/-- Serials stay apart where no tool channel comes into proximity or changes its serial. -/
theorem SerialsApart.mono (h : SerialsApart s) (hnch : t.nch = s.nch)
    (hch : ∀ c, (t.ch c).inProx = true → (s.ch c).inProx = true ∧ (t.ch c).serial = (s.ch c).serial) :
    SerialsApart t := by
  intro c d hc hd hne hpc hpd
  obtain ⟨hc', hsc⟩ := hch c hpc
  obtain ⟨hd', hsd⟩ := hch d hpd
  rw [hnch] at hc hd
  rw [hsc, hsd]
  exact h c d hc hd hne hc' hd'

theorem SerialsApart.congr (h : SerialsApart s) (hnch : t.nch = s.nch) (hcht : t.cht = s.cht) :
    SerialsApart t :=
  h.mono hnch fun c hc => by
    rw [State.ch_congr hcht] at hc
    exact ⟨hc, by rw [State.ch_congr hcht]⟩

/-- A serial entered on the channel that holds it, if one does, is on no other channel. -/
theorem SerialsApart.enterProc {c : Nat} {serial : Word} (h : SerialsApart s)
    (hc : ∀ d, s.Holds d serial → s.Holds c serial) (code : Word) (type : ToolType) :
    SerialsApart (s.enterProc c serial code type) := by
  have hother : ∀ d, d < s.nch.toNat → d ≠ c → (s.ch d).inProx = true → (s.ch d).serial ≠ serial := by
    rintro d hd hne hprox rfl
    obtain ⟨hlt, hpc, hsc⟩ := hc d ⟨hd, hprox, rfl⟩
    exact h d c hd hlt hne hprox hpc hsc.symm
  have hentry : (s.enteredEntry c serial code type).serial = serial := rfl
  intro d e hd he hne hpd hpe
  rw [State.enterProc_ch] at hpd hpe ⊢
  rw [State.enterProc_ch]
  split at hpd <;> split at hpe
  · omega
  · next h1 h2 =>
    rw [if_pos h1, if_neg h2, hentry]
    exact (hother e he (by omega) hpe).symm
  · next h1 h2 =>
    rw [if_neg h1, if_pos h2, hentry]
    exact hother d hd (by omega) hpd
  · next h1 h2 =>
    rw [if_neg h1, if_neg h2]
    exact h d e hd he hne hpd hpe

theorem SerialsApart.steps {legal arb : Prop} (ha : arb) (hsteps : ChannelSteps legal arb s t)
    (h : SerialsApart s) : SerialsApart t := by
  induction hsteps with
  | refl => exact h
  | @tail a _ _ hstep ih =>
    cases hstep with
    | same hsame => exact ih.congr hsame.nch hsame.cht
    | enter c serial code type _ hc => exact ih.enterProc (hc ha) code type
    | clear c _ =>
      refine ih.mono rfl fun d hd => ?_
      rw [State.clear_ch] at hd ⊢
      split at hd
      · cases hd
      · next hne => rw [if_neg hne]; exact ⟨hd, rfl⟩
    | dispatch c motion v _ =>
      refine ih.mono (Commits.dispatch a c motion v).nch fun d hd => ?_
      obtain ⟨_, hprox, hserial⟩ := a.dispatch_tool c d motion v
      exact ⟨hprox ▸ hd, hserial⟩
    | emit ev => exact ih.congr rfl rfl

end Serials

/-! ### Events (10_state.md R58) -/

/-- From `s` to `t` the events `evs` are appended to EVOUT and counted. -/
structure Emits (s t : State) (evs : List Event) : Prop where
  evout : t.evout = s.evout ++ evs
  evcnt : t.evcnt = s.evcnt + word evs.length

section Events
variable {s t u : State}

theorem Emits.none (hout : t.evout = s.evout) (hcnt : t.evcnt = s.evcnt) : Emits s t [] :=
  ⟨by simp [hout], by simp [hcnt]⟩

theorem Emits.trans {evs evs' : List Event} (h : Emits s t evs) (g : Emits t u evs') :
    Emits s u (evs ++ evs') :=
  ⟨by rw [g.evout, h.evout, List.append_assoc],
    by rw [g.evcnt, h.evcnt, List.length_append, word, word, word, BitVec.ofNat_add, BitVec.add_assoc]⟩

theorem SameChannels.emits (h : SameChannels s t) : Emits s t [] := .none h.evout h.evcnt

theorem ChannelStep.emits {legal arb : Prop} (h : ChannelStep legal arb s t) : ∃ evs, Emits s t evs := by
  cases h with
  | same hsame => exact ⟨_, hsame.emits⟩
  | enter | clear => exact ⟨_, .none rfl rfl⟩
  | dispatch c motion v _ =>
    refine ⟨s.dispatchEvents c motion v, ?_, ?_⟩ <;> rw [State.dispatch_eq]
  | emit ev => exact ⟨[ev], rfl, rfl⟩

theorem ChannelSteps.emits {legal arb : Prop} (h : ChannelSteps legal arb s t) :
    ∃ evs, Emits s t evs := by
  induction h with
  | refl => exact ⟨_, .none rfl rfl⟩
  | tail _ hstep ih =>
    obtain ⟨evs, h1⟩ := ih
    obtain ⟨evs', h2⟩ := hstep.emits
    exact ⟨_, h1.trans h2⟩

end Events

end Sys2Proof.Machine
end

section
/-! PROOFS of the statements of 10_state.md, fourth part: a decoded packet as a sequence of `ChannelStep`s, and
from there the statements about the channel table, the serial numbers and the events. -/

namespace Sys2Proof.Machine

/-! ### Committing a packet, step by step (43_protocol_decoders.md R252 to R258) -/

section Commit
variable {legal arb : Prop} {s : State} {h : Hit}

/-- An entered channel of the table is in proximity. -/
theorem State.enterProc_inProx {c : Nat} (hc : c < s.cht.length) (serial code : Word) (type : ToolType) :
    ((s.enterProc c serial code type).ch c).inProx = true := by
  rw [State.enterProc_ch, if_pos ⟨rfl, hc⟩]
  rfl

/-- The channel entered is one of the table. -/
theorem State.orArb_lt {c : Option Nat} (hpos : 1 ≤ s.nch.toNat) (hc : ∀ d, c = some d → d < s.nch.toNat)
    (serial : Word) : (s.orArb serial c).2 < s.nch.toNat := by
  cases c with
  | some d => exact hc d rfl
  | none => exact State.arbEnter_lt hpos serial

theorem RunTable.nch_le_length (h : RunTable s) (hl : ProfileLegal s) : s.nch.toNat ≤ s.cht.length := by
  have := hl.nch_le
  have := h.size
  omega

theorem State.flagEnter_steps {c : Option Nat} (v : Fields) (hpos : legal → 1 ≤ s.nch.toNat)
    (hsize : legal → s.nch.toNat ≤ s.cht.length) (hc : legal → ∀ d, c = some d → d < s.nch.toNat)
    (harb : arb → c = none) : ChannelSteps legal arb s (s.flagEnter c v) := by
  have hquiet := Quiet.tselTool s ((v.get .toolsel).getD 0)
  unfold State.flagEnter
  dsimp only
  generalize s.tselTool ((v.get .toolsel).getD 0) = m at hquiet ⊢
  have hsame := hquiet.sameChannels.toSameTable
  rw [← hsame.nch] at hpos hsize hc
  rw [← hsame.cht] at hsize
  refine ((hquiet.steps.trans (State.orArb_steps 0 _ m.2 hpos hc harb)).tail (.emit _)).tail
    (.dispatch _ true v fun hl => ?_)
  have hlt := State.orArb_lt (hpos hl) (hc hl) 0
  have hle := hsize hl
  rw [← (Commits.orArb m.1 0 c).cht_length] at hle
  exact State.enterProc_inProx (lt_of_lt_of_le hlt hle) _ _ _

/-- A channel that exists and is in proximity (`inst` of R253). -/
theorem State.instOf_iff {c : Option Nat} :
    s.instOf c = true ↔ ∃ d, c = some d ∧ (s.ch d).inProx = true := by
  cases c <;> simp [State.instOf]

variable (hrt : legal → RunTable s) (hlegal : legal → ProfileLegal s)
  (hfixed : legal → h.chMode = .fixed → h.fixedCh < s.nch.toNat)

include hlegal hfixed

theorem State.sel_lt_of_legal (v : Fields) (hl : legal) (d : Nat) (hd : (s.sel h v).2 = some d) :
    d < s.nch.toNat :=
  State.sel_lt (hlegal hl).nch_pos (hfixed hl) hd

include hrt

theorem State.commitFlagprox_steps (v : Fields) (harb : arb → h.chMode = .arb) :
    ChannelSteps legal arb s (s.commitFlagprox h v) := by
  have hq := Quiet.sel s h v
  have hsame := hq.sameChannels.toSameTable
  have hsel := State.sel_lt_of_legal hlegal hfixed v
  refine hq.steps.trans ?_
  unfold State.commitFlagprox
  dsimp only
  split
  · next _ hinst =>
    obtain ⟨d, hd, hprox⟩ := State.instOf_iff.1 hinst
    exact .single (.dispatch _ true v fun _ => by rw [hd]; exact hprox)
  · exact State.flagEnter_steps v (fun hl => by rw [hsame.nch]; exact (hlegal hl).nch_pos)
      (fun hl => by rw [hsame.nch, hsame.cht]; exact (hrt hl).nch_le_length (hlegal hl))
      (by rwa [hsame.nch]) fun ha => by rw [State.sel_arb (harb ha)]
  · next _ hinst =>
    obtain ⟨d, hd, _⟩ := State.instOf_iff.1 hinst
    refine State.leave_steps fun hl => ?_
    rw [hd, Option.getD_some]
    rcases Option.or_eq_some_iff.1 hd with hd | ⟨_, hd⟩
    · rw [hsame.nch]; exact hsel hl d hd
    · exact State.find_lt hd
  · exact .refl

omit hrt in
theorem State.commitEnter_steps (v : Fields) (harb : arb → h.chMode = .arb) :
    ChannelSteps legal arb s (s.commitEnter h v) := by
  have hmap := Quiet.tidmap s ((v.get .toolid).getD 0)
  unfold State.commitEnter
  dsimp only
  generalize s.tidmap ((v.get .toolid).getD 0) = m at hmap ⊢
  have hsel := Quiet.sel m.1 h v
  have hpos : legal → 1 ≤ m.1.nch.toNat := fun hl => by
    rw [hmap.sameChannels.nch]; exact (hlegal hl).nch_pos
  rw [← hmap.sameChannels.nch] at hfixed
  have hlt : legal → ∀ d, (m.1.sel h v).2 = some d → d < m.1.nch.toNat := fun hl _ =>
    State.sel_lt (hpos hl) (hfixed hl)
  rw [← hsel.sameChannels.nch] at hpos hlt
  have henter := (hmap.trans hsel).steps.trans <|
    State.orArb_steps ((v.get .serial).getD 0) ((v.get .toolid).getD 0) m.2 hpos hlt
      fun ha => by rw [State.sel_arb (harb ha)]
  split
  · exact henter
  · exact henter.tail (.emit _)

theorem State.commitExit_steps (v : Fields) : ChannelSteps legal arb s (s.commitExit h v) := by
  have hq := Quiet.sel s h v
  have hsame := hq.sameChannels.toSameTable
  have hchannel : legal → ∀ c,
      (s.sel h v).1.exitChannel (s.sel h v).2 (v.get .serial) = some c → c < s.nch.toNat := by
    intro hl c hc
    unfold State.exitChannel at hc
    split at hc
    · next hsome =>
      cases hc
      exact State.sel_lt_of_legal hlegal hfixed v hl _ hsome
    · rw [← hsame.nch]; exact State.exitTarget_lt hc
    · obtain ⟨hne, hc⟩ := Option.ite_none_left_eq_some.1 hc
      cases hc
      rw [hsame.lastch] at hne ⊢
      exact (hrt hl).lastch.resolve_left hne
  refine hq.steps.trans ?_
  unfold State.commitExit
  dsimp only
  split
  · next c hc =>
    split
    · exact State.leave_steps fun hl => by rw [hsame.nch]; exact hchannel hl c hc
    · exact .refl
  · exact .refl

omit hrt hlegal hfixed in
theorem State.commitGeneral_steps (v : Fields) : ChannelSteps legal arb s (s.commitGeneral h v) := by
  refine (Quiet.sel s h v).steps.trans ?_
  unfold State.commitGeneral
  dsimp only
  split
  · split
    · next hprox => exact .single (.dispatch _ true v fun _ => hprox)
    · exact .refl
  · exact .refl

omit hfixed in
/-- Phase 2 does to the channels what `ChannelStep` allows, by kind. -/
theorem State.commit_steps (v : Fields)
    (hfixed : legal → h.kind.selects = true → h.chMode = .fixed → h.fixedCh < s.nch.toNat)
    (hpad : h.kind = .pad → s.hasPad = true)
    (harb : arb → h.kind = .flagprox ∨ h.kind = .enter → h.chMode = .arb) :
    ChannelSteps legal arb s (s.commit h v) := by
  unfold State.commit
  cases hkind : h.kind with
  | ignore => exact .refl
  | flagprox =>
    exact State.commitFlagprox_steps hrt hlegal (fun hl => hfixed hl (by rw [hkind]; rfl)) v
      fun ha => harb ha (.inl hkind)
  | enter =>
    exact State.commitEnter_steps hlegal (fun hl => hfixed hl (by rw [hkind]; rfl)) v
      fun ha => harb ha (.inr hkind)
  | exit =>
    exact State.commitExit_steps hrt hlegal (fun hl => hfixed hl (by rw [hkind]; rfl)) v
  | general => exact State.commitGeneral_steps v
  | pad => exact .single (.dispatch _ false v fun hl => ((hrt hl).pad (hpad hkind)).2.1)
  | qreply | tqreply => exact .single (.same ⟨⟨rfl, rfl, rfl, rfl, rfl⟩, rfl, rfl⟩)

end Commit

/-! ### What the earlier phases of a decoded packet guarantee -/

section Phases
variable {s : State}

/-- The rules of the ENTER and FLAGPROX packets select by arbitration (R119). -/
def ArbRules (s : State) : Prop :=
  ∀ i, i < s.params.clsSize → s.RuleValid i → s.kindOf i = 1 ∨ s.kindOf i = 2 → s.modeOf i = 0

theorem ArbRules.of_keepsProfile {t : State} (h : ArbRules s) (hk : KeepsProfile s t) : ArbRules t := by
  have ht := hk.tables
  simp only [State.tables, Prod.mk.injEq] at ht
  obtain ⟨hparams, _, hcls, _⟩ := ht
  simpa only [ArbRules, State.RuleValid, State.kindOf, State.modeOf, State.ruleWord, hparams, hcls]
    using h

theorem State.classifyIn_mem {is : List Nat} {i : Nat} (h : s.classifyIn is = .ok (some i)) :
    i ∈ is ∧ s.ruleHits i = .ok true := by
  induction is with
  | nil => cases h
  | cons j is ih =>
    unfold State.classifyIn at h
    split at h
    · cases h
    · next hit => cases h; exact ⟨List.mem_cons_self, hit⟩
    · obtain ⟨hmem, hit⟩ := ih h
      exact ⟨List.mem_cons_of_mem j hmem, hit⟩

/-- The rule that a packet hits is a valid one of the table (R242). -/
theorem State.classify_valid {i : Nat} (h : s.classify = .ok (some i)) :
    i < s.params.clsSize ∧ s.RuleValid i := by
  obtain ⟨hmem, hit⟩ := State.classifyIn_mem h
  refine ⟨List.mem_range.1 hmem, ?_⟩
  unfold State.ruleHits at hit
  split at hit
  · next hvalid => exact (validBit_iff _).1 hvalid
  · cases hit

/-- What the hit of a rule says: the rule's kind, or IGNORE where it is gated, and the rule's mode. -/
theorem State.hitOf_cases {i : Nat} {h : Hit} (hh : s.hitOf i = .ok h) :
    ∃ k m, kindCode k = s.kindOf i ∧ modeCode m = s.modeOf i ∧ h.chMode = m ∧
      h.kind = if s.PacketGated i then .ignore else k := by
  have hlegal : ¬ (s.kindOf i ∉ kindsOf s.proto ∨ s.modeOf i = 3) := fun hbad => by
    rw [State.hitOf_bad hbad] at hh
    cases hh
  obtain ⟨hkind, hmode⟩ := not_or.1 hlegal
  obtain ⟨k, m, hk, hm, heq⟩ := State.hitOf_ok (not_not.1 hkind) hmode
  rw [heq] at hh
  cases hh
  exact ⟨k, m, hk, hm, rfl, rfl⟩

/-- A PAD packet is decoded as one only where there is a pad (R245). -/
theorem State.hitOf_pad {i : Nat} {h : Hit} (hh : s.hitOf i = .ok h) (hpad : h.kind = .pad) :
    s.hasPad = true := by
  obtain ⟨k, m, hk, _, _, heq⟩ := State.hitOf_cases hh
  rw [hpad] at heq
  split at heq
  · cases heq
  · next hgate =>
    subst heq
    simpa [State.PacketGated, ← hk, kindCode] using (not_or.1 hgate).2

/-- Where the ENTER and FLAGPROX rules arbitrate, so does every packet of these kinds. -/
theorem State.hitOf_arb {i : Nat} {h : Hit} (hc : s.classify = .ok (some i)) (hh : s.hitOf i = .ok h)
    (hrules : ArbRules s) (hkind : h.kind = .flagprox ∨ h.kind = .enter) : h.chMode = .arb := by
  obtain ⟨hlt, hvalid⟩ := State.classify_valid hc
  obtain ⟨k, m, hk, hm, rfl, heq⟩ := State.hitOf_cases hh
  have hcode : s.kindOf i = 1 ∨ s.kindOf i = 2 := by
    rw [← hk]
    rcases hkind with h1 | h1 <;> rw [h1] at heq <;> split at heq <;> cases heq
    · exact .inl rfl
    · exact .inr rfl
  rw [hrules i hlt hvalid hcode] at hm
  generalize h.chMode = mode at hm
  cases mode with
  | arb => rfl
  | tag | fixed => cases hm

/-- Extraction checks the fixed channel (R250). -/
theorem State.extract_fixed {h : Hit} {v : Fields} (he : s.extract h = .ok v)
    (hsel : h.kind.selects = true) (hfixed : h.chMode = .fixed) : h.fixedCh < s.nch.toNat := by
  by_contra hbad
  have hcheck : ∀ w, s.checkFields h w ≠ .ok () := by
    intro w hw
    unfold State.checkFields at hw
    split at hw
    · cases hw
    · rw [if_pos ⟨hsel, hfixed, Nat.le_of_not_lt hbad⟩] at hw
      cases hw
  unfold State.extract at he
  split at he
  · cases he
  · split at he
    · cases he
    · next hok => exact hcheck _ hok

/-- A decoded packet does to the channels what `ChannelStep` allows. -/
theorem State.decodeOne_steps {t : State} {w : Word} (h : s.decodeOne = .ok (t, w)) :
    ChannelSteps (RunTable s ∧ ProfileLegal s) (ArbRules s) s t := by
  rcases State.decodeOne_ok h with ⟨_, rfl, _⟩ | ⟨_, _, rfl, _⟩ | ⟨i, hit, v, _, hc, hh, he, rfl, _⟩
  · exact .refl
  · exact (SameChannels.dropPkt s).steps
  · exact (State.commit_steps And.left And.right v (fun _ => State.extract_fixed he) (State.hitOf_pad hh)
      (State.hitOf_arb hc hh)).trans (SameChannels.consumePkt _).steps

theorem PacketStep.steps {d : Prop} {t : State} (h : PacketStep d s t) :
    ChannelSteps (RunTable s ∧ ProfileLegal s) (ArbRules s) s t := by
  cases h with
  | fetch _ => exact (Fetches.nextPacket s).sameChannels.steps
  | decode _ h => exact State.decodeOne_steps h

theorem RunTable.packets {d : Prop} {t : State} (hl : ProfileLegal s) (hp : PacketSteps d s t)
    (h : RunTable s) : RunTable t :=
  hp.invariant h fun _ _ hk ha hstep => ha.steps ⟨ha, hl.of_keepsControl hk⟩ hstep.steps

theorem SerialsApart.packets {d : Prop} {t : State} (hrules : ArbRules s) (hp : PacketSteps d s t)
    (h : SerialsApart s) : SerialsApart t :=
  hp.invariant h fun _ _ hk ha hstep => ha.steps (hrules.of_keepsProfile hk.toKeepsProfile) hstep.steps

end Phases

/-! ### The session that `INIT` starts (45_system_ops.md R338) -/

section Init
variable {s : State}

/-- `INIT` leaves the pad entry where there is a pad, and every other entry empty. -/
theorem State.initSession_ch (hl : ProfileLegal s) (c : Nat) :
    s.initSession.ch c
      = if s.hasPad = true ∧ c = s.nch.toNat then Channel.padEntry else Channel.empty := by
  have hle := hl.nch_le
  simp only [State.ch, State.initSession, State.initCht, List.getD_eq_getElem?_getD]
  cases hpad : s.hasPad with
  | true =>
    rw [hpad, if_pos rfl] at hle
    by_cases hc : c = s.nch.toNat
    · subst hc
      simp [show s.nch.toNat < s.params.nchMax by omega]
    · rw [if_pos rfl, List.getElem?_set_ne (Ne.symm hc), List.getElem?_replicate,
        if_neg (show ¬ (true = true ∧ c = s.nch.toNat) from fun h => hc h.2)]
      split <;> rfl
  | false =>
    rw [if_neg (by simp), if_neg (by simp), List.getElem?_replicate]
    split <;> rfl

theorem State.initSession_ch_tool (hl : ProfileLegal s) {c : Nat} (hc : c < s.nch.toNat) :
    s.initSession.ch c = Channel.empty := by
  rw [State.initSession_ch hl, if_neg (by omega)]

theorem RunTable.initSession (hl : ProfileLegal s) : RunTable s.initSession where
  size := by
    simp only [State.initSession, State.initCht]
    split <;> simp
  kept := by
    refine ⟨fun c hc _ => ?_, fun c hc => ?_⟩
    · rw [State.initSession_ch_tool hl hc]; rfl
    · have hpast : s.nch.toNat + (if s.hasPad then 1 else 0) ≤ c := hc
      rw [State.initSession_ch hl, if_neg]
      rintro ⟨hpad, rfl⟩
      rw [if_pos hpad] at hpast
      omega
  pad hpad := by
    have hentry : s.initSession.ch s.initSession.nch.toNat = Channel.padEntry := by
      rw [State.initSession_ch hl, if_pos ⟨hpad, rfl⟩]
    rw [hentry]
    exact ⟨rfl, rfl, rfl⟩
  lastch := .inl rfl

theorem SerialsApart.initSession (hl : ProfileLegal s) : SerialsApart s.initSession := by
  intro c _ hc _ _ hprox
  rw [State.initSession_ch_tool hl hc] at hprox
  cases hprox

end Init

/-! ### `MTSR` of `NCH` and `CAPS` -/

/-- The command `o` is an `MTSR` of the register numbered `sr`. -/
def WritesSys (o : Option Instr) (sr : BitVec 16) : Prop := ∃ rs1, o = some (.mtsr sr rs1)

theorem nextWrites_of_writesSys {s : State} {w : Word} {rest : List HostInput} {sr : BitVec 16}
    (hin : s.input = .command w :: rest) (h : WritesSys (decode w).toOption sr) : s.NextWrites sr := by
  obtain ⟨rs1, h⟩ := h
  cases hd : decode w with
  | error _ => rw [hd] at h; cases h
  | ok i => rw [hd] at h; cases h; exact ⟨w, rest, rs1, hin, hd⟩

theorem SysReg.ofNum_eq_nch {sr : BitVec 16} (h : SysReg.ofNum sr = some .nch) : sr = 0x06 := by
  unfold SysReg.ofNum at h
  split at h <;> cases h
  next hn => exact BitVec.eq_of_toNat_eq hn

theorem SysReg.ofNum_eq_caps {sr : BitVec 16} (h : SysReg.ofNum sr = some .caps) : sr = 0x07 := by
  unfold SysReg.ofNum at h
  split at h <;> cases h
  next hn => exact BitVec.eq_of_toNat_eq hn

section Config
variable {s t : State} {o : Option Instr} {sr : BitVec 16} {rs1 : RegNum} {r : SysReg} {v : Word}

/-- Writing a CFG register keeps the entries of the table, its size and `RUN`. -/
theorem State.writeCfg_table (h : s.writeCfg r v = some t) :
    t.cht = s.cht ∧ t.params = s.params ∧ t.lastch = s.lastch ∧ t.status = s.status ∧
      t.evout = s.evout ∧ t.evcnt = s.evcnt := by
  have hp := (State.writeCfg_keeps h).1
  have hcht := congrArg State.cht hp
  have hparams := congrArg State.params hp
  have hlastch := congrArg State.lastch hp
  have hstatus := congrArg State.status hp
  have hevout := congrArg State.evout hp
  have hevcnt := congrArg State.evcnt hp
  exact ⟨hcht, hparams, hlastch, hstatus, hevout, hevcnt⟩

/-- An `MTSR` of a register other than `NCH` keeps `NCH`. -/
theorem nch_of_not_writesSys (ho : o = some (.mtsr sr rs1)) (hr : SysReg.ofNum sr = some r)
    (h : s.writeCfg r v = some t) (hno : ¬ WritesSys o 0x06) : t.nch = s.nch :=
  (State.writeCfg_keeps h).2.1 fun hnch => by
    rw [hnch] at hr
    exact hno ⟨rs1, by rw [ho, SysReg.ofNum_eq_nch hr]⟩

/-- An `MTSR` of a register other than `CAPS` keeps `CAPS`. -/
theorem caps_of_not_writesSys (ho : o = some (.mtsr sr rs1)) (hr : SysReg.ofNum sr = some r)
    (h : s.writeCfg r v = some t) (hno : ¬ WritesSys o 0x07) : t.caps = s.caps :=
  (State.writeCfg_keeps h).2.2 fun hcaps => by
    rw [hcaps] at hr
    exact hno ⟨rs1, by rw [ho, SysReg.ofNum_eq_caps hr]⟩

end Config

/-! ### The invariants over the effects of a command -/

/-- What an effect can be for the channel table: nothing, or the end of RUN; a CFG register written in CONFIG,
the end of the tool channels moved by `NCH` and `CAPS` alone; a new session; or steps of the channel table
while the block runs. -/
inductive TableEffect (o : Option Instr) (s t : State) : Prop
  | same (table : SameTable s t) (run : t.status.run = s.status.run ∨ t.status.run = false)
  | config (before : s.status.run = false) (after : t.status.run = false)
      (cht : t.cht = s.cht) (params : t.params = s.params) (lastch : t.lastch = s.lastch)
      (nch : ¬ WritesSys o 0x06 → t.nch = s.nch) (caps : ¬ WritesSys o 0x07 → t.caps = s.caps)
  | init (table : SameTable s.initSession t)
  | running (before : s.status.run = true) (table : RunTable s → RunTable t)
      (serials : ArbRules s → SerialsApart s → SerialsApart t)

section Invariants
variable {s t : State} {o : Option Instr}

theorem SameTable.trans {u : State} (h : SameTable s t) (g : SameTable t u) : SameTable s u :=
  ⟨g.params.trans h.params, g.nch.trans h.nch, g.caps.trans h.caps, g.cht.trans h.cht,
    g.lastch.trans h.lastch⟩

theorem SameTable.refl (s : State) : SameTable s s := ⟨rfl, rfl, rfl, rfl, rfl⟩

/-- The end of a command leaves what the effect is for the channel table. -/
theorem TableEffect.congr {u : State} (h : TableEffect o s t) (ht : SameTable t u)
    (hrun : u.status.run = t.status.run) : TableEffect o s u := by
  cases h with
  | same table run => exact .same (table.trans ht) (by rwa [hrun])
  | config before after cht params lastch nch caps =>
    exact .config before (hrun.trans after) (ht.cht.trans cht) (ht.params.trans params)
      (ht.lastch.trans lastch) (fun h => ht.nch.trans (nch h)) fun h => ht.caps.trans (caps h)
  | init table => exact .init (table.trans ht)
  | running before table serials =>
    exact .running before (fun h => (table h).congr ht)
      fun hrules h => (serials hrules h).congr ht.nch ht.cht

/-- Steps of the channel table in the RUN state. -/
theorem ChannelSteps.tableEffect (hrun : s.status.run = true) (h : ChannelSteps True True s t) :
    TableEffect o s t :=
  .running hrun (fun hs => hs.steps trivial h) fun _ hs => hs.steps trivial h

theorem Effect.tableEffect (hl : ProfileLegal s) (he : Effect o s t) : TableEffect o s t := by
  induction he with
  | none => exact .same (.refl s) (.inl rfl)
  | config ho hr hrun hw =>
    obtain ⟨hcht, hparams, hlastch, hstatus, _⟩ := State.writeCfg_table hw
    exact .config hrun (by rw [hstatus, hrun]) hcht hparams hlastch (nch_of_not_writesSys ho hr hw)
      (caps_of_not_writesSys ho hr hw)
  | table _ _ hw =>
    obtain ⟨hsame, hstatus⟩ := State.memWrite_sameChannels hw
    exact .same hsame.toSameTable (.inl (by rw [hstatus]))
  | build | feed => exact .same ⟨rfl, rfl, rfl, rfl, rfl⟩ (.inl rfl)
  | init _ => exact .init (.refl _)
  | halt => exact .same ⟨rfl, rfl, rfl, rfl, rfl⟩ (.inr rfl)
  | enter serial code hrun =>
    exact ChannelSteps.tableEffect hrun (State.enterTool_steps serial code fun _ => hl.nch_pos)
  | exit serial hrun => exact ChannelSteps.tableEffect hrun (State.exitTool_steps serial)
  | packets hrun hp =>
    exact .running hrun (fun hs => hs.packets hl hp) fun hrules hs => hs.packets hrules hp
  | quiet _ hq ih => exact ih.congr hq.sameChannels.toSameTable hq.run_eq
  | fault _ _ ih => exact ih.congr ⟨rfl, rfl, rfl, rfl, rfl⟩ rfl

theorem TableEffect.channelTable (hl : ProfileLegal s) (he : TableEffect o s t) (h : ChannelTable s) :
    ChannelTable t := by
  cases he with
  | same table run =>
    rcases run with hrun | hrun
    · exact h.congr table hrun
    · exact .of_config (by rw [table.cht, table.params]; exact h.size) hrun
  | config _ after cht params => exact .of_config (by rw [cht, params]; exact h.size) after
  | init table => exact ((RunTable.initSession hl).congr table).channelTable
  | running before table => exact (table (h.runTable before)).channelTable

/-- R51 (i) and (ii) in whatever operating state, where the command does not move the end of the tool
channels or there is no entry to be left past it. -/
theorem TableEffect.channelsKept (hl : ProfileLegal s) (hs : ChannelTable s) (he : TableEffect o s t)
    (h : ChannelsKept s)
    (hwrites : (¬ WritesSys o 0x06 ∧ ¬ WritesSys o 0x07) ∨ ∀ c, s.ch c = Channel.empty) :
    ChannelsKept t := by
  cases he with
  | same table _ => exact h.congr table
  | config _ _ cht params lastch nch caps =>
    rcases hwrites with ⟨hnch, hcaps⟩ | hempty
    · exact h.congr ⟨params, nch hnch, caps hcaps, cht, lastch⟩
    · exact channelsKept_of_empty fun c => (State.ch_congr cht c).trans (hempty c)
  | init table => exact (RunTable.initSession hl).kept.congr table
  | running before table => exact (table (hs.runTable before)).kept

theorem TableEffect.serialsDistinct (hl : ProfileLegal s) (hrules : ArbRules s)
    (he : TableEffect o s t) (h : SerialsDistinct s) : SerialsDistinct t := by
  intro hrun
  cases he with
  | same table run =>
    rcases run with hsame | hend
    · exact (h (hsame.symm.trans hrun)).congr table.nch table.cht
    · rw [hend] at hrun; cases hrun
  | config _ after => rw [after] at hrun; cases hrun
  | init table => exact (SerialsApart.initSession hl).congr table.nch table.cht
  | running before _ serials => exact serials hrules (h before)

/-- R51 (iii) in whatever operating state, where the command does not move the end of the tool channels or
there is no entry to be left past it. -/
theorem TableEffect.serialsApart (hl : ProfileLegal s) (hrules : ArbRules s) (he : TableEffect o s t)
    (h : SerialsApart s) (hwrites : ¬ WritesSys o 0x06 ∨ ∀ c, s.ch c = Channel.empty) :
    SerialsApart t := by
  cases he with
  | same table _ => exact h.congr table.nch table.cht
  | config _ _ cht _ _ nch _ =>
    rcases hwrites with hnch | hempty
    · exact h.congr (nch hnch) cht
    · exact serialsApart_of_empty fun c => (State.ch_congr cht c).trans (hempty c)
  | init table => exact (SerialsApart.initSession hl).congr table.nch table.cht
  | running _ _ serials => exact serials hrules h

end Invariants

/-- Taking the host's input leaves the channel table. -/
theorem SameTable.input (s : State) (rest : List HostInput) : SameTable s { s with input := rest } :=
  ⟨rfl, rfl, rfl, rfl, rfl⟩

/-- Hardware reset gives the channel table of the reset state. -/
theorem SameTable.hardwareReset (x : Vector Word 16) (s : State) (rest : List HostInput) :
    SameTable (State.afterReset s.params x) (hardwareReset x { s with input := rest }) :=
  ⟨rfl, rfl, rfl, rfl, rfl⟩

/-- Settles O58, by what a step can do to the channel table. -/
theorem stepsKeepTheChannelTable : Obligations.StepsKeepTheChannelTable := by
  intro s t hl hs h
  rcases step_cases h with rfl | ⟨x, rest, rfl⟩ | ⟨w, rest, hin, heffect⟩
  · exact ⟨hs, fun hkept _ => hkept⟩
  · exact ⟨(channelTable_afterReset s.params x).congr (.hardwareReset x s rest) rfl,
      fun _ _ => (channelsKept_afterReset s.params x).congr (.hardwareReset x s rest)⟩
  · have hl' := hl.input rest
    have hs' := hs.congr (.input s rest) rfl
    have htable := heffect.tableEffect hl'
    refine ⟨htable.channelTable hl' hs', fun hkept hwrites =>
      htable.channelsKept hl' hs' (hkept.congr (.input s rest)) ?_⟩
    exact hwrites.imp_left fun ⟨hnch, hcaps⟩ =>
      ⟨fun h6 => hnch (nextWrites_of_writesSys hin h6), fun h7 => hcaps (nextWrites_of_writesSys hin h7)⟩

/-- Settles O59, by what a step can do to the channel table. -/
theorem stepsKeepSerialsDistinct : Obligations.StepsKeepSerialsDistinct := by
  intro s t hl _ hs hrules h
  rcases step_cases h with rfl | ⟨x, rest, rfl⟩ | ⟨w, rest, hin, heffect⟩
  · exact ⟨hs, fun hapart _ => hapart⟩
  · have hsame := SameTable.hardwareReset x s rest
    have hreset := (serialsApart_afterReset s.params x).congr hsame.nch hsame.cht
    exact ⟨fun _ => hreset, fun _ _ => hreset⟩
  · have hl' := hl.input rest
    have hrules' : ArbRules { s with input := rest } := hrules
    have htable := heffect.tableEffect hl'
    refine ⟨htable.serialsDistinct hl' hrules' hs, fun hapart hwrites =>
      htable.serialsApart hl' hrules' hapart ?_⟩
    exact hwrites.imp_left fun hnch h6 => hnch (nextWrites_of_writesSys hin h6)

/-! ### Events over the effects of a command -/

/-- What an effect can be for the events: some are appended, by DECODE and PUMP alone; or INIT, which emits none
and sets EVCNT to 0. -/
inductive EventEffect (o : Option Instr) (s t : State) : Prop
  | appends (evs : List Event) (emits : Emits s t evs) (silent : ¬ Decodes o → evs = [])
  | init (init : o = some .init) (evout : t.evout = s.evout) (evcnt : t.evcnt = 0)

section EventEffects
variable {s t : State} {o : Option Instr}

theorem EventEffect.unchanged (hout : t.evout = s.evout) (hcnt : t.evcnt = s.evcnt) :
    EventEffect o s t := .appends [] (.none hout hcnt) fun _ => rfl

/-- The end of a command leaves what the effect is for the events. -/
theorem EventEffect.congr {u : State} (h : EventEffect o s t) (hout : u.evout = t.evout)
    (hcnt : u.evcnt = t.evcnt) : EventEffect o s u := by
  cases h with
  | appends evs emits silent =>
    exact .appends evs ⟨hout.trans emits.evout, hcnt.trans emits.evcnt⟩ silent
  | init init evout evcnt => exact .init init (hout.trans evout) (hcnt.trans evcnt)

theorem PacketSteps.emits {d : Prop} (h : PacketSteps d s t) :
    ∃ evs, Emits s t evs ∧ (¬ d → evs = []) := by
  induction h with
  | refl => exact ⟨[], .none rfl rfl, fun _ => rfl⟩
  | tail _ hstep ih =>
    obtain ⟨evs, hevs, hsilent⟩ := ih
    cases hstep with
    | fetch _ =>
      exact ⟨_, hevs.trans (Fetches.nextPacket _).sameChannels.emits, fun hd => by rw [hsilent hd]; rfl⟩
    | decode hd hok =>
      obtain ⟨evs', hevs'⟩ := (State.decodeOne_steps hok).emits
      exact ⟨_, hevs.trans hevs', fun hnd => absurd hd hnd⟩

/-- ENTER emits no event (R220). -/
theorem State.enterTool_silent (s : State) (serial code : Word) :
    (s.enterTool serial code).1.evout = s.evout ∧ (s.enterTool serial code).1.evcnt = s.evcnt := by
  have hquiet := ((Quiet.tidmap s code).trans (.arbEnter _ serial)).sameChannels
  simp only [State.enterTool, State.enterProc_evout, State.enterProc_evcnt]
  exact ⟨hquiet.evout, hquiet.evcnt⟩

/-- EXIT emits no event (R221). -/
theorem State.exitTool_silent (s : State) (serial : Word) :
    (s.exitTool serial).evout = s.evout ∧ (s.exitTool serial).evcnt = s.evcnt := by
  unfold State.exitTool
  split <;> exact ⟨rfl, rfl⟩

theorem Effect.eventEffect (he : Effect o s t) : EventEffect o s t := by
  induction he with
  | none | build | halt | feed => exact .unchanged rfl rfl
  | config _ _ _ hw =>
    obtain ⟨_, _, _, _, hout, hcnt⟩ := State.writeCfg_table hw
    exact .unchanged hout hcnt
  | table _ _ hw =>
    have hsame := (State.memWrite_sameChannels hw).1
    exact .unchanged hsame.evout hsame.evcnt
  | init ho => exact .init ho rfl rfl
  | enter serial code _ =>
    obtain ⟨hout, hcnt⟩ := s.enterTool_silent serial code
    exact .unchanged hout hcnt
  | exit serial _ =>
    obtain ⟨hout, hcnt⟩ := s.exitTool_silent serial
    exact .unchanged hout hcnt
  | packets _ hp =>
    obtain ⟨evs, hevs, hsilent⟩ := hp.emits
    exact .appends evs hevs hsilent
  | quiet _ hq ih => exact ih.congr hq.sameChannels.evout hq.sameChannels.evcnt
  | fault _ _ ih => exact ih.congr rfl rfl

end EventEffects

/-! ### The words of `INIT`, `DECODE` and `PUMP` -/

/-- INIT has one word. -/
theorem eq_of_decode_init {w : Word} (h : decode w = .ok .init) : w = 0x07000000 := by
  have hop : w.toNat / 2 ^ 24 = 7 := by
    rw [← decode_opcode h]
    simp [Instr.opcode, Instr.rowMatch]
  have hzero : (w.extractLsb' 0 24 == 0) = true := by
    have hop' : (opField w).toNat = 7 := (opField_toNat w).trans hop
    simp only [decode, hop'] at h
    by_contra hne
    rw [whenZero, if_neg hne] at h
    cases h
  have hlow : w.toNat % 2 ^ 24 = 0 := by
    simpa [extractLsb'_toNat_eq] using congrArg BitVec.toNat (eq_of_beq hzero)
  apply BitVec.eq_of_toNat_eq
  show w.toNat = 0x07000000
  omega

theorem decode_init : decode 0x07000000 = .ok .init := by decide

theorem opcode_of_decodes {w : Word} (h : Decodes (decode w).toOption) :
    w.toNat / 2 ^ 24 = 0x43 ∨ w.toNat / 2 ^ 24 = 0x44 := by
  obtain ⟨rd, h⟩ := h
  cases hd : decode w with
  | error _ => rw [hd] at h; rcases h with h | h <;> cases h
  | ok i =>
    rw [hd] at h
    rw [← decode_opcode hd]
    rcases h with h | h <;> cases h
    · exact .inl (Instr.opcode_decode rd)
    · exact .inr (Instr.opcode_pump rd)

/-- Settles O53, by what the command word can do to the events. -/
theorem eventsAreOnlyAppended : Obligations.EventsAreOnlyAppended := by
  intro s t w rest hin h
  cases (effect_of_step hin h).eventEffect with
  | appends evs emits silent =>
    refine ⟨evs, emits.evout, fun _ => emits.evcnt, fun hw => .inl ?_, fun h43 h44 => silent fun hd => ?_⟩
    · subst hw
      have hnone : evs = [] := silent (by rw [decode_init]; rintro ⟨_, h | h⟩ <;> cases h)
      rw [emits.evcnt, hnone]
      exact BitVec.add_zero _
    · rcases opcode_of_decodes hd with h | h
      · exact h43 h
      · exact h44 h
  | init hinit evout evcnt =>
    have hw : w = 0x07000000 := by
      cases hd : decode w with
      | error _ => rw [hd] at hinit; cases hinit
      | ok i => rw [hd] at hinit; cases hinit; exact eq_of_decode_init hd
    exact ⟨[], by rw [evout]; simp, fun hne => absurd hw hne, fun _ => .inr evcnt, fun _ _ => rfl⟩

end Sys2Proof.Machine
end

section
/-! PROOFS of the statements of 30_encoding.md, first part: command words. A word is its fields (R100), so it
is the format of an instruction exactly when its fields are the instruction's; the decoder and the encoder are
then compared instruction by instruction, and the decoder with the rows of the opcode table (R103, R104). -/

namespace Sys2Proof

open Machine (extractLsb'_toNat_eq)

/-! ### The fields of a word in plain arithmetic (R100) -/

theorem toNat_append_add {m n : Nat} (x : BitVec m) (y : BitVec n) :
    (x ++ y).toNat = x.toNat * 2 ^ n + y.toNat := by
  rw [BitVec.toNat_append, ← Nat.shiftLeft_add_eq_or_of_lt y.isLt, Nat.shiftLeft_eq]

theorem lowBits_toNat {n : Nat} (w : BitVec n) (len : Nat) :
    (w.extractLsb' 0 len).toNat = w.toNat % 2 ^ len := by
  rw [extractLsb'_toNat_eq, Nat.pow_zero, Nat.div_one]

theorem rdField_toNat (w : Word) : (rdField w).toNat = w.toNat / 2 ^ 20 % 2 ^ 4 :=
  extractLsb'_toNat_eq w 20 4

theorem rs1Field_toNat (w : Word) : (rs1Field w).toNat = w.toNat / 2 ^ 16 % 2 ^ 4 :=
  extractLsb'_toNat_eq w 16 4

theorem rs2Field_toNat (w : Word) : (rs2Field w).toNat = w.toNat / 2 ^ 12 % 2 ^ 4 :=
  extractLsb'_toNat_eq w 12 4

theorem imm16Field_toNat (w : Word) : (imm16Field w).toNat = w.toNat % 2 ^ 16 := lowBits_toNat w 16

theorem imm8Field_toNat (w : Word) : (imm8Field w).toNat = w.toNat % 2 ^ 8 := lowBits_toNat w 8

theorem opField_eq_ofNat {w : Word} {n : Nat} (h : (opField w).toNat = n) :
    opField w = BitVec.ofNat 8 n := by
  rw [← h, BitVec.ofNat_toNat, BitVec.setWidth_eq]

/-! ### A word is a format's when its fields are -/

theorem formatN_eq_iff {op : BitVec 8} {w : Word} :
    formatN op = w ↔ opField w = op ∧ w.extractLsb' 0 24 = 0#24 := by
  simp only [← BitVec.toNat_inj, formatN, toNat_append_add, opField_toNat, lowBits_toNat,
    BitVec.toNat_ofNat]
  omega

theorem formatRI_eq_iff {op : BitVec 8} {rd rs1 : RegNum} {imm : BitVec 16} {w : Word} :
    formatRI op rd rs1 imm = w ↔
      opField w = op ∧ rdField w = rd ∧ rs1Field w = rs1 ∧ imm16Field w = imm := by
  simp only [← BitVec.toNat_inj, formatRI, toNat_append_add, opField_toNat, rdField_toNat,
    rs1Field_toNat, imm16Field_toNat]
  omega

theorem formatR3_eq_iff {op : BitVec 8} {rd rs1 rs2 : RegNum} {w : Word} :
    formatR3 op rd rs1 rs2 = w ↔
      opField w = op ∧ rdField w = rd ∧ rs1Field w = rs1 ∧ rs2Field w = rs2 ∧
        w.extractLsb' 0 12 = 0#12 := by
  simp only [← BitVec.toNat_inj, formatR3, toNat_append_add, opField_toNat, rdField_toNat,
    rs1Field_toNat, rs2Field_toNat, lowBits_toNat, BitVec.toNat_ofNat]
  omega

theorem formatB_eq_iff {op imm : BitVec 8} {w : Word} :
    formatB op imm = w ↔ opField w = op ∧ imm8Field w = imm ∧ w.extractLsb' 8 16 = 0#16 := by
  simp only [← BitVec.toNat_inj, formatB, toNat_append_add, opField_toNat, imm8Field_toNat,
    extractLsb'_toNat_eq, BitVec.toNat_ofNat]
  omega

/-- The low 16 bits of an R3 word are its `rs2` field and the must-be-zero bits under it. -/
theorem low16_eq_zero_iff {w : Word} :
    w.extractLsb' 0 16 = 0#16 ↔ rs2Field w = 0#4 ∧ w.extractLsb' 0 12 = 0#12 := by
  simp only [← BitVec.toNat_inj, rs2Field_toNat, lowBits_toNat, BitVec.toNat_ofNat]
  omega

/-- The low 20 bits of an R3 word are its `rs1` and `rs2` fields and the must-be-zero bits under them. -/
theorem low20_eq_zero_iff {w : Word} :
    w.extractLsb' 0 20 = 0#20 ↔
      rs1Field w = 0#4 ∧ rs2Field w = 0#4 ∧ w.extractLsb' 0 12 = 0#12 := by
  simp only [← BitVec.toNat_inj, rs1Field_toNat, rs2Field_toNat, lowBits_toNat, BitVec.toNat_ofNat]
  omega

/-! ### The decoder against the encoder -/

theorem whenZero_eq_ok_iff {w : Word} {zero : Bool} {i j : Instr} :
    whenZero w zero i = .ok j ↔ zero = true ∧ i = j := by
  cases zero <;> simp [whenZero]

/-- The word of a well-formed command decodes to it: its fields are the operands, and the rest of it is
zero. -/
theorem decode_encode {i : Instr} (hwf : i.wellFormed = true) (hbits : i.nbits = 32) :
    decode (encode i) = .ok i := by
  generalize hw : encode i = w
  cases i with
  | nop | init | halt =>
    obtain ⟨hop, hzero⟩ := formatN_eq_iff.1 hw
    simp [decode, hop, hzero, whenZero]
  | li | lui | mfsr | mtsr | trd | twr | rdfld =>
    obtain ⟨hop, hrd, hrs1, himm⟩ := formatRI_eq_iff.1 hw
    simp [decode, hop, hrd, hrs1, himm, whenZero]
  | chfor _ _ mode =>
    obtain ⟨hop, hrd, hrs1, himm⟩ := formatRI_eq_iff.1 hw
    have hmode : chforModeOk mode = true := hwf
    simp [decode, hop, hrd, hrs1, himm, hmode]
  | build | apply | enter | exit | feedr | nextpkt | decode | pump =>
    obtain ⟨hop, hrd, hrs1, hrs2, hzero⟩ := formatR3_eq_iff.1 hw
    simp [Sys2Proof.decode, hop, hrd, hrs1, hrs2, hzero, low16_eq_zero_iff, low20_eq_zero_iff, whenZero]
  | feed =>
    obtain ⟨hop, himm, hzero⟩ := formatB_eq_iff.1 hw
    simp [decode, hop, himm, hzero, whenZero]
  | pktP45Enter => cases hbits

/-- A word decodes only to a well-formed command, whose encoding it is: the decoder reads the opcode and
every operand field, and checks that the rest is zero. `CHFOR` (15) has its mode check, `TRD` (6) and `TWR` (7)
have no must-be-zero bit, and the last case is the unassigned opcodes; every other one is a `whenZero`. -/
theorem encode_of_decode {w : Word} {i : Instr} (h : decode w = .ok i) :
    i.wellFormed = true ∧ i.nbits = 32 ∧ encode i = w := by
  unfold decode at h
  dsimp only at h
  split at h
  case h_21 => cases h
  case h_15 hop =>
    split at h
    · next hmode =>
      cases h
      exact ⟨hmode, rfl, formatRI_eq_iff.2 ⟨opField_eq_ofNat hop, rfl, rfl, rfl⟩⟩
    · cases h
  case h_6 hop | h_7 hop =>
    cases h
    exact ⟨rfl, rfl, formatRI_eq_iff.2 ⟨opField_eq_ofNat hop, rfl, rfl, rfl⟩⟩
  all_goals
    next hop =>
    obtain ⟨hzero, rfl⟩ := whenZero_eq_ok_iff.1 h
    simp only [BitVec.ofNat_eq_ofNat, Bool.and_eq_true, beq_iff_eq, low16_eq_zero_iff,
      low20_eq_zero_iff] at hzero
    simp [Instr.wellFormed, Instr.nbits, encode, formatN_eq_iff, formatRI_eq_iff, formatR3_eq_iff,
      formatB_eq_iff, opField_eq_ofNat hop, hzero]

/-- Settles O1: a command by its fields, the packet row by the pattern on its byte. -/
theorem decodeEncodeRoundTrip : Obligations.DecodeEncodeRoundTrip := by
  intro i hwf
  by_cases hbits : i.nbits = 32
  · rw [decodeTableWord, hbits, if_neg (by decide), BitVec.ofNat_toNat, BitVec.setWidth_eq,
      decode_encode hwf hbits]
    rfl
  · cases i with
    | pktP45Enter low => revert low; decide
    | _ => exact absurd rfl hbits

/-! ### The decoder against the opcode table -/

/-- The encoding of every well-formed instruction lies in its row of the opcode table. -/
theorem encode_row {i : Instr} (hwf : i.wellFormed = true) : encode i &&& i.rowMask = i.rowMatch := by
  cases i with
  | nop => exact Laws.EncodesRow.nop hwf
  | li => exact Laws.EncodesRow.li _ _ hwf
  | lui => exact Laws.EncodesRow.lui _ _ hwf
  | mfsr => exact Laws.EncodesRow.mfsr _ _ hwf
  | mtsr => exact Laws.EncodesRow.mtsr _ _ hwf
  | trd => exact Laws.EncodesRow.trd _ _ _ hwf
  | twr => exact Laws.EncodesRow.twr _ _ _ hwf
  | init => exact Laws.EncodesRow.init hwf
  | halt => exact Laws.EncodesRow.halt hwf
  | rdfld => exact Laws.EncodesRow.rdfld _ _ hwf
  | build => exact Laws.EncodesRow.build _ _ hwf
  | apply => exact Laws.EncodesRow.apply _ _ _ hwf
  | enter => exact Laws.EncodesRow.enter _ _ _ hwf
  | exit => exact Laws.EncodesRow.exit _ hwf
  | chfor => exact Laws.EncodesRow.chfor _ _ _ hwf
  | feed => exact Laws.EncodesRow.feed _ hwf
  | feedr => exact Laws.EncodesRow.feedr _ hwf
  | nextpkt => exact Laws.EncodesRow.nextpkt _ hwf
  | decode => exact Laws.EncodesRow.decode _ hwf
  | pump => exact Laws.EncodesRow.pump _ hwf
  | pktP45Enter => exact Laws.EncodesRow.pktP45Enter _ hwf

theorem row_mem_commandRows {i : Instr} (hbits : i.nbits = 32) :
    (i.rowMatch, i.rowMask) ∈ commandRows := by
  cases i with
  | pktP45Enter => cases hbits
  | _ => simp [commandRows, Instr.rowMatch, Instr.rowMask]

/-- A `CHFOR` word decodes only with a mode that R104 (iv) allows. -/
theorem chforMode_of_decode {w : Word} {i : Instr} (hop : w.toNat / 2 ^ 24 = 0x32)
    (h : decode w = .ok i) : w.toNat % 2 ^ 16 ≤ 2 := by
  simp only [decode, (opField_toNat w).trans hop] at h
  split at h
  · next hmode => rwa [chforModeOk, decide_eq_true_eq, imm16Field_toNat] at hmode
  · cases h

/-- A field that the row's mask covers is the one of the row's match. -/
theorem extract_of_masked {w mask value : Word} (h : w &&& mask = value) (start len : Nat)
    (hmask : mask.extractLsb' start len = BitVec.allOnes len) :
    w.extractLsb' start len = value.extractLsb' start len := by
  rw [← h, BitVec.extractLsb'_and, hmask, BitVec.and_allOnes]

theorem opcodeMask_of_mem_commandRows {row : Word × Word} (h : row ∈ commandRows) :
    row.2.extractLsb' 24 8 = BitVec.allOnes 8 := by
  have hall : (commandRows.all fun row => row.2.extractLsb' 24 8 == BitVec.allOnes 8) = true := rfl
  exact eq_of_beq (List.all_eq_true.1 hall row h)

/-- A word of a command row, but for the excluded pattern, decodes: the mask covers the opcode and the bits
that have to be zero. The rows stand in the order of the table, the one with more to say is `CHFOR`. -/
theorem decode_of_row {w : Word} {row : Word × Word} (hrow : row ∈ commandRows)
    (h : w &&& row.2 = row.1) (hmode : ¬ (w.toNat / 2 ^ 24 = 0x32 ∧ w.toNat % 2 ^ 16 = 3)) :
    ∃ i, decode w = .ok i := by
  have field := extract_of_masked h
  have hop : (opField w).toNat = (row.1.extractLsb' 24 8).toNat :=
    congrArg BitVec.toNat (field 24 8 (opcodeMask_of_mem_commandRows hrow))
  simp only [commandRows, List.mem_cons, List.not_mem_nil, or_false] at hrow
  rcases hrow with rfl | rfl | rfl | rfl | rfl | rfl | rfl | rfl | rfl | rfl | rfl | rfl | rfl | rfl |
    rfl | rfl | rfl | rfl | rfl | rfl
  · simp [decode, hop, whenZero, field 0 24 rfl]
  · simp [decode, hop, whenZero, rs1Field, field 16 4 rfl]
  · simp [decode, hop, whenZero, rs1Field, field 16 4 rfl]
  · simp [decode, hop, whenZero, rs1Field, field 16 4 rfl]
  · simp [decode, hop, whenZero, rdField, field 20 4 rfl]
  · simp [decode, hop]
  · simp [decode, hop]
  · simp [decode, hop, whenZero, field 0 24 rfl]
  · simp [decode, hop, whenZero, field 0 24 rfl]
  · simp [decode, hop, whenZero, rs1Field, field 16 4 rfl]
  · simp [decode, hop, whenZero, rdField, field 20 4 rfl, field 0 12 rfl]
  · simp [decode, hop, whenZero, field 0 12 rfl]
  · simp [decode, hop, whenZero, field 0 12 rfl]
  · simp [decode, hop, whenZero, rdField, field 20 4 rfl, field 0 16 rfl]
  · have hlow : w.toNat / 2 ^ 2 % 2 ^ 14 = 0 := by
      rw [← extractLsb'_toNat_eq w 2 14, field 2 14 rfl]
      rfl
    have hok : chforModeOk (imm16Field w) = true := by
      have hne : w.toNat % 2 ^ 16 ≠ 3 := fun h3 => hmode ⟨(opField_toNat w).symm.trans hop, h3⟩
      rw [chforModeOk, decide_eq_true_eq, imm16Field_toNat]
      omega
    simp [decode, hop, hok]
  · simp [decode, hop, whenZero, field 8 16 rfl]
  · simp [decode, hop, whenZero, rdField, field 20 4 rfl, field 0 16 rfl]
  · simp [decode, hop, whenZero, field 0 20 rfl]
  · simp [decode, hop, whenZero, field 0 20 rfl]
  · simp [decode, hop, whenZero, field 0 20 rfl]

/-- Settles O2: a word that decodes is the encoding of its instruction, which lies in its row; a word of a
row has the row's opcode and its zeros. -/
theorem decodeAcceptsTheOpcodeTable : Obligations.DecodeAcceptsTheOpcodeTable := by
  have hsound : ∀ (w : Word) (i : Instr), decode w = .ok i →
      i.wellFormed = true ∧ i.nbits = 32 ∧ encode i = w ∧ w &&& i.rowMask = i.rowMatch := by
    intro w i h
    obtain ⟨hwf, hbits, rfl⟩ := encode_of_decode h
    exact ⟨hwf, hbits, rfl, encode_row hwf⟩
  intro w
  refine ⟨⟨fun ⟨i, h⟩ => ?_, fun ⟨⟨row, hrow, h⟩, hmode⟩ => decode_of_row hrow h hmode⟩, hsound w⟩
  obtain ⟨_, hbits, _, hmask⟩ := hsound w i h
  refine ⟨⟨_, row_mem_commandRows hbits, hmask⟩, fun ⟨hop, hmode⟩ => ?_⟩
  have := chforMode_of_decode hop h
  omega

/-- Settles O3: each word is the encoding of the command beside it. -/
theorem decodesSpecWords : Obligations.DecodesSpecWords :=
  ⟨decode_encode (i := .nop) rfl rfl,
   decode_encode (i := .li 2 0x00FA) rfl rfl,
   decode_encode (i := .lui 2 0x8000) rfl rfl,
   decode_encode (i := .mfsr 8 0x01) rfl rfl,
   decode_encode (i := .mtsr 0x05 2) rfl rfl,
   decode_encode (i := .trd 7 6 4) rfl rfl,
   decode_encode (i := .twr 2 1 3) rfl rfl,
   decode_encode (i := .init) rfl rfl,
   decode_encode (i := .halt) rfl rfl,
   decode_encode (i := .rdfld 5 6) rfl rfl,
   decode_encode (i := .build 1 2) rfl rfl,
   decode_encode (i := .apply 5 3 4) rfl rfl,
   decode_encode (i := .enter 3 1 2) rfl rfl,
   decode_encode (i := .exit 1) rfl rfl,
   decode_encode (i := .chfor 8 9 2) rfl rfl,
   decode_encode (i := .feed 0xC2) rfl rfl,
   decode_encode (i := .feedr 1) rfl rfl,
   decode_encode (i := .nextpkt 3) rfl rfl,
   decode_encode (i := .decode 3) rfl rfl,
   decode_encode (i := .pump 3) rfl rfl⟩

end Sys2Proof
end

section
/-! PROOFS of the statements of 30_encoding.md, second part: which words and commands the command step ignores
or refuses (R101, R102; 60_exceptions.md R381), and the packet-pattern row, which is no command (R123). -/

namespace Sys2Proof.Machine

/-! ### Illegal words -/

theorem refused_refuse (s : State) : Refused s (refuse s) := rfl

theorem inspectionOp_eq_false_iff (w : Word) :
    inspectionOp (opField w) = false ↔ w.toNat / 2 ^ 24 ∉ [0, 1, 2, 3, 5] := by
  rw [← inspectionOp_iff, Bool.not_eq_true]

theorem illegalWord_of_ignored {op : BitVec 8} {s : State} (hf : s.status.fault = true)
    (hop : inspectionOp op = false) : illegalWord op s = s := by
  simp [illegalWord, hf, hop]

theorem illegalWord_of_refused {op : BitVec 8} {s : State}
    (h : s.status.fault = false ∨ inspectionOp op = true) : illegalWord op s = refuse s := by
  rcases h with h | h <;> simp [illegalWord, h]

/-- Settles O5: the two steps of R101 that an illegal word meets, by the fault state and its opcode. -/
theorem illegalWordsAreRefused : Obligations.IllegalWordsAreRefused := by
  intro s w rest e hin he
  have hstep : step s = .next (illegalWord (opField w) { s with input := rest }) := by
    rw [step_of_command hin, commandStep_of_error he]
  refine ⟨fun hf hop => ?_, fun h => ⟨refuse { s with input := rest }, ?_, refused_refuse _⟩⟩
  · exact hstep.trans <| congrArg _ <|
      illegalWord_of_ignored hf ((inspectionOp_eq_false_iff w).2 hop)
  · exact hstep.trans <| congrArg _ <|
      illegalWord_of_refused (h.imp_right (inspectionOp_iff w).2)

/-! ### Commands in a state that is not theirs -/

/-- What a command of need `n`, with outcome `o`, does in the states it does not execute in (R381). -/
structure HeldBack (n : Need) (s : State) (o : Out) : Prop where
  ignored : s.status.fault = true → n ≠ .every → o = .next s
  refusedInRun : s.status.fault = false → s.status.run = true → n = .config → o = .next (refuse s)
  refusedInConfig : s.status.fault = false → s.status.run = false → n = .run → o = .next (refuse s)

section HeldBack
variable {s : State} {o : Out} {k : State → State}

theorem HeldBack.every : HeldBack .every s o where
  ignored _ h := absurd rfl h
  refusedInRun _ _ h := nomatch h
  refusedInConfig _ _ h := nomatch h

theorem HeldBack.noFault : HeldBack .noFault s (inAnyState s k) where
  ignored hf _ := by simp [inAnyState_eq, hf]
  refusedInRun _ _ h := nomatch h
  refusedInConfig _ _ h := nomatch h

theorem HeldBack.config : HeldBack .config s (inConfig s k) where
  ignored hf _ := by simp [inConfig_eq, hf]
  refusedInRun hf hr _ := by simp [inConfig_eq, hf, hr]
  refusedInConfig _ _ h := nomatch h

theorem HeldBack.run : HeldBack .run s (inRun s k) where
  ignored hf _ := by simp [inRun_eq, hf]
  refusedInRun _ _ h := nomatch h
  refusedInConfig hf hr _ := by simp [inRun_eq, hf, hr]

end HeldBack

theorem SysReg.ofNum_eq_status {sr : BitVec 16} (h : SysReg.ofNum sr = some .status) : sr = 0x01 := by
  unfold SysReg.ofNum at h
  split at h
  case h_2 hsr => exact BitVec.eq_of_toNat_eq hsr
  all_goals cases h

/-- In the RUN state `MTSR` writes no register but `STATUS` (R334). -/
theorem mtsr_of_run {s : State} {sr : BitVec 16} (hr : s.status.run = true) (hsr : sr ≠ 0x01) (v : Word) :
    s.mtsr sr v = refuse s := by
  unfold State.mtsr
  split
  · next h => exact absurd (SysReg.ofNum_eq_status h) hsr
  · rw [if_pos hr]
  · rfl

theorem execMtsr_heldBack (sr : BitVec 16) (rs1 : RegNum) (s : State) :
    HeldBack (if sr = 0x01 then .noFault else .config) s (execMtsr sr rs1 s) := by
  split
  · exact .noFault
  · next hsr =>
    exact {
      ignored := fun hf _ => by simp [execMtsr, inAnyState_eq, hf]
      refusedInRun := fun hf hr _ => by simp [execMtsr, inAnyState_eq, hf, mtsr_of_run hr hsr]
      refusedInConfig := fun _ _ h => nomatch h }

/-- An ill-formed `CHFOR` term is an illegal word of an opcode that is no inspection opcode (log 12). -/
theorem execChfor_heldBack (rd rs1 : RegNum) (mode : BitVec 16) (s : State) :
    HeldBack .run s (execChfor rd rs1 mode s) := by
  unfold execChfor
  split
  · exact .run
  · exact {
      ignored := fun hf _ => congrArg _ (illegalWord_of_ignored hf rfl)
      refusedInRun := fun _ _ h => nomatch h
      refusedInConfig := fun hf _ _ => congrArg _ (illegalWord_of_refused (.inl hf)) }

/-- Every command is held back where R381 says so. -/
theorem exec_heldBack {i : Instr} {n : Need} (h : i.need = some n) (s : State) :
    HeldBack n s (exec i s) := by
  cases i with
  | nop | li | lui | mfsr | trd => cases h; exact .every
  | rdfld | apply | init | halt => cases h; apply HeldBack.noFault
  | mtsr sr rs1 => cases h; exact execMtsr_heldBack sr rs1 s
  | twr | build => cases h; apply HeldBack.config
  | chfor rd rs1 mode => cases h; exact execChfor_heldBack rd rs1 mode s
  | enter | exit | feed | feedr | nextpkt | decode | pump => cases h; apply HeldBack.run
  | pktP45Enter => cases h

/-- Settles O8, by what holds each command back. -/
theorem commandsNeedTheirState : Obligations.CommandsNeedTheirState := by
  intro i s n h
  have held := exec_heldBack h s
  exact ⟨held.ignored, fun hf hr hn => ⟨_, held.refusedInRun hf hr hn, refused_refuse s⟩,
    fun hf hr hn => ⟨_, held.refusedInConfig hf hr hn, refused_refuse s⟩⟩

/-! ### The packet-pattern row (R123) -/

/-- A byte matches the pattern of the row exactly when it is 0xC0 with the row's two low bits. -/
theorem decodePacketByte_eq_some_iff {b : Byte} {low : BitVec 2} :
    decodePacketByte b = some (.pktP45Enter low) ↔ b = 0xC0 + low.setWidth 8 := by
  have hfields : b = 0xC0 + low.setWidth 8 ↔ b.extractLsb' 2 6 = 0x30#6 ∧ b.extractLsb' 0 2 = low := by
    simp only [← BitVec.toNat_inj, extractLsb'_toNat_eq, BitVec.toNat_add,
      BitVec.toNat_setWidth, BitVec.ofNat_eq_ofNat, BitVec.toNat_ofNat]
    omega
  rw [hfields, decodePacketByte]
  split <;> simp_all

theorem decode_packetPattern (low : BitVec 2) :
    decode (encode (.pktP45Enter low)) = .error (.mustBeZero 0x00) := by
  revert low
  decide

/-- Settles O23: the byte alone is a word with opcode 0x00, an inspection opcode, and is refused in every
state. -/
theorem packetPatternIsNoCommand : Obligations.PacketPatternIsNoCommand := by
  intro s low i
  have hop : inspectionOp (opField (encode (.pktP45Enter low))) = true := by
    revert low
    decide
  refine ⟨by simp [decode_packetPattern], fun b => decodePacketByte_eq_some_iff,
    refuse s, congrArg Host.Outcome.next (illegalWord_of_refused (.inr hop)), refused_refuse s⟩

end Sys2Proof.Machine
end

section
/-! PROOFS of the statements of 30_encoding.md, third part: the words of an event (R121), and the source's enter
packet read through descriptors (R123, R124). -/

namespace Sys2Proof.Machine

/-! ### The words of an event (R121) -/

/-- The bits of a mask to which one bit for each axis of the list is added. -/
theorem getLsbD_foldl_axisBit (axes : List (Fin 8)) (m : BitVec 8) (i : Fin 8) :
    (axes.foldl (fun (m : BitVec 8) a => m ||| (1#8 <<< a.val)) m).getLsbD i.val =
      (m.getLsbD i.val || decide (i ∈ axes)) := by
  induction axes generalizing m with
  | nil => simp
  | cons a axes ih =>
    have hbit : (1#8 <<< a.val).getLsbD i.val = decide (i = a) := by
      clear ih
      revert a i
      decide
    rw [List.foldl_cons, ih, BitVec.getLsbD_or, hbit, Bool.or_assoc]
    simp [List.mem_cons, Bool.decide_or]

/-- The mask of a `MOTION` event: one bit for each axis in the map. -/
def motionMask (values : Vector (Option Word) 8) : BitVec 8 :=
  ((List.finRange 8).filter fun a => values[a].isSome).foldl
    (fun (m : BitVec 8) a => m ||| (1#8 <<< a.val)) 0

theorem testBit_motionMask (values : Vector (Option Word) 8) (a : Fin 8) :
    (motionMask values).toNat.testBit a.val = values[a].isSome :=
  (getLsbD_foldl_axisBit _ 0 a).trans (by simp)

/-- The values that a map holds, in ascending order of their axes. -/
theorem filterMap_toList_eq {n : Nat} (values : Vector (Option Word) n) :
    values.toList.filterMap id = (List.finRange n).filterMap fun a => values[a] := by
  have hlist : values.toList = (List.finRange n).map fun a => values[a] := by
    apply List.ext_getElem <;> simp
  rw [hlist, List.filterMap_map]
  rfl

section Words
variable {ch : Nat} (hch : ch < 256)
include hch

theorem words_prox (tool : ToolType) (inProx : Bool) (serial : Word) :
    (Event.prox ch tool inProx serial).words =
      [word (2 ^ 28 + ch * 2 ^ 20 + tool.code.toNat * 2 ^ 4 + inProx.toNat), serial] := by
  have hflag := inProx.toNat_lt
  refine congrArg (· :: _) (BitVec.eq_of_toNat_eq ?_)
  simp only [toNat_append_add, word, BitVec.toNat_ofNat, BitVec.toNat_ofBool]
  omega

theorem words_button (k : Fin 32) (pressed : Bool) :
    (Event.button ch k pressed).words =
      [word (3 * 2 ^ 28 + ch * 2 ^ 20 + k.val * 2 ^ 8 + pressed.toNat)] := by
  have hflag := pressed.toNat_lt
  refine congrArg (· :: _) (BitVec.eq_of_toNat_eq ?_)
  simp only [toNat_append_add, word, BitVec.toNat_ofNat, BitVec.toNat_ofBool]
  omega

theorem words_wheel (absolute : Bool) (value : Word) :
    (Event.wheel ch absolute value).words =
      [word (4 * 2 ^ 28 + ch * 2 ^ 20 + absolute.toNat), value] := by
  have hflag := absolute.toNat_lt
  refine congrArg (· :: _) (BitVec.eq_of_toNat_eq ?_)
  simp only [toNat_append_add, word, BitVec.toNat_ofNat, BitVec.toNat_ofBool]
  omega

theorem words_motion (values : Vector (Option Word) 8) :
    (Event.motion ch values).words = word (2 * 2 ^ 28 + ch * 2 ^ 20 + (motionMask values).toNat) ::
      (List.finRange 8).filterMap fun a => values[a] := by
  rw [← filterMap_toList_eq]
  refine congrArg (· :: _) (BitVec.eq_of_toNat_eq ?_)
  simp only [toNat_append_add, motionMask, word, BitVec.toNat_ofNat]
  omega

end Words

/-- Settles O51: the words are fields beside each other, and the mask is built one axis after the other. -/
theorem eventsEncodeAsWords : Obligations.EventsEncodeAsWords := fun _ hch =>
  ⟨words_prox hch, words_button hch, words_wheel hch, fun values =>
    ⟨(motionMask values).toNat, BitVec.isLt _, testBit_motionMask values, words_motion hch values⟩⟩

/-! ### The fragments of a loaded descriptor (40_bitfield_extractor.md R142) -/

/-- Words stored one after the other from `base + n` on. -/
theorem read_storeWords {base : Nat} : ∀ (ws : List Word) (n : Nat) {m : Memory}, Memory.wf m = true →
    ∀ j, Memory.read ((ws.zipIdx n).foldl (fun m p => Memory.write m (base + p.2) p.1) m) (base + j) =
      if n ≤ j then ws[j - n]?.getD (Memory.read m (base + j)) else Memory.read m (base + j)
  | [], _, _, _, _ => by simp
  | w :: ws, n, m, hm, j => by
    rw [List.zipIdx_cons, List.foldl_cons, read_storeWords ws (n + 1) (Memory.wf_write hm _ _),
      Memory.read_write hm]
    rcases Nat.lt_trichotomy j n with h | rfl | h
    · simp [show ¬ n ≤ j by omega, show ¬ n + 1 ≤ j by omega, show j ≠ n by omega]
    · simp
    · obtain ⟨k, rfl⟩ : ∃ k, j = n + 1 + k := ⟨j - (n + 1), by omega⟩
      simp [show n + 1 + k - n = k + 1 by omega, show n + 1 + k ≠ n by omega]
      omega

theorem fieldWord_loadField {s : State} {fid k : Nat} {ws : List Word} {w : Word}
    (hm : Memory.wf s.fdt = true) (hk : ws[k]? = some w) :
    (s.loadField fid ws).fieldWord fid k = w.toNat := by
  rw [State.fieldWord, State.loadField, read_storeWords ws 0 hm]
  simp [hk]

/-- What a fragment word contributes of the packet (R142): the masked byte, moved left modulo 2^32 or
right. -/
def packetFragment (pkt : List Byte) (w : Nat) : Nat :=
  let byte := (pkt[w % 256]?.getD 0).toNat &&& (w / 256 % 256)
  if w / 65536 % 64 < 32 then byte * 2 ^ (w / 65536 % 64) % 2 ^ 32
  else byte / 2 ^ (64 - w / 65536 % 64)

theorem fragValue_eq (s : State) (fid k : Nat) :
    s.fragValue fid k = packetFragment s.pkt (s.fieldWord fid k) := rfl

/-- RDFLD of a descriptor just loaded, unsigned and with its fragments inside the packet: the fragments OR'ed
together. -/
theorem rdfld_loadField {s : State} {rd : RegNum} {fid : BitVec 16} {header : Word} {frags : List Word}
    (hf : s.status.fault = false) (hm : Memory.wf s.fdt = true) (hfid : fid.toNat < s.params.fdtSize)
    (hheader : header.toNat = 2 ^ 31 + frags.length) (hcount : frags.length < 7)
    (hidx : ∀ w, w ∈ frags → w.toNat % 256 < s.pkt.length) :
    ∃ t, exec (.rdfld rd fid) (s.loadField fid.toNat (header :: frags)) = .next t ∧
      OnlyReg (s.loadField fid.toNat (header :: frags)) rd
        (word (frags.foldl (fun acc w => acc ||| packetFragment s.pkt w.toNat) 0)) t := by
  generalize ht : s.loadField fid.toNat (header :: frags) = t
  have hpkt : t.pkt = s.pkt := by rw [← ht]; rfl
  have hword0 : t.fieldWord fid.toNat 0 = 2 ^ 31 + frags.length := by
    rw [← ht, fieldWord_loadField hm (by rfl), hheader]
  have hword : ∀ k (hk : k < frags.length), t.fieldWord fid.toNat (k + 1) = frags[k].toNat := fun k hk => by
    have hlist : (header :: frags)[k + 1]? = some frags[k] := by simp [hk]
    rw [← ht, fieldWord_loadField hm hlist]
  have hn : t.fieldCount fid.toNat = frags.length := by
    rw [State.fieldCount, hword0]
    omega
  have husable : t.fieldUsable fid.toNat :=
    ⟨by rw [← ht]; exact hfid, by omega, by omega⟩
  have hinside : ∀ j, 1 ≤ j → j ≤ t.fieldCount fid.toNat → t.fragIdx fid.toNat j < t.pkt.length := by
    intro j h1 hj
    obtain ⟨k, rfl⟩ : ∃ k, j = k + 1 := ⟨j - 1, by omega⟩
    rw [State.fragIdx, hword k (by omega), hpkt]
    exact hidx _ (List.getElem_mem _)
  have hbits : t.fieldBits fid.toNat = frags.foldl (fun acc w => acc ||| packetFragment s.pkt w.toNat) 0 := by
    have hlist : (List.range frags.length).map (fun k => t.fragValue fid.toNat (k + 1)) =
        frags.map fun w => packetFragment s.pkt w.toNat := by
      apply List.ext_getElem
      · simp
      · intro k h1 h2
        have hk : k < frags.length := by simpa using h2
        simp [fragValue_eq, hword k hk, hpkt]
    rw [State.fieldBits, hn, ← List.foldl_map (f := fun k => t.fragValue fid.toNat (k + 1))
      (g := fun a x => a ||| x), hlist, List.foldl_map]
  obtain ⟨v, hread, hv, _⟩ := t.readField_ok fid.toNat husable hinside
  have hvalue : v = word (t.fieldBits fid.toNat) := by
    rw [← hv (by omega), word, BitVec.ofNat_toNat, BitVec.setWidth_eq]
  refine ⟨t.setReg rd v, ?_, ?_⟩
  · rw [execRdfld_eq t rd fid (by rw [← ht]; exact hf), hread]
  · rw [← hbits, ← hvalue]
    exact .setReg t rd v

/-! ### The source's enter packet (30_encoding.md R123, R124) -/

/-- Numbers beside each other: one below a power of two, the other a multiple of it. -/
theorem or_eq_add {a b : Nat} (n : Nat) (ha : a % 2 ^ n = 0) (hb : b < 2 ^ n) : a ||| b = a + b := by
  obtain ⟨k, rfl⟩ := Nat.dvd_of_mod_eq_zero ha
  exact (Nat.two_pow_add_eq_or_of_lt hb k).symm

/-- The half bytes of the serial number beside each other. -/
theorem nibbles_or_eq_add {u v w x y : Nat} (hv : v < 2 ^ 8) (hw : w < 2 ^ 8) (hx : x < 2 ^ 8)
    (hy : y < 2 ^ 4) :
    u * 2 ^ 28 ||| v * 2 ^ 20 ||| w * 2 ^ 12 ||| x * 2 ^ 4 ||| y =
      u * 2 ^ 28 + v * 2 ^ 20 + w * 2 ^ 12 + x * 2 ^ 4 + y := by
  rw [or_eq_add (a := u * 2 ^ 28) 28 (by omega) (by omega),
    or_eq_add (a := u * 2 ^ 28 + v * 2 ^ 20) 20 (by omega) (by omega),
    or_eq_add (a := u * 2 ^ 28 + v * 2 ^ 20 + w * 2 ^ 12) 12 (by omega) (by omega),
    or_eq_add (a := u * 2 ^ 28 + v * 2 ^ 20 + w * 2 ^ 12 + x * 2 ^ 4) 4 (by omega) hy]

section Fragments
variable (b : Byte)

theorem and_0xFF : b.toNat &&& 0xFF = b.toNat :=
  (Nat.and_two_pow_sub_one_eq_mod b.toNat 8).trans (Nat.mod_eq_of_lt b.isLt)

theorem and_0x0F : b.toNat &&& 0x0F = b.toNat % 2 ^ 4 := Nat.and_two_pow_sub_one_eq_mod b.toNat 4

theorem and_0xF0_div : (b.toNat &&& 0xF0) / 2 ^ 4 = b.toNat / 2 ^ 4 := by
  rw [Nat.and_div_two_pow]
  exact (Nat.and_two_pow_sub_one_eq_mod _ 4).trans (Nat.mod_eq_of_lt (by omega))

end Fragments

section Packet
variable {pkt : List Byte} {w : Word} {idx mask sh : Nat} {b : Byte}

/-- A fragment word with its fields `BYTEIDX`, `MASK` and a left `SHIFT` (R111). -/
theorem packetFragment_left (hb : pkt[idx]? = some b) (hidx : idx < 256) (hmask : mask < 256)
    (hsh : sh < 32) (hw : w.toNat = idx + mask * 256 + sh * 65536) :
    packetFragment pkt w.toNat = (b.toNat &&& mask) * 2 ^ sh % 2 ^ 32 := by
  rw [packetFragment, show w.toNat % 256 = idx by omega, show w.toNat / 256 % 256 = mask by omega,
    show w.toNat / 65536 % 64 = sh by omega, if_pos hsh, hb, Option.getD_some]

/-- A fragment word with a right `SHIFT`, of `64 - sh` bits. -/
theorem packetFragment_right (hb : pkt[idx]? = some b) (hidx : idx < 256) (hmask : mask < 256)
    (hsh : 32 ≤ sh) (hsh' : sh < 64) (hw : w.toNat = idx + mask * 256 + sh * 65536) :
    packetFragment pkt w.toNat = (b.toNat &&& mask) / 2 ^ (64 - sh) := by
  rw [packetFragment, show w.toNat % 256 = idx by omega, show w.toNat / 256 % 256 = mask by omega,
    show w.toNat / 65536 % 64 = sh by omega, if_neg (by omega), hb, Option.getD_some]

/-- A whole byte moved left inside the word. -/
theorem packetFragment_byte (hb : pkt[idx]? = some b) (hidx : idx < 256) (hsh : sh ≤ 24)
    (hw : w.toNat = idx + 0xFF * 256 + sh * 65536) : packetFragment pkt w.toNat = b.toNat * 2 ^ sh := by
  have hlt : b.toNat * 2 ^ sh < 2 ^ 32 :=
    (Nat.mul_lt_mul_of_lt_of_le b.isLt (Nat.pow_le_pow_right (by decide) hsh) (by decide)).trans_eq
      (by norm_num)
  rw [packetFragment_left hb hidx (by decide) (by omega) hw, and_0xFF, Nat.mod_eq_of_lt hlt]

/-- The upper half of a byte, moved down. -/
theorem packetFragment_upper (hb : pkt[idx]? = some b) (hidx : idx < 256)
    (hw : w.toNat = idx + 0xF0 * 256 + 0x3C * 65536) : packetFragment pkt w.toNat = b.toNat / 2 ^ 4 := by
  rw [packetFragment_right hb hidx (by decide) (by decide) (by decide) hw]
  exact and_0xF0_div b

/-- The lower half of a byte, moved to the top of the word. -/
theorem packetFragment_lower (hb : pkt[idx]? = some b) (hidx : idx < 256)
    (hw : w.toNat = idx + 0x0F * 256 + 0x1C * 65536) :
    packetFragment pkt w.toNat = b.toNat % 2 ^ 4 * 2 ^ 28 := by
  rw [packetFragment_left hb hidx (by decide) (by decide) hw, and_0x0F]
  omega

end Packet

section SourcePacket
variable (b : Vector Byte 10)

theorem toolIdBits : ([0x0004FF02, 0x003CF003] : List Word).foldl
    (fun acc w => acc ||| packetFragment b.toList w.toNat) 0 =
      b[2].toNat * 2 ^ 4 + b[3].toNat / 2 ^ 4 := by
  have h2 : packetFragment b.toList (0x0004FF02 : Word).toNat = b[2].toNat * 2 ^ 4 :=
    packetFragment_byte (idx := 2) (by simp) (by decide) (by decide) (by simp)
  have h3 : packetFragment b.toList (0x003CF003 : Word).toNat = b[3].toNat / 2 ^ 4 :=
    packetFragment_upper (idx := 3) (by simp) (by decide) (by simp)
  iterate 2 rw [List.foldl_cons]
  rw [List.foldl_nil, h2, h3, Nat.zero_or, or_eq_add 4 (by omega) (by omega)]

theorem serialBits : ([0x001C0F03, 0x0014FF04, 0x000CFF05, 0x0004FF06, 0x003CFF07] : List Word).foldl
    (fun acc w => acc ||| packetFragment b.toList w.toNat) 0 =
      b[3].toNat % 2 ^ 4 * 2 ^ 28 + b[4].toNat * 2 ^ 20 + b[5].toNat * 2 ^ 12 + b[6].toNat * 2 ^ 4 +
        b[7].toNat / 2 ^ 4 := by
  have h3 : packetFragment b.toList (0x001C0F03 : Word).toNat = b[3].toNat % 2 ^ 4 * 2 ^ 28 :=
    packetFragment_lower (idx := 3) (by simp) (by decide) (by simp)
  have h4 : packetFragment b.toList (0x0014FF04 : Word).toNat = b[4].toNat * 2 ^ 20 :=
    packetFragment_byte (idx := 4) (by simp) (by decide) (by decide) (by simp)
  have h5 : packetFragment b.toList (0x000CFF05 : Word).toNat = b[5].toNat * 2 ^ 12 :=
    packetFragment_byte (idx := 5) (by simp) (by decide) (by decide) (by simp)
  have h6 : packetFragment b.toList (0x0004FF06 : Word).toNat = b[6].toNat * 2 ^ 4 :=
    packetFragment_byte (idx := 6) (by simp) (by decide) (by decide) (by simp)
  have h7 : packetFragment b.toList (0x003CFF07 : Word).toNat = b[7].toNat / 2 ^ 4 := by
    rw [packetFragment_right (b := b[7]) (idx := 7) (mask := 0xFF) (sh := 0x3C) (by simp)
      (by decide) (by decide) (by decide) (by decide) (by simp), and_0xFF]
  iterate 5 rw [List.foldl_cons]
  rw [List.foldl_nil, h3, h4, h5, h6, h7, Nat.zero_or,
    nibbles_or_eq_add b[4].isLt b[5].isLt b[6].isLt (by omega)]

/-- The rule word compares `PKT[1] & 0xFC` with 0xC0 (R123). -/
theorem condResult_p45EnterCond {s : State} (hpkt : s.pkt = b.toList) :
    s.condResult p45EnterCond.toNat = .holds ↔ b[1] &&& 0xFC = 0xC0 := by
  have hbyte : s.pkt[1]? = some b[1] := by simp [hpkt]
  have hcond : s.condResult p45EnterCond.toNat =
      if b[1].toNat &&& 0xFC = 0xC0 then .holds else .fails := by
    simp [State.condResult, p45EnterCond, hbyte]
  rw [hcond, ← BitVec.toNat_inj, BitVec.toNat_and]
  split <;> simp_all

end SourcePacket

/-- The pattern of the row is the mask 0xFC over 0xC0. -/
theorem decodePacketByte_isSome_iff (b : Byte) :
    (decodePacketByte b).isSome = true ↔ b &&& 0xFC = 0xC0 := by
  have hmask : b &&& 0xFC = b.extractLsb' 2 6 ++ 0#2 := by
    apply BitVec.eq_of_getLsbD_eq
    intro i hi
    rw [BitVec.getLsbD_and, BitVec.getLsbD_append]
    interval_cases i <;> simp
  rw [hmask, show (0xC0 : Byte) = 0x30#6 ++ 0#2 from rfl, BitVec.append_left_inj, decodePacketByte]
  split <;> simp_all

/-- Settles O22: the loaded fragments beside each other, and the pattern as a mask. -/
theorem sourceEnterPacketFields : Obligations.SourceEnterPacketFields := by
  intro s rd fid b hf hm hfid hpkt
  have hlength : s.pkt.length = 10 := by simp [hpkt]
  have hcond := condResult_p45EnterCond b hpkt
  refine ⟨?toolId, ?serial, hcond, hcond.trans (decodePacketByte_isSome_iff b[1]).symm⟩
  case toolId =>
    rw [← toolIdBits, ← hpkt]
    exact rdfld_loadField hf hm hfid rfl (by decide) (by simp [hlength])
  case serial =>
    rw [← serialBits, ← hpkt]
    exact rdfld_loadField hf hm hfid rfl (by decide) (by simp [hlength])

end Sys2Proof.Machine
end

section
/-! PROOFS of the statements of 30_encoding.md, fourth part: the table that BUILD draws (R106; 41_pressure_curve.md
R171 to R183). -/

namespace Sys2Proof.Machine

/-- In CONFIG state outside the fault state BUILD builds. -/
theorem execBuild_eq {s : State} (hf : s.status.fault = false) (hr : s.status.run = false)
    (rs1 rs2 : RegNum) : exec (.build rs1 rs2) s = .next (s.build (s.reg rs1) (s.reg rs2)) := by
  show execBuild rs1 rs2 s = _
  rw [execBuild, inConfig_eq, hf, hr]
  rfl

/-- Where an element of a list has a property, there is a last one that has it. -/
theorem exists_last {α : Type} {P : α → Prop} : ∀ {l : List α}, (∃ e, e ∈ l ∧ P e) →
    ∃ before e after, l = before ++ e :: after ∧ P e ∧ ∀ f, f ∈ after → ¬ P f
  | [], ⟨_, he, _⟩ => nomatch he
  | x :: l, ⟨e, he, hP⟩ => by
    by_cases h : ∃ e, e ∈ l ∧ P e
    · obtain ⟨before, e, after, rfl, hlast⟩ := exists_last h
      exact ⟨x :: before, e, after, rfl, hlast⟩
    · have hnone : ∀ f, f ∈ l → ¬ P f := fun f hf hPf => h ⟨f, hf, hPf⟩
      rcases List.mem_cons.1 he with rfl | he
      · exact ⟨[], e, l, rfl, hP, hnone⟩
      · exact absurd hP (hnone e he)

theorem tableCoord_zero (n : Nat) : tableCoord n 0 = 0 := by simp [tableCoord]

theorem tableCoord_one (n : Nat) : tableCoord n 1 = n := by simp [tableCoord]

/-- Drawn segments leave at an index the value of the last one that leaves a value there, which fits a table
word where the segments end below 2^32. -/
theorem drawAll_read {n top : Nat} {segs : List (Pt × Pt)} {lut : Memory} (hw : Memory.wf lut = true)
    (hup : ∀ e, e ∈ segs → SegmentUp e) (htop : ∀ e, e ∈ segs → tableCoord n e.2.y ≤ top)
    (htop' : top < 2 ^ 32) {i : Nat} (hi : ∃ e, e ∈ segs ∧ ∃ v, SegmentLeaves n e i v) :
    ∃ before e after, segs = before ++ e :: after ∧
      SegmentLeaves n e i (Memory.read (drawAll n segs lut) i).toNat ∧
      ∀ f, f ∈ after → ∀ v, ¬ SegmentLeaves n f i v := by
  obtain ⟨before, e, after, rfl, ⟨v, hv⟩, hafter⟩ := exists_last hi
  have hnone : ∀ f, f ∈ after → ∀ v, ¬ SegmentLeaves n f i v := fun f hf v h => hafter f hf ⟨v, h⟩
  have hmem : e ∈ before ++ e :: after := List.mem_append_right _ List.mem_cons_self
  have hle : v ≤ top := by
    have h1 := hv.within.2.2.2
    have h2 := tableCoord_mono (n := n) (hup e hmem).y
    have h3 := htop e hmem
    omega
  refine ⟨before, e, after, rfl, ?_, hnone⟩
  rwa [drawAll_last n hw hup hv hnone, word, BitVec.toNat_ofNat, Nat.mod_eq_of_lt (by omega)]

/-- Settles O60: BUILD draws the segments of the subdivided curve in order, and every index lies on one. -/
theorem buildDrawsTheSubdividedCurve : Obligations.BuildDrawsTheSubdividedCurve := by
  intro s rs1 rs2 hres hf hr hw
  obtain ⟨hx1, hx1', hy1, hy1'⟩ := packedPoint_unit (s.reg rs1)
  obtain ⟨hx2, hx2', hy2, hy2'⟩ := packedPoint_unit (s.reg rs2)
  obtain ⟨segs, hsegs, hdraw, hup, hcover⟩ := subdivide_spec s.params s.params.depthMax 0 ⟨0, 0⟩
    (packedPoint (s.reg rs1)) (packedPoint (s.reg rs2)) ⟨1, 1⟩ (Nat.zero_add _)
    (.unit hx1 hx1' hx2 hx2') (.unit hy1 hy1' hy2 hy2') le_rfl le_rfl
  have hlut : (s.build (s.reg rs1) (s.reg rs2)).lut = drawAll s.params.curveRes segs s.lut := by
    simp only [State.build, buildLut, controlPoint_eq, hdraw]
  refine ⟨_, segs, execBuild_eq hf hr rs1 rs2, hsegs, fun e he => ?_, fun i hi => ?_⟩
  · obtain ⟨hseg, -⟩ := hup e he
    exact ⟨hseg.x, hseg.y⟩
  · rw [hlut]
    refine drawAll_read hw (fun e he => (hup e he).1) (fun e he => ?_) hres (hcover i ?_ ?_)
    · exact (tableCoord_mono (hup e he).2.2).trans_eq (tableCoord_one _)
    · rw [tableCoord_zero]; exact Nat.zero_le i
    · rwa [tableCoord_one]

end Sys2Proof.Machine
end

section
/-! PROOFS of the statements of 40_bitfield_extractor.md: the field that RDFLD assembles (R144, R145), the faults of
a broken descriptor (R141, R143), and what a field depends on (R147). -/

namespace Sys2Proof.Machine

/-! ### RDFLD after `read_field` (R148) -/

theorem rdfld_of_readField_ok {s : State} {fid : BitVec 16} {v : Word} (rd : RegNum)
    (hf : s.status.fault = false) (hread : s.readField fid.toNat = .ok v) :
    ∃ t, exec (.rdfld rd fid) s = .next t ∧ OnlyReg s rd v t := by
  refine ⟨s.setReg rd v, ?_, .setReg s rd v⟩
  rw [execRdfld_eq s rd fid hf, hread]

theorem rdfld_of_readField_error {s : State} {fid : BitVec 16} {cause : FCause} {info : Word} (rd : RegNum)
    (hf : s.status.fault = false) (hread : s.readField fid.toNat = .error ⟨cause, info⟩) :
    ∃ t, exec (.rdfld rd fid) s = .next t ∧ Faulted s cause info t := by
  refine ⟨takeFault ⟨cause, info⟩ s, ?_, rfl⟩
  rw [execRdfld_eq s rd fid hf, hread]

/-- Settles O19: a usable descriptor with its fragments inside the packet reads, and RDFLD writes what it reads. -/
theorem rdfldAssemblesTheField : Obligations.RdfldAssemblesTheField := by
  intro s rd fid hf husable hinside
  obtain ⟨v, hread, hunsigned, hsigned⟩ := s.readField_ok fid.toNat husable hinside
  obtain ⟨t, hexec, honly⟩ := rdfld_of_readField_ok rd hf hread
  exact ⟨v, t, hexec, honly, hunsigned, hsigned⟩

/-! ### The fault of a fragment past the packet (R143) -/

/-- In a table of legal size a usable descriptor's id, its fragment numbers and their byte indices are one byte
each, so that R143's information word holds them beside each other. -/
theorem fragmentInfo_eq {s : State} {fid k : Nat} (hp : s.params.Wf) (husable : s.fieldUsable fid)
    (hk : k ≤ s.fieldCount fid) :
    word fid ||| word k <<< 8 ||| word (s.fragIdx fid k) <<< 16 =
      word (fid + k * 2 ^ 8 + s.fragIdx fid k * 2 ^ 16) := by
  have hfid : fid < 256 := by
    have hsize := hp.fdtSize_le
    obtain ⟨hlt, -⟩ := husable
    omega
  have hcount : s.fieldCount fid < 8 := Nat.mod_lt _ (by decide)
  exact or_shift fid k (s.fragIdx fid k) hfid (by omega) (Nat.mod_lt _ (by decide))

/-- Settles O20: an unusable descriptor does not read, and a usable one faults on the first fragment past the
packet. -/
theorem rdfldFaultsOnABrokenDescriptor : Obligations.RdfldFaultsOnABrokenDescriptor := by
  intro s rd fid hp hf
  refine ⟨fun hunusable => ?invalid, fun k husable h1 hk hbefore hpast => ?range⟩
  case invalid =>
    exact rdfld_of_readField_error rd hf (s.readField_unusable fid.toNat hunusable)
  case range =>
    rw [← fragmentInfo_eq hp husable hk]
    exact rdfld_of_readField_error rd hf (s.readField_error fid.toNat k husable h1 hk hbefore hpast)

/-! ### What a field depends on (R147) -/

/-- Two states agree on what `read_field(fid)` names: the descriptor's used words, the packet length, and the bytes
of the fragments. -/
structure SameField (s s' : State) (fid : Nat) : Prop where
  size : s.params.fdtSize = s'.params.fdtSize
  words : ∀ k, k ≤ s.fieldCount fid → s.fieldWord fid k = s'.fieldWord fid k
  length : s.pkt.length = s'.pkt.length
  bytes : ∀ k, 1 ≤ k → k ≤ s.fieldCount fid → s.pkt[s.fragIdx fid k]? = s'.pkt[s.fragIdx fid k]?

section SameField
variable {s s' : State} {fid : Nat} (h : SameField s s' fid)
include h

theorem SameField.read_eq {k : Nat} (hk : k ≤ s.fieldCount fid) :
    Memory.read s.fdt (8 * fid + k) = Memory.read s'.fdt (8 * fid + k) :=
  BitVec.eq_of_toNat_eq (h.words k hk)

theorem SameField.readFragment_eq {k : Nat} (h1 : 1 ≤ k) (hk : k ≤ s.fieldCount fid) :
    s.readFragment fid k = s'.readFragment fid k := by
  have hbyte : s.pktByte (byteIdx (Memory.read s'.fdt (8 * fid + k))) =
      s'.pktByte (byteIdx (Memory.read s'.fdt (8 * fid + k))) := by
    have hget := h.bytes k h1 hk
    rw [State.fragIdx, h.words k hk, State.fieldWord, ← byteIdx_eq] at hget
    rw [State.pktByte, State.pktByte, List.getD_eq_getElem?_getD, List.getD_eq_getElem?_getD, hget]
  simp only [State.readFragment, h.read_eq hk, h.length, hbyte]

theorem SameField.readFragments_eq : ∀ (n k : Nat) (acc : Word), 1 ≤ k → k + n ≤ s.fieldCount fid + 1 →
    s.readFragments fid n k acc = s'.readFragments fid n k acc
  | 0, _, _, _, _ => rfl
  | n + 1, k, acc, h1, hn => by
    rw [State.readFragments, State.readFragments, h.readFragment_eq h1 (by omega)]
    cases s'.readFragment fid k with
    | error e => rfl
    | ok v => exact SameField.readFragments_eq n (k + 1) (acc ||| v) (by omega) (by omega)

theorem SameField.readField_eq : s.readField fid = s'.readField fid := by
  have hheader : Memory.read s.fdt (8 * fid) = Memory.read s'.fdt (8 * fid) := h.read_eq (Nat.zero_le _)
  have hfrags : s.readFragments fid (nfrag (Memory.read s'.fdt (8 * fid))) 1 0 =
      s'.readFragments fid (nfrag (Memory.read s'.fdt (8 * fid))) 1 0 := by
    refine h.readFragments_eq _ 1 0 le_rfl ?_
    have hcount : nfrag (Memory.read s'.fdt (8 * fid)) = s.fieldCount fid := by rw [← hheader, nfrag_eq]; rfl
    omega
  simp only [State.readField, hheader, h.size, hfrags]

end SameField

/-- Settles O21: the states read the same field, so RDFLD ends in the same way in both. -/
theorem fieldsDependOnDescriptorAndPacketOnly : Obligations.FieldsDependOnDescriptorAndPacketOnly := by
  intro s s' rd fid hf hf' hsize hwords hlength hbytes
  have hsame : SameField s s' fid.toNat := ⟨hsize, hwords, hlength, hbytes⟩
  cases hread : s.readField fid.toNat with
  | ok v =>
    obtain ⟨t, hexec, honly⟩ := rdfld_of_readField_ok rd hf hread
    obtain ⟨t', hexec', honly'⟩ := rdfld_of_readField_ok rd hf' (hsame.readField_eq.symm.trans hread)
    exact ⟨t, t', hexec, hexec', .inl ⟨v, honly, honly'⟩⟩
  | error e =>
    obtain ⟨t, hexec, hfaulted⟩ := rdfld_of_readField_error rd hf hread
    obtain ⟨t', hexec', hfaulted'⟩ := rdfld_of_readField_error rd hf' (hsame.readField_eq.symm.trans hread)
    exact ⟨t, t', hexec, hexec', .inr ⟨e.cause, e.info, hfaulted, hfaulted'⟩⟩

end Sys2Proof.Machine
end

section
/-! PROOFS of the statements of 41_pressure_curve.md, first part: what APPLY writes, and the properties of the remapped
value (R190, R191, R193). -/

namespace Sys2Proof.Machine

/-! ### APPLY (R191) -/

theorem execApply_eq (s : State) (rd rs1 rs2 : RegNum) :
    exec (.apply rd rs1 rs2) s = .next (if s.status.fault then s
      else finish s rd ((s.curve (s.reg rs1) (s.reg rs2) 0x80000000).map fun v => (s, v))) := by
  show execApply rd rs1 rs2 s = _
  rw [execApply, inAnyState_eq]

/-- While no curve is built APPLY copies the raw value. -/
theorem apply_of_no_curve {s : State} (hf : s.status.fault = false) (hv : s.status.curveValid = false)
    (rd rs1 rs2 : RegNum) : exec (.apply rd rs1 rs2) s = .next (s.setReg rd (s.reg rs1)) := by
  simp [execApply_eq, hf, State.curve, State.curveFaults, State.curveValue, hv, Except.map, finish_ok]

/-- With a curve, a range of 0 or below faults. -/
theorem apply_of_range_nonpos {s : State} (hf : s.status.fault = false) (hv : s.status.curveValid = true)
    (rd rs1 : RegNum) {rs2 : RegNum} (hm : (s.reg rs2).toInt ≤ 0) :
    exec (.apply rd rs1 rs2) s = .next (takeFault ⟨.curveRange, 0x80000000⟩ s) := by
  have hfault : s.curveFaults (s.reg rs2) = true := (s.curveFaults_iff _).2 ⟨hv, hm⟩
  simp [execApply_eq, hf, State.curve, hfault, Except.map, finish_error]

/-- With a curve and a positive range APPLY remaps. -/
theorem apply_of_range_pos {s : State} (hf : s.status.fault = false) (hv : s.status.curveValid = true)
    (rd rs1 : RegNum) {rs2 : RegNum} (hm : 0 < (s.reg rs2).toInt) :
    exec (.apply rd rs1 rs2) s = .next (s.setReg rd (s.remap (s.reg rs1) (s.reg rs2).toInt)) := by
  have hfault : ¬ s.curveFaults (s.reg rs2) = true := fun h => by
    obtain ⟨-, hle⟩ := (s.curveFaults_iff _).1 h
    omega
  simp [execApply_eq, hf, State.curve, hfault, State.curveValue, hv, Except.map, finish_ok]

/-! ### The remapped value (R190) -/

/-- A quotient by a positive integer, rounded down in exact rationals, is the integer quotient. -/
theorem floor_mul_div (a b : ℤ) {m : ℤ} (hm : 0 < m) : ⌊(a : ℚ) * b / m⌋ = a * b / m := by
  obtain ⟨k, rfl⟩ := Int.eq_ofNat_of_zero_le hm.le
  exact_mod_cast Rat.floor_intCast_div_natCast (a * b) k

theorem clampInt_bounds (v : ℤ) {m : ℤ} (hm : 0 < m) : 0 ≤ clampInt v 0 m ∧ clampInt v 0 m ≤ m := by
  unfold clampInt
  omega

theorem clampInt_mono {v w : ℤ} (m : ℤ) (h : v ≤ w) : clampInt v 0 m ≤ clampInt w 0 m :=
  max_le_max_left 0 (min_le_min_right m h)

theorem clampInt_of_mem {v m : ℤ} (h0 : 0 ≤ v) (hm : v ≤ m) : clampInt v 0 m = v := by
  unfold clampInt
  omega

section Remap
variable {s : State} {raw raw' : Word} {n : ℕ} {m : ℤ}

theorem curveIndex_cast (hm : 0 < m) : (curveIndex n raw m : ℤ) = clampInt raw.toInt 0 m * n / m := by
  obtain ⟨h0, -⟩ := clampInt_bounds raw.toInt hm
  exact Int.toNat_of_nonneg (Int.ediv_nonneg (mul_nonneg h0 (Int.natCast_nonneg n)) hm.le)

/-- The index lies in the table. -/
theorem curveIndex_le (hm : 0 < m) : curveIndex n raw m ≤ n := by
  obtain ⟨-, hle⟩ := clampInt_bounds raw.toInt hm
  have hquot : clampInt raw.toInt 0 m * n / m ≤ n :=
    Int.ediv_le_of_le_mul hm (by nlinarith)
  have hcast := curveIndex_cast (n := n) (raw := raw) hm
  omega

theorem curveIndex_mono (hm : 0 < m) (h : raw.toInt ≤ raw'.toInt) :
    curveIndex n raw m ≤ curveIndex n raw' m :=
  Int.toNat_le_toNat (Int.ediv_le_ediv hm
    (mul_le_mul_of_nonneg_right (clampInt_mono m h) (Int.natCast_nonneg n)))

/-- The remapped value as an integer: it fits a word because the range does. -/
theorem remap_toInt (hm : 0 < m) (hm' : m < 2 ^ 31) :
    (s.remap raw m).toInt = min m ((Memory.read s.lut (curveIndex s.params.curveRes raw m)).toNat * m /
      s.params.curveRes) := by
  have h0 : 0 ≤ ((Memory.read s.lut (curveIndex s.params.curveRes raw m)).toNat : ℤ) * m /
      s.params.curveRes :=
    Int.ediv_nonneg (mul_nonneg (Int.natCast_nonneg _) hm.le) (Int.natCast_nonneg _)
  exact BitVec.toInt_ofInt_eq_self (by decide) (by omega) (by omega)

/-- The result stays in the range (R193 (ii)). -/
theorem remap_bounds (hm : 0 < m) (hm' : m < 2 ^ 31) :
    0 ≤ (s.remap raw m).toInt ∧ (s.remap raw m).toInt ≤ m := by
  rw [remap_toInt hm hm']
  exact ⟨le_min hm.le (Int.ediv_nonneg (mul_nonneg (Int.natCast_nonneg _) hm.le) (Int.natCast_nonneg _)),
    min_le_left _ _⟩

/-- A table that no step down to `N` makes fall does not fall between any two of its indexes. -/
theorem lut_le_of_le (hup : ∀ i, i < n →
      (Memory.read s.lut i).toNat ≤ (Memory.read s.lut (i + 1)).toNat) {i j : ℕ} (hij : i ≤ j) (hj : j ≤ n) :
    (Memory.read s.lut i).toNat ≤ (Memory.read s.lut j).toNat := by
  induction j, hij using Nat.le_induction with
  | base => exact le_rfl
  | succ j _ ih => exact (ih (by omega)).trans (hup j (by omega))

/-- Through a table that does not fall, a larger raw value gives no smaller result (R193 (iii)). -/
theorem remap_mono (hm : 0 < m) (hm' : m < 2 ^ 31)
    (hup : ∀ i, i < s.params.curveRes →
      (Memory.read s.lut i).toNat ≤ (Memory.read s.lut (i + 1)).toNat)
    (h : raw.toInt ≤ raw'.toInt) : (s.remap raw m).toInt ≤ (s.remap raw' m).toInt := by
  have hentry := lut_le_of_le hup (curveIndex_mono hm h) (curveIndex_le hm)
  rw [remap_toInt hm hm', remap_toInt hm hm']
  rcases Nat.eq_zero_or_pos s.params.curveRes with hN | hN
  · simp [hN]
  · exact min_le_min_left m (Int.ediv_le_ediv (by omega)
      (mul_le_mul_of_nonneg_right (by exact_mod_cast hentry) hm.le))

/-- Through the identity table a raw value in the range is scaled by `N/m` and back, each time rounded down. -/
theorem remap_identity (hm : 0 < m) (hm' : m < 2 ^ 31)
    (hid : ∀ i, i ≤ s.params.curveRes → (Memory.read s.lut i).toNat = i)
    (h0 : 0 ≤ raw.toInt) (hle : raw.toInt ≤ m) :
    (s.remap raw m).toInt = min m (raw.toInt * s.params.curveRes / m * m / s.params.curveRes) := by
  rw [remap_toInt hm hm', hid _ (curveIndex_le hm), curveIndex_cast hm, clampInt_of_mem h0 hle]

end Remap

/-- Scaled by `N/m` and back, rounded down each time, a value loses at most 1 where the range is at most `N`. -/
theorem scale_back_near {r m N : ℤ} (hm : 0 < m) (hN : m ≤ N) :
    r * N / m * m / N = r ∨ r * N / m * m / N = r - 1 := by
  have hpos : 0 < N := hm.trans_le hN
  have hle : r * N / m * m ≤ r * N := Int.ediv_mul_le _ hm.ne'
  have hlt : r * N < (r * N / m + 1) * m := Int.lt_ediv_add_one_mul_self _ hm
  have hupper : r * N / m * m / N ≤ r := Int.ediv_le_of_le_mul hpos hle
  have hlower : r - 1 ≤ r * N / m * m / N := (Int.le_ediv_iff_mul_le hpos).2 (by linarith)
  omega

/-- Settles O26, by the four paths of R190. -/
theorem applyRemapsThroughTheCurve : Obligations.ApplyRemapsThroughTheCurve := by
  intro s rd rs1 rs2 hp
  refine ⟨fun hf => ?faulted, fun hf hv => ?unbuilt, fun hf hv hm => ?range, ?remapped⟩
  case faulted => rw [execApply_eq, hf]; rfl
  case unbuilt => exact ⟨_, apply_of_no_curve hf hv rd rs1 rs2, .setReg s rd _⟩
  case range => exact ⟨_, apply_of_range_nonpos hf hv rd rs1 hm, rfl⟩
  case remapped =>
    rintro m r idx hf hv rfl hm rfl rfl
    have hres := hp.curveRes_pos
    have hindex : ⌊((max 0 (min (s.reg rs1).toInt (s.reg rs2).toInt) : ℤ) : ℚ) * s.params.curveRes /
        (s.reg rs2).toInt⌋ = curveIndex s.params.curveRes (s.reg rs1) (s.reg rs2).toInt := by
      rw [curveIndex_cast hm]
      exact_mod_cast floor_mul_div _ s.params.curveRes hm
    rw [hindex]
    refine ⟨Int.natCast_nonneg _, by exact_mod_cast curveIndex_le hm, _, _,
      apply_of_range_pos hf hv rd rs1 hm, .setReg s rd _, ?_⟩
    rw [remap_toInt hm BitVec.toInt_lt, Int.toNat_natCast]
    congr 1
    exact_mod_cast (floor_mul_div _ _ (show (0 : ℤ) < s.params.curveRes by omega)).symm

/-- Settles O27: R193's three properties, each of the remapped value that APPLY writes. -/
theorem curvePropertiesHold : Obligations.CurvePropertiesHold := by
  intro s rd a b k hp hf hv hm
  have hm' : (s.reg k).toInt < 2 ^ 31 := BitVec.toInt_lt
  have hres : (0 : ℤ) < s.params.curveRes := by exact_mod_cast hp.curveRes_pos
  have hwritten : ∀ v : Word, (s.setReg rd v).reg rd = v := fun v => (OnlyReg.setReg s rd v).written
  obtain ⟨hnonneg, hle⟩ := remap_bounds (s := s) (raw := s.reg a) hm hm'
  refine ⟨_, _, apply_of_range_pos hf hv rd a hm, apply_of_range_pos hf hv rd b hm, ?_⟩
  rw [hwritten, hwritten]
  refine ⟨hnonneg, hle, fun hup hab => remap_mono hm hm' hup hab, fun hid => ?_⟩
  refine ⟨fun hzero => ?zero, fun hmax => ?max, fun h0 hin hN => ?near⟩
  case zero =>
    apply BitVec.eq_of_toInt_eq
    rw [remap_identity hm hm' hid hzero.ge (hzero.trans_le hm.le), hzero]
    simp [hm.le]
  case max =>
    apply BitVec.eq_of_toInt_eq
    rw [remap_identity hm hm' hid (hm.le.trans_eq hmax.symm) hmax.le, hmax,
      Int.mul_ediv_cancel_left _ hm.ne', Int.mul_ediv_cancel_left _ hres.ne', min_self]
  case near =>
    have hscale := scale_back_near (r := (s.reg a).toInt) hm hN
    rw [remap_identity hm hm' hid h0 hin]
    omega

end Sys2Proof.Machine
end

section
/-! PROOFS of the statements of 41_pressure_curve.md, second part: the table that BUILD makes (R179, R180, R181). -/

namespace Sys2Proof.Machine

/-! ### One line (R178) -/

/-- A line does not fall: of two indexes on it, the later one gets no smaller value. -/
theorem LineLeaves.mono {x0 y0 dx dy i j v w : ℕ} (hi : LineLeaves x0 y0 dx dy i v)
    (hj : LineLeaves x0 y0 dx dy j w) (hij : i < j) : v ≤ w := by
  unfold LineLeaves at hi hj
  split at hi
  · next hd =>
    rw [if_pos hd] at hj
    obtain ⟨k, -, rfl, rfl⟩ := hi
    obtain ⟨l, -, rfl, rfl⟩ := hj
    have hkl : 2 * k ≤ 2 * l := by omega
    have hvalue : (2 * k * dy + dx) / (2 * dx) ≤ (2 * l * dy + dx) / (2 * dx) :=
      Nat.div_le_div_right (Nat.add_le_add_right (Nat.mul_le_mul_right dy hkl) dx)
    exact Nat.add_le_add_left hvalue y0
  · next hd =>
    rw [if_neg hd] at hj
    obtain ⟨k, -, rfl, rfl, -⟩ := hi
    obtain ⟨l, -, rfl, rfl, -⟩ := hj
    by_contra hvw
    have hlk : 2 * l ≤ 2 * k := by omega
    have hindex : (2 * l * dx + dy) / (2 * dy) ≤ (2 * k * dx + dy) / (2 * dy) :=
      Nat.div_le_div_right (Nat.add_le_add_right (Nat.mul_le_mul_right dx hlk) dy)
    omega

/-- Twice a product and a half more, divided by twice the divisor, is the other factor. -/
theorem half_up_mul {k n : ℕ} (hn : 0 < n) : (2 * k * n + n) / (2 * n) = k := by
  rw [Nat.div_eq_iff (by omega)]
  constructor <;> (ring_nf; omega)

/-- A line leaves its last value at its last index. -/
theorem lineLeaves_end (x0 y0 dx dy : ℕ) : LineLeaves x0 y0 dx dy (x0 + dx) (y0 + dy) := by
  unfold LineLeaves
  split
  · next hd =>
    refine ⟨dx, le_rfl, rfl, ?_⟩
    rw [mul_right_comm, half_up_mul (by omega)]
  · next hd =>
    refine ⟨dy, le_rfl, ?_, rfl, fun l hl hle => absurd hle (by omega)⟩
    rcases Nat.eq_zero_or_pos dy with rfl | hdy
    · rw [Nat.mul_zero, Nat.div_zero]; omega
    · rw [mul_right_comm, half_up_mul hdy]

/-- The diagonal leaves each index its own value. -/
theorem lineLeaves_diagonal {n i v : ℕ} (hn : 0 < n) (h : LineLeaves 0 0 n n i v) : v = i := by
  rw [LineLeaves, if_neg (lt_irrefl n)] at h
  obtain ⟨k, -, rfl, rfl, -⟩ := h
  rw [half_up_mul hn]

/-! ### The chain of segments (R173, R179) -/

theorem SegmentLeaves.end_of_up (n : ℕ) {e : Pt × Pt} (he : SegmentUp e) :
    SegmentLeaves n e (tableCoord n e.2.x) (tableCoord n e.2.y) := by
  have h := lineLeaves_end (tableCoord n e.1.x) (tableCoord n e.1.y)
    (tableCoord n e.2.x - tableCoord n e.1.x) (tableCoord n e.2.y - tableCoord n e.1.y)
  rwa [Nat.add_sub_cancel' (tableCoord_mono he.x), Nat.add_sub_cancel' (tableCoord_mono he.y)] at h

/-- The indexes and the values of a segment lie between its ends. -/
theorem SegmentLeaves.between {n i v : ℕ} {e : Pt × Pt} (he : SegmentUp e) (h : SegmentLeaves n e i v) :
    tableCoord n e.1.x ≤ i ∧ i ≤ tableCoord n e.2.x ∧ tableCoord n e.1.y ≤ v ∧ v ≤ tableCoord n e.2.y := by
  have hx := tableCoord_mono (n := n) he.x
  have hy := tableCoord_mono (n := n) he.y
  obtain ⟨hi, hi', hv, hv'⟩ := LineLeaves.within h
  omega

/-- Segment `f` starts where `e` ends, or further on, in both coordinates. -/
def Precedes (e f : Pt × Pt) : Prop := e.2.x ≤ f.1.x ∧ e.2.y ≤ f.1.y

/-- Whatever `e` and `f` leave at two indexes, the later index gets no smaller value. -/
def LeavesRising (n : ℕ) (e f : Pt × Pt) : Prop :=
  ∀ i j v w, SegmentLeaves n e i v → SegmentLeaves n f j w → i < j → v ≤ w

theorem leavesRising_self (n : ℕ) (e : Pt × Pt) : LeavesRising n e e :=
  fun _ _ _ _ hv hw hij => LineLeaves.mono hv hw hij

/-- Between two segments of the chain the values rise with the indexes, whichever of the two is drawn first. -/
theorem Precedes.leavesRising {n : ℕ} {e f : Pt × Pt} (h : Precedes e f) (he : SegmentUp e)
    (hf : SegmentUp f) : LeavesRising n e f ∧ LeavesRising n f e := by
  obtain ⟨hx, hy⟩ := h
  have hx := tableCoord_mono (n := n) hx
  have hy := tableCoord_mono (n := n) hy
  constructor
  · intro i j v w hv hw _
    obtain ⟨-, -, -, hv⟩ := hv.between he
    obtain ⟨-, -, hw, -⟩ := hw.between hf
    omega
  · intro i j v w hv hw hij
    obtain ⟨hi, -, -, -⟩ := hv.between hf
    obtain ⟨-, hj, -, -⟩ := hw.between he
    omega

/-- The segments of a curve that rises in both coordinates follow each other from `a` to `d`. -/
theorem CurveSegments.chain {m : Params} {depth : ℕ} {a b c d : Pt} {segs : List (Pt × Pt)}
    (h : CurveSegments m depth a b c d segs) (hx : Rising a.x b.x c.x d.x) (hy : Rising a.y b.y c.y d.y) :
    segs.Pairwise Precedes ∧
      (∀ e, e ∈ segs → a.x ≤ e.1.x ∧ a.y ≤ e.1.y ∧ e.2.x ≤ d.x ∧ e.2.y ≤ d.y) ∧
      ∃ before e, segs = before ++ [e] ∧ e.2 = d := by
  induction h with
  | chord depth a b c d _ =>
    refine ⟨List.pairwise_singleton _ _, fun e he => ?_, [], (a, d), rfl, rfl⟩
    obtain rfl := List.mem_singleton.1 he
    exact ⟨le_rfl, le_rfl, le_rfl, le_rfl⟩
  | halves depth a b c d ab abc mid bcd cd first second _ _ hab hcd habc hbcd hmid _ _ ih1 ih2 =>
    subst hab hcd habc hbcd hmid
    obtain ⟨hx1, hx2⟩ := hx.halves
    obtain ⟨hy1, hy2⟩ := hy.halves
    obtain ⟨chain1, within1, -⟩ := ih1 hx1 hy1
    obtain ⟨chain2, within2, before, last, rfl, hlast⟩ := ih2 hx2 hy2
    refine ⟨List.pairwise_append.2 ⟨chain1, chain2, fun e he f hf => ?_⟩, fun e he => ?_,
      first ++ before, last, (List.append_assoc _ _ _).symm, hlast⟩
    · obtain ⟨-, -, hex, hey⟩ := within1 e he
      obtain ⟨hfx, hfy, -, -⟩ := within2 f hf
      exact ⟨hex.trans hfx, hey.trans hfy⟩
    · rcases List.mem_append.1 he with he | he
      · obtain ⟨h1, h2, h3, h4⟩ := within1 e he
        exact ⟨h1, h2, h3.trans hx2.le.1, h4.trans hy2.le.1⟩
      · obtain ⟨h1, h2, h3, h4⟩ := within2 e he
        exact ⟨hx1.le.1.trans h1, hy1.le.1.trans h2, h3, h4⟩

/-- R179 (d): over a chain of segments the values rise with the indexes. -/
theorem leavesRising_of_chain (n : ℕ) {segs : List (Pt × Pt)} (hchain : segs.Pairwise Precedes)
    (hup : ∀ e, e ∈ segs → SegmentUp e) {e f : Pt × Pt} (he : e ∈ segs) (hf : f ∈ segs) :
    LeavesRising n e f :=
  List.Pairwise.forall_of_forall_of_flip (fun e _ => leavesRising_self n e)
    (hchain.imp_of_mem fun he hf h => (h.leavesRising (hup _ he) (hup _ hf)).1)
    (hchain.imp_of_mem fun he hf h => (h.leavesRising (hup _ he) (hup _ hf)).2) he hf

/-! ### The table of a chain of segments -/

/-- A chain of segments from (0, 0) to (1, 1) on which every index of a table of `n + 1` words lies. -/
structure UnitChain (n : ℕ) (segs : List (Pt × Pt)) : Prop where
  up : ∀ e, e ∈ segs → SegmentUp e
  top : ∀ e, e ∈ segs → tableCoord n e.2.y ≤ n
  chain : segs.Pairwise Precedes
  last : ∃ before e, segs = before ++ [e] ∧ e.2 = ⟨1, 1⟩
  cover : ∀ i, i ≤ n → ∃ e, e ∈ segs ∧ ∃ v, SegmentLeaves n e i v

/-- Whatever the table held, BUILD draws one and the same chain of segments into it. -/
theorem exists_unitChain (m : Params) (w1 w2 : Word) : ∃ segs, UnitChain m.curveRes segs ∧
    ∀ lut, buildLut m (controlPoint w1) (controlPoint w2) lut = drawAll m.curveRes segs lut := by
  obtain ⟨hx1, hx1', hy1, hy1'⟩ := packedPoint_unit w1
  obtain ⟨hx2, hx2', hy2, hy2'⟩ := packedPoint_unit w2
  have hx : Rising 0 (packedPoint w1).x (packedPoint w2).x 1 := .unit hx1 hx1' hx2 hx2'
  have hy : Rising 0 (packedPoint w1).y (packedPoint w2).y 1 := .unit hy1 hy1' hy2 hy2'
  obtain ⟨segs, hsegs, hdraw, hup, hcover⟩ := subdivide_spec m m.depthMax 0 ⟨0, 0⟩ (packedPoint w1)
    (packedPoint w2) ⟨1, 1⟩ (Nat.zero_add _) hx hy le_rfl le_rfl
  obtain ⟨hchain, -, hlast⟩ := hsegs.chain hx hy
  refine ⟨segs, ⟨fun e he => (hup e he).1, fun e he => ?_, hchain, hlast, fun i hi => hcover i ?_ ?_⟩,
    fun lut => ?_⟩
  · obtain ⟨-, -, hle⟩ := hup e he
    exact (tableCoord_mono hle).trans_eq (tableCoord_one _)
  · rw [tableCoord_zero]; exact Nat.zero_le i
  · rwa [tableCoord_one]
  · rw [buildLut, controlPoint_eq, controlPoint_eq, hdraw]

section UnitChain
variable {n : ℕ} {segs : List (Pt × Pt)} {lut : Memory} (h : UnitChain n segs) (hn : n < 2 ^ 32)
  (hw : Memory.wf lut = true)
include h hn hw

/-- What stands at an index was left there by a segment. -/
theorem UnitChain.exists_leaves {i : ℕ} (hi : i ≤ n) :
    ∃ e, e ∈ segs ∧ SegmentLeaves n e i (Memory.read (drawAll n segs lut) i).toNat := by
  obtain ⟨before, e, after, rfl, hread, -⟩ := drawAll_read hw h.up h.top hn (h.cover i hi)
  exact ⟨e, List.mem_append_right _ List.mem_cons_self, hread⟩

/-- No word of the table is left from before. -/
theorem UnitChain.read_eq {old : Memory} (hold : Memory.wf old = true) {i : ℕ} (hi : i ≤ n) :
    Memory.read (drawAll n segs lut) i = Memory.read (drawAll n segs old) i := by
  obtain ⟨before, e, after, rfl, hread, hafter⟩ := drawAll_read hw h.up h.top hn (h.cover i hi)
  rw [drawAll_last n hold h.up hread hafter]
  rw [word, BitVec.ofNat_toNat, BitVec.setWidth_eq]

theorem UnitChain.read_le {i : ℕ} (hi : i ≤ n) : (Memory.read (drawAll n segs lut) i).toNat ≤ n := by
  obtain ⟨e, he, hleaves⟩ := h.exists_leaves hn hw hi
  obtain ⟨-, -, -, hle⟩ := hleaves.between (h.up e he)
  exact hle.trans (h.top e he)

theorem UnitChain.read_mono {i j : ℕ} (hij : i < j) (hj : j ≤ n) :
    (Memory.read (drawAll n segs lut) i).toNat ≤ (Memory.read (drawAll n segs lut) j).toNat := by
  obtain ⟨e, he, hi⟩ := h.exists_leaves hn hw (hij.le.trans hj)
  obtain ⟨f, hf, hj⟩ := h.exists_leaves hn hw hj
  exact leavesRising_of_chain n h.chain h.up he hf _ _ _ _ hi hj hij

/-- The last segment ends at the last index, and no later one can overwrite it (R181). -/
theorem UnitChain.read_end : (Memory.read (drawAll n segs lut) n).toNat = n := by
  obtain ⟨before, e, rfl, hend⟩ := h.last
  have hleaves := SegmentLeaves.end_of_up n (h.up e (by simp))
  rw [hend, tableCoord_one] at hleaves
  rw [drawAll_last n hw h.up hleaves (by simp), word, BitVec.toNat_ofNat, Nat.mod_eq_of_lt hn]

end UnitChain

/-- Settles O24: the chain of segments of R179 gives every index its value, whatever the table held before. -/
theorem builtTablesAreTotalAndMonotone : Obligations.BuiltTablesAreTotalAndMonotone := by
  intro s old rs1 rs2 _ hres hf hr hw hold
  obtain ⟨segs, hchain, hdraw⟩ := exists_unitChain s.params (s.reg rs1) (s.reg rs2)
  obtain ⟨-, hpast⟩ := State.build_lut_keeps hw (s.reg rs1) (s.reg rs2)
  have hlut : (s.build (s.reg rs1) (s.reg rs2)).lut = drawAll s.params.curveRes segs s.lut := hdraw _
  have hlut' : (State.build { s with lut := old } (s.reg rs1) (s.reg rs2)).lut =
      drawAll s.params.curveRes segs old := hdraw _
  refine ⟨_, _, execBuild_eq hf hr rs1 rs2, execBuild_eq (s := { s with lut := old }) hf hr rs1 rs2, rfl, rfl,
    hpast, fun i hi => ?_, fun i hi => ?_, fun i hi => ?_, ?_⟩
  · rw [hlut]
    exact (hchain.read_eq hres hw hold hi).trans (congrArg (Memory.read · i) hlut'.symm)
  · rw [hlut]; exact hchain.read_le hres hw hi
  · rw [hlut]; exact hchain.read_mono hres hw (Nat.lt_succ_self i) hi
  · rw [hlut]; exact hchain.read_end hres hw

/-! ### The identity table (R180) -/

/-- A curve whose inner control points are near its chord is drawn as the chord. -/
theorem CurveSegments.eq_chord {m : Params} {depth : ℕ} {a b c d : Pt} {segs : List (Pt × Pt)}
    (h : CurveSegments m depth a b c d segs)
    (hnear : NearSegment m.flatTol b a d ∧ NearSegment m.flatTol c a d) : segs = [(a, d)] := by
  cases h with
  | chord => rfl
  | halves _ _ _ _ _ _ _ _ _ _ _ _ _ hfar => exact absurd hnear hfar

/-- The ends of a segment are near it. -/
theorem nearSegment_ends {tol : ℚ} (ht : 0 < tol) (a d : Pt) : NearSegment tol a a d ∧ NearSegment tol d a d :=
  ⟨⟨0, le_rfl, zero_le_one, by simpa using pow_pos ht 2⟩, ⟨1, zero_le_one, le_rfl, by simpa using pow_pos ht 2⟩⟩

theorem nearSegment_of_dist2 {tol : ℚ} {w : Word} {a d : Pt} (h : (controlPoint w).dist2 a d < tol ^ 2) :
    NearSegment tol (packedPoint w) a d := by
  rw [← controlPoint_eq, ← Pt.near_iff]
  exact decide_eq_true h

/-- The default control points are the ends of the diagonal. -/
theorem packedPoint_default : packedPoint 0 = ⟨0, 0⟩ ∧ packedPoint 0x80008000 = ⟨1, 1⟩ := by
  have hword : (0x80008000 : Word).toNat = 2147516416 := rfl
  constructor <;> norm_num [packedPoint, hword]

/-- Settles O25: the only segment is the diagonal. -/
theorem collinearPointsBuildTheIdentity : Obligations.CollinearPointsBuildTheIdentity := by
  intro s rs1 rs2 hp hres hf hr hw hpoints
  have hnear : NearSegment s.params.flatTol (packedPoint (s.reg rs1)) ⟨0, 0⟩ ⟨1, 1⟩ ∧
      NearSegment s.params.flatTol (packedPoint (s.reg rs2)) ⟨0, 0⟩ ⟨1, 1⟩ := by
    rcases hpoints with ⟨h1, h2⟩ | ⟨h1, h2⟩
    · exact ⟨nearSegment_of_dist2 h1, nearSegment_of_dist2 h2⟩
    · obtain ⟨hzero, hone⟩ := packedPoint_default
      rw [h1, h2, hzero, hone]
      exact nearSegment_ends hp.flatTol_pos _ _
  obtain ⟨t, segs, hexec, hsegs, -, hread⟩ := buildDrawsTheSubdividedCurve s rs1 rs2 hres hf hr hw
  refine ⟨t, hexec, fun i hi => ?_⟩
  obtain ⟨before, e, after, hsplit, hleaves, -⟩ := hread i hi
  have hmem : e ∈ segs := hsplit ▸ List.mem_append_right _ List.mem_cons_self
  rw [hsegs.eq_chord hnear, List.mem_singleton] at hmem
  rw [hmem, SegmentLeaves, tableCoord_zero, tableCoord_one, Nat.sub_zero] at hleaves
  exact lineLeaves_diagonal hp.curveRes_pos hleaves

end Sys2Proof.Machine
end

section
/-! PROOFS of the statements of 42_channel_table.md: what ENTER, EXIT and CHFOR do in the RUN state (R212 to R222), and
that tools with different serials keep to channels of their own (R224). -/

namespace Sys2Proof.Machine

/-! ### The commands in the RUN state -/

section Run
variable {s : State} (hf : s.status.fault = false) (hr : s.status.run = true)
include hf hr

theorem inRun_of_run (k : State → State) : inRun s k = .next (k s) := by
  simp [inRun_eq, hf, hr]

theorem execEnter_of_run (rd rs1 rs2 : RegNum) :
    exec (.enter rd rs1 rs2) s = .next ((s.enterTool (s.reg rs1) (s.reg rs2)).1.setReg rd
      (word (s.enterTool (s.reg rs1) (s.reg rs2)).2)) :=
  (inRun_of_run hf hr _ : execEnter rd rs1 rs2 s = _)

theorem execExit_of_run (rs1 : RegNum) : exec (.exit rs1) s = .next (s.exitTool (s.reg rs1)) :=
  (inRun_of_run hf hr _ : execExit rs1 s = _)

theorem execChfor_of_run (rd rs1 : RegNum) {mode : BitVec 16} (hmode : mode.toNat ≤ 2) :
    exec (.chfor rd rs1 mode) s =
      .next ((s.channelFor (s.reg rs1) mode).1.setReg rd (s.channelFor (s.reg rs1) mode).2) :=
  (if_pos (decide_eq_true hmode)).trans (inRun_of_run hf hr _)

end Run

/-! ### ENTER (R212, R213, R216, R220) -/

/-- `s` with the flags that the map and the arbitration of an enter may set. -/
def State.withEnterFlags (s : State) (unknown exhausted : Bool) : State :=
  { s with status := { s.status with
      errUnkTool := s.status.errUnkTool || unknown
      errChExh := s.status.errChExh || exhausted } }

/-- `on_enter_proximity` enters the tool that the map gives on the channel that the arbitration gives. -/
theorem State.enterTool_spec (s : State) (serial code : Word) : ∃ c exhausted tool unknown,
    s.ArbEnters serial c exhausted ∧ s.MapsTool code tool unknown ∧
    s.enterTool serial code = ((s.withEnterFlags unknown exhausted).enterProc c serial code tool, c) := by
  obtain ⟨tool, unknown, hmaps, hmap⟩ := s.tidmap_spec code
  obtain ⟨c, exhausted, hchannel, harb⟩ := State.arbEnter_spec (s.tidmap code).1 serial
  rw [hmap] at hchannel harb
  refine ⟨c, exhausted, tool, unknown, hchannel, hmaps, ?_⟩
  simp only [State.enterTool, hmap, harb, State.withEnterFlags]

/-- The entry that `enter_proc` leaves on a channel of the table. -/
theorem State.enterProc_ch_self (s : State) {c : Nat} (hc : c < s.cht.length) (serial code : Word)
    (tool : ToolType) : (s.enterProc c serial code tool).ch c = s.populated c serial code tool := by
  rw [State.enterProc_ch, if_pos ⟨rfl, hc⟩, State.enteredEntry_eq]

theorem State.enterProc_ch_of_ne (s : State) {c d : Nat} (h : d ≠ c) (serial code : Word) (tool : ToolType) :
    (s.enterProc c serial code tool).ch d = s.ch d := by
  rw [State.enterProc_ch, if_neg fun hd => h hd.1]

/-- Settles O28: the map, the arbitration and the entry, one after the other. -/
theorem enterArbitratesAndPopulates : Obligations.EnterArbitratesAndPopulates := by
  intro s rd rs1 rs2 hf hr hpos hsize
  obtain ⟨c, exhausted, tool, unknown, harb, hmaps, henter⟩ :=
    s.enterTool_spec (s.reg rs1) (s.reg rs2)
  have hexec := execEnter_of_run hf hr rd rs1 rs2
  rw [henter] at hexec
  have hc : c < s.cht.length := (harb.lt hpos).trans_le hsize
  exact ⟨c, exhausted, tool, unknown, _, hexec, harb, hmaps, State.reg_setReg_self _ _ _,
    fun r hne => State.reg_setReg_of_ne _ hne _,
    (s.withEnterFlags unknown exhausted).enterProc_ch_self hc _ _ _,
    fun d hne => (s.withEnterFlags unknown exhausted).enterProc_ch_of_ne hne _ _ _,
    State.setCh_length _ _ _, rfl, rfl, rfl⟩

/-! ### Two tools (R224) -/

theorem State.populated_serial (s : State) (c : Nat) (serial code : Word) (tool : ToolType) :
    (s.populated c serial code tool).serial = serial := by
  unfold State.populated
  split
  · next h => exact h.2
  · rfl

theorem State.populated_inProx (s : State) (c : Nat) (serial code : Word) (tool : ToolType) :
    (s.populated c serial code tool).inProx = true := by
  unfold State.populated
  split
  · next h => exact h.1
  · rfl

/-- From `s` to `t` the tool `serial` is entered on channel `c`, and every other channel is kept. -/
structure Entered (s t : State) (rd : RegNum) (serial : Word) (c : Nat) (exhausted : Bool) : Prop where
  arb : s.ArbEnters serial c exhausted
  written : t.reg rd = word c
  holds : t.Holds c serial
  others : ∀ d, d ≠ c → t.ch d = s.ch d
  chExh : t.status.errChExh = (s.status.errChExh || exhausted)

/-- ENTER keeps all that a further ENTER needs of the state. -/
theorem commits_of_enter {s t : State} {rd rs1 rs2 : RegNum} (hf : s.status.fault = false)
    (hr : s.status.run = true) (h : exec (.enter rd rs1 rs2) s = .next t) :
    t.status.fault = false ∧ t.status.run = true ∧ t.nch = s.nch ∧ t.cht.length = s.cht.length := by
  have hcommits := Commits.enterTool s (s.reg rs1) (s.reg rs2)
  rw [execEnter_of_run hf hr] at h
  cases h
  exact ⟨hcommits.fault.trans hf, hcommits.run.trans hr, hcommits.nch, hcommits.cht_length⟩

theorem entered_of_enter {s t : State} {rd rs1 rs2 : RegNum} (hf : s.status.fault = false)
    (hr : s.status.run = true) (hpos : 1 ≤ s.nch.toNat) (hsize : s.nch.toNat ≤ s.cht.length)
    (h : exec (.enter rd rs1 rs2) s = .next t) : ∃ c exhausted, Entered s t rd (s.reg rs1) c exhausted := by
  obtain ⟨c, exhausted, tool, unknown, t', hexec, harb, -, hrd, -, hentry, hothers, -, -, hstatus, -⟩ :=
    enterArbitratesAndPopulates s rd rs1 rs2 hf hr hpos hsize
  obtain rfl : t' = t := by rw [hexec] at h; cases h; rfl
  obtain ⟨-, -, hnch, -⟩ := commits_of_enter hf hr hexec
  refine ⟨c, exhausted, harb, hrd, ⟨hnch ▸ harb.lt hpos, ?_, ?_⟩, hothers, by rw [hstatus]⟩
  · rw [hentry, State.populated_inProx]
  · rw [hentry, State.populated_serial]

/-- While a channel is free or holds the serial, the arbitration gives such a channel. -/
theorem State.ArbEnters.available {s : State} {serial : Word} {c : Nat} {exhausted : Bool}
    (h : s.ArbEnters serial c exhausted) (hleft : ∃ d, s.Vacant d ∨ s.Holds d serial) :
    (s.Holds c serial ∨ s.Vacant c) ∧ exhausted = false := by
  rcases h with ⟨⟨hholds, -⟩, hno⟩ | ⟨-, hvacant, -, hno⟩ | ⟨hnone, hfull, -, -⟩
  · exact ⟨.inl hholds, hno⟩
  · exact ⟨.inr hvacant, hno⟩
  · obtain ⟨d, hd | hd⟩ := hleft
    · exact absurd hd (hfull d hd.1)
    · exact absurd hd (hnone d hd.1)

/-- A channel that holds one serial is neither free nor holds another. -/
theorem State.Holds.ne {s : State} {c d : Nat} {serial serial' : Word} (hc : s.Holds c serial)
    (hne : serial ≠ serial') (hd : s.Holds d serial' ∨ s.Vacant d) : c ≠ d := by
  rintro rfl
  obtain ⟨-, hprox, hserial⟩ := hc
  rcases hd with ⟨-, -, hserial'⟩ | ⟨-, hout, -⟩
  · exact hne (hserial.symm.trans hserial')
  · exact absurd hprox (by simp [hout])

/-- Settles O29: the second tool takes a channel that is free or its own, and so not the first tool's. -/
theorem twoToolsAreNeverMerged : Obligations.TwoToolsAreNeverMerged := by
  intro s t u rd rs1 rs2 rd' rs1' rs2' hf hr hsize hst htu hne hleft
  obtain ⟨hf', hr', hnch, hlength⟩ := commits_of_enter hf hr hst
  obtain ⟨-, -, hnch', -⟩ := commits_of_enter hf' hr' htu
  have hpos : 1 ≤ t.nch.toNat := by
    obtain ⟨d, ⟨hd, -⟩ | ⟨hd, -⟩⟩ := hleft <;> omega
  obtain ⟨c, _, first⟩ := entered_of_enter hf hr (hnch ▸ hpos) hsize hst
  obtain ⟨d, exhausted, second⟩ := entered_of_enter hf' hr' hpos (by rwa [hnch, hlength]) htu
  obtain ⟨hd, hno⟩ := second.arb.available hleft
  have hcd : c ≠ d := State.Holds.ne first.holds hne hd
  have hkept : u.Holds c (s.reg rs1) := by
    rw [State.Holds, hnch', second.others c hcd]
    exact first.holds
  exact ⟨c, d, hcd, first.written, second.written, hkept, second.holds, by simp [second.chExh, hno]⟩

/-! ### EXIT (R215, R218, R221) -/

/-- Settles O30, by the channel that `exit_target` names. -/
theorem exitClearsTheChannel : Obligations.ExitClearsTheChannel := by
  intro s rs1 hf hr _
  have htarget := s.exitTarget_spec (s.reg rs1)
  have hexec := execExit_of_run hf hr rs1
  rw [State.exitTool] at hexec
  cases hexit : s.exitTarget (s.reg rs1) with
  | none =>
    rw [hexit] at htarget hexec
    exact ⟨none, s, htarget, hexec, rfl, rfl, rfl⟩
  | some c =>
    rw [hexit] at htarget hexec
    have hcleared : (s.clear c).ch c = (s.ch c).cleared := by rw [State.clear_ch, if_pos rfl]
    have hlt : c < s.nch.toNat := State.exitTarget_lt hexit
    refine ⟨some c, s.clear c, htarget, hexec, rfl, State.setCh_length _ _ _, hcleared,
      ⟨hlt, ?_, ?_⟩, fun d hne => ?_⟩
    · rw [hcleared, Channel.cleared_inProx]
    · rw [hcleared, Channel.cleared_serial]
    · rw [State.clear_ch, if_neg hne]

/-! ### CHFOR (R222) -/

theorem tagCh_of_lt {s : State} {tag : Word} (h : tag.toNat < s.nch.toNat) : s.tagCh tag = (s, tag.toNat) :=
  if_pos h

theorem tagCh_of_le {s : State} {tag : Word} (h : s.nch.toNat ≤ tag.toNat) :
    s.tagCh tag = (s.setErrChExh, 0) :=
  if_neg (Nat.not_lt.2 h)

theorem channelFor_tag (s : State) (v : Word) :
    s.channelFor v 1 = ((s.tagCh v).1, word (s.tagCh v).2) := rfl

theorem channelFor_serial (s : State) (v : Word) : s.channelFor v 2 = (s, chWord (s.find v)) := rfl

/-- CHFOR, where its mode answers `v` and leaves `u`. -/
theorem chfor_onlyReg {s u : State} {mode : BitVec 16} {v : Word} (rd : RegNum) {rs1 : RegNum}
    (hf : s.status.fault = false) (hr : s.status.run = true) (hmode : mode.toNat ≤ 2)
    (h : s.channelFor (s.reg rs1) mode = (u, v)) :
    ∃ t, exec (.chfor rd rs1 mode) s = .next t ∧ OnlyReg u rd v t :=
  ⟨u.setReg rd v, by rw [execChfor_of_run hf hr rd rs1 hmode, h], .setReg u rd v⟩

/-- Settles O31: what `channel_for` answers by mode; the decoder checks the mode. -/
theorem chforAnswersByMode : Obligations.ChforAnswersByMode := by
  intro s rd rs1 hf hr
  refine ⟨?mode0, fun h => ?tag, fun h => ?exhausted, fun c h => ?found, fun h => ?unknown,
    fun mode w hmode hdecode => ?illegal⟩
  case mode0 => exact chfor_onlyReg rd hf hr (by decide) rfl
  case tag =>
    refine chfor_onlyReg rd hf hr (by decide) ?_
    rw [channelFor_tag, tagCh_of_lt h, word, BitVec.ofNat_toNat, BitVec.setWidth_eq]
  case exhausted =>
    refine chfor_onlyReg rd hf hr (by decide) ?_
    rw [channelFor_tag, tagCh_of_le h]
    rfl
  case found =>
    refine chfor_onlyReg rd hf hr (by decide) ?_
    rw [channelFor_serial, (s.find_eq_some _ c).2 h]
    rfl
  case unknown =>
    refine chfor_onlyReg rd hf hr (by decide) ?_
    rw [channelFor_serial, (s.find_eq_none _).2 h]
    rfl
  case illegal =>
    obtain ⟨hwf, -, -⟩ := encode_of_decode hdecode
    exact absurd (of_decide_eq_true hwf) (Nat.not_le.2 hmode)

end Sys2Proof.Machine
end

section
/-! PROOFS of the statements of 43_protocol_decoders.md, first part: DECODE where no channel is
concerned. The end of DECODE is said once by what `decode_one` answers, and that once by the phase that decides: no
packet, the classification (R242, R243), the kind (R244, R245), the extraction (R248 to R251), a reply's commit. -/

namespace Sys2Proof.Machine

/-! ### The end of DECODE (R240) -/

section Run
variable {s : State} (hf : s.status.fault = false) (hr : s.status.run = true) (rd : RegNum)
include hf hr

theorem decode_onlyReg {t : State} {v : Word} (h : s.decodeOne = .ok (t, v)) :
    ∃ u, exec (.decode rd) s = .next u ∧ OnlyReg t rd v u :=
  ⟨t.setReg rd v, by rw [execDecode_eq s rd hf hr, h, finish_ok], .setReg t rd v⟩

theorem decode_faulted {e : Raise} (h : s.decodeOne = .error e) :
    ∃ u, exec (.decode rd) s = .next u ∧ Faulted s e.cause e.info u :=
  ⟨takeFault e s, by rw [execDecode_eq s rd hf hr, h, finish_error], rfl⟩

end Run

/-! ### Packets that no rule recognises (R241, R242, R243) -/

section Classification
variable {s : State}

theorem State.decodeOne_of_no_packet (hp : s.status.pktValid = false) : s.decodeOne = .ok (s, 0) := by
  simp [State.decodeOne, hp]

theorem State.decodeOne_of_unrecognised (hp : s.status.pktValid = true) (hc : s.classify = .ok none) :
    s.decodeOne = .ok (s.dropPkt, 2) := by
  simp [State.decodeOne, hp, hc]

theorem State.decodeOne_of_classify_error {e : Raise} (hp : s.status.pktValid = true)
    (hc : s.classify = .error e) : s.decodeOne = .error e := by
  simp [State.decodeOne, hp, hc]

end Classification

/-- Settles O37, by the two answers of `decode_one` that decode nothing. -/
theorem decodeWithoutARecognisedPacket : Obligations.DecodeWithoutARecognisedPacket := by
  intro s rd hf hr
  refine ⟨fun hp => ?_, fun hp hmiss => ?_⟩
  · exact decode_onlyReg hf hr rd (State.decodeOne_of_no_packet hp)
  · exact decode_onlyReg hf hr rd (State.decodeOne_of_unrecognised hp (State.classify_none hmiss))

/-- Settles O38; the two bytes of the information word stand apart (R365). -/
theorem conditionsPastThePacketFault : Obligations.ConditionsPastThePacketFault := by
  intro s rd i k hwf hf hr hp hi hmiss hvalid hk hpast
  have hclassify := State.classify_error hi hmiss hvalid hk hpast
  have hrule : i < 256 := lt_of_lt_of_le hi hwf.clsSize_le
  rw [or_shift16 i _ hrule (Nat.mod_lt _ (by decide))] at hclassify
  exact decode_faulted hf hr rd (State.decodeOne_of_classify_error hp hclassify)

/-! ### The kind of a packet (R244, R245, R258) -/

section Kinds
variable {s : State} {i : Nat}

theorem State.decodeOne_of_bad_kind (h : s.DecodesRule i)
    (hbad : s.kindOf i ∉ kindsOf s.proto ∨ s.modeOf i = 3) :
    s.decodeOne = .error ⟨.badKind, word i⟩ := by
  obtain ⟨-, -, hp, hhit⟩ := h
  simp [State.decodeOne, hp, State.classify_hit hhit, State.hitOf_bad hbad]

theorem Kind.ofCode_kindCode (k : Kind) : Kind.ofCode (BitVec.ofNat 4 (kindCode k)) = some k := by
  cases k <;> rfl

theorem kindCode_injective : Function.Injective kindCode := fun k k' h =>
  Option.some.inj (by rw [← k.ofCode_kindCode, h, k'.ofCode_kindCode])

/-- The hit of a packet that is ignored by its kind, or gated to that. -/
theorem State.hitOf_ignored (hkind : s.kindOf i ∈ kindsOf s.proto) (hmode : s.modeOf i ≠ 3)
    (h : s.kindOf i = 0 ∨ s.PacketGated i) : ∃ m, s.hitOf i = .ok (s.hitFor i .ignore m) := by
  obtain ⟨k, m, hk, -, hhit⟩ := State.hitOf_ok hkind hmode
  refine ⟨m, ?_⟩
  by_cases hgated : s.PacketGated i
  · rw [hhit, if_pos hgated]; rfl
  · have hignore : k = .ignore := kindCode_injective (hk.trans (h.resolve_right hgated))
    rw [hhit, if_neg hgated, hignore]; rfl

/-- An ignored packet has no slot to extract and no check to fail. -/
theorem State.extract_ignore (m : ChMode) : s.extract (s.hitFor i .ignore m) = .ok [] := rfl

theorem State.decodeOne_of_ignored (h : s.DecodesRule i) (hkind : s.kindOf i ∈ kindsOf s.proto)
    (hmode : s.modeOf i ≠ 3) (hignored : s.kindOf i = 0 ∨ s.PacketGated i) :
    s.decodeOne = .ok (s.consumePkt, 1) := by
  obtain ⟨-, -, hp, hrule⟩ := h
  obtain ⟨m, hhit⟩ := State.hitOf_ignored hkind hmode hignored
  simp only [State.decodeOne, hp, if_true, State.classify_hit hrule, hhit, State.extract_ignore]
  rfl

end Kinds

/-- Settles O40, by the two answers for a rule that is hit. -/
theorem kindsAreCheckedThenGated : Obligations.KindsAreCheckedThenGated := by
  intro s rd i h
  obtain ⟨hf, hr, -, -⟩ := id h
  refine ⟨fun hbad => ?_, fun hkind hmode hignored => ?_⟩
  · exact decode_faulted hf hr rd (State.decodeOne_of_bad_kind h hbad)
  · exact decode_onlyReg hf hr rd (State.decodeOne_of_ignored h hkind hmode hignored)

/-! ### The checks of phase 1 (R248 to R251) -/

theorem Slot.num_lt (x : Slot) : x.num < 256 := by
  cases x with
  | axis a => have := a.isLt; simp only [Slot.num]; omega
  | _ => decide

theorem chMode_eq_fixed_iff {s : State} {i : Nat} {m : ChMode} (hm : modeCode m = s.modeOf i) :
    m = .fixed ↔ s.modeOf i = 2 := by
  rw [← hm]
  cases m <;> simp [modeCode]

/-- FLAGPROX and GENERAL, the kinds that carry a pressure. -/
theorem kind_measures_iff {s : State} {i : Nat} {k : Kind} (hk : kindCode k = s.kindOf i) :
    (k = .flagprox ∨ k = .general) ↔ s.kindOf i = 1 ∨ s.kindOf i = 4 := by
  rw [← hk]
  cases k <;> simp [kindCode]

section Phase1
variable {s : State} {i : Nat} {k : Kind} {m : ChMode} (hk : kindCode k = s.kindOf i)
  (hm : modeCode m = s.modeOf i)
include hk hm

theorem State.extract_of_slot_error {pre post : List Nat} {n : Nat} {e : Raise}
    (ho : s.slotOrder i = pre ++ n :: post) (hr : s.SlotsRead i pre) (hpresent : ¬ s.SlotAbsent i n)
    (he : s.readField (s.slotCode i n - 1) = .error e) : s.extract (s.hitFor i k m) = .error e := by
  have hslots : s.extractIn (s.hitFor i k m).layout (s.slotsOf (s.hitFor i k m)) = .error e :=
    State.extractSlots_error hk hm ho hr hpresent he
  simp only [State.extract, hslots]

/-- Where the slots read, phase 1 ends as its checks do. -/
theorem State.extract_of_check_error {e : Raise} (hr : s.SlotsRead i (s.slotOrder i))
    (he : ∀ v : Fields, (∀ x, v.get x = s.slotValue i x.num) →
      s.checkFields (s.hitFor i k m) v = .error e) : s.extract (s.hitFor i k m) = .error e := by
  obtain ⟨v, hv, hx⟩ := State.extractSlots_ok hk hm hr
  have hslots : s.extractIn (s.hitFor i k m).layout (s.slotsOf (s.hitFor i k m)) = .ok v := hv
  simp only [State.extract, hslots, he v hx]

variable {v : Fields} (hx : ∀ x, v.get x = s.slotValue i x.num)
include hx

theorem State.checkFields_of_missing {pre post : List Nat} {n : Nat} (hi : i < 256)
    (hs : s.requiredSlots i = pre ++ n :: post)
    (hpre : ∀ m, m ∈ pre → (s.slotValue i m).isSome = true) (hn : s.slotValue i n = none) :
    s.checkFields (s.hitFor i k m) v = .error ⟨.layoutMissing, word (i + n * 2 ^ 8)⟩ := by
  obtain ⟨slot, hmissing, rfl⟩ := Hit.missing_some hk hm hx hs hpre hn
  rw [← or_shift8 i _ hi slot.num_lt]
  simp only [State.checkFields, hmissing]
  rfl

/-- The checks after the required slots: the fixed channel (R250), then the pressure range (R251). -/
theorem State.checkFields_of_required
    (hq : ∀ n, n ∈ s.requiredSlots i → (s.slotValue i n).isSome = true) :
    s.checkFields (s.hitFor i k m) v =
      if ¬ s.FixedOk i then .error ⟨.badChannel, word i ||| word (s.fixedOf i) <<< 8⟩
      else if (s.kindOf i = 1 ∨ s.kindOf i = 4) ∧ ¬ s.PressureOk i then .error ⟨.curveRange, word i⟩
      else .ok () := by
  have hfixed : (k.selects = true ∧ m = .fixed ∧ s.nch.toNat ≤ s.fixedOf i) ↔ ¬ s.FixedOk i := by
    rw [selects_iff, hk, chMode_eq_fixed_iff hm]
    simp only [State.FixedOk]
    omega
  have hpressure : ((k = .flagprox ∨ k = .general) ∧ (v.get (.axis 2)).isSome = true ∧
      s.curveFaults s.pmax = true) ↔ (s.kindOf i = 1 ∨ s.kindOf i = 4) ∧ ¬ s.PressureOk i := by
    rw [kind_measures_iff hk, hx, State.curveFaults_iff]
    simp only [State.PressureOk, slot_axis]
    simp
  simp only [State.checkFields, (Hit.missing_none hk hm hx).2 hq]
  simp only [State.hitFor, hfixed, hpressure]

end Phase1

/-- DECODE of a packet of a legal, ungated kind, on which phase 1 raises a fault. -/
theorem decode_extract_faulted {s : State} {i kind : Nat} {cause : FCause} {info : Word} (rd : RegNum)
    (h : s.DecodesKind i kind) (he : ∀ k m, kindCode k = s.kindOf i → modeCode m = s.modeOf i →
      s.extract (s.hitFor i k m) = .error ⟨cause, info⟩) :
    ∃ t, exec (.decode rd) s = .next t ∧ Faulted s cause info t := by
  obtain ⟨k, m, hk, hm, hdecode⟩ := State.decodeOne_kind h
  obtain ⟨⟨hf, hr, -⟩, -⟩ := h
  rw [he k m hk hm] at hdecode
  exact decode_faulted hf hr rd hdecode

/-- Settles O39: a slot that does not read stops the extraction, the others are checks after it. -/
theorem brokenLayoutsFaultInOrder : Obligations.BrokenLayoutsFaultInOrder := by
  intro s rd i kind hwf h
  obtain ⟨⟨-, -, -, hi, -⟩, hkind, -⟩ := id h
  have hrule : i < 256 := lt_of_lt_of_le hi hwf.clsSize_le
  have hchannel : s.fixedOf i < 256 := lt_of_lt_of_le (Nat.mod_lt _ (by decide)) (by decide)
  refine ⟨fun pre n post e ho hr hpresent he => ?slot, fun pre n post hr hs hpre hn => ?required,
    fun hr hq h1 h4 hmode hpast => ?fixed, fun hr hq hmeasures hfixed hpressure hcurve hrange => ?range⟩
  case slot =>
    exact decode_extract_faulted rd h fun k m hk hm =>
      State.extract_of_slot_error hk hm ho hr hpresent he
  case required =>
    exact decode_extract_faulted rd h fun k m hk hm => State.extract_of_check_error hk hm hr fun v hx =>
      State.checkFields_of_missing hk hm hx hrule hs hpre hn
  case fixed =>
    have hbad : ¬ s.FixedOk i := fun hok => by have := hok hmode (by omega) (by omega); omega
    refine decode_extract_faulted rd h fun k m hk hm =>
      State.extract_of_check_error hk hm hr fun v hx => ?_
    rw [State.checkFields_of_required hk hm hx hq, if_pos hbad, or_shift8 i _ hrule hchannel]
  case range =>
    have hbad : ¬ s.PressureOk i := fun hok => by have := hok hpressure hcurve; omega
    refine decode_extract_faulted rd h fun k m hk hm =>
      State.extract_of_check_error hk hm hr fun v hx => ?_
    rw [State.checkFields_of_required hk hm hx hq, if_neg (not_not.2 hfixed),
      if_pos ⟨hkind.symm ▸ hmeasures, hbad⟩]

/-! ### Replies (R268, R269) -/

/-- DECODE of a packet of kind `k` that passes phase 1. -/
theorem decode_commits {s : State} {i : Nat} (k : Kind) (h : s.DecodesKind i (kindCode k)) (rd : RegNum)
    (he : s.ExtractsAll i) :
    ∃ m v, modeCode m = s.modeOf i ∧ (∀ x, Fields.get v x = s.slotValue i x.num) ∧
      exec (.decode rd) s = .next ((s.commit (s.hitFor i k m) v).consumePkt.setReg rd 1) := by
  obtain ⟨k', m, v, hk, hm, hx, hexec⟩ := decode_pass h rd he
  obtain rfl := kindCode_injective hk
  exact ⟨m, v, hm, hx, hexec⟩

/-- A reply selects no channel and carries no pressure: where its slots read, it passes phase 1. -/
theorem State.extractsAll_of_reply {s : State} {i : Nat} (hkind : s.kindOf i = 6 ∨ s.kindOf i = 7)
    (hr : s.SlotsRead i (s.slotOrder i)) : s.ExtractsAll i := by
  have hrequired : s.requiredSlots i = [] := by
    rcases hkind with h | h <;> simp [State.requiredSlots, h]
  have hpressure : s.slotValue i 8 = none := by
    rcases hkind with h | h <;> simp [State.slotValue, State.slotOrder, kindSlots, h]
  refine ⟨hr, fun n hn => ?_, fun _ _ h4 => by omega, fun h => ?_⟩
  · rw [hrequired] at hn; cases hn
  · rw [hpressure] at h; cases h

/-- Settles O41. A touch reply uses no slot, so that phase 1 passes it whatever its layout is. -/
theorem queryRepliesSetTheRanges : Obligations.QueryRepliesSetTheRanges := by
  intro s rd i
  refine ⟨fun h hr => ?_, fun h => ?_⟩
  · obtain ⟨m, v, -, hx, hexec⟩ :=
      decode_commits .qreply h rd (State.extractsAll_of_reply (.inl h.2.1) hr)
    refine ⟨_, hexec, ?_⟩
    simp only [State.commit, State.hitFor, State.commitQreply, hx, Slot.num]
    exact .setReg _ rd 1
  · have hr : s.SlotsRead i (s.slotOrder i) := by
      have hnone : s.slotOrder i = [] := by simp [State.slotOrder, kindSlots, h.2.1]
      rw [hnone]
      exact fun n hn => nomatch hn
    obtain ⟨m, v, -, -, hexec⟩ :=
      decode_commits .tqreply h rd (State.extractsAll_of_reply (.inr h.2.1) hr)
    exact ⟨_, hexec, .setReg _ rd 1⟩

end Sys2Proof.Machine
end

section
/-! PROOFS of the statements of 43_protocol_decoders.md, second part: DECODE where a packet is committed to
a channel (R252 to R257). Each kind's commit is brought to the state it leaves by one equation per branch, and that state to `Decoded`. -/

namespace Sys2Proof.Machine

/-! ### A packet for the channel in proximity, if there is one (R255, R256) -/

/-- The exit of the target's tool, where the target is in proximity. -/
def State.leaveTarget (s : State) : Option Nat → State
  | some c => if (s.ch c).inProx then s.leave c else s
  | none => s

/-- The dispatch to the target, where it is in proximity. -/
def State.dispatchTarget (s : State) (v : Fields) : Option Nat → State
  | some c => if (s.ch c).inProx then s.dispatch c true v else s
  | none => s

theorem State.commitExit_eq (s : State) (h : Hit) (v : Fields) :
    s.commitExit h v =
      (s.sel h v).1.leaveTarget ((s.sel h v).1.exitChannel (s.sel h v).2 (v.get .serial)) := by
  unfold State.commitExit
  dsimp only
  cases (s.sel h v).1.exitChannel (s.sel h v).2 (v.get .serial) <;> rfl

theorem State.commitGeneral_eq (s : State) (h : Hit) (v : Fields) :
    s.commitGeneral h v =
      (s.sel h v).1.dispatchTarget v ((s.sel h v).1.generalChannel (s.sel h v).2 (v.get .serial)) := by
  unfold State.commitGeneral
  dsimp only
  cases (s.sel h v).1.generalChannel (s.sel h v).2 (v.get .serial) <;> rfl

theorem leaveTarget_decoded (s : State) (rd : RegNum) (c : Nat) (exhausted : Bool) :
    if (s.ch c).inProx = true then
      Decoded s rd (fun d => if d = c then { stamp := (s.ch c).stamp } else s.ch d)
        [Event.prox c (s.ch c).toolType false (s.ch c).serial] s.lastch
        { s.status with errChExh := s.status.errChExh || exhausted }
        (((s.orChExh exhausted).leaveTarget (some c)).consumePkt.setReg rd 1)
    else
      Decoded s rd s.ch [] s.lastch { s.status with errChExh := s.status.errChExh || exhausted }
        (((s.orChExh exhausted).leaveTarget (some c)).consumePkt.setReg rd 1) := by
  split
  · next hprox => exact leave_decoded exhausted (if_pos hprox)
  · next hout => exact same_decoded exhausted (if_neg hout)

theorem dispatchTarget_decoded {s : State} {i : Nat} {v : Fields}
    (hx : ∀ x, Fields.get v x = s.slotValue i x.num) (rd : RegNum) (c : Nat) (exhausted : Bool) :
    if (s.ch c).inProx = true then
      ∃ evs, s.DispatchEvents i c true (s.ch c).btn evs ∧
        Decoded s rd (fun d => if d = c then s.dispatched i (s.ch c) else s.ch d) evs s.lastch
          { s.status with errChExh := s.status.errChExh || exhausted }
          (((s.orChExh exhausted).dispatchTarget v (some c)).consumePkt.setReg rd 1)
    else
      Decoded s rd s.ch [] s.lastch { s.status with errChExh := s.status.errChExh || exhausted }
        (((s.orChExh exhausted).dispatchTarget v (some c)).consumePkt.setReg rd 1) := by
  split
  · next hprox =>
    obtain ⟨evs, hevs, hdecoded, -⟩ :=
      dispatch_decoded (rd := rd) exhausted true hx (State.inProx_lt hprox)
    have hdispatch : (s.orChExh exhausted).dispatchTarget v (some c) =
      (s.orChExh exhausted).dispatch c true v := if_pos hprox
    exact ⟨evs, hevs, hdispatch.symm ▸ hdecoded⟩
  · next hout => exact same_decoded exhausted (if_neg hout)

/-- Settles O43, by the selection: the channel of TAG or FIXED mode, else that of `exit_target` or LASTCH. -/
theorem exitPacketsReportTheExit : Obligations.ExitPacketsReportTheExit := by
  intro s rd i h he
  obtain ⟨m, v, hm, hx, hexec⟩ := decode_commits .exit h rd he
  have hcommit : s.commit (s.hitFor i .exit m) v = s.commitExit (s.hitFor i .exit m) v := rfl
  have hserial : v.get .serial = s.slotValue i 4 := hx .serial
  rw [hcommit, State.commitExit_eq, hserial] at hexec
  rcases State.sel_cases (k := .exit) hm hx with ⟨r, hselected, hsel⟩ | ⟨hselected, hsel⟩ <;>
    rw [hsel] at hexec
  · refine ⟨some r.1, r.2, _, hexec, ?_, leaveTarget_decoded s rd r.1 r.2⟩
    rw [hselected]
    exact ⟨rfl, rfl⟩
  · refine ⟨s.exitChannel none (s.slotValue i 4), false, _, hexec, ?target, ?left⟩
    case target =>
      rw [hselected]
      refine ⟨rfl, ?_⟩
      cases s.slotValue i 4 with
      | some serial => exact s.exitTarget_spec serial
      | none => rfl
    case left =>
      generalize s.exitChannel none (s.slotValue i 4) = target
      cases target with
      | some c => simpa only [State.orChExh_false] using leaveTarget_decoded s rd c false
      | none => exact same_decoded0 rfl

/-- Settles O44, by the selection: the channel of TAG or FIXED mode, else that of `find` or LASTCH. -/
theorem generalPacketsDispatch : Obligations.GeneralPacketsDispatch := by
  intro s rd i h he
  obtain ⟨m, v, hm, hx, hexec⟩ := decode_commits .general h rd he
  have hcommit : s.commit (s.hitFor i .general m) v = s.commitGeneral (s.hitFor i .general m) v := rfl
  have hserial : v.get .serial = s.slotValue i 4 := hx .serial
  rw [hcommit, State.commitGeneral_eq, hserial] at hexec
  rcases State.sel_cases (k := .general) hm hx with ⟨r, hselected, hsel⟩ | ⟨hselected, hsel⟩ <;>
    rw [hsel] at hexec
  · refine ⟨some r.1, r.2, _, hexec, ?_, dispatchTarget_decoded hx rd r.1 r.2⟩
    rw [hselected]
    exact ⟨rfl, rfl⟩
  · refine ⟨s.generalChannel none (s.slotValue i 4), false, _, hexec, ?target, ?left⟩
    case target =>
      rw [hselected]
      refine ⟨rfl, ?_⟩
      cases s.slotValue i 4 with
      | some serial =>
        cases hfind : s.find serial with
        | some c => 
          simp only [State.generalChannel, hfind]
          exact (s.find_eq_some serial c).1 hfind
        | none => 
          simp only [State.generalChannel, hfind]
          exact (s.find_eq_none serial).1 hfind
      | none => rfl
    case left =>
      generalize s.generalChannel none (s.slotValue i 4) = target
      cases target with
      | some c => simpa only [State.orChExh_false] using dispatchTarget_decoded hx rd c false
      | none => exact same_decoded0 rfl

/-! ### FLAGPROX while the tool stays, leaves, or is not there (R253) -/

section Flagprox
variable {s u : State} {h : Hit} {v : Fields} {o target : Option Nat} (hsel : s.sel h v = (u, o))
  (htarget : o.or (u.find 0) = target)
include hsel htarget

theorem State.commitFlagprox_stay {c : Nat} (hprox : (v.get .prox).getD 0 ≠ 0) (hc : target = some c)
    (hin : (u.ch c).inProx = true) : s.commitFlagprox h v = u.dispatch c true v := by
  subst hc
  have hinst : u.instOf (some c) = true := hin
  simp only [State.commitFlagprox, hsel, htarget, hinst, bne_iff_ne.2 hprox, Option.getD_some]

theorem State.commitFlagprox_leave {c : Nat} (hprox : (v.get .prox).getD 0 = 0) (hc : target = some c)
    (hin : (u.ch c).inProx = true) : s.commitFlagprox h v = u.leave c := by
  subst hc
  have hinst : u.instOf (some c) = true := hin
  simp only [State.commitFlagprox, hsel, htarget, hinst, hprox, bne_self_eq_false, Option.getD_some]

theorem State.commitFlagprox_enter (hprox : (v.get .prox).getD 0 ≠ 0) (hinst : u.instOf target = false) :
    s.commitFlagprox h v = u.flagEnter o v := by
  simp only [State.commitFlagprox, hsel, htarget, hinst, bne_iff_ne.2 hprox]

theorem State.commitFlagprox_absent (hprox : (v.get .prox).getD 0 = 0) (hinst : u.instOf target = false) :
    s.commitFlagprox h v = u := by
  simp only [State.commitFlagprox, hsel, htarget, hinst, hprox, bne_self_eq_false]

end Flagprox

theorem State.instOf_eq_false {s : State} {o : Option Nat} (h : ∀ c, o = some c → (s.ch c).inProx = false) :
    s.instOf o = false := by
  cases o with
  | some c => exact h c rfl
  | none => rfl

/-- Settles O46: the target of the statement is the channel that R253 looks at. -/
theorem flagproxPacketsStayOrLeave : Obligations.FlagproxPacketsStayOrLeave := by
  intro s rd i prox target exhausted h he hprox htarget
  obtain ⟨m, v, hm, hx, hexec⟩ := decode_commits .flagprox h rd he
  have hflag : (v.get .prox).getD 0 = prox := by rw [hx, show Slot.prox.num = 0 from rfl, hprox]; rfl
  have hcommit : s.commit (s.hitFor i .flagprox m) v = s.commitFlagprox (s.hitFor i .flagprox m) v := rfl
  obtain ⟨o, hsel, hlooked⟩ : ∃ o, s.sel (s.hitFor i .flagprox m) v = (s.orChExh exhausted, o) ∧
      o.or ((s.orChExh exhausted).find 0) = target := by
    rcases State.sel_cases (k := .flagprox) hm hx with ⟨r, hselected, hsel⟩ | ⟨hselected, hsel⟩ <;>
      rw [hselected] at htarget
    · obtain ⟨rfl, rfl⟩ := htarget
      exact ⟨some r.1, hsel, rfl⟩
    · cases target with
      | some c =>
        obtain ⟨hfinds, rfl⟩ := htarget
        exact ⟨none, by rw [hsel, State.orChExh_false], (s.find_eq_some 0 c).2 hfinds⟩
      | none =>
        obtain ⟨hfinds, rfl⟩ := htarget
        exact ⟨none, by rw [hsel, State.orChExh_false], (s.find_eq_none 0).2 hfinds⟩
  refine ⟨fun c hc hin hne => ?stay, fun c hc hin hz => ?leave, fun hout hz => ?absent⟩
  case stay =>
    rw [hcommit, State.commitFlagprox_stay hsel hlooked (hflag.trans_ne hne) hc hin] at hexec
    obtain ⟨evs, hevs, hdecoded, -⟩ :=
      dispatch_decoded (rd := rd) exhausted true hx (State.inProx_lt hin)
    exact ⟨evs, _, hexec, hevs, hdecoded⟩
  case leave =>
    rw [hcommit, State.commitFlagprox_leave hsel hlooked (hflag.trans hz) hc hin] at hexec
    exact ⟨_, hexec, leave_decoded exhausted rfl⟩
  case absent =>
    rw [hcommit, State.commitFlagprox_absent hsel hlooked (hflag.trans hz)
      (State.instOf_eq_false hout)] at hexec
    exact ⟨_, hexec, same_decoded exhausted rfl⟩

/-! ### PAD (R257) -/

/-- A dispatch without motion emits only button and wheel events. -/
theorem State.DispatchEvents.button_or_wheel {s : State} {i c : Nat} {old : Word} {evs : List Event}
    (h : s.DispatchEvents i c false old evs) (e : Event) (he : e ∈ evs) :
    (∃ k p, e = Event.button c k p) ∨ ∃ a w, e = Event.wheel c a w := by
  obtain ⟨buttons, rfl, hbuttons, -⟩ := h
  rw [List.mem_append, List.mem_append, List.mem_append] at he
  rcases he with ((he | he) | he) | he
  · cases he
  · obtain ⟨new, -, k, -, rfl⟩ := (hbuttons e).1 he
    exact .inl ⟨k, _, rfl⟩
  · split at he
    · exact .inr ⟨true, _, List.mem_singleton.1 he⟩
    · cases he
  · split at he
    · split at he
      · cases he
      · exact .inr ⟨false, _, List.mem_singleton.1 he⟩
    · cases he

/-- Settles O47. -/
theorem padPacketsDispatchToThePad : Obligations.PadPacketsDispatchToThePad := by
  intro s rd i hsize h he
  obtain ⟨m, v, -, hx, hexec⟩ := decode_commits .pad h rd he
  obtain ⟨evs, hevs, hdecoded, -⟩ := dispatch_decoded (rd := rd) false false hx hsize
  rw [State.orChExh_false, Bool.or_false] at hdecoded
  exact ⟨evs, _, hexec, hevs, hevs.button_or_wheel, hdecoded⟩

/-! ### Packets that enter a tool (R253, R254) -/

/-- The selected channel is a tool channel, where the fixed one is (R250). -/
theorem State.selected_lt {s : State} {i : Nat} {r : Nat × Bool} (h : s.selected i = some r)
    (hpos : 1 ≤ s.nch.toNat) (hfixed : s.modeOf i = 2 → s.fixedOf i < s.nch.toNat) : r.1 < s.nch.toNat := by
  unfold State.selected at h
  split at h
  · cases h
    split
    · assumption
    · exact hpos
  · split at h
    · next hmode => cases h; exact hfixed hmode
    · cases h

/-- The channel that a packet of rule `i` enters the tool `serial` on: the selected one, else the arbitrated
one; `exhausted` when that falls back on channel 0. -/
def State.EntersOn (s : State) (i : Nat) (serial : Word) (c : Nat) (exhausted : Bool) : Prop :=
  match s.selected i with
  | some r => r = (c, exhausted)
  | none => s.ArbEnters serial c exhausted

theorem State.EntersOn.lt {s : State} {i c : Nat} {serial : Word} {exhausted : Bool}
    (h : s.EntersOn i serial c exhausted) (hpos : 1 ≤ s.nch.toNat)
    (hfixed : s.modeOf i = 2 → s.fixedOf i < s.nch.toNat) : c < s.nch.toNat := by
  unfold State.EntersOn at h
  split at h
  · next hselected =>
    subst h
    exact State.selected_lt hselected hpos hfixed
  · exact State.ArbEnters.lt h hpos

theorem State.sel_orUnkTool (s : State) (unknown : Bool) (h : Hit) (v : Fields) :
    (s.orUnkTool unknown).sel h v = ((s.sel h v).1.orUnkTool unknown, (s.sel h v).2) := by
  unfold State.sel
  cases h.chMode with
  | tag =>
    rcases s.tagCh_cases ((v.get .tag).getD 0) with ⟨hlt, htag⟩ | ⟨hle, htag⟩
    · rw [htag]
      simp only [tagCh_of_lt (s := s.orUnkTool unknown) hlt]
    · rw [htag]
      simp only [tagCh_of_le (s := s.orUnkTool unknown) hle]
      rfl
  | arb | fixed => rfl

/-- Selection, and arbitration where it selects no channel, with the tool's flag set between the two. -/
theorem State.sel_orArb_spec {s : State} {i : Nat} {k : Kind} {m : ChMode} (hm : modeCode m = s.modeOf i)
    {v : Fields} (hx : ∀ x, Fields.get v x = s.slotValue i x.num) (serial : Word) (unknown : Bool) :
    ∃ c exhausted, s.EntersOn i serial c exhausted ∧
      ((s.sel (s.hitFor i k m) v).1.orUnkTool unknown).orArb serial (s.sel (s.hitFor i k m) v).2 =
        (s.withEnterFlags unknown exhausted, c) := by
  unfold State.EntersOn
  rcases State.sel_cases (k := k) hm hx with ⟨r, hselected, hsel⟩ | ⟨hselected, hsel⟩ <;>
    rw [hselected, hsel]
  · exact ⟨r.1, r.2, rfl, rfl⟩
  · obtain ⟨c, exhausted, harb, henter⟩ := (s.orUnkTool unknown).arbEnter_spec serial
    exact ⟨c, exhausted, harb, henter⟩

/-- An enter keeps the size of the channel table. -/
theorem State.withEnterFlags_enterProc_length (s : State) (c : Nat) (serial code : Word) (tool : ToolType)
    (unknown exhausted : Bool) :
    ((s.withEnterFlags unknown exhausted).enterProc c serial code tool).cht.length = s.cht.length :=
  (Commits.enterProc _ _ _ _ _).cht_length

section Enter
variable {s : State} {i c : Nat} (hc : c < s.cht.length) (serial code : Word) (tool : ToolType)
  (unknown exhausted : Bool)
include hc

/-- The channels after an enter. -/
theorem State.withEnterFlags_enterProc_ch (d : Nat) :
    ((s.withEnterFlags unknown exhausted).enterProc c serial code tool).ch d =
      if d = c then s.populated c serial code tool else s.ch d := by
  by_cases hd : d = c
  · subst hd
    rw [if_pos rfl]
    exact State.enterProc_ch_self (s.withEnterFlags unknown exhausted) hc serial code tool
  · rw [if_neg hd]
    exact State.enterProc_ch_of_ne (s.withEnterFlags unknown exhausted) hd serial code tool

/-- A packet that ends in an enter, reported where the tool is new (R254). -/
theorem enter_decoded (rd : RegNum) :
    Decoded s rd (fun d => if d = c then s.populated c serial code tool else s.ch d)
      (if (s.ch c).inProx = true ∧ (s.ch c).serial = serial then [] else [Event.prox c tool true serial])
      (word c)
      { s.status with
        errUnkTool := s.status.errUnkTool || unknown
        errChExh := s.status.errChExh || exhausted }
      ((if s.wasHere c serial then (s.withEnterFlags unknown exhausted).enterProc c serial code tool
        else ((s.withEnterFlags unknown exhausted).enterProc c serial code tool).emit
          (.prox c tool true serial)).consumePkt.setReg rd 1) := by
  have hchannels := State.withEnterFlags_enterProc_ch hc serial code tool unknown exhausted
  have hlength := State.withEnterFlags_enterProc_length s c serial code tool unknown exhausted
  have hhere : s.wasHere c serial = true ↔ (s.ch c).inProx = true ∧ (s.ch c).serial = serial := by
    simp [State.wasHere]
  simp only [hhere]
  split
  · exact .mk' _ rfl hchannels hlength (List.append_nil _).symm (BitVec.add_zero _).symm rfl rfl rfl
  · exact .mk' _ rfl hchannels hlength rfl rfl rfl rfl rfl

end Enter

/-- The commit of an ENTER packet, from what the map, the selection and the arbitration answer (R254). -/
theorem State.commitEnter_eq {s : State} {h : Hit} {v : Fields} {c : Nat} {serial code : Word} {tool : ToolType}
    {unknown exhausted : Bool} (hcode : (v.get .toolid).getD 0 = code)
    (hserial : (v.get .serial).getD 0 = serial) (hmap : s.tidmap code = (s.orUnkTool unknown, tool))
    (hchannel : ((s.sel h v).1.orUnkTool unknown).orArb serial (s.sel h v).2 =
      (s.withEnterFlags unknown exhausted, c)) :
    s.commitEnter h v =
      if s.wasHere c serial then (s.withEnterFlags unknown exhausted).enterProc c serial code tool
      else ((s.withEnterFlags unknown exhausted).enterProc c serial code tool).emit
        (.prox c tool true serial) := by
  simp only [State.commitEnter, hcode, hserial, hmap, State.sel_orUnkTool, hchannel]
  rfl

/-- A packet of a kind that selects a channel passes phase 1 only with a legal fixed channel. -/
theorem State.ExtractsAll.fixed_lt {s : State} {i kind : Nat} (he : s.ExtractsAll i) (h : s.DecodesKind i kind)
    (h1 : 1 ≤ kind) (h4 : kind ≤ 4) (hmode : s.modeOf i = 2) : s.fixedOf i < s.nch.toNat := by
  obtain ⟨-, -, hfixed, -⟩ := he
  obtain ⟨-, hkind, -⟩ := h
  exact hfixed hmode (hkind ▸ h1) (hkind ▸ h4)

/-- Settles O42: the map, the selection or the arbitration, and the entry, one after the other. -/
theorem enterPacketsEnterTheTool : Obligations.EnterPacketsEnterTheTool := by
  intro s rd i code hpos hsize h he hcode
  obtain ⟨m, v, hm, hx, hexec⟩ := decode_commits .enter h rd he
  have htoolid : (v.get .toolid).getD 0 = code := by rw [hx, show Slot.toolid.num = 3 from rfl, hcode]; rfl
  have hserial : v.get .serial = s.slotValue i 4 := hx .serial
  obtain ⟨tool, unknown, hmaps, hmap⟩ := s.tidmap_spec code
  obtain ⟨c, exhausted, henters, hchannel⟩ :=
    State.sel_orArb_spec (k := .enter) hm hx ((s.slotValue i 4).getD 0) unknown
  have hlt : c < s.cht.length :=
    (henters.lt hpos (he.fixed_lt h (by decide) (by decide))).trans_le hsize
  have hcommit := State.commitEnter_eq htoolid (congrArg (Option.getD · 0) hserial) hmap hchannel
  have hdecoded := enter_decoded hlt ((s.slotValue i 4).getD 0) code tool unknown exhausted rd
  rw [← hcommit] at hdecoded
  exact ⟨_, c, exhausted, tool, unknown, _, hexec, rfl, hmaps, henters, hdecoded⟩

/-- A FLAGPROX packet that enters the tool, from what the map and the arbitration answer (R253). -/
theorem State.flagEnter_eq {s u : State} {v : Fields} {o : Option Nat} {c : Nat} {sel : Word} {tool : ToolType}
    {unknown exhausted : Bool} (hsel : (v.get .toolsel).getD 0 = sel)
    (hmap : u.tselTool sel = (u.orUnkTool unknown, tool))
    (hchannel : (u.orUnkTool unknown).orArb 0 o = (s.withEnterFlags unknown exhausted, c)) :
    u.flagEnter o v =
      (((s.withEnterFlags unknown exhausted).enterProc c 0 sel tool).emit (.prox c tool true 0)).dispatch
        c true v := by
  simp only [State.flagEnter, hsel, hmap, hchannel]

theorem State.SelectsTool.of_commits {s t : State} {sel : Word} {tool : ToolType} {unknown : Bool}
    (h : t.SelectsTool sel tool unknown) (hc : Commits s t) : s.SelectsTool sel tool unknown := by
  have heraser : t.hasEraser = s.hasEraser := congrArg (·.getLsbD 0) hc.caps
  unfold State.SelectsTool at h ⊢
  rwa [← hc.tselmap, ← heraser]

/-- A packet that ends in an enter, reported, and a dispatch to the entered channel (R253). -/
theorem enter_dispatch_decoded {s : State} {i c : Nat} {v : Fields}
    (hx : ∀ x, Fields.get v x = s.slotValue i x.num) (hc : c < s.cht.length) (serial code : Word)
    (tool : ToolType) (unknown exhausted : Bool) (rd : RegNum) :
    ∃ evs, s.DispatchEvents i c true (s.populated c serial code tool).btn evs ∧
      Decoded s rd (fun d => if d = c then s.dispatched i (s.populated c serial code tool) else s.ch d)
        (Event.prox c tool true serial :: evs) (word c)
        { s.status with
          errUnkTool := s.status.errUnkTool || unknown
          errChExh := s.status.errChExh || exhausted }
        (((((s.withEnterFlags unknown exhausted).enterProc c serial code tool).emit
          (.prox c tool true serial)).dispatch c true v).consumePkt.setReg rd 1) := by
  have hchannels := State.withEnterFlags_enterProc_ch hc serial code tool unknown exhausted
  have hlength := State.withEnterFlags_enterProc_length s c serial code tool unknown exhausted
  obtain ⟨evs, hevs, hdecoded⟩ := dispatch_decoded_gen (rd := rd)
    (u := ((s.withEnterFlags unknown exhausted).enterProc c serial code tool).emit (.prox c tool true serial))
    (pre := [.prox c tool true serial]) hx rfl rfl rfl rfl rfl (hlength ▸ hc) hlength hchannels (if_pos rfl)
    rfl rfl rfl rfl rfl
  refine ⟨evs, hevs, ?_⟩
  have hentry : (fun d => if d = c then s.dispatched i (s.populated c serial code tool)
      else if d = c then s.populated c serial code tool else s.ch d) =
      fun d => if d = c then s.dispatched i (s.populated c serial code tool) else s.ch d := by
    funext d
    split <;> rfl
  rw [hentry] at hdecoded
  exact hdecoded

/-- Settles O45: the selection finds no tool, so the packet enters one and is dispatched to it. -/
theorem flagproxPacketsEnter : Obligations.FlagproxPacketsEnter := by
  intro s rd i prox hpos hsize h he hprox hne habsent
  obtain ⟨m, v, hm, hx, hexec⟩ := decode_commits .flagprox h rd he
  have hflag : (v.get .prox).getD 0 = prox := by rw [hx, show Slot.prox.num = 0 from rfl, hprox]; rfl
  have htoolsel : v.get .toolsel = s.slotValue i 1 := hx .toolsel
  obtain ⟨⟨u, o⟩, hsel⟩ : ∃ r, s.sel (s.hitFor i .flagprox m) v = r := ⟨_, rfl⟩
  have hkept : Commits s u := by simpa only [hsel] using Commits.sel s (s.hitFor i .flagprox m) v
  obtain ⟨tool, unknown, hselects, hmap⟩ := u.tselTool_spec ((s.slotValue i 1).getD 0)
  obtain ⟨c, exhausted, henters, hchannel⟩ := State.sel_orArb_spec (k := .flagprox) hm hx 0 unknown
  rw [hsel] at hchannel
  have hlt : c < s.cht.length :=
    (henters.lt hpos (he.fixed_lt h (by decide) (by decide))).trans_le hsize
  have hout : u.instOf (o.or (u.find 0)) = false := by
    rcases State.sel_cases (k := .flagprox) hm hx with ⟨r, hselected, hr⟩ | ⟨hselected, hr⟩ <;>
      rw [hselected] at habsent <;> cases hsel.symm.trans hr
    · exact habsent
    · rw [Option.none_or, (s.find_eq_none 0).2 habsent]
      rfl
  have hcommit := State.commitFlagprox_enter hsel rfl (hflag.trans_ne hne) hout
  rw [State.flagEnter_eq (congrArg (Option.getD · 0) htoolsel) hmap hchannel] at hcommit
  obtain ⟨evs, hevs, hdecoded⟩ :=
    enter_dispatch_decoded hx hlt 0 ((s.slotValue i 1).getD 0) tool unknown exhausted rd
  rw [← hcommit] at hdecoded
  exact ⟨_, c, exhausted, tool, unknown, evs, _, hexec, rfl, hselects.of_commits hkept, henters, hevs,
    hdecoded⟩

end Sys2Proof.Machine
end

section
/-! PROOFS of the statements of 43_protocol_decoders.md, third part: PUMP as NEXTPKT and DECODE repeated (R276). -/

namespace Sys2Proof.Machine

/-! ### PUMP (R276) -/

/-- A state in which PUMP may rely on its profile, and goes on. -/
structure Pumps (s : State) : Prop where
  legal : ProfileLegal s
  fault : s.status.fault = false
  run : s.status.run = true

theorem Pumps.of_keepsControl {s t : State} (h : Pumps s) (hk : KeepsControl s t) : Pumps t :=
  ⟨h.legal.of_keepsControl hk, (congrArg Prod.fst hk.faultRecord).trans h.fault, hk.run.trans h.run⟩

theorem Fetches.keepsControl {s t : State} (h : Fetches s t) : KeepsControl s t :=
  ⟨h.keepsProfile, h.faultRecord, h.run⟩

/-- PUMP fetches as NEXTPKT does, which fetches nothing while a packet is in PKT. -/
theorem State.fillPkt_eq (s : State) : s.fillPkt = s.nextPacket.1 := by
  unfold State.fillPkt State.nextPacket
  split <;> rfl

/-- A round of PUMP starts with a packet in PKT, or takes a byte from the ring. -/
theorem State.fillPkt_ring_lt {s : State} (h : Pumps s) (hp : s.fillPkt.status.pktValid = true) :
    s.fillPkt.ring.length < s.ring.length + s.status.pktValid.toNat := by
  cases hvalid : s.status.pktValid with
  | true => simp [State.fillPkt, hvalid]
  | false =>
    rw [State.fillPkt_eq] at hp ⊢
    rcases State.nextPacket_cases h.legal h.run hvalid with ⟨hnone, -⟩ | ⟨-, hlong, -, hring, -⟩
    · rw [hnone] at hp; cases hp
    · simp only [Bool.toNat_false]; omega

/-- A decoded packet leaves the registers and the ring alone, and no packet. -/
theorem State.decodeOne_consumes {s t : State} {w : Word} (h : s.decodeOne = .ok (t, w))
    (hp : s.status.pktValid = true) : t.x = s.x ∧ t.ring = s.ring ∧ t.status.pktValid = false := by
  rcases State.decodeOne_ok h with ⟨hno, -⟩ | ⟨-, -, rfl, -⟩ | ⟨_, hit, v, -, -, -, -, rfl, -⟩
  · rw [hno] at hp; cases hp
  · exact ⟨rfl, rfl, rfl⟩
  · exact ⟨(Commits.commit s hit v).x, (Commits.commit s hit v).ring, rfl⟩

section Does
variable {s : State} (h : Pumps s) (rd : RegNum)
include h

theorem Pumps.does_nextpkt : s.Does (.nextpkt rd) s.fillPkt := by
  refine ⟨_, execNextpkt_eq s rd h.fault h.run, ?_⟩
  rw [State.fillPkt_eq, ← (Fetches.nextPacket s).x]
  rfl

theorem Pumps.does_decode {t : State} {w : Word} (hok : s.decodeOne = .ok (t, w)) (hx : t.x = s.x) :
    s.Does (.decode rd) t := by
  refine ⟨t.setReg rd w, by rw [execDecode_eq s rd h.fault h.run, hok, finish_ok], ?_⟩
  rw [← hx]
  rfl

theorem Pumps.does_decode_fault {e : Raise} (he : s.decodeOne = .error e) :
    s.Does (.decode rd) (takeFault e s) :=
  ⟨_, by rw [execDecode_eq s rd h.fault h.run, he, finish_error], rfl⟩

end Does

theorem State.pumpLoop_of_no_packet {s : State} (k n : Nat) (hp : s.fillPkt.status.pktValid = false) :
    State.pumpLoop (k + 1) n s = (s.fillPkt, .ok n) := by
  simp [State.pumpLoop, hp]

theorem State.pumpLoop_of_fault {s : State} {e : Raise} (k n : Nat) (hp : s.fillPkt.status.pktValid = true)
    (he : s.fillPkt.decodeOne = .error e) : State.pumpLoop (k + 1) n s = (s.fillPkt, .error e) := by
  simp [State.pumpLoop, hp, he]

theorem State.pumpLoop_of_packet {s t : State} {w : Word} (k n : Nat)
    (hp : s.fillPkt.status.pktValid = true) (hok : s.fillPkt.decodeOne = .ok (t, w)) :
    State.pumpLoop (k + 1) n s = State.pumpLoop k (n + 1) t := by
  simp [State.pumpLoop, hp, hok]

/-- The loop of PUMP, with more rounds than packets can follow, is the repetition of the two commands: it ends
where that ends, or at the fault that ends it. -/
theorem pumpLoop_run (rd : RegNum) : ∀ (k n : Nat) (s : State), Pumps s →
    s.ring.length + s.status.pktValid.toNat < k →
    (∃ m t, PumpRun rd s m t ∧ State.pumpLoop k n s = (t, .ok (n + m))) ∨
    ∃ e t, PumpFaults rd s (takeFault e t) ∧ State.pumpLoop k n s = (t, .error e) := by
  intro k
  induction k with
  | zero => intro n s _ hk; omega
  | succ k ih =>
    intro n s hs hk
    have hfill : Pumps s.fillPkt := hs.of_keepsControl (Fetches.fillPkt s).keepsControl
    have hnext := hs.does_nextpkt rd
    cases hp : s.fillPkt.status.pktValid with
    | false => exact .inl ⟨0, _, .stop s _ hnext hp, State.pumpLoop_of_no_packet k n hp⟩
    | true =>
      cases hd : s.fillPkt.decodeOne with
      | error e =>
        exact .inr ⟨e, _, .here s _ _ hnext hp (hfill.does_decode_fault rd hd) rfl,
          State.pumpLoop_of_fault k n hp hd⟩
      | ok r =>
        obtain ⟨t, w⟩ := r
        obtain ⟨hx, hring, hnone⟩ := State.decodeOne_consumes hd hp
        have ht : Pumps t :=
          hfill.of_keepsControl (PacketStep.decode (decodes := True) trivial hd).keepsControl
        have hlt := State.fillPkt_ring_lt hs hp
        have hdoes := hfill.does_decode rd hd hx
        rw [State.pumpLoop_of_packet k n hp hd]
        rcases ih (n + 1) t ht (by rw [hring, hnone, Bool.toNat_false]; omega) with
          ⟨m, u, hrun, hloop⟩ | ⟨e, u, hfaults, hloop⟩
        · exact .inl ⟨m + 1, u, .packet s _ t u m hnext hp hdoes ht.fault hrun,
            by rw [hloop, Nat.add_assoc, Nat.add_comm 1 m]⟩
        · exact .inr ⟨e, u, .later s _ t _ hnext hp hdoes ht.fault hfaults, hloop⟩

theorem execPump_eq {s : State} (hf : s.status.fault = false) (hr : s.status.run = true) (rd : RegNum) :
    exec (.pump rd) s = .next (finish (State.pumpLoop (s.ring.length + 2) 0 s).1 rd
      ((State.pumpLoop (s.ring.length + 2) 0 s).2.map fun n =>
        ((State.pumpLoop (s.ring.length + 2) 0 s).1, word n))) :=
  (inRun_of_run hf hr _ : execPump rd s = _)

/-- Settles O49: the rounds that PUMP allows itself are more than the packet in PKT and the bytes in the ring. -/
theorem pumpIsNextpktAndDecode : Obligations.PumpIsNextpktAndDecode := by
  intro s rd hlegal hf hr
  refine ⟨_, execPump_eq hf hr rd, ?_⟩
  have hrounds : s.ring.length + s.status.pktValid.toNat < s.ring.length + 2 := by
    have := s.status.pktValid.toNat_lt
    omega
  rcases pumpLoop_run rd _ 0 s ⟨hlegal, hf, hr⟩ hrounds with ⟨m, t, hrun, hloop⟩ | ⟨e, t, hfaults, hloop⟩ <;>
    rw [hloop]
  · refine .inl ⟨m, t, hrun, ?_⟩
    rw [Nat.zero_add]
    exact .setReg t rd (word m)
  · exact .inr hfaults

end Sys2Proof.Machine
end

section
/-! PROOFS of the statements of 43_protocol_decoders.md, fourth part: what decoding a packet does not
read (R279). What the packet's own events come after, and all else that it must not read, is `Surroundings`; each
phase of DECODE gives the same in every surroundings. -/

namespace Sys2Proof.Machine

/-- What decoding a packet reads nothing of. -/
structure Surroundings where
  x : Vector Word 16
  ring : List Byte
  evout : List Event
  evcnt : Word
  input : List HostInput

/-- `s` in the surroundings `g`: the events of `s` come after those of `g`. -/
def State.within (s : State) (g : Surroundings) : State :=
  { s with
    x := g.x, ring := g.ring, evout := g.evout ++ s.evout, evcnt := g.evcnt + s.evcnt, input := g.input }

/-- `s` with no event emitted yet. -/
def State.silent (s : State) : State := { s with evout := [], evcnt := 0 }

theorem State.silent_within (s : State) (g : Surroundings) :
    s.silent.within g =
      { s with x := g.x, ring := g.ring, evout := g.evout, evcnt := g.evcnt, input := g.input } := by
  simp [State.silent, State.within]

section Within
variable (s : State) (g : Surroundings)

/-! #### What the phases of DECODE read -/

theorem State.find_within (serial : Word) : (s.within g).find serial = s.find serial := rfl

theorem State.wasHere_within (c : Nat) (serial : Word) :
    (s.within g).wasHere c serial = s.wasHere c serial := rfl

theorem State.instOf_within (c : Option Nat) : (s.within g).instOf c = s.instOf c := by
  cases c <;> rfl

theorem State.exitChannel_within (c : Option Nat) (serial : Option Word) :
    (s.within g).exitChannel c serial = s.exitChannel c serial := by
  cases c with
  | some c => rfl
  | none => cases serial <;> rfl

theorem State.generalChannel_within (c : Option Nat) (serial : Option Word) :
    (s.within g).generalChannel c serial = s.generalChannel c serial := by
  cases c with
  | some c => rfl
  | none => cases serial <;> rfl

theorem State.readField_within (fid : Nat) : (s.within g).readField fid = s.readField fid :=
  SameField.readField_eq ⟨rfl, fun _ _ => rfl, rfl, fun _ _ _ => rfl⟩

theorem State.classifyIn_within (is : List Nat) : (s.within g).classifyIn is = s.classifyIn is := by
  induction is with
  | nil => rfl
  | cons i is ih =>
    have hhits : (s.within g).ruleHits i = s.ruleHits i := rfl
    simp only [State.classifyIn, hhits, ih]

theorem State.extractIn_within (layout : Nat) (slots : List Slot) :
    (s.within g).extractIn layout slots = s.extractIn layout slots := by
  induction slots with
  | nil => rfl
  | cons slot slots ih =>
    have hbyte : (s.within g).slotByte layout slot = s.slotByte layout slot := rfl
    simp only [State.extractIn, hbyte, State.readField_within, ih]

theorem State.extract_within (h : Hit) : (s.within g).extract h = s.extract h := by
  have hslots : (s.within g).slotsOf h = s.slotsOf h := rfl
  have hcheck : (s.within g).checkFields h = s.checkFields h := rfl
  simp only [State.extract, hslots, hcheck, State.extractIn_within]

/-! #### What the commit leaves -/

theorem State.enterProc_within (c : Nat) (serial code : Word) (tool : ToolType) :
    (s.within g).enterProc c serial code tool = (s.enterProc c serial code tool).within g := rfl

theorem State.emit_within (ev : Event) : (s.within g).emit ev = (s.emit ev).within g := by
  simp [State.emit, State.within, BitVec.add_assoc]

theorem State.dispatch_within (c : Nat) (motion : Bool) (v : Fields) :
    (s.within g).dispatch c motion v = (s.dispatch c motion v).within g := by
  have hevents : (s.within g).dispatchEvents c motion v = s.dispatchEvents c motion v := rfl
  have hentry : (s.within g).dispatchEntry c v = s.dispatchEntry c v := rfl
  rw [State.dispatch_eq, State.dispatch_eq, hevents, hentry]
  simp [State.within, BitVec.add_assoc]

theorem State.leave_within (c : Nat) : (s.within g).leave c = (s.leave c).within g :=
  (s.clear c).emit_within g _

theorem State.tagCh_within (tag : Word) :
    (s.within g).tagCh tag = ((s.tagCh tag).1.within g, (s.tagCh tag).2) := by
  rcases s.tagCh_cases tag with ⟨hlt, htag⟩ | ⟨hle, htag⟩ <;> rw [htag]
  · exact tagCh_of_lt hlt
  · exact tagCh_of_le hle

theorem State.arbEnter_within (serial : Word) :
    (s.within g).arbEnter serial = ((s.arbEnter serial).1.within g, (s.arbEnter serial).2) := by
  have hfree : (s.within g).lowestFree = s.lowestFree := rfl
  unfold State.arbEnter
  rw [State.find_within, hfree]
  cases s.find serial with
  | some c => rfl
  | none => cases s.lowestFree <;> rfl

theorem State.orArb_within (serial : Word) (c : Option Nat) :
    (s.within g).orArb serial c = ((s.orArb serial c).1.within g, (s.orArb serial c).2) := by
  cases c with
  | some c => rfl
  | none => exact s.arbEnter_within g serial

theorem State.validType_within (code : BitVec 4) :
    (s.within g).validType code = ((s.validType code).1.within g, (s.validType code).2) := by
  unfold State.validType
  cases ToolType.ofCode code <;> rfl

theorem State.tidmap_within (code : Word) :
    (s.within g).tidmap code = ((s.tidmap code).1.within g, (s.tidmap code).2) := by
  have hentry : (s.within g).tidEntry code = s.tidEntry code := rfl
  unfold State.tidmap
  rw [hentry]
  cases s.tidEntry code with
  | some i => exact s.validType_within g _
  | none => rfl

theorem State.tselTool_within (w : Word) :
    (s.within g).tselTool w = ((s.tselTool w).1.within g, (s.tselTool w).2) := by
  have hentry : (s.within g).tselEntry w.toNat = s.tselEntry w.toNat := rfl
  have heraser : (s.within g).hasEraser = s.hasEraser := rfl
  simp only [State.tselTool, hentry, heraser, State.validType_within]
  split <;> split <;> rfl

theorem State.sel_within (h : Hit) (v : Fields) :
    (s.within g).sel h v = ((s.sel h v).1.within g, (s.sel h v).2) := by
  unfold State.sel
  cases h.chMode with
  | tag => simp only [State.tagCh_within]
  | arb | fixed => rfl

theorem State.leaveTarget_within (target : Option Nat) :
    (s.within g).leaveTarget target = (s.leaveTarget target).within g := by
  cases target with
  | none => rfl
  | some c =>
    have hentry : (s.within g).ch c = s.ch c := rfl
    simp only [State.leaveTarget, hentry, State.leave_within]
    split <;> rfl

theorem State.dispatchTarget_within (v : Fields) (target : Option Nat) :
    (s.within g).dispatchTarget v target = (s.dispatchTarget v target).within g := by
  cases target with
  | none => rfl
  | some c =>
    have hentry : (s.within g).ch c = s.ch c := rfl
    simp only [State.dispatchTarget, hentry, State.dispatch_within]
    split <;> rfl

theorem State.flagEnter_within (c : Option Nat) (v : Fields) :
    (s.within g).flagEnter c v = (s.flagEnter c v).within g := by
  simp only [State.flagEnter, State.tselTool_within, State.orArb_within, State.enterProc_within,
    State.emit_within, State.dispatch_within]

theorem State.commitFlagprox_within (h : Hit) (v : Fields) :
    (s.within g).commitFlagprox h v = (s.commitFlagprox h v).within g := by
  simp only [State.commitFlagprox, State.sel_within, State.find_within, State.instOf_within]
  split
  · exact State.dispatch_within _ g _ _ _
  · exact State.flagEnter_within _ g _ _
  · exact State.leave_within _ g _
  · rfl

theorem State.commitEnter_within (h : Hit) (v : Fields) :
    (s.within g).commitEnter h v = (s.commitEnter h v).within g := by
  simp only [State.commitEnter, State.tidmap_within, State.sel_within, State.orArb_within,
    State.enterProc_within, State.wasHere_within, State.emit_within]
  split <;> rfl

theorem State.commitExit_within (h : Hit) (v : Fields) :
    (s.within g).commitExit h v = (s.commitExit h v).within g := by
  rw [State.commitExit_eq, State.commitExit_eq, State.sel_within, State.exitChannel_within,
    State.leaveTarget_within]

theorem State.commitGeneral_within (h : Hit) (v : Fields) :
    (s.within g).commitGeneral h v = (s.commitGeneral h v).within g := by
  rw [State.commitGeneral_eq, State.commitGeneral_eq, State.sel_within, State.generalChannel_within,
    State.dispatchTarget_within]

theorem State.commit_within (h : Hit) (v : Fields) :
    (s.within g).commit h v = (s.commit h v).within g := by
  unfold State.commit
  cases h.kind with
  | ignore | qreply | tqreply => rfl
  | flagprox => exact s.commitFlagprox_within g h v
  | enter => exact s.commitEnter_within g h v
  | exit => exact s.commitExit_within g h v
  | general => exact s.commitGeneral_within g h v
  | pad => exact s.dispatch_within g _ false v

/-- `decode_one` gives the same in every surroundings: the same fault, or the same state within them. -/
theorem State.decodeOne_within :
    (s.within g).decodeOne = s.decodeOne.map fun r => (r.1.within g, r.2) := by
  have hvalid : (s.within g).status.pktValid = s.status.pktValid := rfl
  have hclassify : (s.within g).classify = s.classify := s.classifyIn_within g _
  have hhit : ∀ i, (s.within g).hitOf i = s.hitOf i := fun _ => rfl
  cases hp : s.status.pktValid with
  | false => rw [State.decodeOne_of_no_packet hp, State.decodeOne_of_no_packet (hvalid.trans hp)]; rfl
  | true =>
    simp only [State.decodeOne, hvalid, hp, if_true, hclassify, hhit, State.extract_within, State.commit_within]
    cases s.classify with
    | error e => rfl
    | ok o =>
      cases o with
      | none => rfl
      | some i =>
        simp only
        cases s.hitOf i with
        | error e => rfl
        | ok hit =>
          simp only
          cases s.extract hit <;> rfl

end Within

/-! ### DECODE in two surroundings -/

/-- The surroundings that `s` is in. -/
def State.surroundings (s : State) : Surroundings := ⟨s.x, s.ring, s.evout, s.evcnt, s.input⟩

theorem State.silent_within_surroundings (s : State) : s.silent.within s.surroundings = s :=
  s.silent_within s.surroundings

/-- The events of a decoded packet, where none was emitted before it. -/
theorem State.decodeOne_silent_evcnt {s t : State} {w : Word} (h : s.silent.decodeOne = .ok (t, w)) :
    t.evcnt = word t.evout.length := by
  obtain ⟨evs, hevs⟩ := (State.decodeOne_steps h).emits
  have hout : t.evout = evs := hevs.evout
  rw [hout, hevs.evcnt]
  exact BitVec.zero_add _

section Decode
variable {s : State} (hf : s.status.fault = false) (hr : s.status.run = true) (rd : RegNum) (g : Surroundings)
include hf hr

theorem decode_within_ok {t : State} {w : Word} (h : s.decodeOne = .ok (t, w)) :
    exec (.decode rd) (s.within g) = .next ((t.within g).setReg rd w) := by
  rw [execDecode_eq (s.within g) rd hf hr, State.decodeOne_within, h]
  rfl

theorem decode_within_error {e : Raise} (h : s.decodeOne = .error e) :
    exec (.decode rd) (s.within g) = .next ((takeFault e s).within g) := by
  rw [execDecode_eq (s.within g) rd hf hr, State.decodeOne_within, h]
  rfl

end Decode

/-- Settles O50: both states are the same silent state in surroundings of their own. -/
theorem decodeReadsNoOtherState : Obligations.DecodeReadsNoOtherState := by
  intro s rd x ring evout evcnt input hf hr
  rw [← s.silent_within ⟨x, ring, evout, evcnt, input⟩]
  have hs := s.silent_within_surroundings
  cases hd : s.silent.decodeOne with
  | error e =>
    have hexec := decode_within_error (s := s.silent) hf hr rd s.surroundings hd
    rw [hs] at hexec
    exact ⟨_, _, [], hexec, decode_within_error (s := s.silent) hf hr rd _ hd, rfl, rfl, rfl, rfl, rfl, rfl,
      rfl, rfl, rfl, nofun⟩
  | ok r =>
    obtain ⟨t, w⟩ := r
    have hcount := State.decodeOne_silent_evcnt hd
    have hexec := decode_within_ok (s := s.silent) hf hr rd s.surroundings hd
    rw [hs] at hexec
    refine ⟨_, _, t.evout, hexec, decode_within_ok (s := s.silent) hf hr rd _ hd, rfl, rfl,
      congrArg (s.evcnt + ·) hcount, congrArg (evcnt + ·) hcount, rfl, rfl, rfl, rfl, rfl, fun _ => ?_⟩
    rw [State.reg_setReg_self, State.reg_setReg_self]

end Sys2Proof.Machine
end

section
/-! PROOFS of the statements of 44_frame_synchronizer.md: what FEED, FEEDR and NEXTPKT do (R300 to R308), that polling
early changes nothing (R311), and that garbage in front of the ring changes nothing but ERR_FRAMING (R312). Both framing
modes are read as one relation, `State.Frames`; the last two statements are facts about that relation. -/

namespace Sys2Proof.Machine

/-! ### FEED and FEEDR (R300, R301, R302) -/

section Run
variable {s : State} (hf : s.status.fault = false) (hr : s.status.run = true)
include hf hr

theorem execFeed_of_run (b : Byte) : exec (.feed b) s = .next (s.feedByte b) :=
  (inRun_of_run hf hr _ : execFeed b s = _)

theorem execFeedr_of_run (rs1 : RegNum) :
    exec (.feedr rs1) s = .next (s.feedByte ((s.reg rs1).extractLsb' 0 8)) :=
  (inRun_of_run hf hr _ : execFeedr rs1 s = _)

end Run

theorem State.feedByte_of_room {s : State} (h : s.ring.length < s.params.ringSize) (b : Byte) :
    s.feedByte b = { s with ring := s.ring ++ [b] } :=
  if_neg h.ne

theorem State.feedByte_of_full {s : State} (h : s.ring.length = s.params.ringSize) (b : Byte) :
    s.feedByte b = s.setErrOverrun :=
  if_pos h

theorem lowByte_eq (w : Word) : w.extractLsb' 0 8 = BitVec.ofNat 8 (w.toNat % 2 ^ 8) := by
  apply BitVec.eq_of_toNat_eq
  simp [BitVec.extractLsb'_toNat]

/-- Settles O32, by whether the ring has room. -/
theorem feedAppendsAByte : Obligations.FeedAppendsAByte := by
  intro s b rs1 hf hr _
  refine ⟨_, _, execFeed_of_run hf hr b, execFeedr_of_run hf hr rs1, fun hroom => ?room, fun hfull => ?full⟩
  case room =>
    rw [← lowByte_eq]
    exact ⟨State.feedByte_of_room hroom b, State.feedByte_of_room hroom _⟩
  case full =>
    exact ⟨State.feedByte_of_full hfull b,
      (State.feedByte_of_full hfull _).trans (State.feedByte_of_full hfull b).symm⟩

/-! ### One relation for both framing modes (R303) -/

/-- What framing makes of the bytes `ring`: the bytes that stay, whether any was discarded, and the length of the
packet at their front, if there is one. By header bit (R306), or by fixed length, which discards nothing (R305). -/
def State.Frames (s : State) (ring kept : List Byte) (discarded : Bool) (o : Option Nat) : Prop :=
  if s.proto = .isdv4 then HeaderScan s ring kept discarded o
  else kept = ring ∧ discarded = false ∧ o = if s.plen.toNat ≤ ring.length then some s.plen.toNat else none

section Frames
variable {s : State} {ring kept : List Byte} {d : Bool} {o : Option Nat}

theorem State.frames_of_isdv4 (hp : s.proto = .isdv4) : s.Frames ring kept d o ↔ HeaderScan s ring kept d o := by
  rw [State.Frames, if_pos hp]

theorem State.frames_of_fixed (hp : s.proto ≠ .isdv4) : s.Frames ring kept d o ↔
    kept = ring ∧ d = false ∧ o = if s.plen.toNat ≤ ring.length then some s.plen.toNat else none := by
  rw [State.Frames, if_neg hp]

theorem State.Frames.unique {kept' : List Byte} {d' : Bool} {o' : Option Nat} (h : s.Frames ring kept d o)
    (h' : s.Frames ring kept' d' o') : kept' = kept ∧ d' = d ∧ o' = o := by
  by_cases hp : s.proto = .isdv4
  · rw [State.frames_of_isdv4 hp] at h h'
    exact h.unique h'
  · rw [State.frames_of_fixed hp] at h h'
    obtain ⟨rfl, rfl, rfl⟩ := h
    exact h'

/-- Two states agree on the profile registers that framing reads (R304). -/
structure SameFraming (s t : State) : Prop where
  proto : t.proto = s.proto
  hdrmask : t.hdrmask = s.hdrmask
  lsel : t.lsel = s.lsel
  plen : t.plen = s.plen

theorem SameFraming.refl (s : State) : SameFraming s s := ⟨rfl, rfl, rfl, rfl⟩

theorem SameFraming.symm {s t : State} (h : SameFraming s t) : SameFraming t s :=
  ⟨h.proto.symm, h.hdrmask.symm, h.lsel.symm, h.plen.symm⟩

theorem State.Frames.congr {t : State} (hsame : SameFraming s t) (h : s.Frames ring kept d o) :
    t.Frames ring kept d o := by
  by_cases hp : s.proto = .isdv4
  · rw [State.frames_of_isdv4 hp] at h
    exact (State.frames_of_isdv4 (hsame.proto.trans hp)).2 (h.congr hsame.hdrmask hsame.lsel hsame.plen)
  · rw [State.frames_of_fixed hp] at h
    rwa [State.frames_of_fixed (hsame.proto ▸ hp), hsame.plen]

theorem State.Frames.length_le (h : s.Frames ring kept d o) : kept.length ≤ ring.length := by
  by_cases hp : s.proto = .isdv4
  · rw [State.frames_of_isdv4 hp] at h
    exact h.length_le
  · rw [State.frames_of_fixed hp] at h
    exact h.1 ▸ le_rfl

end Frames

/-! ### NEXTPKT (R304, R308) -/

theorem State.nextPacket_of_latched {s : State} (hp : s.status.pktValid = true) : s.nextPacket = (s, 2) :=
  if_pos hp

/-- With no packet latched, `next_packet` does what framing says of the ring. -/
theorem State.nextPacket_frames {s : State} (hp : s.status.pktValid = false) : ∃ kept d o,
    s.Frames s.ring kept d o ∧ s.nextPacket = (s.afterScan kept d o, if o.isSome then 1 else 0) := by
  by_cases hproto : s.proto = .isdv4
  · obtain ⟨kept, d, o, hscan, hnext⟩ := s.nextHeader_scan
    refine ⟨kept, d, o, (State.frames_of_isdv4 hproto).2 hscan, ?_⟩
    rw [State.nextPacket, if_neg (by simp [hp]), if_pos hproto, hnext]
  · refine ⟨s.ring, false, _, (State.frames_of_fixed hproto).2 ⟨rfl, rfl, rfl⟩, ?_⟩
    rw [State.nextPacket, if_neg (by simp [hp]), if_neg hproto, State.nextFixed]
    split <;> simp [State.afterScan, State.latch]

theorem State.nextPacket_of_frames {s t : State} {kept : List Byte} {d : Bool} {o : Option Nat}
    (hsame : SameFraming s t) (hp : t.status.pktValid = false) (h : s.Frames t.ring kept d o) :
    t.nextPacket = (t.afterScan kept d o, if o.isSome then 1 else 0) := by
  obtain ⟨kept', d', o', h', hnext⟩ := State.nextPacket_frames hp
  obtain ⟨rfl, rfl, rfl⟩ := (h.congr hsame).unique h'
  exact hnext

/-- NEXTPKT, where `next_packet` answers `v` and leaves `t`. -/
theorem nextpkt_onlyReg {s t : State} {v : Word} (rd : RegNum) (hf : s.status.fault = false)
    (hr : s.status.run = true) (h : s.nextPacket = (t, v)) :
    ∃ u, exec (.nextpkt rd) s = .next u ∧ OnlyReg t rd v u :=
  ⟨t.setReg rd v, by rw [execNextpkt_eq s rd hf hr, h], .setReg t rd v⟩

/-- Settles O33: PKT is occupied, or framing by fixed length finds `PLEN` bytes or too few. -/
theorem nextpktFramesFixedLengths : Obligations.NextpktFramesFixedLengths := by
  intro s rd hf hr
  refine ⟨fun hp => ?occupied, fun hp hproto hshort => ?short, fun front rest hp hproto hring hfront => ?whole⟩
  case occupied => exact nextpkt_onlyReg rd hf hr (State.nextPacket_of_latched hp)
  case short =>
    have hframes : s.Frames s.ring s.ring false none :=
      (State.frames_of_fixed hproto).2 ⟨rfl, rfl, (if_neg (by omega)).symm⟩
    have hnext := State.nextPacket_of_frames (.refl s) hp hframes
    rw [State.afterScan, Bool.or_false] at hnext
    exact nextpkt_onlyReg rd hf hr hnext
  case whole =>
    have hframes : s.Frames s.ring s.ring false (some s.plen.toNat) :=
      (State.frames_of_fixed hproto).2 ⟨rfl, rfl, (if_pos (by simp [hring, hfront])).symm⟩
    have hnext := State.nextPacket_of_frames (.refl s) hp hframes
    rw [State.afterScan, Bool.or_false, hring, ← hfront, List.drop_left, List.take_left] at hnext
    exact nextpkt_onlyReg rd hf hr hnext

/-- Settles O34, by the scan that `next_header` follows. -/
theorem nextpktFramesByHeaderBit : Obligations.NextpktFramesByHeaderBit := by
  intro s rd hf hr hp hproto
  obtain ⟨kept, d, o, hframes, hnext⟩ := State.nextPacket_frames hp
  have hscan := (State.frames_of_isdv4 hproto).1 hframes
  obtain ⟨t, hexec, honly⟩ := nextpkt_onlyReg rd hf hr hnext
  exact ⟨kept, d, o, t, hscan, fun _ _ _ => hscan.unique, hexec, honly⟩

/-! ### Framing before and after a byte comes (R310, R311) -/

/-- A scan that finds no packet may be made before the next byte comes: what it discards is discarded anyway, and what
it keeps is scanned again. -/
theorem HeaderScan.append {s : State} {ring kept kept' : List Byte} {d d' : Bool} {o o' : Option Nat} {b : Byte}
    (h : HeaderScan s ring kept d o) (hnone : o = none) (h' : HeaderScan s (kept ++ [b]) kept' d' o') :
    HeaderScan s (ring ++ [b]) kept' (d || d') o' := by
  induction h with
  | empty => exact h'
  | garbage b0 rest kept d o hb _ ih => exact .garbage b0 _ _ _ _ hb (ih hnone h')
  | truncated b0 rest kept len k d o hb hlen hk hklen hheader hbody _ ih =>
    obtain ⟨c, hc, hcheader⟩ := hheader
    obtain ⟨hkring, -⟩ := List.getElem?_eq_some_iff.1 hc
    have hleft : ∀ j, j ≤ k → (b0 :: (rest ++ [b]))[j]? = (b0 :: rest)[j]? := fun j hj =>
      List.getElem?_append_left (l₂ := [b]) (hj.trans_lt hkring)
    refine .truncated b0 _ _ len k (d || d') _ hb hlen hk hklen ⟨c, (hleft k le_rfl).trans hc, hcheader⟩
      (fun j x hj hjk hx => hbody j x hj hjk ((hleft j hjk.le).symm.trans hx)) ?_
    have hdrop : ((b0 :: rest) ++ [b]).drop k = (b0 :: rest).drop k ++ [b] :=
      List.drop_append_of_le_length hkring.le
    exact hdrop ▸ ih hnone h'
  | short => exact h'
  | whole => cases hnone

theorem State.Frames.append {s : State} {ring kept kept' : List Byte} {d d' : Bool} {o' : Option Nat} {b : Byte}
    (h : s.Frames ring kept d none) (h' : s.Frames (kept ++ [b]) kept' d' o') :
    s.Frames (ring ++ [b]) kept' (d || d') o' := by
  by_cases hp : s.proto = .isdv4
  · rw [State.frames_of_isdv4 hp] at h h' ⊢
    exact h.append rfl h'
  · rw [State.frames_of_fixed hp] at h
    obtain ⟨rfl, rfl, -⟩ := h
    exact h'

/-! ### What framing does not read -/

/-- `s` with the bytes `ring` in the ring. -/
def State.withRing (s : State) (ring : List Byte) : State := { s with ring := ring }

/-- `s` with `ERR_FRAMING` set too where `d` holds. -/
def State.orErrFraming (s : State) (d : Bool) : State :=
  { s with status := { s.status with errFraming := s.status.errFraming || d } }

theorem SameFraming.withRing (s : State) (ring : List Byte) : SameFraming s (s.withRing ring) :=
  ⟨rfl, rfl, rfl, rfl⟩

theorem SameFraming.orErrFraming (s : State) (d : Bool) : SameFraming s (s.orErrFraming d) :=
  ⟨rfl, rfl, rfl, rfl⟩

theorem SameFraming.setReg (s : State) (i : RegNum) (v : Word) : SameFraming s (s.setReg i v) :=
  ⟨rfl, rfl, rfl, rfl⟩

section Scan
variable (s : State) (kept : List Byte) (d d' : Bool) (o : Option Nat)

theorem State.afterScan_withRing (ring : List Byte) :
    (s.withRing ring).afterScan kept d o = s.afterScan kept d o := by
  cases o <;> rfl

theorem State.afterScan_setReg (i : RegNum) (v : Word) :
    (s.setReg i v).afterScan kept d o = (s.afterScan kept d o).setReg i v := by
  cases o <;> rfl

theorem State.afterScan_orErrFraming :
    (s.orErrFraming d').afterScan kept d o = (s.afterScan kept d o).orErrFraming d' := by
  cases o <;> simp [State.afterScan, State.orErrFraming, Bool.or_right_comm]

theorem State.afterScan_or : s.afterScan kept (d' || d) o = (s.afterScan kept d o).orErrFraming d' := by
  cases o <;> simp [State.afterScan, State.orErrFraming, Bool.or_comm, Bool.or_left_comm]

end Scan

/-- `next_packet` neither reads the operand registers nor writes them. -/
theorem State.nextPacket_setReg (s : State) (i : RegNum) (v : Word) :
    (s.setReg i v).nextPacket = (s.nextPacket.1.setReg i v, s.nextPacket.2) := by
  cases hp : s.status.pktValid with
  | true => rw [State.nextPacket_of_latched hp, State.nextPacket_of_latched (s := s.setReg i v) hp]
  | false =>
    obtain ⟨kept, d, o, hframes, hnext⟩ := State.nextPacket_frames hp
    rw [hnext, State.nextPacket_of_frames (.setReg s i v) hp hframes,
      State.afterScan_setReg]

/-- `next_packet` neither reads `ERR_FRAMING` nor clears it. -/
theorem State.nextPacket_orErrFraming (s : State) (d : Bool) :
    (s.orErrFraming d).nextPacket = (s.nextPacket.1.orErrFraming d, s.nextPacket.2) := by
  cases hp : s.status.pktValid with
  | true => rw [State.nextPacket_of_latched hp, State.nextPacket_of_latched (s := s.orErrFraming d) hp]
  | false =>
    obtain ⟨kept, d', o, hframes, hnext⟩ := State.nextPacket_frames hp
    rw [hnext, State.nextPacket_of_frames (.orErrFraming s d) hp hframes,
      State.afterScan_orErrFraming]

theorem State.setReg_setReg (s : State) (i : RegNum) (v w : Word) : (s.setReg i v).setReg i w = s.setReg i w := by
  simp [State.setReg]

/-- The register that NEXTPKT writes may hold anything before it. -/
theorem execNextpkt_setReg {s : State} (hf : s.status.fault = false) (hr : s.status.run = true) (rd : RegNum)
    (v : Word) : exec (.nextpkt rd) (s.setReg rd v) = exec (.nextpkt rd) s := by
  rw [execNextpkt_eq s rd hf hr, execNextpkt_eq (s.setReg rd v) rd hf hr, State.nextPacket_setReg,
    State.setReg_setReg]

/-! ### Polling (R311) -/

/-- Where no packet is found, a second look after the next byte does what one look after it does. -/
theorem State.nextPacket_append {s : State} {kept : List Byte} {d : Bool} (hp : s.status.pktValid = false)
    (h : s.Frames s.ring kept d none) (b : Byte) :
    ((s.withRing (kept ++ [b])).orErrFraming d).nextPacket = (s.withRing (s.ring ++ [b])).nextPacket := by
  obtain ⟨kept', d', o', h', hnext⟩ := State.nextPacket_frames (s := s.withRing (kept ++ [b])) hp
  have hboth : s.Frames (s.ring ++ [b]) kept' (d || d') o' := h.append (h'.congr (SameFraming.withRing s _).symm)
  rw [State.nextPacket_orErrFraming, hnext,
    State.nextPacket_of_frames (.withRing s (s.ring ++ [b])) hp hboth,
    State.afterScan_or, State.afterScan_withRing, State.afterScan_withRing]

/-- Settles O36: NEXTPKT answers 0 where framing finds no packet, and what framing keeps is scanned again. -/
theorem pollingDoesNotChangeFraming : Obligations.PollingDoesNotChangeFraming := by
  intro s t rd b hf hr hp hroom hexec hzero
  obtain ⟨kept, d, o, hframes, hnext⟩ := State.nextPacket_frames hp
  have ht : t = (s.afterScan kept d o).setReg rd (if o.isSome then 1 else 0) := by
    rw [execNextpkt_eq s rd hf hr, hnext] at hexec
    exact (Host.Outcome.next.inj hexec).symm
  have hnone : o = none := by
    rw [ht, State.reg_setReg_self] at hzero
    cases o with
    | none => rfl
    | some len => cases hzero
  subst hnone ht
  have hroom' : kept.length < s.params.ringSize := hframes.length_le.trans_lt hroom
  have hfeed : exec (.feed b) ((s.afterScan kept d none).setReg rd 0) =
      .next (((s.withRing (kept ++ [b])).orErrFraming d).setReg rd 0) := by
    rw [execFeed_of_run (s := (s.afterScan kept d none).setReg rd 0) hf hr, State.feedByte_of_room hroom']
    rfl
  refine ⟨s.withRing (s.ring ++ [b]), _, _, ?_, hfeed, execNextpkt_eq (s.withRing (s.ring ++ [b])) rd hf hr, ?_⟩
  · rw [execFeed_of_run hf hr, State.feedByte_of_room hroom]
    rfl
  · rw [execNextpkt_setReg (s := (s.withRing (kept ++ [b])).orErrFraming d) hf hr,
      execNextpkt_eq ((s.withRing (kept ++ [b])).orErrFraming d) rd hf hr, State.nextPacket_append hp hframes]

end Sys2Proof.Machine
end

section
/-! PROOF of the statement of 44_frame_synchronizer.md about PUMP: garbage in front of the ring changes nothing but
ERR_FRAMING (R312). DECODE does not read that flag, as each of its phases does not; so the rounds of PUMP after the
first, which discards the garbage, are the same with the flag set. -/

namespace Sys2Proof.Machine

/-! ### DECODE does not read ERR_FRAMING -/

section OrErrFraming
variable (s : State) (d : Bool)

/-! #### What the phases of DECODE read -/

theorem State.find_orErrFraming (serial : Word) : (s.orErrFraming d).find serial = s.find serial := rfl

theorem State.wasHere_orErrFraming (c : Nat) (serial : Word) :
    (s.orErrFraming d).wasHere c serial = s.wasHere c serial := rfl

theorem State.instOf_orErrFraming (c : Option Nat) : (s.orErrFraming d).instOf c = s.instOf c := by
  cases c <;> rfl

theorem State.exitChannel_orErrFraming (c : Option Nat) (serial : Option Word) :
    (s.orErrFraming d).exitChannel c serial = s.exitChannel c serial := by
  cases c <;> cases serial <;> rfl

theorem State.generalChannel_orErrFraming (c : Option Nat) (serial : Option Word) :
    (s.orErrFraming d).generalChannel c serial = s.generalChannel c serial := by
  cases c <;> cases serial <;> rfl

theorem State.classifyIn_orErrFraming (is : List Nat) :
    (s.orErrFraming d).classifyIn is = s.classifyIn is := by
  induction is with
  | nil => rfl
  | cons i is ih =>
    have hhits : (s.orErrFraming d).ruleHits i = s.ruleHits i := rfl
    simp only [State.classifyIn, hhits, ih]

theorem State.extractIn_orErrFraming (layout : Nat) (slots : List Slot) :
    (s.orErrFraming d).extractIn layout slots = s.extractIn layout slots := by
  induction slots with
  | nil => rfl
  | cons slot slots ih =>
    have hbyte : (s.orErrFraming d).slotByte layout slot = s.slotByte layout slot := rfl
    have hread : ∀ fid, (s.orErrFraming d).readField fid = s.readField fid := fun fid =>
      SameField.readField_eq ⟨rfl, fun _ _ => rfl, rfl, fun _ _ _ => rfl⟩
    simp only [State.extractIn, hbyte, hread, ih]

theorem State.extract_orErrFraming (h : Hit) : (s.orErrFraming d).extract h = s.extract h := by
  have hslots : (s.orErrFraming d).slotsOf h = s.slotsOf h := rfl
  have hcheck : (s.orErrFraming d).checkFields h = s.checkFields h := rfl
  simp only [State.extract, hslots, hcheck, State.extractIn_orErrFraming]

/-! #### What the commit leaves -/

theorem State.enterProc_orErrFraming (c : Nat) (serial code : Word) (tool : ToolType) :
    (s.orErrFraming d).enterProc c serial code tool = (s.enterProc c serial code tool).orErrFraming d := rfl

theorem State.emit_orErrFraming (ev : Event) : (s.orErrFraming d).emit ev = (s.emit ev).orErrFraming d := rfl

theorem State.leave_orErrFraming (c : Nat) : (s.orErrFraming d).leave c = (s.leave c).orErrFraming d := rfl

theorem State.dispatch_orErrFraming (c : Nat) (motion : Bool) (v : Fields) :
    (s.orErrFraming d).dispatch c motion v = (s.dispatch c motion v).orErrFraming d := by
  rw [State.dispatch_eq, State.dispatch_eq]
  rfl

theorem State.tagCh_orErrFraming (tag : Word) :
    (s.orErrFraming d).tagCh tag = ((s.tagCh tag).1.orErrFraming d, (s.tagCh tag).2) := by
  rcases s.tagCh_cases tag with ⟨hlt, htag⟩ | ⟨hle, htag⟩ <;> rw [htag]
  · exact tagCh_of_lt hlt
  · exact tagCh_of_le hle

theorem State.arbEnter_orErrFraming (serial : Word) :
    (s.orErrFraming d).arbEnter serial = ((s.arbEnter serial).1.orErrFraming d, (s.arbEnter serial).2) := by
  have hfree : (s.orErrFraming d).lowestFree = s.lowestFree := rfl
  unfold State.arbEnter
  rw [State.find_orErrFraming, hfree]
  cases s.find serial with
  | some c => rfl
  | none => cases s.lowestFree <;> rfl

theorem State.orArb_orErrFraming (serial : Word) (c : Option Nat) :
    (s.orErrFraming d).orArb serial c = ((s.orArb serial c).1.orErrFraming d, (s.orArb serial c).2) := by
  cases c with
  | some c => rfl
  | none => exact s.arbEnter_orErrFraming d serial

theorem State.validType_orErrFraming (code : BitVec 4) :
    (s.orErrFraming d).validType code = ((s.validType code).1.orErrFraming d, (s.validType code).2) := by
  unfold State.validType
  cases ToolType.ofCode code <;> rfl

theorem State.tidmap_orErrFraming (code : Word) :
    (s.orErrFraming d).tidmap code = ((s.tidmap code).1.orErrFraming d, (s.tidmap code).2) := by
  have hentry : (s.orErrFraming d).tidEntry code = s.tidEntry code := rfl
  unfold State.tidmap
  rw [hentry]
  cases s.tidEntry code with
  | some i => exact s.validType_orErrFraming d _
  | none => rfl

theorem State.tselTool_orErrFraming (w : Word) :
    (s.orErrFraming d).tselTool w = ((s.tselTool w).1.orErrFraming d, (s.tselTool w).2) := by
  have hentry : (s.orErrFraming d).tselEntry w.toNat = s.tselEntry w.toNat := rfl
  have heraser : (s.orErrFraming d).hasEraser = s.hasEraser := rfl
  simp only [State.tselTool, hentry, heraser, State.validType_orErrFraming]
  split <;> split <;> rfl

theorem State.sel_orErrFraming (h : Hit) (v : Fields) :
    (s.orErrFraming d).sel h v = ((s.sel h v).1.orErrFraming d, (s.sel h v).2) := by
  unfold State.sel
  cases h.chMode with
  | tag => simp only [State.tagCh_orErrFraming]
  | arb | fixed => rfl

theorem State.leaveTarget_orErrFraming (target : Option Nat) :
    (s.orErrFraming d).leaveTarget target = (s.leaveTarget target).orErrFraming d := by
  cases target with
  | none => rfl
  | some c =>
    have hentry : (s.orErrFraming d).ch c = s.ch c := rfl
    simp only [State.leaveTarget, hentry, State.leave_orErrFraming]
    split <;> rfl

theorem State.dispatchTarget_orErrFraming (v : Fields) (target : Option Nat) :
    (s.orErrFraming d).dispatchTarget v target = (s.dispatchTarget v target).orErrFraming d := by
  cases target with
  | none => rfl
  | some c =>
    have hentry : (s.orErrFraming d).ch c = s.ch c := rfl
    simp only [State.dispatchTarget, hentry, State.dispatch_orErrFraming]
    split <;> rfl

theorem State.commitFlagprox_orErrFraming (h : Hit) (v : Fields) :
    (s.orErrFraming d).commitFlagprox h v = (s.commitFlagprox h v).orErrFraming d := by
  simp only [State.commitFlagprox, State.sel_orErrFraming, State.find_orErrFraming, State.instOf_orErrFraming]
  split
  · exact State.dispatch_orErrFraming _ d _ _ _
  · simp only [State.flagEnter, State.tselTool_orErrFraming, State.orArb_orErrFraming,
      State.enterProc_orErrFraming, State.emit_orErrFraming, State.dispatch_orErrFraming]
  · exact State.leave_orErrFraming _ d _
  · rfl

theorem State.commitEnter_orErrFraming (h : Hit) (v : Fields) :
    (s.orErrFraming d).commitEnter h v = (s.commitEnter h v).orErrFraming d := by
  simp only [State.commitEnter, State.tidmap_orErrFraming, State.sel_orErrFraming, State.orArb_orErrFraming,
    State.enterProc_orErrFraming, State.wasHere_orErrFraming, State.emit_orErrFraming]
  split <;> rfl

theorem State.commitExit_orErrFraming (h : Hit) (v : Fields) :
    (s.orErrFraming d).commitExit h v = (s.commitExit h v).orErrFraming d := by
  rw [State.commitExit_eq, State.commitExit_eq, State.sel_orErrFraming, State.exitChannel_orErrFraming,
    State.leaveTarget_orErrFraming]

theorem State.commitGeneral_orErrFraming (h : Hit) (v : Fields) :
    (s.orErrFraming d).commitGeneral h v = (s.commitGeneral h v).orErrFraming d := by
  rw [State.commitGeneral_eq, State.commitGeneral_eq, State.sel_orErrFraming, State.generalChannel_orErrFraming,
    State.dispatchTarget_orErrFraming]

theorem State.commit_orErrFraming (h : Hit) (v : Fields) :
    (s.orErrFraming d).commit h v = (s.commit h v).orErrFraming d := by
  unfold State.commit
  cases h.kind with
  | ignore | qreply | tqreply => rfl
  | flagprox => exact s.commitFlagprox_orErrFraming d h v
  | enter => exact s.commitEnter_orErrFraming d h v
  | exit => exact s.commitExit_orErrFraming d h v
  | general => exact s.commitGeneral_orErrFraming d h v
  | pad => exact s.dispatch_orErrFraming d _ false v

/-- `decode_one` ends in the same way, with `ERR_FRAMING` set too in the state that it leaves. -/
theorem State.decodeOne_orErrFraming :
    (s.orErrFraming d).decodeOne = s.decodeOne.map fun r => (r.1.orErrFraming d, r.2) := by
  have hvalid : (s.orErrFraming d).status.pktValid = s.status.pktValid := rfl
  have hclassify : (s.orErrFraming d).classify = s.classify := s.classifyIn_orErrFraming d _
  have hhit : ∀ i, (s.orErrFraming d).hitOf i = s.hitOf i := fun _ => rfl
  cases hp : s.status.pktValid with
  | false => rw [State.decodeOne_of_no_packet hp, State.decodeOne_of_no_packet (hvalid.trans hp)]; rfl
  | true =>
    simp only [State.decodeOne, hvalid, hp, if_true, hclassify, hhit, State.extract_orErrFraming,
      State.commit_orErrFraming]
    cases s.classify with
    | error e => rfl
    | ok o =>
      cases o with
      | none => rfl
      | some i =>
        simp only
        cases s.hitOf i with
        | error e => rfl
        | ok hit =>
          simp only
          cases s.extract hit <;> rfl

end OrErrFraming

/-! ### The rounds of PUMP (R276) -/

theorem State.fillPkt_orErrFraming (s : State) (d : Bool) :
    (s.orErrFraming d).fillPkt = s.fillPkt.orErrFraming d := by
  rw [State.fillPkt_eq, State.fillPkt_eq, State.nextPacket_orErrFraming]

/-- Two states that the fetch of a round makes equal but for `ERR_FRAMING` stay so to the end of the loop, if the
rounds after it keep such states so. -/
theorem pumpLoop_round_orErrFraming {k : Nat} {d : Bool} (hrest : ∀ (n : Nat) (u : State),
      State.pumpLoop k n (u.orErrFraming d) = ((State.pumpLoop k n u).1.orErrFraming d, (State.pumpLoop k n u).2))
    (n : Nat) {s t : State} (h : t.fillPkt = s.fillPkt.orErrFraming d) :
    State.pumpLoop (k + 1) n t =
      ((State.pumpLoop (k + 1) n s).1.orErrFraming d, (State.pumpLoop (k + 1) n s).2) := by
  have hvalid : t.fillPkt.status.pktValid = s.fillPkt.status.pktValid := by rw [h]; rfl
  have hdecode := s.fillPkt.decodeOne_orErrFraming d
  rw [← h] at hdecode
  cases hp : s.fillPkt.status.pktValid with
  | false => rw [State.pumpLoop_of_no_packet k n hp, State.pumpLoop_of_no_packet k n (hvalid.trans hp), h]
  | true =>
    cases hd : s.fillPkt.decodeOne with
    | error e =>
      rw [hd] at hdecode
      rw [State.pumpLoop_of_fault k n hp hd, State.pumpLoop_of_fault k n (hvalid.trans hp) hdecode, h]
    | ok r =>
      rw [hd] at hdecode
      rw [State.pumpLoop_of_packet k n hp hd, State.pumpLoop_of_packet k n (hvalid.trans hp) hdecode]
      exact hrest (n + 1) r.1

theorem pumpLoop_orErrFraming (d : Bool) (k n : Nat) (s : State) :
    State.pumpLoop k n (s.orErrFraming d) =
      ((State.pumpLoop k n s).1.orErrFraming d, (State.pumpLoop k n s).2) := by
  induction k generalizing n s with
  | zero => rfl
  | succ k ih => exact pumpLoop_round_orErrFraming ih n (s.fillPkt_orErrFraming d)

/-- PUMP ends in the same way, with a fault or with the count in `rd`. -/
theorem finish_orErrFraming (s : State) (d : Bool) (rd : RegNum) (r : Except Raise Nat) :
    finish (s.orErrFraming d) rd (r.map fun n => (s.orErrFraming d, word n)) =
      (finish s rd (r.map fun n => (s, word n))).orErrFraming d := by
  cases r <;> rfl

/-- Rounds past the packet in PKT and the bytes in the ring do nothing. -/
theorem pumpLoop_rounds {k k' : Nat} (n : Nat) {s : State} (hs : Pumps s)
    (hk : s.ring.length + s.status.pktValid.toNat < k) (hle : k ≤ k') :
    State.pumpLoop k' n s = State.pumpLoop k n s := by
  induction k generalizing k' n s with
  | zero => omega
  | succ k ih =>
    obtain ⟨j, rfl⟩ : ∃ j, k' = j + 1 := ⟨k' - 1, by omega⟩
    cases hp : s.fillPkt.status.pktValid with
    | false => rw [State.pumpLoop_of_no_packet _ n hp, State.pumpLoop_of_no_packet _ n hp]
    | true =>
      cases hd : s.fillPkt.decodeOne with
      | error e => rw [State.pumpLoop_of_fault _ n hp hd, State.pumpLoop_of_fault _ n hp hd]
      | ok r =>
        obtain ⟨t, w⟩ := r
        obtain ⟨-, hring, hnone⟩ := State.decodeOne_consumes hd hp
        have hfill : Pumps s.fillPkt := hs.of_keepsControl (Fetches.fillPkt s).keepsControl
        have ht : Pumps t :=
          hfill.of_keepsControl (PacketStep.decode (decodes := True) trivial hd).keepsControl
        have hlt := State.fillPkt_ring_lt hs hp
        rw [State.pumpLoop_of_packet _ n hp hd, State.pumpLoop_of_packet _ n hp hd]
        exact ih (n + 1) ht (by rw [hring, hnone, Bool.toNat_false]; omega) (by omega)

/-! ### Garbage in front of the ring (R306, R312) -/

theorem HeaderScan.garbage_append {s : State} {garbage clean kept : List Byte} {d : Bool} {o : Option Nat}
    (hg : ∀ b, b ∈ garbage → ¬ s.IsHeader b) (h : HeaderScan s clean kept d o) :
    HeaderScan s (garbage ++ clean) kept (!garbage.isEmpty || d) o := by
  induction garbage with
  | nil => exact h
  | cons b rest ih =>
    exact .garbage b _ _ _ _ (hg b List.mem_cons_self) (ih fun c hc => hg c (List.mem_cons_of_mem b hc))

/-- The first fetch discards the garbage. -/
theorem State.fillPkt_garbage {s : State} {garbage clean : List Byte} (hp : s.status.pktValid = false)
    (hproto : s.proto = .isdv4) (hring : s.ring = garbage ++ clean) (hg : ∀ b, b ∈ garbage → ¬ s.IsHeader b) :
    s.fillPkt = (s.withRing clean).fillPkt.orErrFraming (!garbage.isEmpty) := by
  obtain ⟨kept, d, o, hframes, hnext⟩ := State.nextPacket_frames (s := s.withRing clean) hp
  have hscan : HeaderScan s clean kept d o :=
    (State.frames_of_isdv4 hproto).1 (hframes.congr (SameFraming.withRing s clean).symm)
  have hwhole : s.Frames s.ring kept (!garbage.isEmpty || d) o :=
    (State.frames_of_isdv4 hproto).2 (hring ▸ hscan.garbage_append hg)
  rw [State.fillPkt_eq, State.fillPkt_eq, hnext, State.nextPacket_of_frames (.refl s) hp hwhole, State.afterScan_or,
    State.afterScan_withRing]

/-- Settles O35: from the first fetch on the two states are equal but for `ERR_FRAMING`, and the rounds that PUMP
allows itself for the garbage do nothing. -/
theorem garbageBeforeAHeaderIsTransparent : Obligations.GarbageBeforeAHeaderIsTransparent := by
  intro s rd garbage clean hlegal hf hr hp hproto hring hg
  have hclean : Pumps (s.withRing clean) := ⟨hlegal.of_eq rfl rfl rfl rfl rfl rfl rfl rfl, hf, hr⟩
  have hlength : s.ring.length = garbage.length + clean.length := by rw [hring, List.length_append]
  have hbytes : (s.withRing clean).ring.length + (s.withRing clean).status.pktValid.toNat < clean.length + 2 := by
    show clean.length + s.status.pktValid.toNat < _
    rw [hp, Bool.toNat_false]
    omega
  have hloop := pumpLoop_round_orErrFraming (pumpLoop_orErrFraming _ (s.ring.length + 1)) 0
    (State.fillPkt_garbage hp hproto hring hg)
  rw [pumpLoop_rounds 0 hclean hbytes (by omega)] at hloop
  refine ⟨_, _, execPump_eq hf hr rd, execPump_eq (s := s.withRing clean) hf hr rd, ?_⟩
  rw [hloop]
  exact finish_orErrFraming _ _ rd _

end Sys2Proof.Machine
end

section
/-! PROOFS of the statements of 45_system_ops.md, first part: every step keeps the profile registers legal (R335, R338).
`MTSR` writes legal values only, and in CONFIG alone; `INIT` enters RUN only with what R338 asks for; no other
command touches a register that legality speaks of. -/

namespace Sys2Proof.Machine

/-! ### INIT (45_system_ops.md R338) -/

/-- `INIT` is refused without a packet length, or for ISDV4 without a header mask. -/
theorem State.initRefused_iff (s : State) :
    s.initRefused = true ↔ s.plen = 0 ∨ (s.proto = .isdv4 ∧ s.hdrmask = 0) := by
  simp [State.initRefused]

/-- `INIT` is ignored, or refused, or starts a session. -/
theorem execInit_eq (s : State) :
    exec .init s = .next (if s.status.fault then s else
      if s.initRefused then refuse s else s.initSession) :=
  inAnyState_eq s fun s => if s.initRefused then refuse s else s.initSession

/-! ### Legality under the single updates -/

section Legal
variable {s t : State}

theorem Commits.keepsControl (h : Commits s t) : KeepsControl s t :=
  ⟨h.keepsProfile, h.faultRecord, h.run⟩

theorem Quiet.profileLegal (hq : Quiet s t) (h : ProfileLegal s) : ProfileLegal t := by
  cases hq with
  | mk _ _ _ _ hrun => exact h.of_eq rfl rfl rfl rfl rfl rfl rfl hrun

theorem ProfileLegal.memWrite {sp : Space} {i : Nat} {v : Word} (h : ProfileLegal s)
    (hw : s.memWrite sp i v = some t) : ProfileLegal t := by
  rcases State.memWrite_cases hw with ⟨_, rfl⟩ | ⟨_, rfl⟩ | ⟨_, rfl⟩ | ⟨_, rfl⟩ <;>
    exact h.of_eq rfl rfl rfl rfl rfl rfl rfl rfl

/-- In CONFIG the conditions on a running session are void. -/
theorem ProfileLegal.halt (h : ProfileLegal s) :
    ProfileLegal { s with status := { s.status with run := false } } :=
  { h with run_plen := nofun, run_hdrmask := nofun }

/-- A session is started only with a packet length and, for ISDV4, a header mask. -/
theorem ProfileLegal.initSession (h : ProfileLegal s) (hok : s.initRefused = false) :
    ProfileLegal s.initSession := by
  rw [← Bool.not_eq_true, State.initRefused_iff, not_or, not_and] at hok
  obtain ⟨hplen, hmask⟩ := hok
  exact { h with
    run_plen := fun _ => Nat.pos_of_ne_zero fun h0 => hplen (BitVec.eq_of_toNat_eq h0)
    run_hdrmask := fun _ => hmask }

theorem State.hasPad_toNat (s : State) : s.hasPad.toNat = if s.hasPad then 1 else 0 := by
  cases s.hasPad <;> rfl

/-- Writing a CFG register in CONFIG leaves the profile legal: the value was checked (R335). -/
theorem ProfileLegal.writeCfg {r : SysReg} {v : Word} (h : ProfileLegal s) (hrun : s.status.run = false)
    (hw : s.writeCfg r v = some t) : ProfileLegal t := by
  have hmax := h.params.nchMax_le
  have hstays : ¬ s.status.run = true := by simp [hrun]
  cases r
  case proto =>
    obtain ⟨_, _, rfl⟩ := Option.map_eq_some_iff.1 hw
    exact { h with run_hdrmask := fun hr => absurd hr hstays }
  case plen =>
    obtain ⟨⟨_, hle⟩, hw⟩ := Option.ite_none_right_eq_some.1 hw
    cases hw
    exact { h with
      plen_le := (BitVec.toNat_setWidth 8 v).trans_le ((Nat.mod_le _ _).trans hle)
      run_plen := fun hr => absurd hr hstays }
  case nch =>
    obtain ⟨⟨hpos, hle⟩, hw⟩ := Option.ite_none_right_eq_some.1 hw
    cases hw
    have hnch : (v.setWidth 7).toNat = v.toNat := by rw [BitVec.toNat_setWidth]; omega
    rw [State.hasPad_toNat] at hle
    exact { h with
      nch_pos := hpos.trans_eq hnch.symm
      nch_le := (congrArg (· + _) hnch).trans_le hle }
  case caps =>
    obtain ⟨⟨_, hpad⟩, hw⟩ := Option.ite_none_right_eq_some.1 hw
    cases hw
    have hle := h.nch_le
    refine { h with nch_le := ?_ }
    simp only [State.hasPad, BitVec.getLsbD_setWidth]
    split
    · next hset => exact hpad (by simpa using hset)
    · omega
  case hdrmask =>
    obtain ⟨_, hw⟩ := Option.ite_none_right_eq_some.1 hw
    cases hw
    exact { h with run_hdrmask := fun hr => absurd hr hstays }
  case lsel j =>
    obtain ⟨hv, hw⟩ := Option.ite_none_right_eq_some.1 hw
    cases hw
    refine { h with lsel_ok := fun k => ?_ }
    by_cases hk : j = k
    · subst hk; simpa using hv
    · simpa [Vector.getElem_set_ne _ _ (Fin.val_ne_of_ne hk)] using h.lsel_ok k
  all_goals cases hw <;> exact h.of_eq rfl rfl rfl rfl rfl rfl rfl rfl

/-- Every effect of a command other than `INIT` keeps the profile legal. -/
theorem Effect.profileLegal {o : Option Instr} (hinit : o ≠ some .init) (he : Effect o s t)
    (h : ProfileLegal s) : ProfileLegal t := by
  induction he with
  | none => exact h
  | config _ _ hrun hw => exact h.writeCfg hrun hw
  | table _ _ hw => exact h.memWrite hw
  | build | feed => exact h.of_eq rfl rfl rfl rfl rfl rfl rfl rfl
  | init ho => exact absurd ho hinit
  | halt => exact h.halt
  | enter serial code _ => exact h.of_keepsControl (Commits.enterTool s serial code).keepsControl
  | exit serial _ => exact h.of_keepsControl (Commits.exitTool s serial).keepsControl
  | packets _ hp => exact h.of_keepsControl hp.keepsControl
  | quiet _ hq ih => exact hq.profileLegal ih
  | fault _ _ ih => exact ih.of_eq rfl rfl rfl rfl rfl rfl rfl rfl

/-- `INIT` keeps the profile legal: ignored, refused, or with what R338 asks for. -/
theorem ProfileLegal.execInit (h : ProfileLegal s) (hx : exec .init s = .next t) : ProfileLegal t := by
  rw [execInit_eq] at hx
  cases hx
  split
  · exact h
  · split
    · exact (Quiet.refuse s).profileLegal h
    · next hok => exact h.initSession (by simpa using hok)

end Legal

/-- Settles O55, by what a step can do; `INIT`, whose effect does not say why it was not refused, on its own. -/
theorem stepsKeepTheProfileLegal : Obligations.StepsKeepTheProfileLegal := by
  intro s t hl h
  rcases step_cases h with rfl | ⟨x, rest, rfl⟩ | ⟨w, rest, hin, heffect⟩
  · exact hl
  · exact (profileLegal_afterReset x hl.params).of_eq rfl rfl rfl rfl rfl rfl rfl rfl
  · have hl' := hl.input rest
    by_cases hinit : decode w = .ok .init
    · rw [step_of_command hin, commandStep_of_ok hinit] at h
      exact hl'.execInit h
    · refine heffect.profileLegal (fun ho => hinit ?_) hl'
      cases hd : decode w with
      | error _ => rw [hd] at ho; cases ho
      | ok i => rw [hd] at ho; cases ho; rfl

end Sys2Proof.Machine
end

section
/-! PROOFS of the statements of 45_system_ops.md, second part: the constants (R330 to R332), and the system registers that
`MFSR` reads and `MTSR` writes (R333 to R335). The registers and their numbers are matched once, in `sysRegs_mem_iff`. -/

namespace Sys2Proof.Machine

/-! ### NOP, LI and LUI (R330 to R332) -/

theorem zeroExtended_eq_word (imm : BitVec 16) : imm.setWidth 32 = word imm.toNat := by simp

/-- The word that `LUI` writes: the immediate above the lower half of the old word. -/
theorem append_lowHalf_eq_word (imm : BitVec 16) (w : Word) :
    imm ++ w.extractLsb' 0 16 = word (imm.toNat * 2 ^ 16 + w.toNat % 2 ^ 16) := by
  have himm := imm.isLt
  apply BitVec.eq_of_toNat_eq
  rw [toNat_append_add, lowBits_toNat, BitVec.toNat_ofNat]
  omega

theorem execLi_eq (s : State) (rd : RegNum) (imm : BitVec 16) :
    exec (.li rd imm) s = .next (s.setReg rd (word imm.toNat)) := by
  rw [← zeroExtended_eq_word]
  rfl

theorem execLui_eq (s : State) (rd : RegNum) (imm : BitVec 16) :
    exec (.lui rd imm) s = .next (s.setReg rd (word (imm.toNat * 2 ^ 16 + (s.reg rd).toNat % 2 ^ 16))) := by
  rw [← append_lowHalf_eq_word]
  rfl

/-- Of two writes of one register the second remains. -/
theorem OnlyReg.setReg_setReg (s : State) (rd : RegNum) (v w : Word) :
    OnlyReg s rd w ((s.setReg rd v).setReg rd w) := by
  rw [State.setReg_setReg]
  exact .setReg s rd w

/-- Settles O11: each command writes its register, and the lower half of what `LI` wrote is the immediate. -/
theorem constantsLoad : Obligations.ConstantsLoad := by
  intro s rd lo hi
  have hlow : ((s.setReg rd (word lo.toNat)).reg rd).toNat % 2 ^ 16 = lo.toNat := by
    have hlt := lo.isLt
    rw [State.reg_setReg_self, BitVec.toNat_ofNat]
    omega
  refine ⟨rfl, ⟨_, execLi_eq s rd lo, .setReg s rd _, _, execLui_eq _ rd hi, ?_⟩,
    ⟨_, execLui_eq s rd hi, .setReg s rd _, _, execLi_eq _ rd lo, .setReg_setReg s rd _ _⟩⟩
  rw [hlow]
  exact .setReg_setReg s rd _ _

/-! ### The numbers of the system registers (10_state.md R30) -/

/-- The number of a system register, in the first column of R30's table. -/
def SysReg.num : SysReg → Nat
  | .id => 0x00 | .status => 0x01 | .fcause => 0x02 | .finfo => 0x03
  | .proto => 0x04 | .plen => 0x05 | .nch => 0x06 | .caps => 0x07
  | .hdrmask => 0x08 | .tselmap => 0x09 | .lsel j => 0x0A + j.val
  | .xmax => 0x10 | .ymax => 0x11 | .pmax => 0x12 | .txmax => 0x13
  | .tymax => 0x14 | .dmax => 0x15 | .version => 0x16
  | .pktcnt => 0x18 | .evcnt => 0x19 | .lastch => 0x1A | .ringfill => 0x1B
  | .pktlen => 0x1C

/-- The system registers by rising number. -/
def SysReg.all : List SysReg :=
  [.id, .status, .fcause, .finfo, .proto, .plen, .nch, .caps, .hdrmask, .tselmap, .lsel 0, .lsel 1,
    .lsel 2, .lsel 3, .xmax, .ymax, .pmax, .txmax, .tymax, .dmax, .version, .pktcnt, .evcnt, .lastch,
    .ringfill, .pktlen]

theorem SysReg.mem_all (r : SysReg) : r ∈ SysReg.all := by
  cases r
  case lsel j => fin_cases j <;> decide
  all_goals decide

theorem SysReg.ofNum_eq_some_iff {n : BitVec 16} {r : SysReg} :
    SysReg.ofNum n = some r ↔ r.num = n.toNat := by
  constructor
  · intro h
    unfold SysReg.ofNum at h
    split at h <;> cases h <;> simp only [*] <;> rfl
  · intro h
    unfold SysReg.ofNum
    rw [← h]
    cases r
    case lsel j => fin_cases j <;> rfl
    all_goals rfl

/-- R30's table lists each register with its number and with what `MFSR` reads of it. -/
theorem State.sysRegs_mem_iff {s : State} {n : Nat} {v : Word} :
    (n, v) ∈ s.sysRegs ↔ ∃ r : SysReg, r.num = n ∧ s.readSys r = v := by
  have hlist : s.sysRegs = SysReg.all.map fun r => (r.num, s.readSys r) := by
    simp [State.sysRegs, SysReg.all, SysReg.num, State.readSys]
  simp [hlist, SysReg.mem_all]

/-! ### MFSR (R333) -/

theorem execMfsr_of_some {sr : BitVec 16} {r : SysReg} (h : SysReg.ofNum sr = some r) (s : State)
    (rd : RegNum) : exec (.mfsr rd sr) s = .next (s.setReg rd (s.readSys r)) := by
  show execMfsr rd sr s = _
  simp only [execMfsr, h]

theorem execMfsr_of_none {sr : BitVec 16} (h : SysReg.ofNum sr = none) (s : State) (rd : RegNum) :
    exec (.mfsr rd sr) s = .next (s.setErrCmd.setReg rd 0) := by
  show execMfsr rd sr s = _
  simp only [execMfsr, h]

/-- Settles O12, by the register that the number names, if any; the codes are finite tables. -/
theorem mfsrReadsEverySystemRegister : Obligations.MfsrReadsEverySystemRegister := by
  intro s rd sr
  refine ⟨fun v hv => ?_, fun hno => ?_, by decide, by decide, by decide⟩
  · obtain ⟨r, hnum, rfl⟩ := State.sysRegs_mem_iff.1 hv
    exact ⟨_, execMfsr_of_some (SysReg.ofNum_eq_some_iff.2 hnum) s rd, .setReg s rd _⟩
  · cases hr : SysReg.ofNum sr with
    | none => exact ⟨_, execMfsr_of_none hr s rd, .setReg s.setErrCmd rd 0⟩
    | some r => exact absurd (State.sysRegs_mem_iff.2 ⟨r, SysReg.ofNum_eq_some_iff.1 hr, rfl⟩) (hno _)

/-! ### The legal values of a CFG register (R335) -/

theorem Proto.ofCode_eq_some_iff {v : Word} {p : Proto} : Proto.ofCode v = some p ↔ p.code = v := by
  constructor
  · intro h
    apply BitVec.eq_of_toNat_eq
    unfold Proto.ofCode at h
    split at h <;> cases h <;> simp only [*] <;> rfl
  · rintro rfl
    cases p <;> rfl

theorem Proto.ofCode_isSome_iff {v : Word} : (Proto.ofCode v).isSome = true ↔ v.toNat ≤ 5 := by
  constructor
  · intro h
    obtain ⟨p, hp⟩ := Option.isSome_iff_exists.1 h
    rw [← Proto.ofCode_eq_some_iff.1 hp]
    cases p <;> decide
  · intro h
    interval_cases hv : v.toNat <;> simp [Proto.ofCode, hv]

theorem legalLsel_iff (p : Params) (v : Word) : legalLsel p v = true ↔
    v.toNat / 2 ^ 24 % 128 = 0 ∧ (2 ^ 31 ≤ v.toNat → 1 ≤ v.toNat % 256 ∧ v.toNat % 256 ≤ p.pktMax) := by
  have hzero : v.extractLsb' 24 7 = 0 ↔ v.toNat / 2 ^ 24 % 128 = 0 := by
    rw [← BitVec.toNat_inj, extractLsb'_toNat_eq]
    rfl
  simp only [legalLsel, Bool.and_eq_true, beq_iff_eq, hzero, Bool.or_eq_true, Bool.not_eq_true',
    decide_eq_true_eq, validBit_eq_false, lselLen_eq]
  omega

theorem getLsbD_three_iff {v : Word} (h : v.toNat ≤ 15) : v.getLsbD 3 = true ↔ 8 ≤ v.toNat := by
  rw [← BitVec.testBit_toNat, Nat.testBit_eq_decide_div_mod_eq, decide_eq_true_eq]
  omega

section Config
variable {s t : State} {r : SysReg} {v : Word}

/-- A CFG register takes exactly the values of R335, and no other register takes any. -/
theorem State.writeCfg_isSome_iff : (s.writeCfg r v).isSome = true ↔ s.cfgLegal r.num v.toNat := by
  cases r
  case proto => simp [State.writeCfg, State.cfgLegal, SysReg.num, Proto.ofCode_isSome_iff]
  case nch => simp [State.writeCfg, State.cfgLegal, SysReg.num, State.hasPad_toNat]
  case caps =>
    simp only [State.writeCfg, State.cfgLegal, SysReg.num, Option.isSome_ite]
    constructor
    · rintro ⟨hle, hpad⟩
      exact .inr (.inr (.inr (.inl ⟨trivial, hle, fun h => hpad ((getLsbD_three_iff hle).2 h)⟩)))
    · intro h
      obtain ⟨hle, hpad⟩ : v.toNat ≤ 15 ∧ (8 ≤ v.toNat → s.nch.toNat + 1 ≤ s.params.nchMax) := by
        simpa using h
      exact ⟨hle, fun h => hpad ((getLsbD_three_iff hle).1 h)⟩
  case lsel j =>
    have hj := j.isLt
    simp only [State.writeCfg, State.cfgLegal, SysReg.num, Option.isSome_ite, legalLsel_iff]
    omega
  all_goals simp [State.writeCfg, State.cfgLegal, SysReg.num]

/-- Only a register that R30 lists has legal values. -/
theorem State.cfgLegal.exists_sysReg {n m : Nat} (h : s.cfgLegal n m) : ∃ r : SysReg, r.num = n := by
  rcases h with ⟨rfl, _⟩ | ⟨rfl, _⟩ | ⟨rfl, _⟩ | ⟨rfl, _⟩ | ⟨rfl, _⟩ | rfl | ⟨hlo, hhi, _⟩ | ⟨hlo, hhi⟩
  · exact ⟨.proto, rfl⟩
  · exact ⟨.plen, rfl⟩
  · exact ⟨.nch, rfl⟩
  · exact ⟨.caps, rfl⟩
  · exact ⟨.hdrmask, rfl⟩
  · exact ⟨.tselmap, rfl⟩
  · exact ⟨.lsel ⟨n - 0x0A, by omega⟩, by simp only [SysReg.num]; omega⟩
  · interval_cases n
    exacts [⟨.xmax, rfl⟩, ⟨.ymax, rfl⟩, ⟨.pmax, rfl⟩, ⟨.txmax, rfl⟩, ⟨.tymax, rfl⟩, ⟨.dmax, rfl⟩,
      ⟨.version, rfl⟩]

/-! ### What a CFG register reads after it is written (R334) -/

/-- The register written reads the value: every legal value fits its width (R36 to R39). -/
theorem State.readSys_writeCfg_self (hp : s.params.Wf) (hw : s.writeCfg r v = some t) :
    t.readSys r = v := by
  have hfits : ∀ n, v.toNat < 2 ^ n → (v.setWidth n).setWidth 32 = v := fun n hv => by
    apply BitVec.eq_of_toNat_eq
    rw [BitVec.toNat_setWidth, BitVec.toNat_setWidth, Nat.mod_eq_of_lt hv, Nat.mod_eq_of_lt v.isLt]
  have hnch := hp.nchMax_le
  have hpkt := hp.pktMax_le
  cases r
  case proto =>
    obtain ⟨p, hcode, rfl⟩ := Option.map_eq_some_iff.1 hw
    exact Proto.ofCode_eq_some_iff.1 hcode
  case plen | nch | caps | hdrmask =>
    obtain ⟨hv, hw⟩ := Option.ite_none_right_eq_some.1 hw
    cases hw
    exact hfits _ (by omega)
  case lsel j =>
    obtain ⟨_, hw⟩ := Option.ite_none_right_eq_some.1 hw
    cases hw
    simp [State.readSys]
  all_goals cases hw <;> rfl

/-- Every other register reads as before. -/
theorem State.readSys_writeCfg_of_ne {r' : SysReg} (hne : r' ≠ r) (hw : s.writeCfg r v = some t) :
    t.readSys r' = s.readSys r' := by
  cases r
  case proto =>
    obtain ⟨_, _, rfl⟩ := Option.map_eq_some_iff.1 hw
    cases r' <;> simp [State.readSys] at hne ⊢
  case lsel j =>
    obtain ⟨_, hw⟩ := Option.ite_none_right_eq_some.1 hw
    cases hw
    cases r'
    case lsel k =>
      have hjk : j.val ≠ k.val := fun h => hne (congrArg _ (Fin.ext h.symm))
      exact Vector.getElem_set_ne j.isLt k.isLt hjk
    all_goals rfl
  case plen | nch | caps | hdrmask =>
    obtain ⟨_, hw⟩ := Option.ite_none_right_eq_some.1 hw
    cases hw
    cases r' <;> simp [State.readSys] at hne ⊢
  all_goals
    cases hw <;> cases r' <;> simp [State.readSys] at hne ⊢

end Config

/-! ### MTSR (R334) -/

theorem execMtsr_eq (s : State) (sr : BitVec 16) (rs1 : RegNum) :
    exec (.mtsr sr rs1) s = .next (if s.status.fault then s else s.mtsr sr (s.reg rs1)) :=
  inAnyState_eq s fun s => s.mtsr sr (s.reg rs1)

section Mtsr
variable {s t : State} {sr : BitVec 16} {v : Word}

/-- In CONFIG `MTSR` writes the register that the number names, if it takes the value, and else is refused. -/
theorem State.mtsr_of_config (hrun : s.status.run = false) (hsr : sr ≠ 0x01) :
    s.mtsr sr v = ((SysReg.ofNum sr).bind fun r => s.writeCfg r v).getD (refuse s) := by
  unfold State.mtsr
  split
  · next h => exact absurd (SysReg.ofNum_eq_status h) hsr
  · next r _ h => simp [h, hrun]
  · next h => simp [h]

/-- A legal value of a CFG register is written there. -/
theorem State.mtsr_of_legal (hrun : s.status.run = false) (hsr : sr ≠ 0x01)
    (hlegal : s.cfgLegal sr.toNat v.toNat) :
    ∃ r, SysReg.ofNum sr = some r ∧ s.writeCfg r v = some (s.mtsr sr v) := by
  obtain ⟨r, hnum⟩ := hlegal.exists_sysReg
  have hr := SysReg.ofNum_eq_some_iff.2 hnum
  rw [← hnum, ← State.writeCfg_isSome_iff, Option.isSome_iff_exists] at hlegal
  obtain ⟨t, hw⟩ := hlegal
  exact ⟨r, hr, by simp [State.mtsr_of_config hrun hsr, hr, hw]⟩

/-- Every other value, and every other number but that of `STATUS`, is refused. -/
theorem State.mtsr_of_illegal (hsr : sr ≠ 0x01)
    (h : s.status.run = true ∨ ¬ s.cfgLegal sr.toNat v.toNat) : s.mtsr sr v = refuse s := by
  cases hrun : s.status.run with
  | true => exact mtsr_of_run hrun hsr v
  | false =>
    have hlegal := h.resolve_left (by simp [hrun])
    rw [State.mtsr_of_config hrun hsr]
    cases hr : SysReg.ofNum sr with
    | none => rfl
    | some r =>
      rw [← SysReg.ofNum_eq_some_iff.1 hr, ← State.writeCfg_isSome_iff, Option.not_isSome_iff_eq_none]
        at hlegal
      simp [hlegal]

/-- R30's table after a CFG register is written: the new value under its number, all else as before. -/
theorem State.sysRegs_writeCfg {r : SysReg} (hp : s.params.Wf) (hr : SysReg.ofNum sr = some r)
    (hw : s.writeCfg r v = some t) (n : Nat) (u : Word) :
    (n, u) ∈ t.sysRegs ↔ if n = sr.toNat then u = v else (n, u) ∈ s.sysRegs := by
  have hnum : ∀ r' : SysReg, r'.num = sr.toNat ↔ r' = r := fun r' => by
    rw [← SysReg.ofNum_eq_some_iff, hr, Option.some_inj, eq_comm]
  simp only [State.sysRegs_mem_iff]
  split
  · next hn =>
    subst hn
    simp [hnum, State.readSys_writeCfg_self hp hw, eq_comm]
  · next hn =>
    refine exists_congr fun r' => and_congr_right fun hr' => ?_
    have hne : r' ≠ r := fun h => hn (by rw [← hr', (hnum r').2 h])
    rw [State.readSys_writeCfg_of_ne hne hw]

end Mtsr

/-- Settles O14, by whether R335 makes the value legal. -/
theorem mtsrWritesLegalProfileValues : Obligations.MtsrWritesLegalProfileValues := by
  intro s sr rs1 hp hsr
  rw [execMtsr_eq]
  refine ⟨fun hf => by rw [if_pos hf], fun hf hrun hlegal => ?_, fun hf h => ?_⟩
  · obtain ⟨r, hr, hw⟩ := State.mtsr_of_legal hrun hsr hlegal
    exact ⟨_, by rw [if_neg (by simp [hf])], (State.writeCfg_keeps hw).1,
      State.sysRegs_writeCfg hp hr hw⟩
  · exact ⟨_, by rw [if_neg (by simp [hf]), State.mtsr_of_illegal hsr h], refused_refuse s⟩

end Sys2Proof.Machine
end

section
/-! PROOFS of the statements of 45_system_ops.md, third part: the table memories that `TRD` reads and `TWR` writes (R336,
R337), and the session that `INIT` starts and `HALT` ends (R338, R339). A legal space and index are matched with the
readings of Safety.lean once, in `table_num`. -/

namespace Sys2Proof.Machine

/-! ### The ids of the index spaces (20_memory.md R70) -/

/-- The id of an index space, in R70's table. -/
def Space.num : Space → Nat
  | .fdt => 0 | .cls => 1 | .lay => 2 | .tid => 3 | .lut => 4 | .cht => 5 | .pkt => 6

theorem Space.ofId_eq_some_iff {n : BitVec 16} {sp : Space} : Space.ofId n = some sp ↔ sp.num = n.toNat := by
  constructor
  · intro h
    unfold Space.ofId at h
    split at h <;> cases h <;> simp only [*] <;> rfl
  · intro h
    unfold Space.ofId
    rw [← h]
    cases sp <;> rfl

theorem Space.num_inj {a b : Space} : a.num = b.num ↔ a = b := by
  cases a <;> cases b <;> decide

theorem Space.exists_num {n : Nat} (h : n < 7) : ∃ sp : Space, sp.num = n := by
  interval_cases n
  exacts [⟨.fdt, rfl⟩, ⟨.cls, rfl⟩, ⟨.lay, rfl⟩, ⟨.tid, rfl⟩, ⟨.lut, rfl⟩, ⟨.cht, rfl⟩, ⟨.pkt, rfl⟩]

/-- A number that names no space is past the ids. -/
theorem Space.le_of_ofId_eq_none {n : BitVec 16} (h : Space.ofId n = none) : 7 ≤ n.toNat := by
  by_contra hlt
  obtain ⟨sp, hsp⟩ := Space.exists_num (Nat.lt_of_not_le hlt)
  rw [Space.ofId_eq_some_iff.2 hsp] at h
  cases h

/-! ### What an index holds (20_memory.md R71) -/

section Reads
variable {s : State}

/-- Word 1 of a channel entry: `INPROX` above the tool type. -/
theorem proxAndTool_eq_word (inProx : Bool) (code : BitVec 4) :
    0#27 ++ BitVec.ofBool inProx ++ code = word (code.toNat + if inProx then 16 else 0) := by
  have hcode := code.isLt
  apply BitVec.eq_of_toNat_eq
  rw [toNat_append_add, toNat_append_add, BitVec.toNat_ofNat]
  cases inProx <;> simp <;> omega

/-- The words of a channel entry, as the layout of R122 has them. -/
theorem Channel.readWord_eq (e : Channel) (k : Fin 16) : e.readWord k.val = e.tableWord k := by
  by_cases hk : k = 1
  · subst hk
    exact proxAndTool_eq_word e.inProx e.toolType.code
  · fin_cases k <;> simp [Channel.readWord, Channel.tableWord] at hk ⊢

/-- The table of a space: what `MemRead` gives below the size of the space, and nothing past it. -/
theorem State.table_num (s : State) (sp : Space) (i : Nat) :
    s.table sp.num i = if i < s.spaceSize sp then some (s.memRead sp i) else none := by
  cases sp
  case lut => simp [State.table, Space.num, State.spaceSize, State.memRead]
  case cht =>
    exact congrArg (fun w => if i < 16 * s.params.nchMax then some w else none)
      (Channel.readWord_eq _ ⟨i % 16, Nat.mod_lt i (by decide)⟩).symm
  case pkt =>
    by_cases hi : i < s.pkt.length <;> simp [State.table, Space.num, State.spaceSize, State.memRead, hi]
  all_goals rfl

theorem State.table_of_ge (s : State) {id : Nat} (h : 7 ≤ id) (i : Nat) : s.table id i = none := by
  obtain ⟨k, rfl⟩ := Nat.exists_eq_add_of_le' h
  rfl

/-! ### TRD (R336) -/

theorem execTrd_of_some {w : Word} {space : BitVec 16} {rs1 : RegNum} (rd : RegNum)
    (h : s.table space.toNat (s.reg rs1).toNat = some w) :
    exec (.trd rd rs1 space) s = .next (s.setReg rd w) := by
  show execTrd rd rs1 space s = _
  unfold execTrd
  cases hsp : Space.ofId space with
  | none => rw [s.table_of_ge (Space.le_of_ofId_eq_none hsp)] at h; cases h
  | some sp =>
    rw [← Space.ofId_eq_some_iff.1 hsp, State.table_num] at h
    obtain ⟨hi, hw⟩ := Option.ite_none_right_eq_some.1 h
    cases hw
    exact if_pos hi

theorem execTrd_of_none {space : BitVec 16} {rs1 : RegNum} (rd : RegNum)
    (h : s.table space.toNat (s.reg rs1).toNat = none) :
    exec (.trd rd rs1 space) s = .next (s.setErrCmd.setReg rd 0) := by
  show execTrd rd rs1 space s = _
  unfold execTrd
  cases hsp : Space.ofId space with
  | none => rfl
  | some sp =>
    rw [← Space.ofId_eq_some_iff.1 hsp, State.table_num] at h
    exact if_neg fun hi => by rw [if_pos hi] at h; cases h

end Reads

/-- Settles O15, by what the index of the space holds. -/
theorem trdReadsEveryTable : Obligations.TrdReadsEveryTable := by
  intro s rd rs1 space
  exact ⟨fun w h => ⟨_, execTrd_of_some rd h, .setReg s rd w⟩,
    fun h => ⟨_, execTrd_of_none rd h, .setReg s.setErrCmd rd 0⟩⟩

/-! ### TWR (R337) -/

section Writes
variable {s t : State} {sp : Space} {i : Nat} {v : Word}

/-- The host may write the spaces with the ids 0 to 3. -/
theorem State.memWrite_isSome_iff : (s.memWrite sp i v).isSome = true ↔ sp.num ≤ 3 := by
  cases sp <;> simp [State.memWrite, Space.num]

/-- Nothing but the four tables is written. -/
theorem State.memWrite_rest (h : s.memWrite sp i v = some t) :
    { t with fdt := s.fdt, cls := s.cls, lay := s.lay, tid := s.tid } = s := by
  rcases State.memWrite_cases h with ⟨_, rfl⟩ | ⟨_, rfl⟩ | ⟨_, rfl⟩ | ⟨_, rfl⟩ <;> rfl

theorem State.spaceSize_memWrite (h : s.memWrite sp i v = some t) (sp' : Space) :
    t.spaceSize sp' = s.spaceSize sp' := by
  rcases State.memWrite_cases h with ⟨_, rfl⟩ | ⟨_, rfl⟩ | ⟨_, rfl⟩ | ⟨_, rfl⟩ <;> cases sp' <;> rfl

/-- The four tables that the host may write are in canonical form. -/
structure HostTablesWf (s : State) : Prop where
  fdt : Memory.wf s.fdt = true
  cls : Memory.wf s.cls = true
  lay : Memory.wf s.lay = true
  tid : Memory.wf s.tid = true

/-- Read after write over all spaces. -/
theorem State.memRead_memWrite (hwf : HostTablesWf s) (h : s.memWrite sp i v = some t) (sp' : Space)
    (j : Nat) : t.memRead sp' j = if sp' = sp ∧ j = i then v else s.memRead sp' j := by
  rcases State.memWrite_cases h with ⟨rfl, rfl⟩ | ⟨rfl, rfl⟩ | ⟨rfl, rfl⟩ | ⟨rfl, rfl⟩
  · cases sp' <;> simp [State.memRead, Memory.read_write hwf.fdt, State.ch]
  · cases sp' <;> simp [State.memRead, Memory.read_write hwf.cls, State.ch]
  · cases sp' <;> simp [State.memRead, Memory.read_write hwf.lay, State.ch]
  · cases sp' <;> simp [State.memRead, Memory.read_write hwf.tid, State.ch]

/-- The tables after a write at a legal index: the new word there, all else as before. -/
theorem State.table_memWrite (hwf : HostTablesWf s) (hi : i < s.spaceSize sp)
    (h : s.memWrite sp i v = some t) (id j : Nat) :
    t.table id j = if id = sp.num ∧ j = i then some v else s.table id j := by
  by_cases hid : id < 7
  · obtain ⟨sp', rfl⟩ := Space.exists_num hid
    rw [State.table_num, State.table_num, State.spaceSize_memWrite h, State.memRead_memWrite hwf h]
    simp only [Space.num_inj]
    by_cases hat : sp' = sp ∧ j = i
    · obtain ⟨rfl, rfl⟩ := hat
      simp [hi]
    · simp [hat]
  · have hlt : sp.num < 7 := by cases sp <;> decide
    have hge := Nat.le_of_not_lt hid
    rw [State.table_of_ge _ hge, State.table_of_ge _ hge, if_neg (by omega)]

/-- A legal index of a space that the host may write is written. -/
theorem State.twr_of_legal {space : BitVec 16} (hid : space.toNat ≤ 3)
    (hi : (s.table space.toNat i).isSome = true) : ∃ sp : Space, sp.num = space.toNat ∧
      i < s.spaceSize sp ∧ s.memWrite sp i v = some (s.twr space i v) := by
  obtain ⟨sp, hnum⟩ := Space.exists_num (show space.toNat < 7 by omega)
  have hwritable : (s.memWrite sp i v).isSome = true := State.memWrite_isSome_iff.2 (hnum.trans_le hid)
  obtain ⟨t, hw⟩ := Option.isSome_iff_exists.1 hwritable
  have hlt : i < s.spaceSize sp := by
    by_contra hge
    rw [← hnum, State.table_num, if_neg hge] at hi
    cases hi
  exact ⟨sp, hnum, hlt, by simp [State.twr, Space.ofId_eq_some_iff.2 hnum, hlt, hw]⟩

/-- Every other target is refused. -/
theorem State.twr_of_illegal {space : BitVec 16} (h : 4 ≤ space.toNat ∨ s.table space.toNat i = none) :
    s.twr space i v = refuse s := by
  refine (s.twr_cases space i v).resolve_right fun ⟨sp, hsp, hi, hw⟩ => ?_
  have hnum := Space.ofId_eq_some_iff.1 hsp
  rcases h with hid | hnone
  · have hle := State.memWrite_isSome_iff.1 (Option.isSome_of_eq_some hw)
    omega
  · rw [← hnum, State.table_num, if_pos hi] at hnone
    cases hnone

end Writes

theorem execTwr_eq (s : State) (rv rs1 : RegNum) (space : BitVec 16) :
    exec (.twr rv rs1 space) s = .next (if s.status.fault then s else
      if s.status.run then refuse s else s.twr space (s.reg rs1).toNat (s.reg rv)) :=
  inConfig_eq s fun s => s.twr space (s.reg rs1).toNat (s.reg rv)

/-- Settles O16, by whether the target is one that R337 lets the host write. -/
theorem twrStoresOneWord : Obligations.TwrStoresOneWord := by
  intro s rv rs1 space hfdt hcls hlay htid
  rw [execTwr_eq]
  refine ⟨fun hf => by rw [if_pos hf], fun hf hrun hid hi => ?_, fun hf h => ?_⟩
  · obtain ⟨sp, hnum, hlt, hw⟩ := State.twr_of_legal (v := s.reg rv) hid hi
    refine ⟨_, by rw [if_neg (by simp [hf]), if_neg (by simp [hrun])], State.memWrite_rest hw, ?_⟩
    rw [← hnum]
    exact State.table_memWrite ⟨hfdt, hcls, hlay, htid⟩ hlt hw
  · refine ⟨refuse s, ?_, refused_refuse s⟩
    rw [if_neg (by simp [hf])]
    split
    · rfl
    · next hrun => rw [State.twr_of_illegal (h.resolve_left hrun)]

/-! ### The session that `INIT` starts (R338) -/

/-- `s` with a channel table of empty entries. -/
def State.withEmptyChannels (s : State) : State :=
  { s with cht := List.replicate s.params.nchMax Channel.empty }

theorem State.withEmptyChannels_ch (s : State) (c : Nat) : s.withEmptyChannels.ch c = Channel.empty := by
  simp only [State.ch, State.withEmptyChannels, List.getD_eq_getElem?_getD, List.getElem?_replicate]
  split <;> rfl

/-- `INIT` empties the channel table, and then sets the entry of the pad if there is one. -/
theorem State.initSession_cht (s : State) :
    s.initSession.cht = (if s.hasPad then s.withEmptyChannels.setCh s.nch.toNat Channel.padEntry
      else s.withEmptyChannels).cht := by
  simp only [State.initSession, State.initCht]
  split <;> rfl

theorem State.initSession_cht_length (s : State) : s.initSession.cht.length = s.params.nchMax := by
  rw [State.initSession_cht]
  split <;> simp [State.withEmptyChannels]

/-- Only the entry of the pad is not empty. -/
theorem State.initSession_ch_of_not_pad (s : State) {c : Nat} (h : ¬ (s.hasPad = true ∧ c = s.nch.toNat)) :
    s.initSession.ch c = Channel.empty := by
  rw [State.ch_congr s.initSession_cht]
  split
  · next hpad => rw [State.ch_setCh_of_ne _ fun hc => h ⟨hpad, hc⟩, State.withEmptyChannels_ch]
  · exact s.withEmptyChannels_ch c

/-- The entry of the pad, where the table has room for it. -/
theorem State.initSession_ch_pad (s : State) (hpad : s.hasPad = true) (hroom : s.nch.toNat < s.params.nchMax) :
    s.initSession.ch s.nch.toNat = Channel.padEntry := by
  rw [State.ch_congr s.initSession_cht, if_pos hpad]
  exact State.ch_setCh_self _ (by simpa [State.withEmptyChannels] using hroom) _

/-- Settles O17, by whether R338 refuses the command. -/
theorem initStartsASession : Obligations.InitStartsASession := by
  intro s
  rw [execInit_eq]
  refine ⟨fun hf => by rw [if_pos hf], fun hf hmissing => ?_, fun hf hplen hmask => ?_⟩
  · exact ⟨_, by rw [if_neg (by simp [hf]), if_pos (s.initRefused_iff.2 hmissing)], refused_refuse s⟩
  · have hok : ¬ s.initRefused = true := fun h => (s.initRefused_iff.1 h).elim hplen hmask
    have hstatus : s.initSession.status = { curveValid := s.status.curveValid, run := true } := by
      simp [State.initSession, Status.afterInit, hf]
    exact ⟨s.initSession, by rw [if_neg (by simp [hf]), if_neg hok], s.initSession_cht_length,
      fun _ => s.initSession_ch_of_not_pad, s.initSession_ch_pad, rfl, rfl, rfl, rfl, rfl, hstatus, rfl⟩

/-! ### HALT (R339) -/

/-- `s` with `RUN` 0. -/
def State.haltSession (s : State) : State := { s with status := { s.status with run := false } }

theorem execHalt_eq (s : State) : exec .halt s = .next (if s.status.fault then s else s.haltSession) :=
  inAnyState_eq s State.haltSession

/-- In CONFIG there is no session to halt. -/
theorem State.haltSession_of_config {s : State} (hrun : s.status.run = false) : s.haltSession = s := by
  have hstatus : { s.status with run := false } = s.status := by rw [← hrun]
  rw [State.haltSession, hstatus]

/-- Settles O18: the commands of the RUN state are held back in the state that HALT leaves. -/
theorem haltStopsDecoding : Obligations.HaltStopsDecoding := by
  intro s
  rw [execHalt_eq]
  refine ⟨fun hf => by rw [if_pos hf], fun hf => ⟨s.haltSession, by rw [if_neg (by simp [hf])], rfl, rfl,
    State.haltSession_of_config, fun i hneed => ⟨_, ?_, refused_refuse _⟩⟩⟩
  exact (exec_heldBack hneed s.haltSession).refusedInConfig hf rfl rfl

end Sys2Proof.Machine
end

section
/-! PROOFS of the statements of 60_exceptions.md: what a command word can do in the fault state (R366), that only
hardware reset leaves it (R367), and that a command other than PUMP which faults has no other effect (R364, R368). -/

namespace Sys2Proof.Machine

/-! ### Command words in the fault state (R366) -/

/-- `t` is `s` but for the operand registers and `ERR_CMD`: all that a command may change in the fault state. -/
def Inspects (s t : State) : Prop :=
  { t with x := s.x, status := { t.status with errCmd := s.status.errCmd } } = s

section Inspects
variable {s t : State}

theorem Inspects.refl (s : State) : Inspects s s := rfl

theorem Inspects.setErrCmd (s : State) : Inspects s s.setErrCmd := rfl

theorem Inspects.setReg (h : Inspects s t) (rd : RegNum) (v : Word) : Inspects s (t.setReg rd v) := h

theorem Inspects.fault (h : Inspects s t) : t.status.fault = s.status.fault := by
  have hview := congrArg (fun u => u.status.fault) h
  exact hview

theorem Inspects.illegalWord (op : BitVec 8) (s : State) : Inspects s (illegalWord op s) := by
  rcases illegalWord_eq op s with ⟨h, _⟩ | ⟨h, _⟩ <;> rw [h]
  · exact .refl s
  · exact .setErrCmd s

end Inspects

theorem execMfsr_inspects (rd : RegNum) (sr : BitVec 16) (s : State) :
    ∃ t, execMfsr rd sr s = .next t ∧ Inspects s t := by
  unfold execMfsr
  split
  · exact ⟨_, rfl, (Inspects.refl s).setReg rd _⟩
  · exact ⟨_, rfl, (Inspects.setErrCmd s).setReg rd _⟩

theorem execTrd_inspects (rd rs1 : RegNum) (space : BitVec 16) (s : State) :
    ∃ t, execTrd rd rs1 space s = .next t ∧ Inspects s t := by
  have hrefused : Inspects s (s.setErrCmd.setReg rd 0) := (Inspects.setErrCmd s).setReg rd 0
  unfold execTrd
  split
  · split
    · exact ⟨_, rfl, (Inspects.refl s).setReg rd _⟩
    · exact ⟨_, rfl, hrefused⟩
  · exact ⟨_, rfl, hrefused⟩

/-- The five commands of every state (R381) write registers and `ERR_CMD` only, in the fault state or not. -/
theorem exec_inspects_of_every {i : Instr} (h : i.need = some .every) (s : State) :
    ∃ t, exec i s = .next t ∧ Inspects s t := by
  cases i with
  | nop => exact ⟨s, rfl, .refl s⟩
  | li rd imm => exact ⟨_, rfl, (Inspects.refl s).setReg rd _⟩
  | lui rd imm => exact ⟨_, rfl, (Inspects.refl s).setReg rd _⟩
  | mfsr rd sr => exact execMfsr_inspects rd sr s
  | trd rd rs1 space => exact execTrd_inspects rd rs1 space s
  | mtsr sr rs1 => exact absurd (Option.some.inj h) (by split <;> nofun)
  | _ => cases h

/-- Only the packet-pattern row has no operating state, and as a command it is an illegal word (R123). -/
theorem exec_inspects_of_no_need {i : Instr} (h : i.need = none) (s : State) :
    ∃ t, exec i s = .next t ∧ Inspects s t := by
  cases i with
  | pktP45Enter low => exact ⟨_, rfl, .illegalWord _ s⟩
  | _ => cases h

/-- In the fault state a command inspects, or is ignored. -/
theorem exec_inspects {s : State} (hf : s.status.fault = true) (i : Instr) :
    ∃ t, exec i s = .next t ∧ Inspects s t := by
  cases hneed : i.need with
  | none => exact exec_inspects_of_no_need hneed s
  | some n =>
    by_cases hn : n = .every
    · exact exec_inspects_of_every (hn ▸ hneed) s
    · exact ⟨s, (exec_heldBack hneed s).ignored hf hn, .refl s⟩

theorem commandStep_inspects {s : State} (hf : s.status.fault = true) (w : Word) :
    ∃ t, commandStep w s = .next t ∧ Inspects s t := by
  cases hd : decode w with
  | ok i =>
    rw [commandStep_of_ok hd]
    exact exec_inspects hf i
  | error e => exact ⟨_, commandStep_of_error hd s, .illegalWord _ s⟩

theorem step_inspects {s t : State} {w : Word} {rest : List HostInput} (hf : s.status.fault = true)
    (hin : s.input = .command w :: rest) (h : step s = .next t) : Inspects { s with input := rest } t := by
  obtain ⟨u, hu, hinspects⟩ := commandStep_inspects (s := { s with input := rest }) hf w
  rw [step_of_command hin, hu] at h
  cases h
  exact hinspects

/-- The opcodes that pass step 1 of R101 in the fault state are those of the commands of every state. -/
theorem exists_need_of_opcode {i : Instr} (h : i.opcode ∉ [0, 1, 2, 3, 5]) :
    ∃ n, i.need = some n ∧ n ≠ .every := by
  cases i with
  | nop | li | lui | mfsr | trd | pktP45Enter => exact absurd (by simp [Instr.opcode, Instr.rowMatch]) h
  | mtsr sr rs1 => exact ⟨_, rfl, by split <;> nofun⟩
  | _ => exact ⟨_, rfl, nofun⟩

/-- Every word whose opcode is no inspection opcode is ignored in the fault state (R101, step 1). -/
theorem commandStep_ignored {s : State} {w : Word} (hf : s.status.fault = true)
    (hop : w.toNat / 2 ^ 24 ∉ [0, 1, 2, 3, 5]) : commandStep w s = .next s := by
  cases hd : decode w with
  | ok i =>
    obtain ⟨n, hneed, hn⟩ := exists_need_of_opcode (i := i) (by rwa [decode_opcode hd])
    rw [commandStep_of_ok hd, (exec_heldBack hneed s).ignored hf hn]
  | error e =>
    rw [commandStep_of_error hd, illegalWord_of_ignored hf ((inspectionOp_eq_false_iff w).2 hop)]

/-- Settles O9: a word inspects, is ignored by its opcode, or is an illegal word of an inspection opcode. -/
theorem faultStateKeepsTheEvidence : Obligations.FaultStateKeepsTheEvidence := by
  intro s w rest t hf hin h
  refine ⟨?_, fun hop => ?_, fun hop ⟨e, he⟩ => ?_⟩
  · exact congrArg (fun u : State => { u with input := s.input }) (step_inspects hf hin h)
  · rw [step_of_command hin, commandStep_ignored (s := { s with input := rest }) hf hop] at h
    cases h
    rfl
  · obtain ⟨u, hu, hrefused⟩ := (illegalWordsAreRefused s w rest e hin he).2 (.inr hop)
    rw [h] at hu
    cases hu
    exact hrefused

/-! ### Leaving the fault state (R367) -/

/-- Settles O10, by the host's next input: without one the block waits, and a command word inspects. -/
theorem onlyResetLeavesTheFaultState : Obligations.OnlyResetLeavesTheFaultState := by
  intro s t hf h
  match hin : s.input with
  | [] =>
    rw [step_of_no_input hin] at h
    cases h
    simp [hf]
  | .reset x :: rest =>
    rw [step_of_reset hin] at h
    cases h
    exact ⟨fun _ => ⟨x, rest, rfl⟩, fun _ => rfl⟩
  | .command w :: rest =>
    have hkept : t.status.fault = s.status.fault := (step_inspects hf hin h).fault
    simp [hkept, hf]

/-! ### What leaves `FAULT` as it was -/

theorem fault_of_faultRecord {s t : State} (h : t.faultRecord = s.faultRecord) :
    t.status.fault = s.status.fault :=
  congrArg Prod.fst h

theorem Quiet.fault_eq {s t : State} (h : Quiet s t) : t.status.fault = s.status.fault := by
  cases h with
  | mk _ _ hfault => exact hfault

theorem State.mtsr_fault (s : State) (sr : BitVec 16) (v : Word) :
    (s.mtsr sr v).status.fault = s.status.fault := by
  rcases s.mtsr_cases sr v with h | h | ⟨_, _, hw⟩
  · rw [h]; rfl
  · rw [h]; rfl
  · exact fault_of_faultRecord (State.writeCfg_keeps hw).1.faultRecord

theorem State.twr_fault (s : State) (space : BitVec 16) (i : Nat) (v : Word) :
    (s.twr space i v).status.fault = s.status.fault := by
  rcases s.twr_cases space i v with h | ⟨_, _, _, hw⟩
  · rw [h]; rfl
  · rcases State.memWrite_cases hw with ⟨_, h⟩ | ⟨_, h⟩ | ⟨_, h⟩ | ⟨_, h⟩ <;> rw [h]

theorem State.feedByte_fault (s : State) (b : Byte) : (s.feedByte b).status.fault = s.status.fault := by
  unfold State.feedByte
  split <;> rfl

theorem init_fault (s : State) :
    (if s.initRefused then refuse s else s.initSession).status.fault = s.status.fault := by
  split <;> rfl

theorem decodeOne_fault {s t : State} {w : Word} (h : s.decodeOne = .ok (t, w)) :
    t.status.fault = s.status.fault :=
  fault_of_faultRecord (PacketStep.decode trivial h).keepsControl.faultRecord

/-! ### Faults are precise (R364, R368) -/

/-- The commands but PUMP that raise a fault. -/
def MayRaise (i : Instr) : Prop :=
  (∃ rd fid, i = .rdfld rd fid) ∨ (∃ rd a b, i = .apply rd a b) ∨ ∃ rd, i = .decode rd

/-- `FAULT` is as it was in `s`; or, where `raises` allows it, a fault with a cause is taken in `s` itself. -/
inductive Precise (raises : Prop) (s : State) : State → Prop
  | kept {t : State} : t.status.fault = s.status.fault → Precise raises s t
  | fault {e : Raise} : raises → e.cause ≠ .none → Precise raises s (takeFault e s)

section Precise
variable {raises : Prop} {s : State}

/-- The end of a command that may raise: the fault is taken in the state the command began in. -/
theorem Precise.finish {rd : RegNum} {r : Except Raise (State × Word)} (hr : raises) (hcause : RaisesCause r)
    (hok : ∀ t v, r = .ok (t, v) → t.status.fault = s.status.fault) :
    Precise raises s (finish s rd r) := by
  match r with
  | .error e => exact .fault hr (hcause e rfl)
  | .ok (t, v) => exact .kept (hok t v rfl)

theorem Precise.finish_value (rd : RegNum) {r : Except Raise Word} (hr : raises) (hcause : RaisesCause r) :
    Precise raises s (Machine.finish s rd (r.map fun v => (s, v))) := by
  refine .finish hr (hcause.map _) fun t v h => ?_
  match r with
  | .error _ => cases h
  | .ok _ => cases h; rfl

theorem precise_of_inspects {o : Out} (h : ∃ t, o = .next t ∧ Inspects s t) :
    ∃ t, o = .next t ∧ Precise raises s t := by
  obtain ⟨t, ht, hinspects⟩ := h
  exact ⟨t, ht, .kept hinspects.fault⟩

/-- The command step's checks (R101) raise no fault. -/
theorem whenState_precise {ok : State → Bool} {k : State → State} (hk : Precise raises s (k s)) :
    ∃ t, whenState ok s k = .next t ∧ Precise raises s t := by
  refine ⟨_, whenState_eq ok s k, ?_⟩
  split
  · exact .kept rfl
  · split
    · exact hk
    · exact .kept rfl

theorem execChfor_precise (rd rs1 : RegNum) (mode : BitVec 16) (s : State) :
    ∃ t, execChfor rd rs1 mode s = .next t ∧ Precise raises s t := by
  unfold execChfor
  split
  · apply whenState_precise
    exact .kept (Quiet.channelFor s _ mode).fault_eq
  · exact ⟨_, rfl, .kept (Inspects.illegalWord _ s).fault⟩

end Precise

/-- Every command but PUMP is precise. -/
theorem exec_precise {i : Instr} (hpump : ∀ rd, i ≠ .pump rd) (s : State) :
    ∃ t, exec i s = .next t ∧ Precise (MayRaise i) s t := by
  cases i with
  | nop | li | lui | mfsr | trd => exact precise_of_inspects (exec_inspects_of_every rfl s)
  | mtsr sr rs1 => apply whenState_precise; exact .kept (s.mtsr_fault sr _)
  | twr rv rs1 space => apply whenState_precise; exact .kept (s.twr_fault space _ _)
  | init => apply whenState_precise; exact .kept (init_fault s)
  | halt | build => apply whenState_precise; exact .kept rfl
  | rdfld rd fid =>
    apply whenState_precise
    exact .finish_value rd (.inl ⟨rd, fid, rfl⟩) (s.readField_raises _)
  | apply rd rs1 rs2 =>
    apply whenState_precise
    exact .finish_value rd (.inr (.inl ⟨rd, rs1, rs2, rfl⟩)) (s.curve_raises _ _ _)
  | enter rd rs1 rs2 => apply whenState_precise; exact .kept (Commits.enterTool s _ _).fault
  | exit rs1 => apply whenState_precise; exact .kept (Commits.exitTool s _).fault
  | chfor rd rs1 mode => exact execChfor_precise rd rs1 mode s
  | feed | feedr => apply whenState_precise; exact .kept (s.feedByte_fault _)
  | nextpkt rd => apply whenState_precise; exact .kept (Fetches.nextPacket s).fault
  | decode rd =>
    apply whenState_precise
    exact .finish (.inr (.inr ⟨rd, rfl⟩)) s.decodeOne_raises fun _ _ => decodeOne_fault
  | pump rd => exact absurd rfl (hpump rd)
  | pktP45Enter low => exact precise_of_inspects (exec_inspects_of_no_need rfl s)

/-- Settles O48: `FAULT` was 0 and is 1, so the command did not keep it. -/
theorem faultsArePrecise : Obligations.FaultsArePrecise := by
  intro i s t hpump hf h hfault
  obtain ⟨u, hu, hprecise⟩ := exec_precise hpump s
  rw [h] at hu
  cases hu
  cases hprecise with
  | kept hkept => exact absurd (hkept.symm.trans hfault) (by simp [hf])
  | @fault e hraises hcause => exact ⟨⟨e.cause, e.info, hcause, rfl⟩, hraises⟩

end Sys2Proof.Machine
end
